-- ==== Sys2Proof/Word.lean ====
section
/-! DEFINITION. The widths of the block's data (spec/10_state.md R20, R26 to R32) and their plainest
conversions. -/

namespace Sys2Proof

/-- One byte of a stream (spec/20_memory.md R60). -/
abbrev Byte := BitVec 8

/-- A 32-bit register or count (spec/00_scope.md R7, `COUNT_W`). -/
abbrev Word := BitVec 32

/-- A Symbol: "an integer code point in [0, 127]" (spec/00_scope.md R5), 7 bits as an index
(spec/10_state.md R26). -/
abbrev Symbol := BitVec 7

/-- A node reference: "an 8-bit index into this store, or `NIL`" (spec/10_state.md R29). -/
abbrev NodeRef := BitVec 8

/-- A bit sequence, element 0 the first written and the first read (spec/00_scope.md section 6). -/
abbrev Bits := List Bool

/-- `zext_8` of a Symbol: the byte that holds it. -/
abbrev Symbol.byte (s : Symbol) : Byte := s.setWidth 8

/-- The Symbol of a byte below 128 (its low 7 bits). -/
abbrev symbolOf (b : Byte) : Symbol := b.setWidth 7

end Sys2Proof
end

