-- ==== Sys2Proof/Config.lean ====
section
/-! DEFINITION. The constants of the hardware (spec/00_scope.md R5 to R7). None is a model argument,
and the spec leaves no result of an operation open, so there is no free value. -/

namespace Sys2Proof.Config

/-- The alphabet size `R = 128` (spec/00_scope.md R5). -/
abbrev alphabetSize : Nat := 128

/-- The sentinel `SENT = 128` that marks an internal node (spec/00_scope.md R5). -/
abbrev sentinel : Byte := 128#8

/-- `HEAP_CAP` (spec/00_scope.md R6). -/
abbrev heapCap : Nat := 128

/-- `NODE_CAP` (spec/00_scope.md R7). -/
abbrev nodeCap : Nat := 255

/-- `STACK_CAP` (spec/00_scope.md R7). -/
abbrev stackCap : Nat := 128

/-- `SER_CAP` (spec/00_scope.md R7). -/
abbrev serCap : Nat := 255

/-- `CODE_MAX`: the longest code, and so the greatest depth of a leaf (spec/00_scope.md R7). -/
abbrev codeMax : Nat := 127

/-- `COUNT_MAX` = 2^31 - 1 (spec/00_scope.md R7). -/
abbrev countMax : Word := 0x7FFFFFFF#32

/-- `NIL`: "no node" in an 8-bit node reference (spec/00_scope.md R7). -/
abbrev nil : NodeRef := 255#8

/-- The last sequence number: PQ.INSERT refuses when `SEQ` has reached it
(spec/42_priority_queue.md R162). -/
abbrev seqMax : BitVec 8 := 255#8

end Sys2Proof.Config
end

