-- ==== Sys2Proof/Syntax.lean ====
section
/-! DEFINITION. The operations of spec/30_encoding.md R101 (one constructor per row of
spec/opcode_table.json), with the operands of R103, and the bus transfer that carries one. -/

namespace Sys2Proof

/-- One operation of one unit (spec/00_scope.md section 1: what stands for an instruction).
Operands are those of spec/30_encoding.md R103. -/
inductive Instr where
  /-- 0x01, spec/44_codec.md R215. -/
  | encode
  /-- 0x02, spec/44_codec.md R219. -/
  | decode
  /-- 0x03, spec/44_codec.md R210. -/
  | codecFcount
  /-- 0x04, spec/44_codec.md R211. -/
  | codecWheader
  /-- 0x05, spec/44_codec.md R214. -/
  | codecWpayload
  /-- 0x06, spec/44_codec.md R212. -/
  | codecRheader
  /-- 0x07, spec/44_codec.md R213. -/
  | codecWalk
  /-- 0x10, spec/40_bitsink.md R120; `bits` is a sequence of 0 to 127 bits, first bit first. -/
  | snkWbits (bits : Bits)
  /-- 0x11, spec/40_bitsink.md R121; `v` is 32 bits, two's complement. -/
  | snkWint (v : Word)
  /-- 0x12, spec/40_bitsink.md R122. -/
  | snkWstr
  /-- 0x13, spec/40_bitsink.md R123. -/
  | snkClose
  /-- 0x20, spec/41_bitsource.md R140. -/
  | srcRbit
  /-- 0x21, spec/41_bitsource.md R141. -/
  | srcRint
  /-- 0x22, spec/41_bitsource.md R142. -/
  | srcRstr
  /-- 0x23, spec/41_bitsource.md R143. -/
  | srcClose
  /-- 0x30, spec/42_priority_queue.md R162; `key` is unsigned, `payload` a node index. -/
  | pqInsert (key : Word) (payload : NodeRef)
  /-- 0x31, spec/42_priority_queue.md R163. -/
  | pqDelmin
  /-- 0x32, spec/42_priority_queue.md R164. -/
  | pqPeek
  /-- 0x33, spec/42_priority_queue.md R165. -/
  | pqIsempty
  /-- 0x34, spec/42_priority_queue.md R166. -/
  | pqIsfull
  /-- 0x35, spec/42_priority_queue.md R167. -/
  | pqSize
  /-- 0x40, spec/43_huffman_tree.md R181. -/
  | htBuild
  /-- 0x41, spec/43_huffman_tree.md R182. -/
  | htGencodes
  /-- 0x42, spec/43_huffman_tree.md R184. -/
  | htSer
  /-- 0x43, spec/43_huffman_tree.md R185. -/
  | htDeser
  deriving DecidableEq, Repr

/-- One transfer on a unit bus: the 8-bit code and, beside it, the operand ports of
spec/30_encoding.md R103 ("each operation's operands and results travel on operand ports beside the
code", R100). The ports an operation does not use are not looked at.
DESIGN CHOICE, safe (log 4): R103 gives the widths and not the arrangement of the ports. -/
structure Transfer where
  /-- The operation code `OP` (R100). -/
  op : BitVec 8
  /-- SNK.WBITS: the number of bits, "a 7-bit count". -/
  len : BitVec 7
  /-- SNK.WBITS: "up to 127 bits, first bit first": line `i` carries element `i` of the sequence. -/
  bits : BitVec 127
  /-- SNK.WINT: `v`; PQ.INSERT: `key`. -/
  word : Word
  /-- PQ.INSERT: `payload`. -/
  node : NodeRef
  deriving DecidableEq, Repr

end Sys2Proof
end

