-- ==== Sys2Proof/Machine/State.lean ====
section
/-! DEFINITION. The state of the block (spec/10_state.md) and of the host's side of its ports
(spec/20_memory.md R60, spec/92_eei_decisions.md P1 to P3), the reset state (R39), and the reasons for
which a step stops. -/

namespace Sys2Proof.Machine

/-- The values of the register `PHASE` (spec/10_state.md R22). -/
inductive Phase where
  | idle | eCount | eBuild | eCodes | eHeader | ePayload | eClose
  | dHeader | dWalk | dClose | done | failed
  deriving DecidableEq, Repr

/-- The values of the register `ERR` (spec/60_exceptions.md R240): "a model's error type has ten
values" (spec/93_implementation_defined.md V-R6). -/
inductive ErrKind where
  | none | ioError | malformedTree | endOfStream | symbolRange | countOverflow | badCount
  | precondition | replayMismatch | illegalCommand
  deriving DecidableEq, Repr

/-- One heap slot: `HKEY`, `HSEQ`, `HPAY` (spec/10_state.md R28), which "always move together". -/
structure HeapEntry where
  key : Word
  seq : BitVec 8
  pay : NodeRef
  deriving DecidableEq, Repr

/-- One entry of the node store (spec/10_state.md R29), in the tagged form that R29 leaves a model
free to use (log 13). -/
inductive Node where
  /-- `NSYM` a Symbol, `NLEFT` = `NRIGHT` = `NIL`. -/
  | leaf (sym : Symbol)
  /-- `NSYM` = 128, with its two children. -/
  | branch (left right : NodeRef)
  deriving DecidableEq, Repr

/-- What the result port carries (spec/30_encoding.md R103). -/
inductive Result where
  /-- The operation has no result (for ENCODE and DECODE the result is the register STATUS). -/
  | none
  /-- SRC.RBIT: 1 bit. -/
  | bit (b : Bool)
  /-- SRC.RINT: 32 bits. -/
  | word (v : Word)
  /-- PQ.DELMIN: 8-bit node index. -/
  | node (n : NodeRef)
  /-- PQ.PEEK: 32-bit key. -/
  | key (k : Word)
  /-- PQ.ISEMPTY, PQ.ISFULL: 1 bit. -/
  | flag (b : Bool)
  /-- PQ.SIZE: 8 bits. -/
  | size (n : BitVec 8)
  deriving DecidableEq, Repr

/-- What `SrcNext()` returns (spec/20_memory.md R60). -/
inductive SrcReply where
  | byte (b : Byte)
  | eof
  | fail
  deriving DecidableEq, Repr

/-- One answered port call (spec/20_memory.md R60); `ok` is false when the call returned `Fail`. -/
inductive PortEvent where
  | srcNext (r : SrcReply)
  | srcRewind (ok : Bool)
  | srcRelease (ok : Bool)
  | snkPut (b : Byte) (ok : Bool)
  | snkClose (ok : Bool)
  deriving DecidableEq, Repr

/-- What the host does with one port call (log 1). -/
inductive PortAnswer where
  /-- The call succeeds. -/
  | ok
  /-- The call returns `Fail` (spec/92_eei_decisions.md P2). -/
  | fail
  /-- The call is never answered (spec/93_implementation_defined.md U27). -/
  | never
  /-- Reset is applied while the block waits for the answer (spec/70_reset_and_hazards.md R271). -/
  | reset
  deriving DecidableEq, Repr

/-- The host's side of the ports: no state of the block (spec/10_state.md R37) but a parameter of its
behaviour, held here as plain data (log 1). -/
structure Env where
  /-- The bytes `SrcNext()` still delivers before `End` (P1). -/
  src : List Byte
  /-- The bytes `SrcNext()` delivers after `SrcRewind()` (P3). -/
  replay : List Byte
  /-- What happens to the coming port calls, first call first (P2); when the list is empty every
  further call succeeds. -/
  answers : List PortAnswer
  /-- The port calls answered since the streams were attached, oldest first. -/
  log : List PortEvent
  deriving DecidableEq, Repr

/-- What the outside presents to the block at one step (log 2). -/
inductive Stimulus where
  /-- Nothing: the sequencer goes on. -/
  | quiet
  /-- A code on the caller's command port (spec/30_encoding.md R102). -/
  | command (op : BitVec 8)
  /-- An operation on the unit buses, driven by a test harness (spec/00_scope.md R9, log 3). -/
  | issue (t : Transfer)
  /-- Reset (spec/70_reset_and_hazards.md R270, R271). -/
  | reset
  /-- The host attaches a byte source (with its replay and its failures) and an empty byte sink
  (spec/70_reset_and_hazards.md R273). -/
  | attach (src replay : List Byte) (answers : List PortAnswer)
  deriving DecidableEq, Repr

/-- The whole state. Arrays hold their in-use elements and nothing else, so the counters that bound
them (`HSIZE`, `NNODES`, `SP`, `SERLEN`, `CLEN[s]`) are lengths (spec/10_state.md R38, log 8). -/
structure State where
  /-- `TOTAL` (R20, R36). -/
  total : Word
  /-- `REMAIN` (R20, R36). -/
  remain : Word
  /-- `CURSOR` (R20). -/
  cursor : NodeRef
  /-- `ROOT` (R20). -/
  root : NodeRef
  /-- `SEQ` (R20, R33). -/
  seq : BitVec 8
  /-- `WBUF` (R34). -/
  wbuf : BitVec 8
  /-- `WCNT` (R34). -/
  wcnt : BitVec 4
  /-- `SCLOSED` (R20). -/
  sclosed : Bool
  /-- `RBUF` (R35). -/
  rbuf : BitVec 8
  /-- `RCNT` (R35). -/
  rcnt : BitVec 4
  /-- `RCLOSED` (R20). -/
  rclosed : Bool
  /-- `PHASE` (R22). -/
  phase : Phase
  /-- `ERR` (R24). -/
  err : ErrKind
  /-- `FREQ[0..127]` (R26). -/
  freq : Vector Word 128
  /-- `CODE[0..127]`: `CBITS[s]`, whose length is `CLEN[s]`; empty means "no code" (R27). -/
  code : Vector Bits 128
  /-- Heap slots `1..HSIZE` (R28): slot `i` is element `i - 1`. -/
  heap : List HeapEntry
  /-- Node store entries `0..NNODES-1` (R29). -/
  nodes : List Node
  /-- The deserialisation stack (R31), most recently pushed first: `STK[SP-1]` is the head. -/
  stk : List NodeRef
  /-- `SER[0..SERLEN-1]` (R32). -/
  ser : List Byte
  /-- The result port (spec/30_encoding.md R103, log 11). -/
  result : Result
  /-- The host's side of the ports (log 1). -/
  env : Env
  /-- What the outside presents at the coming steps, first step first (log 2). -/
  stim : List Stimulus
  deriving DecidableEq, Repr

/-- Why the machine stops. No error kind of the block is among these: those are taken
(spec/60_exceptions.md R252) and the machine goes on. -/
inductive Fault where
  /-- Raised by every operation that makes a port call, when the host never answers it: "the
  invocation never ends" (spec/70_reset_and_hazards.md R274, U27: `stuck`). Safe (log 6). -/
  | unanswered
  /-- Raised by a read of an array element that holds no value: "A model should give such a read no
  value (a fault of the model), not zero" (spec/10_state.md R38). Raised by HT.GENCODES, HT.SER and
  CODEC.WALK only, in states that no run reaches. Safe (log 8). -/
  | noValue
  /-- Raised by HT.GENCODES and HT.SER when the nodes under `ROOT` go deeper than the 127 levels a
  tree can have (spec/10_state.md R30, spec/43_huffman_tree.md R187), in states that no run reaches.
  Safe (log 9). -/
  | notATree
  /-- Raised when a loop of the model passes the bound that its recursion needs. Never happens
  (log 9). Safe. -/
  | loopBound
  deriving DecidableEq, Repr

/-- Why the machine has no meaning for what it is given. -/
inductive Refusal where
  /-- Raised by an arm of `exec` whose operation has no meaning yet; no arm uses it. -/
  | notModelled (mnemonic : String)
  /-- Raised by a step that is given a transfer with one of the 231 unassigned codes on a unit bus,
  which "cannot occur there" (spec/30_encoding.md R102, V-R5). Safe (log 12). -/
  | unassignedCode (op : BitVec 8)
  /-- Raised by a step in which the host attaches streams while the block is busy: "In one invocation
  there is one byte source and one byte sink" (spec/20_memory.md R60). Safe (log 2). -/
  | streamsInUse
  deriving DecidableEq, Repr

/-- No streams attached, every call succeeding (DESIGN CHOICE, log 1). -/
def Env.empty : Env := { src := [], replay := [], answers := [], log := [] }

/-- The machine right after power-on reset: the column "after power-on reset" of spec/10_state.md R39,
the host's side empty (log 1) and nothing presented (log 2). -/
def State.reset : State where
  total := 0
  remain := 0
  cursor := Config.nil
  root := Config.nil
  seq := 0
  wbuf := 0
  wcnt := 0
  sclosed := false
  rbuf := 0
  rcnt := 0
  rclosed := false
  phase := .idle
  err := .none
  freq := Vector.replicate 128 0
  code := Vector.replicate 128 []
  heap := []
  nodes := []
  stk := []
  ser := []
  result := .none
  env := Env.empty
  stim := []

end Sys2Proof.Machine
end

