-- ==== Sys2Proof/Machine/Flags.lean ====
section
/-! DEFINITION. The counters that are lengths, the condition flags (spec/10_state.md R25), the codes of
`PHASE` and `ERR` (R22, spec/60_exceptions.md R240) and the register `STATUS` (R23). -/

namespace Sys2Proof.Machine

/-- `HSIZE`: "number of heap entries" (spec/10_state.md R20). -/
def State.hsize (s : State) : BitVec 8 := BitVec.ofNat 8 s.heap.length

/-- `NNODES`: "number of node-store entries in use; next free index" (spec/10_state.md R20). -/
def State.nnodes (s : State) : BitVec 8 := BitVec.ofNat 8 s.nodes.length

/-- `SP`: "number of entries on the deserialisation stack" (spec/10_state.md R20). -/
def State.sp (s : State) : BitVec 8 := BitVec.ofNat 8 s.stk.length

/-- `SERLEN`: "number of entries in the serialized-tree buffer" (spec/10_state.md R20). -/
def State.serlen (s : State) : BitVec 8 := BitVec.ofNat 8 s.ser.length

/-- `PQ_EMPTY` (spec/10_state.md R25). -/
def State.pqEmpty (s : State) : Bool := decide (s.heap.length = 0)

/-- `PQ_FULL` (spec/10_state.md R25). -/
def State.pqFull (s : State) : Bool := decide (s.heap.length = Config.heapCap)

/-- The value column of spec/10_state.md R22. -/
def Phase.code : Phase → BitVec 4
  | .idle => 0
  | .eCount => 1
  | .eBuild => 2
  | .eCodes => 3
  | .eHeader => 4
  | .ePayload => 5
  | .eClose => 6
  | .dHeader => 8
  | .dWalk => 9
  | .dClose => 10
  | .done => 14
  | .failed => 15

/-- The code column of spec/60_exceptions.md R240. -/
def ErrKind.code : ErrKind → BitVec 4
  | .none => 0
  | .ioError => 1
  | .malformedTree => 2
  | .endOfStream => 3
  | .symbolRange => 4
  | .countOverflow => 5
  | .badCount => 6
  | .precondition => 7
  | .replayMismatch => 8
  | .illegalCommand => 9

/-- An ENCODE is running: `PHASE` is one of 1..6. -/
def Phase.encoding : Phase → Bool
  | .eCount | .eBuild | .eCodes | .eHeader | .ePayload | .eClose => true
  | .idle | .dHeader | .dWalk | .dClose | .done | .failed => false

/-- A DECODE is running: `PHASE` is one of 8..10. -/
def Phase.decoding : Phase → Bool
  | .dHeader | .dWalk | .dClose => true
  | .idle | .eCount | .eBuild | .eCodes | .eHeader | .ePayload | .eClose | .done | .failed => false

/-- `BUSY`: "1 iff `PHASE` is one of 1..6, 8..10" (spec/10_state.md R23). -/
def State.busy (s : State) : Bool := s.phase.encoding || s.phase.decoding

/-- `DONE`: "1 iff `PHASE` = 14" (spec/10_state.md R23). -/
def State.done (s : State) : Bool := decide (s.phase = .done)

/-- `FAIL`: "1 iff `PHASE` = 15" (spec/10_state.md R23). -/
def State.failed (s : State) : Bool := decide (s.phase = .failed)

/-- `STATUS` (spec/10_state.md R23): 15:11 zero, 10 `FAIL`, 9 `DONE`, 8 `BUSY`, 7:4 `ERR`, 3:0 `PHASE`. -/
def State.status (s : State) : BitVec 16 :=
  0#5 ++ BitVec.ofBool s.failed ++ BitVec.ofBool s.done ++ BitVec.ofBool s.busy ++ s.err.code ++ s.phase.code

end Sys2Proof.Machine
end

