-- ==== Sys2Proof/Machine/Operands.lean ====
section
/-! DEFINITION. The views of data that the operations read and write: bytes of a word, bits of a buffer,
the fields of a node, entries of the tables (spec/44_codec.md R217 points 5 to 8). -/

namespace Sys2Proof.Machine

/-- `v[8k+7 : 8k]` (spec/40_bitsink.md R121). -/
def byteOf (v : Word) (k : Nat) : Byte := v.extractLsb' (8 * k) 8

/-- The four bytes of a word, "most significant byte first" (spec/20_memory.md R62). -/
def bigEndianBytes (v : Word) : List Byte := [byteOf v 3, byteOf v 2, byteOf v 1, byteOf v 0]

/-- The word whose bytes, most significant first, are these four (spec/41_bitsource.md R141). -/
def bigEndianWord (b3 b2 b1 b0 : Byte) : Word := b3 ++ b2 ++ b1 ++ b0

/-- `hi * 256 + lo` (spec/41_bitsource.md R142). -/
def prefixLength (hi lo : Byte) : Nat := hi.toNat * 256 + lo.toNat

/-- `TOTAL > 0`, the signed test (spec/44_codec.md R212, R213). -/
def positive (v : Word) : Bool := !v.msb && v != 0

/-- `(WBUF << 1)[7:0] | bit`: "the new bit enters at bit 0" (spec/40_bitsink.md R120). -/
def shiftInBit (buf : BitVec 8) (b : Bool) : BitVec 8 := (buf <<< 1) ||| (BitVec.ofBool b).setWidth 8

/-- `(WBUF << (8 - WCNT))[7:0]`: "pending bits at the top, zeros below" (spec/40_bitsink.md R123), a shift
by 1 to 7 (spec/44_codec.md R217), and by 0 after a failed SNK.WBITS (log 15). DESIGN CHOICE, unsafe (log 16):
for `WCNT` = 9..15, which only a harness reaches and for which the spec gives no shift, `8 - WCNT` is taken
as 0. -/
def paddedByte (buf : BitVec 8) (cnt : BitVec 4) : Byte := buf <<< (8 - cnt.toNat)

/-- `NSYM` (spec/10_state.md R29). -/
def Node.nsym : Node → Byte
  | .leaf sym => sym.byte
  | .branch _ _ => Config.sentinel

/-- `NLEFT` (spec/10_state.md R29: "for a leaf both are `NIL`"). -/
def Node.nleft : Node → NodeRef
  | .leaf _ => Config.nil
  | .branch left _ => left

/-- `NRIGHT` (spec/10_state.md R29). -/
def Node.nright : Node → NodeRef
  | .leaf _ => Config.nil
  | .branch _ right => right

/-- `isLeaf(n)` is `NSYM[n] != 128` (spec/00_scope.md section 6). -/
def Node.isLeaf (n : Node) : Bool := n.nsym != Config.sentinel

/-- `FREQ[s]`. -/
def State.freqAt (s : State) (sym : Symbol) : Word :=
  s.freq[sym.toNat]'(by have := sym.isLt; omega)

/-- `FREQ[s] <- v`. -/
def State.setFreq (s : State) (sym : Symbol) (v : Word) : State :=
  { s with freq := s.freq.set sym.toNat v (by have := sym.isLt; omega) }

/-- `CODE[s]` (spec/10_state.md R27). -/
def State.codeAt (s : State) (sym : Symbol) : Bits :=
  s.code[sym.toNat]'(by have := sym.isLt; omega)

/-- `CLEN[s]` (spec/10_state.md R27), 7 bits. -/
def State.clen (s : State) (sym : Symbol) : BitVec 7 := BitVec.ofNat 7 (s.codeAt sym).length

/-- `CBITS[s] <- p ; CLEN[s] <- |p|`. -/
def State.setCode (s : State) (sym : Symbol) (p : Bits) : State :=
  { s with code := s.code.set sym.toNat p (by have := sym.isLt; omega) }

/-- The Symbols in ascending order: `for s in 0..127` (spec/00_scope.md section 6). -/
def allSymbols : List Symbol := (List.range Config.alphabetSize).map (BitVec.ofNat 7)

/-- The pending bits of the BitSink, oldest first: "the low `WCNT` bits of `WBUF`", "oldest at bit
`WCNT - 1`" (spec/10_state.md R34). -/
def State.pendingBits (s : State) : Bits :=
  (List.range s.wcnt.toNat).map fun i => s.wbuf.getLsbD (s.wcnt.toNat - 1 - i)

/-- The buffered bits of the BitSource, oldest first: "the top `RCNT` bits of the 8-bit `RBUF`, oldest
at bit 7" (spec/10_state.md R35). -/
def State.bufferedBits (s : State) : Bits :=
  (List.range s.rcnt.toNat).map fun i => s.rbuf.getMsbD i

/-- The bits of a byte, most significant first (spec/20_memory.md R63). -/
def bitsOfByte (b : Byte) : Bits := (List.range 8).map fun i => b.getMsbD i

/-- The byte whose bits, most significant first, begin with the sequence; zeros below
(spec/20_memory.md R63). -/
def byteOfBits : Bits → Byte := fun bits =>
  (List.range 8).foldl (fun acc i => shiftInBit acc (bits.getD i false)) 0

/-- What the sink has received: the bytes of the successful `SnkPut` calls, in order
(spec/20_memory.md R60, R70). -/
def sinkBytes : List PortEvent → List Byte
  | [] => []
  | .snkPut b true :: rest => b :: sinkBytes rest
  | _ :: rest => sinkBytes rest

/-- The bytes taken from the source, in order (spec/20_memory.md R60). -/
def sourceBytes : List PortEvent → List Byte
  | [] => []
  | .srcNext (.byte b) :: rest => b :: sourceBytes rest
  | _ :: rest => sourceBytes rest

end Sys2Proof.Machine
end

