-- ==== Sys2Proof/Machine/Ops.lean ====
section
/-! DEFINITION. How an operation runs (a sequence of state changes that ends, is ended by `raise`, or is
cut off from outside), the five port calls of spec/20_memory.md R60, reset and the start of an invocation
(spec/70_reset_and_hazards.md R270 to R272), failure entry (spec/60_exceptions.md R252) and how an
operation becomes a step. -/

namespace Sys2Proof.Machine

/-- What ends an operation from outside its pseudocode. -/
inductive Cut where
  /-- The machine stops. -/
  | stop (f : Fault)
  /-- Reset is applied while a port call waits (spec/70_reset_and_hazards.md R271). -/
  | resetApplied
  deriving DecidableEq, Repr

/-- What ends an operation before its last line. -/
inductive Halt where
  /-- `raise K` (spec/00_scope.md section 6). -/
  | raised (k : ErrKind)
  | cut (c : Cut)
  deriving DecidableEq, Repr

/-- Port calls alone: they can be cut off and cannot raise. -/
abbrev Port := EStateM Cut State

/-- An operation of a unit: pseudocode over the state. -/
abbrev Op := EStateM Halt State

/-- Port calls inside an operation. -/
def lift {α : Type} (p : Port α) : Op α := fun s =>
  match p s with
  | .ok a t => .ok a t
  | .error c t => .error (.cut c) t

/-- `raise K` (spec/00_scope.md section 6). -/
def raise {α : Type} (k : ErrKind) : Op α := throw (.raised k)

/-- The model stops. -/
def stop {α : Type} (f : Fault) : Op α := throw (.cut (.stop f))

/-! ## Port calls -/

/-- The record of one answered call (spec/10_state.md R21). -/
def State.record (s : State) (e : PortEvent) : State :=
  { s with env := { s.env with log := s.env.log ++ [e] } }

/-- Whether the next port call succeeds (`true`) or returns `Fail` (`false`): the host's next answer,
success when none is listed (spec/92_eei_decisions.md P2). A call that is never answered stops the
machine (U27), one that a reset overtakes is cut off (spec/70_reset_and_hazards.md R271). -/
def answered : Port Bool := fun s =>
  match s.env.answers with
  | [] => .ok true s
  | .ok :: rest => .ok true { s with env := { s.env with answers := rest } }
  | .fail :: rest => .ok false { s with env := { s.env with answers := rest } }
  | .never :: _ => .error (.stop .unanswered) s
  | .reset :: rest => .error .resetApplied { s with env := { s.env with answers := rest } }

/-- `SrcNext()` (spec/20_memory.md R60): a failed call has consumed no byte, `End` is sticky. -/
def srcNext : Port SrcReply := do
  if ← answered then
    let s ← get
    match s.env.src with
    | [] =>
      modify fun s => s.record (.srcNext .eof)
      pure .eof
    | b :: rest =>
      modify fun s => { s with env := { s.env with src := rest } }
      modify fun s => s.record (.srcNext (.byte b))
      pure (.byte b)
  else
    modify fun s => s.record (.srcNext .fail)
    pure .fail

/-- `SrcRewind()` (spec/20_memory.md R60): the source stands at its first byte again and delivers the
replay (spec/92_eei_decisions.md P3). -/
def srcRewind : Port Bool := do
  let ok ← answered
  if ok then
    modify fun s => { s with env := { s.env with src := s.env.replay } }
  modify fun s => s.record (.srcRewind ok)
  pure ok

/-- `SrcRelease()` (spec/20_memory.md R60). -/
def srcRelease : Port Bool := do
  let ok ← answered
  modify fun s => s.record (.srcRelease ok)
  pure ok

/-- `SnkPut(b)` (spec/20_memory.md R60): a failed call has appended no byte. -/
def snkPut (b : Byte) : Port Bool := do
  let ok ← answered
  modify fun s => s.record (.snkPut b ok)
  pure ok

/-- `SnkClose()` (spec/20_memory.md R60). -/
def snkClosePort : Port Bool := do
  let ok ← answered
  modify fun s => s.record (.snkClose ok)
  pure ok

/-- `if <call> = Fail: raise IOError` (spec/60_exceptions.md R241). -/
def orIOError (call : Port Bool) : Op Unit := do
  if ← lift call then pure () else raise .ioError

/-- `SnkPut` of each byte in turn, IOError at the first that fails. -/
def putBytes : List Byte → Op Unit
  | [] => pure ()
  | b :: rest => do
    orIOError (snkPut b)
    putBytes rest

/-- "next byte": `Fail` raises IOError, `End` raises EndOfStream (spec/41_bitsource.md R142). -/
def nextByte : Op Byte := do
  match ← lift srcNext with
  | .fail => raise .ioError
  | .eof => raise .endOfStream
  | .byte b => pure b

/-! ## Array reads -/

/-- Entry `n` of the node store; an entry not in use holds no value (spec/10_state.md R38). -/
def nodeAt (n : NodeRef) : Op Node := do
  let s ← get
  match s.nodes[n.toNat]? with
  | some node => pure node
  | none => stop .noValue

/-! ## Reset, start of an invocation, failure entry -/

/-- Reset (spec/70_reset_and_hazards.md R270, R271): every piece of the block's state at its reset value;
no port call, "the host's streams are left as they were at that moment". -/
def State.powerReset (s : State) : State :=
  { State.reset with env := s.env, stim := s.stim }

/-- Start of an invocation (spec/70_reset_and_hazards.md R272): "every piece of state takes the value in
the 'after invocation start' column" of spec/10_state.md R39, which is the reset column but for `PHASE`. -/
def State.initialise (p : Phase) (s : State) : State :=
  { State.reset with phase := p, env := s.env, stim := s.stim }

/-- `PHASE <- p`. -/
def setPhase (p : Phase) : Op Unit := modify fun s => { s with phase := p }

/-- Failure entry (spec/60_exceptions.md R252). The running invocation is read off `PHASE`; when none
runs "only the first and last lines apply" (log 10). There is no return from it (R254): `FAILED` is left by
`State.initialise` and `State.powerReset` only. -/
def failureEntry (k : ErrKind) : Port Unit := do
  modify fun s => { s with err := k }
  let s ← get
  if s.phase.encoding then
    if s.sclosed = false then
      let _ ← snkClosePort
      modify fun s => { s with sclosed := true }
    let _ ← srcRelease
  if s.phase.decoding then
    if s.rclosed = false then
      let _ ← srcRelease
      modify fun s => { s with rclosed := true }
    let _ ← snkClosePort
  modify fun s => { s with phase := .failed }

/-! ## From an operation to a step -/

/-- How a step ends when it is cut off from outside. -/
def cutOff : Cut → State → Host.Outcome State Fault Refusal
  | .stop f, _ => .fault f
  | .resetApplied, s => .next s.powerReset

/-- `raise K` has ended the operation: failure entry is taken, and the result port carries nothing. -/
def enterFailure (k : ErrKind) (s : State) : Host.Outcome State Fault Refusal :=
  match failureEntry k s with
  | .ok _ t => .next { t with result := .none }
  | .error c t => cutOff c t

/-- An operation runs to its end: its result is put on the result port (spec/30_encoding.md R103), or
failure entry is taken. -/
def complete (op : Op Result) (s : State) : Host.Outcome State Fault Refusal :=
  match op s with
  | .ok r t => .next { t with result := r }
  | .error (.raised k) t => enterFailure k t
  | .error (.cut c) t => cutOff c t

/-- An operation without a result (spec/30_encoding.md R103). -/
def noResult (op : Op Unit) : Op Result := do
  op
  pure .none

end Sys2Proof.Machine
end

