-- ==== Sys2Proof/Machine/BitSink.lean ====
section
/-! DEFINITION. The BitSink operations (spec/40_bitsink.md R120 to R123). -/

namespace Sys2Proof.Machine

/-- The loop of SNK.WBITS (spec/40_bitsink.md R120), one bit at a time: a full buffer "consumes the oldest
8 bits .. as one byte and writes it out", and only then is it cleared. When that `SnkPut` fails, `WBUF` and
`WCNT` "keep the values they had at the raising line", the byte and 8 (spec/60_exceptions.md R253); that R124's
`WCNT` ≤ 7 is of operations that end without a raise is DEDUCED, unsafe (log 15). Past 8 see log 16. -/
def writeBits : Bits → Op Unit
  | [] => pure ()
  | b :: rest => do
    modify fun s => { s with wbuf := shiftInBit s.wbuf b, wcnt := s.wcnt + 1 }
    let s ← get
    if s.wcnt = 8 then
      orIOError (snkPut s.wbuf)
      modify fun s => { s with wbuf := 0, wcnt := 0 }
    writeBits rest

/-- SNK.WBITS(bits) (spec/40_bitsink.md R120). -/
def snkWbits (bits : Bits) : Op Unit := do
  let s ← get
  if s.sclosed then raise .precondition
  writeBits bits

/-- "if SCLOSED = 1 or WCNT != 0: raise Precondition" (spec/20_memory.md R66). -/
def snkByteLevel : Op Unit := do
  let s ← get
  if s.sclosed || s.wcnt != 0 then raise .precondition

/-- SNK.WINT(v) (spec/40_bitsink.md R121). -/
def snkWint (v : Word) : Op Unit := do
  snkByteLevel
  putBytes (bigEndianBytes v)

/-- SNK.WSTR() (spec/40_bitsink.md R122): the 16-bit length, whose high byte is 0, then the units. -/
def snkWstr : Op Unit := do
  snkByteLevel
  let s ← get
  putBytes (0x00#8 :: s.serlen :: s.ser)

/-- SNK.CLOSE() (spec/40_bitsink.md R123). -/
def snkClose : Op Unit := do
  let s ← get
  if s.sclosed then raise .precondition
  if s.wcnt != 0 then
    orIOError (snkPut (paddedByte s.wbuf s.wcnt))
    modify fun s => { s with wbuf := 0, wcnt := 0 }
  orIOError snkClosePort
  modify fun s => { s with sclosed := true }

/-- SNK.WBITS as a step (spec/40_bitsink.md R120). -/
def execSnkWbits (bits : Bits) (s : State) : Host.Outcome State Fault Refusal :=
  complete (noResult (snkWbits bits)) s

/-- SNK.WINT as a step (spec/40_bitsink.md R121). -/
def execSnkWint (v : Word) (s : State) : Host.Outcome State Fault Refusal :=
  complete (noResult (snkWint v)) s

/-- SNK.WSTR as a step (spec/40_bitsink.md R122). -/
def execSnkWstr (s : State) : Host.Outcome State Fault Refusal :=
  complete (noResult snkWstr) s

/-- SNK.CLOSE as a step (spec/40_bitsink.md R123). -/
def execSnkClose (s : State) : Host.Outcome State Fault Refusal :=
  complete (noResult snkClose) s

end Sys2Proof.Machine
end

