-- ==== Sys2Proof/Machine/BitSource.lean ====
section
/-! DEFINITION. The BitSource operations (spec/41_bitsource.md R140 to R143). -/

namespace Sys2Proof.Machine

/-- SRC.RBIT() -> bit (spec/41_bitsource.md R140); for `RCNT` above 8 see log 16. -/
def srcRbit : Op Bool := do
  let s ← get
  if s.rclosed then raise .precondition
  if s.rcnt = 0 then
    let b ← nextByte
    modify fun s => { s with rbuf := b, rcnt := 8 }
  let s ← get
  let bit := s.rbuf.msb
  modify fun s => { s with rbuf := s.rbuf <<< 1, rcnt := s.rcnt - 1 }
  pure bit

/-- "if RCLOSED = 1 or RCNT != 0: raise Precondition" (spec/20_memory.md R66). -/
def srcByteLevel : Op Unit := do
  let s ← get
  if s.rclosed || s.rcnt != 0 then raise .precondition

/-- SRC.RINT() -> v (spec/41_bitsource.md R141). -/
def srcRint : Op Word := do
  srcByteLevel
  let b3 ← nextByte
  let b2 ← nextByte
  let b1 ← nextByte
  let b0 ← nextByte
  pure (bigEndianWord b3 b2 b1 b0)

/-- The unit loop of SRC.RSTR (spec/41_bitsource.md R142): `n` units still to read. -/
def readUnits : Nat → Op Unit
  | 0 => pure ()
  | n + 1 => do
    let u ← nextByte
    if Config.sentinel < u then raise .malformedTree
    modify fun s => { s with ser := s.ser ++ [u] }
    readUnits n

/-- SRC.RSTR() (spec/41_bitsource.md R142). -/
def srcRstr : Op Unit := do
  srcByteLevel
  let hi ← nextByte
  let lo ← nextByte
  let len := prefixLength hi lo
  if Config.serCap < len then raise .malformedTree
  modify fun s => { s with ser := [] }
  readUnits len

/-- SRC.CLOSE() (spec/41_bitsource.md R143): buffered bits are discarded unread. -/
def srcClose : Op Unit := do
  let s ← get
  if s.rclosed then raise .precondition
  orIOError srcRelease
  modify fun s => { s with rclosed := true }

/-- SRC.RBIT as a step (spec/41_bitsource.md R140). -/
def execSrcRbit (s : State) : Host.Outcome State Fault Refusal :=
  complete (do let b ← srcRbit; pure (.bit b)) s

/-- SRC.RINT as a step (spec/41_bitsource.md R141). -/
def execSrcRint (s : State) : Host.Outcome State Fault Refusal :=
  complete (do let v ← srcRint; pure (.word v)) s

/-- SRC.RSTR as a step (spec/41_bitsource.md R142). -/
def execSrcRstr (s : State) : Host.Outcome State Fault Refusal :=
  complete (noResult srcRstr) s

/-- SRC.CLOSE as a step (spec/41_bitsource.md R143). -/
def execSrcClose (s : State) : Host.Outcome State Fault Refusal :=
  complete (noResult srcClose) s

end Sys2Proof.Machine
end

