-- ==== Sys2Proof/Machine/PriorityQueue.lean ====
section
/-! DEFINITION. The PriorityQueue operations (spec/42_priority_queue.md R161 to R167). The slots are
numbered from 1 (spec/10_state.md R28): slot `i` is element `i - 1` of the list. -/

namespace Sys2Proof.Machine

/-- The order of entries (spec/42_priority_queue.md R161), "both comparisons unsigned". -/
def HeapEntry.less (a b : HeapEntry) : Bool :=
  a.key.ult b.key || (a.key == b.key && a.seq.ult b.seq)

/-- Slot `i` of the heap, when it is in use. -/
def slot (h : List HeapEntry) (i : Nat) : Option HeapEntry := h[i - 1]?

/-- `less(i, j)` (spec/42_priority_queue.md R161). -/
def slotLess (h : List HeapEntry) (i j : Nat) : Bool :=
  match slot h i, slot h j with
  | some a, some b => a.less b
  | _, _ => false

/-- `swap(i, j)` exchanges all three fields of the two slots together (spec/42_priority_queue.md R161). -/
def swapSlots (h : List HeapEntry) (i j : Nat) : List HeapEntry :=
  match slot h i, slot h j with
  | some a, some b => (h.set (i - 1) b).set (j - 1) a
  | _, _ => h

/-- The loop of PQ.INSERT from slot `i` (spec/42_priority_queue.md R162); `fuel` ≥ `i` is enough, since
`i` is halved. -/
def bubbleUp : (fuel i : Nat) → List HeapEntry → List HeapEntry
  | 0, _, h => h
  | fuel + 1, i, h =>
    if 1 < i && slotLess h i (i / 2) then bubbleUp fuel (i / 2) (swapSlots h i (i / 2)) else h

/-- The smaller child of slot `i` when it has one (spec/42_priority_queue.md R163). -/
def smallerChild (h : List HeapEntry) (i : Nat) : Option Nat :=
  let c := 2 * i
  if h.length < c then none
  else if c + 1 ≤ h.length && slotLess h (c + 1) c then some (c + 1)
  else some c

/-- The loop of PQ.DELMIN from slot `i` (spec/42_priority_queue.md R163); `fuel` ≥ the number of slots is
enough, since `i` is doubled. -/
def siftDown : (fuel i : Nat) → List HeapEntry → List HeapEntry
  | 0, _, h => h
  | fuel + 1, i, h =>
    match smallerChild h i with
    | none => h
    | some c => if slotLess h c i then siftDown fuel c (swapSlots h c i) else h

/-- The heap after an entry is placed at the next free slot and bubbled up. -/
def heapInsert (h : List HeapEntry) (e : HeapEntry) : List HeapEntry :=
  bubbleUp (h.length + 1) (h.length + 1) (h ++ [e])

/-- The heap after its last entry has been moved to slot 1 and sifted down; `top :: rest` are the
slots. -/
def heapRemoveTop (top : HeapEntry) (rest : List HeapEntry) : List HeapEntry :=
  let moved := ((top :: rest).set 0 ((top :: rest).getLast (by simp))).dropLast
  siftDown moved.length 1 moved

/-- PQ.INSERT(key, payload) (spec/42_priority_queue.md R162). -/
def pqInsert (key : Word) (payload : NodeRef) : Op Unit := do
  let s ← get
  if s.pqFull || s.seq = Config.seqMax then raise .precondition
  modify fun s =>
    { s with heap := heapInsert s.heap { key := key, seq := s.seq, pay := payload }, seq := s.seq + 1 }

/-- PQ.DELMIN() -> payload (spec/42_priority_queue.md R163). -/
def pqDelmin : Op NodeRef := do
  let s ← get
  match s.heap with
  | [] => raise .precondition
  | top :: rest =>
    modify fun s => { s with heap := heapRemoveTop top rest }
    pure top.pay

/-- PQ.PEEK() -> key (spec/42_priority_queue.md R164). -/
def pqPeek : Op Word := do
  let s ← get
  match s.heap with
  | [] => raise .precondition
  | top :: _ => pure top.key

/-- PQ.ISEMPTY() (spec/42_priority_queue.md R165). -/
def pqIsempty : Op Bool := do
  let s ← get
  pure s.pqEmpty

/-- PQ.ISFULL() (spec/42_priority_queue.md R166). -/
def pqIsfull : Op Bool := do
  let s ← get
  pure s.pqFull

/-- PQ.SIZE() (spec/42_priority_queue.md R167). -/
def pqSize : Op (BitVec 8) := do
  let s ← get
  pure s.hsize

/-- PQ.INSERT as a step (spec/42_priority_queue.md R162). -/
def execPqInsert (key : Word) (payload : NodeRef) (s : State) : Host.Outcome State Fault Refusal :=
  complete (noResult (pqInsert key payload)) s

/-- PQ.DELMIN as a step (spec/42_priority_queue.md R163). -/
def execPqDelmin (s : State) : Host.Outcome State Fault Refusal :=
  complete (do let n ← pqDelmin; pure (.node n)) s

/-- PQ.PEEK as a step (spec/42_priority_queue.md R164). -/
def execPqPeek (s : State) : Host.Outcome State Fault Refusal :=
  complete (do let k ← pqPeek; pure (.key k)) s

/-- PQ.ISEMPTY as a step (spec/42_priority_queue.md R165). -/
def execPqIsempty (s : State) : Host.Outcome State Fault Refusal :=
  complete (do let b ← pqIsempty; pure (.flag b)) s

/-- PQ.ISFULL as a step (spec/42_priority_queue.md R166). -/
def execPqIsfull (s : State) : Host.Outcome State Fault Refusal :=
  complete (do let b ← pqIsfull; pure (.flag b)) s

/-- PQ.SIZE as a step (spec/42_priority_queue.md R167). -/
def execPqSize (s : State) : Host.Outcome State Fault Refusal :=
  complete (do let n ← pqSize; pure (.size n)) s

end Sys2Proof.Machine
end

