-- ==== Sys2Proof/Machine/HuffmanTree.lean ====
section
/-! DEFINITION. The HuffmanTree operations (spec/43_huffman_tree.md R180 to R185). -/

namespace Sys2Proof.Machine

/-- `alloc` (spec/43_huffman_tree.md R180): the next free index, which becomes the node's name. -/
def alloc (node : Node) : Op NodeRef := do
  let s ← get
  modify fun s => { s with nodes := s.nodes ++ [node] }
  pure s.nnodes

/-- The seeding loop of HT.BUILD (spec/43_huffman_tree.md R181) over the Symbols still to come. -/
def seedLeaves : List Symbol → Op Unit
  | [] => pure ()
  | sym :: rest => do
    let s ← get
    if s.freqAt sym ≠ 0 then
      let n ← alloc (.leaf sym)
      pqInsert (s.freqAt sym) n
    seedLeaves rest

/-- The merging loop of HT.BUILD (spec/43_huffman_tree.md R181): `while PQ.SIZE() > 1`. Each round takes
two entries and puts one back, so `fuel` above the number of entries is enough. DESIGN CHOICE, unsafe
(log 17): `f1 + f2` of 2^32 and more, which only a harness can bring about, is taken modulo 2^32. -/
def mergeNodes : (fuel : Nat) → Op Unit
  | 0 => stop .loopBound
  | fuel + 1 => do
    let size ← pqSize
    if 1#8 < size then
      let f1 ← pqPeek
      let n1 ← pqDelmin
      let f2 ← pqPeek
      let n2 ← pqDelmin
      let n ← alloc (.branch n1 n2)
      pqInsert (f1 + f2) n
      mergeNodes fuel
    else
      pure ()

/-- HT.BUILD() (spec/43_huffman_tree.md R181). -/
def htBuild : Op Unit := do
  modify fun s => { s with heap := [], seq := 0, nodes := [], root := Config.nil }
  seedLeaves allSymbols
  if ← pqIsempty then
    pure ()
  else
    mergeNodes (Config.heapCap + 1)
    let n ← pqDelmin
    modify fun s => { s with root := n }

/-- `walk(n, p)` of HT.GENCODES (spec/43_huffman_tree.md R182). `levels` is the number of levels still
allowed, the node's own among them (spec/43_huffman_tree.md R187). -/
def genWalk : (levels : Nat) → NodeRef → Bits → Op Unit
  | 0, _, _ => stop .notATree
  | levels + 1, n, p => do
    match ← nodeAt n with
    | .leaf sym => modify fun s => s.setCode sym p
    | .branch left right =>
      genWalk levels left (p ++ [false])
      genWalk levels right (p ++ [true])

/-- HT.GENCODES() (spec/43_huffman_tree.md R182). -/
def htGencodes : Op Unit := do
  modify fun s => { s with code := Vector.replicate 128 [] }
  let s ← get
  if s.root = Config.nil then
    pure ()
  else
    match ← nodeAt s.root with
    | .leaf sym => modify fun s => s.setCode sym [false]
    | .branch _ _ => genWalk (Config.codeMax + 1) s.root []

/-- `SER[SERLEN] <- v ; SERLEN <- SERLEN + 1`. -/
def emitUnit (v : Byte) : Op Unit := modify fun s => { s with ser := s.ser ++ [v] }

/-- `emit(n)` of HT.SER (spec/43_huffman_tree.md R184): left, right, self. -/
def emitTree : (levels : Nat) → NodeRef → Op Unit
  | 0, _ => stop .notATree
  | levels + 1, n => do
    match ← nodeAt n with
    | .leaf sym => emitUnit sym.byte
    | .branch left right =>
      emitTree levels left
      emitTree levels right
      emitUnit Config.sentinel

/-- HT.SER() (spec/43_huffman_tree.md R184). -/
def htSer : Op Unit := do
  modify fun s => { s with ser := [] }
  let s ← get
  if s.root = Config.nil then pure () else emitTree (Config.codeMax + 1) s.root

/-- `STK[SP] <- n ; SP <- SP + 1`. -/
def pushNode (n : NodeRef) : Op Unit := modify fun s => { s with stk := n :: s.stk }

/-- The scan of HT.DESER (spec/43_huffman_tree.md R185) over the units still to come. -/
def deserScan : List Byte → Op Unit
  | [] => pure ()
  | v :: rest => do
    let s ← get
    if v < Config.sentinel then
      if s.stk.length = Config.stackCap then raise .malformedTree
      let n ← alloc (.leaf (symbolOf v))
      pushNode n
    else
      match s.stk with
      | b :: a :: below =>
        modify fun s => { s with stk := below }
        let n ← alloc (.branch a b)
        pushNode n
      | _ => raise .malformedTree
    deserScan rest

/-- HT.DESER() (spec/43_huffman_tree.md R185). -/
def htDeser : Op Unit := do
  modify fun s => { s with stk := [], nodes := [], root := Config.nil }
  let s ← get
  deserScan s.ser
  if s.ser = [] then
    pure ()
  else
    let t ← get
    match t.stk with
    | [n] => modify fun s => { s with root := n, stk := [] }
    | _ => raise .malformedTree

/-- HT.BUILD as a step (spec/43_huffman_tree.md R181). -/
def execHtBuild (s : State) : Host.Outcome State Fault Refusal :=
  complete (noResult htBuild) s

/-- HT.GENCODES as a step (spec/43_huffman_tree.md R182). -/
def execHtGencodes (s : State) : Host.Outcome State Fault Refusal :=
  complete (noResult htGencodes) s

/-- HT.SER as a step (spec/43_huffman_tree.md R184). -/
def execHtSer (s : State) : Host.Outcome State Fault Refusal :=
  complete (noResult htSer) s

/-- HT.DESER as a step (spec/43_huffman_tree.md R185). -/
def execHtDeser (s : State) : Host.Outcome State Fault Refusal :=
  complete (noResult htDeser) s

end Sys2Proof.Machine
end

