-- ==== Sys2Proof/Machine/Codec.lean ====
section
/-! DEFINITION. The Codec operations (spec/44_codec.md R210 to R215, R219). -/

namespace Sys2Proof.Machine

/-! ## Steps of ENCODE -/

/-- The loop of CODEC.FCOUNT (spec/44_codec.md R210). Each round but the last takes a byte of the source,
so `fuel` above the number of bytes is enough. DESIGN CHOICE, unsafe (log 17): `FREQ[b]` = 2^32 - 1 and
`TOTAL` = 2^32 - 1, which only a harness can bring about, count on to 0. -/
def countLoop : (fuel : Nat) → Op Unit
  | 0 => stop .loopBound
  | fuel + 1 => do
    match ← lift srcNext with
    | .fail => raise .ioError
    | .eof => pure ()
    | .byte b =>
      if 127#8 < b then raise .symbolRange
      let s ← get
      if s.total = Config.countMax then raise .countOverflow
      modify fun s => s.setFreq (symbolOf b) (s.freqAt (symbolOf b) + 1)
      modify fun s => { s with total := s.total + 1 }
      countLoop fuel

/-- CODEC.FCOUNT() (spec/44_codec.md R210). -/
def codecFcount : Op Unit := do
  let s ← get
  countLoop (s.env.src.length + 1)

/-- CODEC.WHEADER() (spec/44_codec.md R211). -/
def codecWheader : Op Unit := do
  let s ← get
  snkWint s.total
  htSer
  snkWstr

/-- The loop of CODEC.WPAYLOAD (spec/44_codec.md R214); `k` is the number of bytes seen in pass 2, and
the answer is its last value. DESIGN CHOICE, unsafe (log 17): `k` = 2^32 - 1, which only a harness with
`TOTAL` above 2^31 - 1 can bring about, counts on to 0. -/
def payloadLoop : (fuel : Nat) → (k : Word) → Op Word
  | 0, _ => stop .loopBound
  | fuel + 1, k => do
    match ← lift srcNext with
    | .fail => raise .ioError
    | .eof => pure k
    | .byte b =>
      let s ← get
      if 127#8 < b then raise .replayMismatch
      if s.codeAt (symbolOf b) = [] then raise .replayMismatch
      if k = s.total then raise .replayMismatch
      snkWbits (s.codeAt (symbolOf b))
      payloadLoop fuel (k + 1)

/-- CODEC.WPAYLOAD() (spec/44_codec.md R214). -/
def codecWpayload : Op Unit := do
  orIOError srcRewind
  let s ← get
  let k ← payloadLoop (s.env.src.length + 1) 0
  let t ← get
  if k ≠ t.total then raise .replayMismatch

/-! ## Steps of DECODE -/

/-- CODEC.RHEADER() (spec/44_codec.md R212). -/
def codecRheader : Op Unit := do
  let v ← srcRint
  modify fun s => { s with total := v }
  if v.msb then raise .badCount
  srcRstr
  htDeser
  let s ← get
  if positive s.total && s.root = Config.nil then raise .malformedTree

/-- The bits the BitSource can still give: the bound of the loops of CODEC.WALK. -/
def State.bitsLeft (s : State) : Nat := s.rcnt.toNat + 8 * s.env.src.length

/-- `while not isLeaf(CURSOR)` of CODEC.WALK (spec/44_codec.md R213). Each round takes one bit, so `fuel`
above the number of bits left is enough. -/
def descend : (fuel : Nat) → Op Unit
  | 0 => stop .loopBound
  | fuel + 1 => do
    let s ← get
    let node ← nodeAt s.cursor
    if node.isLeaf then
      pure ()
    else
      let bit ← srcRbit
      let next := if bit then node.nright else node.nleft
      if next = Config.nil then raise .malformedTree
      modify fun s => { s with cursor := next }
      descend fuel

/-- The outer loop of CODEC.WALK (spec/44_codec.md R213): one round emits one Symbol and takes at least
one bit. -/
def walkLoop : (fuel : Nat) → Op Unit
  | 0 => stop .loopBound
  | fuel + 1 => do
    let s ← get
    if s.remain = 0 then
      pure ()
    else
      let rootNode ← nodeAt s.root
      if rootNode.isLeaf then
        let _ ← srcRbit
      else
        descend (s.bitsLeft + 1)
      let t ← get
      let leaf ← nodeAt t.cursor
      orIOError (snkPut leaf.nsym)
      modify fun s => { s with remain := s.remain - 1, cursor := s.root }
      walkLoop fuel

/-- CODEC.WALK() (spec/44_codec.md R213). -/
def codecWalk : Op Unit := do
  let s ← get
  if s.total.msb || (positive s.total && s.root = Config.nil) then raise .precondition
  modify fun s => { s with remain := s.total, cursor := s.root }
  walkLoop (s.bitsLeft + 1)

/-! ## The two caller operations -/

/-- The step E_CLOSE (spec/44_codec.md R215): SNK.CLOSE, then the source is released. -/
def closeEncode : Op Unit := do
  snkClose
  orIOError srcRelease

/-- The step D_CLOSE (spec/44_codec.md R219): SRC.CLOSE, then the output sink is closed. -/
def closeDecode : Op Unit := do
  srcClose
  orIOError snkClosePort

/-- ENCODE from its acceptance to its end (spec/44_codec.md R215). -/
def encodeInvocation : Op Unit := do
  modify (State.initialise .eCount)
  codecFcount
  setPhase .eBuild
  htBuild
  setPhase .eCodes
  htGencodes
  setPhase .eHeader
  codecWheader
  setPhase .ePayload
  codecWpayload
  setPhase .eClose
  closeEncode
  setPhase .done

/-- DECODE from its acceptance to its end (spec/44_codec.md R219). -/
def decodeInvocation : Op Unit := do
  modify (State.initialise .dHeader)
  codecRheader
  setPhase .dWalk
  codecWalk
  setPhase .dClose
  closeDecode
  setPhase .done

/-- ENCODE as one operation (spec/44_codec.md R215); not accepted while `BUSY` = 1
(spec/70_reset_and_hazards.md R288). Its result is the register STATUS (spec/30_encoding.md R103). -/
def execEncode (s : State) : Host.Outcome State Fault Refusal :=
  if s.busy then .next s else complete (noResult encodeInvocation) s

/-- DECODE as one operation (spec/44_codec.md R219); not accepted while `BUSY` = 1
(spec/70_reset_and_hazards.md R288). Its result is the register STATUS (spec/30_encoding.md R103). -/
def execDecode (s : State) : Host.Outcome State Fault Refusal :=
  if s.busy then .next s else complete (noResult decodeInvocation) s

/-- CODEC.FCOUNT as a step (spec/44_codec.md R210). -/
def execCodecFcount (s : State) : Host.Outcome State Fault Refusal :=
  complete (noResult codecFcount) s

/-- CODEC.WHEADER as a step (spec/44_codec.md R211). -/
def execCodecWheader (s : State) : Host.Outcome State Fault Refusal :=
  complete (noResult codecWheader) s

/-- CODEC.WPAYLOAD as a step (spec/44_codec.md R214). -/
def execCodecWpayload (s : State) : Host.Outcome State Fault Refusal :=
  complete (noResult codecWpayload) s

/-- CODEC.RHEADER as a step (spec/44_codec.md R212). -/
def execCodecRheader (s : State) : Host.Outcome State Fault Refusal :=
  complete (noResult codecRheader) s

/-- CODEC.WALK as a step (spec/44_codec.md R213). -/
def execCodecWalk (s : State) : Host.Outcome State Fault Refusal :=
  complete (noResult codecWalk) s

end Sys2Proof.Machine
end

