-- ==== Sys2Proof/Machine/Dispatch.lean ====
section
/-! DEFINITION. `exec`: one arm per operation of spec/30_encoding.md R101. -/

namespace Sys2Proof.Machine

def exec (i : Instr) (s : State) : Host.Outcome State Fault Refusal :=
  match i with
  -- Codec (spec/44_codec.md)
  | .encode => Sys2Proof.Machine.execEncode s
  | .decode => Sys2Proof.Machine.execDecode s
  | .codecFcount => Sys2Proof.Machine.execCodecFcount s
  | .codecWheader => Sys2Proof.Machine.execCodecWheader s
  | .codecWpayload => Sys2Proof.Machine.execCodecWpayload s
  | .codecRheader => Sys2Proof.Machine.execCodecRheader s
  | .codecWalk => Sys2Proof.Machine.execCodecWalk s
  -- BitSink (spec/40_bitsink.md)
  | .snkWbits bits => Sys2Proof.Machine.execSnkWbits bits s
  | .snkWint v => Sys2Proof.Machine.execSnkWint v s
  | .snkWstr => Sys2Proof.Machine.execSnkWstr s
  | .snkClose => Sys2Proof.Machine.execSnkClose s
  -- BitSource (spec/41_bitsource.md)
  | .srcRbit => Sys2Proof.Machine.execSrcRbit s
  | .srcRint => Sys2Proof.Machine.execSrcRint s
  | .srcRstr => Sys2Proof.Machine.execSrcRstr s
  | .srcClose => Sys2Proof.Machine.execSrcClose s
  -- PriorityQueue (spec/42_priority_queue.md)
  | .pqInsert key payload => Sys2Proof.Machine.execPqInsert key payload s
  | .pqDelmin => Sys2Proof.Machine.execPqDelmin s
  | .pqPeek => Sys2Proof.Machine.execPqPeek s
  | .pqIsempty => Sys2Proof.Machine.execPqIsempty s
  | .pqIsfull => Sys2Proof.Machine.execPqIsfull s
  | .pqSize => Sys2Proof.Machine.execPqSize s
  -- HuffmanTree (spec/43_huffman_tree.md)
  | .htBuild => Sys2Proof.Machine.execHtBuild s
  | .htGencodes => Sys2Proof.Machine.execHtGencodes s
  | .htSer => Sys2Proof.Machine.execHtSer s
  | .htDeser => Sys2Proof.Machine.execHtDeser s

end Sys2Proof.Machine
end

