-- ==== Sys2Proof/WellFormed.lean ====
section
/-! DEFINITION. Which terms of `Instr` are operations the ports can carry (spec/30_encoding.md R103). -/

namespace Sys2Proof

/-- SNK.WBITS carries a sequence of "`len` 0..127" bits (spec/30_encoding.md R103); every other
operand is of its port's width by its type. -/
def Instr.wellFormed : Instr → Bool
  | .encode => true
  | .decode => true
  | .codecFcount => true
  | .codecWheader => true
  | .codecWpayload => true
  | .codecRheader => true
  | .codecWalk => true
  | .snkWbits bits => decide (bits.length ≤ 127)
  | .snkWint _ => true
  | .snkWstr => true
  | .snkClose => true
  | .srcRbit => true
  | .srcRint => true
  | .srcRstr => true
  | .srcClose => true
  | .pqInsert _ _ => true
  | .pqDelmin => true
  | .pqPeek => true
  | .pqIsempty => true
  | .pqIsfull => true
  | .pqSize => true
  | .htBuild => true
  | .htGencodes => true
  | .htSer => true
  | .htDeser => true

end Sys2Proof
end

