-- ==== Sys2Proof/Decode.lean ====
section
/-! DEFINITION. The operation code map (spec/30_encoding.md R100, R101): the decoder of a bus transfer,
total and refusing by name, and the encoder. -/

namespace Sys2Proof

/-- Why a transfer is no operation: its code is one of "the 231 unassigned codes"
(spec/30_encoding.md R102). -/
inductive DecodeError where
  | unassignedCode (op : BitVec 8)
  deriving DecidableEq, Repr

/-- The bit sequence on the `bits` port: `len` lines, element `i` from line `i`
(spec/30_encoding.md R103: "first bit first"). -/
def portSequence (len : BitVec 7) (bits : BitVec 127) : Bits :=
  (List.range len.toNat).map fun i => bits.getLsbD i

/-- The number whose bit `i` is element `i` of the sequence: how a sequence is put on the port. -/
def sequenceNat : Bits → Nat
  | [] => 0
  | b :: rest => b.toNat + 2 * sequenceNat rest

/-- `OP[7:4]` (spec/30_encoding.md R100). -/
def unitField (op : BitVec 8) : BitVec 4 := op.extractLsb' 4 4

/-- `OP[3:0]` (spec/30_encoding.md R100). -/
def funcField (op : BitVec 8) : BitVec 4 := op.extractLsb' 0 4

/-- The operation a transfer carries: the code map of spec/30_encoding.md R101, by `UNIT` and `FUNC`. -/
def decode (t : Transfer) : Except DecodeError Instr :=
  match (unitField t.op).toNat, (funcField t.op).toNat with
  | 0, 1 => .ok .encode
  | 0, 2 => .ok .decode
  | 0, 3 => .ok .codecFcount
  | 0, 4 => .ok .codecWheader
  | 0, 5 => .ok .codecWpayload
  | 0, 6 => .ok .codecRheader
  | 0, 7 => .ok .codecWalk
  | 1, 0 => .ok (.snkWbits (portSequence t.len t.bits))
  | 1, 1 => .ok (.snkWint t.word)
  | 1, 2 => .ok .snkWstr
  | 1, 3 => .ok .snkClose
  | 2, 0 => .ok .srcRbit
  | 2, 1 => .ok .srcRint
  | 2, 2 => .ok .srcRstr
  | 2, 3 => .ok .srcClose
  | 3, 0 => .ok (.pqInsert t.word t.node)
  | 3, 1 => .ok .pqDelmin
  | 3, 2 => .ok .pqPeek
  | 3, 3 => .ok .pqIsempty
  | 3, 4 => .ok .pqIsfull
  | 3, 5 => .ok .pqSize
  | 4, 0 => .ok .htBuild
  | 4, 1 => .ok .htGencodes
  | 4, 2 => .ok .htSer
  | 4, 3 => .ok .htDeser
  | _, _ => .error (.unassignedCode t.op)

/-- A transfer of a code whose operation has no operands: the ports are idle (zero). -/
def codeOnly (op : BitVec 8) : Transfer := { op := op, len := 0, bits := 0, word := 0, node := 0 }

/-- The transfer that carries an operation (the code column of spec/30_encoding.md R101). -/
def encode : Instr → Transfer
  | .encode => codeOnly 0x01
  | .decode => codeOnly 0x02
  | .codecFcount => codeOnly 0x03
  | .codecWheader => codeOnly 0x04
  | .codecWpayload => codeOnly 0x05
  | .codecRheader => codeOnly 0x06
  | .codecWalk => codeOnly 0x07
  | .snkWbits bits =>
    { codeOnly 0x10 with
      len := BitVec.ofNat 7 bits.length, bits := BitVec.ofNat 127 (sequenceNat bits) }
  | .snkWint v => { codeOnly 0x11 with word := v }
  | .snkWstr => codeOnly 0x12
  | .snkClose => codeOnly 0x13
  | .srcRbit => codeOnly 0x20
  | .srcRint => codeOnly 0x21
  | .srcRstr => codeOnly 0x22
  | .srcClose => codeOnly 0x23
  | .pqInsert key payload => { codeOnly 0x30 with word := key, node := payload }
  | .pqDelmin => codeOnly 0x31
  | .pqPeek => codeOnly 0x32
  | .pqIsempty => codeOnly 0x33
  | .pqIsfull => codeOnly 0x34
  | .pqSize => codeOnly 0x35
  | .htBuild => codeOnly 0x40
  | .htGencodes => codeOnly 0x41
  | .htSer => codeOnly 0x42
  | .htDeser => codeOnly 0x43

/-- A transfer laid out as one number: the code in bits 7:0, then (log 4) `word` in 39:8, `node` in
47:40, `len` in 54:48 and `bits` in 181:55. Bits at and above `nbits` count as 0. -/
def transferOfWord (nbits w : Nat) : Transfer :=
  let v := w % 2 ^ nbits
  { op := BitVec.ofNat 8 v
    word := BitVec.ofNat 32 (v >>> 8)
    node := BitVec.ofNat 8 (v >>> 40)
    len := BitVec.ofNat 7 (v >>> 48)
    bits := BitVec.ofNat 127 (v >>> 55) }

/-- The operation the decoder reads from a row of spec/opcode_table.json whose bits are `w`. -/
def decodeTableWord (nbits w : Nat) : Option Instr :=
  (decode (transferOfWord nbits w)).toOption

end Sys2Proof
end

