-- ==== Sys2Proof/Machine/Sequencer.lean ====
section
/-! DEFINITION. The sequencer between operations: the phases of an invocation (spec/10_state.md R22), the
command port (spec/30_encoding.md R102, spec/70_reset_and_hazards.md R288), the attaching of streams
(spec/70_reset_and_hazards.md R273), and the transfer that stands for a table word. -/

namespace Sys2Proof.Machine

/-- The step that the phase stands for, then `PHASE` <- its successor (the columns "step in progress" and
"next on success" of spec/10_state.md R22). -/
def phaseStep (work : Op Unit) (next : Phase) : Op Unit := do
  work
  setPhase next

/-- The sequencer goes on: a busy block performs the step of its phase; a block that is not busy waits
for a command (spec/70_reset_and_hazards.md R270). -/
def tick (s : State) : Host.Outcome State Fault Refusal :=
  match s.phase with
  | .idle => .next s
  | .eCount => complete (noResult (phaseStep codecFcount .eBuild)) s
  | .eBuild => complete (noResult (phaseStep htBuild .eCodes)) s
  | .eCodes => complete (noResult (phaseStep htGencodes .eHeader)) s
  | .eHeader => complete (noResult (phaseStep codecWheader .ePayload)) s
  | .ePayload => complete (noResult (phaseStep codecWpayload .eClose)) s
  | .eClose => complete (noResult (phaseStep closeEncode .done)) s
  | .dHeader => complete (noResult (phaseStep codecRheader .dWalk)) s
  | .dWalk => complete (noResult (phaseStep codecWalk .dClose)) s
  | .dClose => complete (noResult (phaseStep closeDecode .done)) s
  | .done => .next s
  | .failed => .next s

/-- A code on the command port (spec/30_encoding.md R102): 0x01 and 0x02 start an invocation, any other
code raises IllegalCommand, and while `BUSY` = 1 a command "is neither started nor queued nor reported"
(spec/70_reset_and_hazards.md R288). -/
def command (op : BitVec 8) (s : State) : Host.Outcome State Fault Refusal :=
  if s.busy then .next s
  else if op = 0x01 then .next (s.initialise .eCount)
  else if op = 0x02 then .next (s.initialise .dHeader)
  else match failureEntry .illegalCommand s with
    | .ok _ t => .next t
    | .error c t => cutOff c t

/-- The host attaches a byte source and an empty byte sink (spec/70_reset_and_hazards.md R273); streams
are not exchanged inside an invocation (spec/20_memory.md R60, log 2). -/
def attachStreams (src replay : List Byte) (answers : List PortAnswer) (s : State) :
    Host.Outcome State Fault Refusal :=
  if s.busy then .refused .streamsInUse
  else .next { s with env := { src := src, replay := replay, answers := answers, log := [] } }

/-- The stimulus that presents a table word on the unit buses. -/
def fetchStimulus (nbits w : Nat) : Stimulus := .issue (transferOfWord nbits w)

end Sys2Proof.Machine
end

