-- ==== Sys2Proof/Machine/Step.lean ====
section
/-! DEFINITION. One step of the machine: what the outside presents is taken, or the sequencer goes on. -/

namespace Sys2Proof.Machine

/-- A transfer on the unit buses is decoded and its operation runs (spec/00_scope.md R9). -/
def issue (t : Transfer) (s : State) : Host.Outcome State Fault Refusal :=
  match decode t with
  | .ok i => exec i s
  | .error (.unassignedCode op) => .refused (.unassignedCode op)

/-- One step (log 2, log 5). -/
def step (s : State) : Host.Outcome State Fault Refusal :=
  match s.stim with
  | [] => tick s
  | .quiet :: rest => tick { s with stim := rest }
  | .command op :: rest => command op { s with stim := rest }
  | .issue t :: rest => issue t { s with stim := rest }
  | .reset :: rest => .next (State.powerReset { s with stim := rest })
  | .attach src replay answers :: rest => attachStreams src replay answers { s with stim := rest }

/-- `s` with a table word presented on the unit buses as the very next thing (log 3). -/
def State.withFetchWord (s : State) (nbits w : Nat) : State :=
  { s with stim := fetchStimulus nbits w :: s.stim }

end Sys2Proof.Machine
end

