-- ==== Sys2Proof/Safety.lean ====
section
/-! DEFINITION. The terms in which claims are stated: how the host answers, what a stretch of port calls
does to the host's side, bit packing, code trees and where the node store holds one, the Huffman
construction on an ordered list, and the invariants of the block. The machine itself uses none of them. -/

namespace Sys2Proof.Machine

/-! ## The host -/

/-- No coming port call fails: the premise of a claim about successful runs (spec/92_eei_decisions.md P2). -/
abbrev Env.obliging (e : Env) : Prop := ∀ a ∈ e.answers, a = .ok

/-- Every coming port call is answered, `Ok` or `Fail`, before any reset. -/
abbrev Env.answering (e : Env) : Prop := ∀ a ∈ e.answers, a = .ok ∨ a = .fail

/-- The call returned `Fail`. -/
def PortEvent.failed : PortEvent → Bool
  | .srcNext r => decide (r = .fail)
  | .srcRewind ok => !ok
  | .srcRelease ok => !ok
  | .snkPut _ ok => !ok
  | .snkClose ok => !ok

/-- What the source still delivers after a call: a delivered byte is gone from it, a rewind puts it at the
first byte of the replay (spec/20_memory.md R60). -/
def Env.srcAfter (e : Env) : PortEvent → List Byte
  | .srcNext (.byte _) => e.src.tail
  | .srcRewind true => e.replay
  | _ => e.src

/-- The host's side after one answered call: it has used up an answer and is recorded. -/
def Env.afterCall (e : Env) (event : PortEvent) : Env :=
  { e with src := e.srcAfter event, answers := e.answers.tail, log := e.log ++ [event] }

/-- The host's side after the calls `events`. -/
def Env.after (e : Env) (events : List PortEvent) : Env := events.foldl Env.afterCall e

/-- The coming answers, success when none is listed, are those of the calls `events`: `Fail` for each that
failed, `Ok` for each other. -/
def Env.gives (e : Env) (events : List PortEvent) : Prop :=
  ∀ j event, events[j]? = some event → e.answers.getD j .ok = if event.failed then .fail else .ok

/-- Successful `SnkPut` calls. -/
def puts (bytes : List Byte) : List PortEvent := bytes.map fun b => .snkPut b true

/-- Successful `SrcNext` calls that deliver bytes. -/
def reads (bytes : List Byte) : List PortEvent := bytes.map fun b => .srcNext (.byte b)

/-- `s` with its host's side replaced. -/
def State.withEnv (s : State) (e : Env) : State := { s with env := e }

/-! ## Bits and bytes -/

/-- The complete groups of 8 of a bit sequence as bytes, first bit in bit 7 (spec/20_memory.md R63). -/
def fullBytes : Bits → List Byte
  | b7 :: b6 :: b5 :: b4 :: b3 :: b2 :: b1 :: b0 :: rest =>
    byteOfBits [b7, b6, b5, b4, b3, b2, b1, b0] :: fullBytes rest
  | _ => []

/-- The bits after the last complete group of 8. -/
def leftoverBits (bits : Bits) : Bits := bits.drop (8 * (bits.length / 8))

/-- A bit sequence padded with zeros to a byte boundary (spec/30_encoding.md R93); no byte for no bit. -/
def paddedBytes (bits : Bits) : List Byte :=
  fullBytes bits ++ if leftoverBits bits = [] then [] else [byteOfBits (leftoverBits bits)]

/-- The bits the BitSource will return, first bit first: its buffered bits, then those of the source's
bytes (spec/41_bitsource.md R144). -/
def State.bitsAhead (s : State) : Bits := s.bufferedBits ++ s.env.src.flatMap bitsOfByte

/-- The container of spec/30_encoding.md R90 for `n` Symbols, the tree description `ser` and the payload
bits. -/
def container (n : Nat) (ser : List Byte) (payload : Bits) : List Byte :=
  bigEndianBytes (BitVec.ofNat 32 n) ++ (0x00#8 :: BitVec.ofNat 8 ser.length :: ser) ++ paddedBytes payload

/-! ## Code trees -/

/-- A tree: "a leaf (holds exactly one Symbol) or an internal node" with "exactly two children"
(spec/00_scope.md section 7). -/
inductive Tree where
  | leaf (sym : Symbol)
  | node (left right : Tree)
  deriving DecidableEq, Repr

/-- The leaves' Symbols, left to right. -/
def Tree.symbols : Tree → List Symbol
  | .leaf sym => [sym]
  | .node l r => l.symbols ++ r.symbols

/-- The post-order description (spec/43_huffman_tree.md R184). -/
def Tree.postorder : Tree → List Byte
  | .leaf sym => [sym.byte]
  | .node l r => l.postorder ++ r.postorder ++ [Config.sentinel]

/-- The leaves with their paths from a node whose own path is `p` (spec/43_huffman_tree.md R182). -/
def Tree.paths : Tree → Bits → List (Symbol × Bits)
  | .leaf sym, p => [(sym, p)]
  | .node l r, p => l.paths (p ++ [false]) ++ r.paths (p ++ [true])

/-- The Symbols with their codes, left to right; a lone leaf has the code `"0"`
(spec/43_huffman_tree.md R182). -/
def Tree.codes : Tree → List (Symbol × Bits)
  | .leaf sym => [(sym, [false])]
  | .node l r => (Tree.node l r).paths []

/-- The code table of a tree. -/
def Tree.codeTable (t : Tree) : Vector Bits 128 :=
  t.codes.foldl (fun table e => table.set e.1.toNat e.2 (by have := e.1.isLt; omega)) (Vector.replicate 128 [])

/-- The bits `p` lead from the root to a leaf that holds `sym`; at a lone-leaf root one bit of either
value does (spec/44_codec.md R213). -/
def Tree.reaches : Tree → Bits → Symbol → Prop
  | .leaf a, p, sym => a = sym ∧ p.length = 1
  | .node l r, p, sym => (sym, p) ∈ (Tree.node l r).paths []

/-- Node `n` of the store is the root of the tree. -/
def Tree.storedAt : Tree → List Node → NodeRef → Prop
  | .leaf sym, nodes, n => nodes[n.toNat]? = some (.leaf sym)
  | .node l r, nodes, n =>
    ∃ a b, nodes[n.toNat]? = some (.branch a b) ∧ l.storedAt nodes a ∧ r.storedAt nodes b

/-- The block holds the tree: `ROOT` is a node and the nodes under it form the tree. -/
def State.holdsTree (s : State) (t : Tree) : Prop := s.root ≠ Config.nil ∧ t.storedAt s.nodes s.root

/-- The node references of a tree stored at node `n`, a node before its subtrees. -/
def Tree.refs : Tree → List Node → NodeRef → List NodeRef
  | .leaf _, _, n => [n]
  | .node l r, nodes, n =>
    match nodes[n.toNat]? with
    | some (.branch a b) => n :: (l.refs nodes a ++ r.refs nodes b)
    | _ => [n]

/-- The block holds the tree with "no sharing, no cycles": no node is reached twice
(spec/10_state.md R30). -/
def State.ownsTree (s : State) (t : Tree) : Prop := s.holdsTree t ∧ (t.refs s.nodes s.root).Nodup

/-- The Symbols that occur: those with `FREQ[s]` ≠ 0, ascending. -/
def State.occurring (s : State) : List Symbol := allSymbols.filter fun sym => s.freqAt sym ≠ 0

/-- The payload bits of an input (spec/30_encoding.md R93): the codes of its bytes in order. -/
def State.payloadBits (s : State) (input : List Byte) : Bits :=
  input.flatMap fun b => s.codeAt (symbolOf b)

/-- The port calls that encode bytes when the bits `pending` wait in the buffer (spec/44_codec.md R214): each
byte is read, then the bytes that its code completes are put. -/
def State.payloadCalls (s : State) : (pending : Bits) → List Byte → List PortEvent
  | _, [] => []
  | pending, b :: rest =>
    let bits := pending ++ s.codeAt (symbolOf b)
    .srcNext (.byte b) :: puts (fullBytes bits) ++ s.payloadCalls (leftoverBits bits) rest

/-- The port calls that decode Symbols along the given bits, with `buffered` bits read and waiting
(spec/44_codec.md R213, spec/41_bitsource.md R144): the bytes that a Symbol's bits need beyond the buffered
ones are read, then the Symbol is put. -/
def walkCalls : (buffered : Nat) → (src : List Byte) → List (Symbol × Bits) → List PortEvent
  | _, _, [] => []
  | buffered, src, (sym, bits) :: rest =>
    let pulled := (bits.length - buffered + 7) / 8
    reads (src.take pulled) ++
      .snkPut sym.byte true :: walkCalls (buffered + 8 * pulled - bits.length) (src.drop pulled) rest

/-- The node that the bits lead to from node `n`, no further than a leaf. -/
def follow (nodes : List Node) : NodeRef → Bits → NodeRef
  | n, [] => n
  | n, b :: rest =>
    match nodes[n.toNat]? with
    | some (.branch left right) => follow nodes (if b then right else left) rest
    | _ => n

/-- The cost of a tree for a frequency table: the sum of frequency times path length. -/
def State.treeCost (s : State) (t : Tree) : Nat :=
  (t.codes.map fun e => (s.freqAt e.1).toNat * e.2.length).sum

/-! ## The Huffman construction on an ordered list -/

/-- A tree with its key and sequence number. -/
structure Weighted where
  key : Word
  seq : BitVec 8
  tree : Tree
  deriving DecidableEq, Repr

/-- The order of spec/42_priority_queue.md R161. -/
def Weighted.less (a b : Weighted) : Bool := a.key.ult b.key || (a.key == b.key && a.seq.ult b.seq)

/-- Insertion into an ascending list. -/
def insertWeighted (w : Weighted) : List Weighted → List Weighted
  | [] => [w]
  | v :: rest => if w.less v then w :: v :: rest else v :: insertWeighted w rest

/-- "pop the two minimum entries", join them, "reinsert it keyed by f1+f2", "until exactly one entry
remains" (spec/43_huffman_tree.md R181); `seq` numbers the next entry, and the sum is a 32-bit key as in the
machine (log 17). -/
def mergeWeighted : (fuel : Nat) → (seq : BitVec 8) → List Weighted → Option Tree
  | 0, _, _ => none
  | _ + 1, _, [] => none
  | _ + 1, _, [w] => some w.tree
  | fuel + 1, seq, a :: b :: rest =>
    mergeWeighted fuel (seq + 1) (insertWeighted ⟨a.key + b.key, seq, .node a.tree b.tree⟩ rest)

/-- One leaf per Symbol of the list, numbered from `seq`, in an ascending list. -/
def seedWeighted (s : State) : (seq : BitVec 8) → List Symbol → List Weighted
  | _, [] => []
  | seq, sym :: rest => insertWeighted ⟨s.freqAt sym, seq, .leaf sym⟩ (seedWeighted s (seq + 1) rest)

/-- The Huffman tree of the frequency table; none when no Symbol occurs. -/
def State.huffman (s : State) : Option Tree :=
  mergeWeighted Config.heapCap (BitVec.ofNat 8 s.occurring.length) (seedWeighted s 0 s.occurring)

/-! ## Invariants -/

/-- "for every slot `i` with `2 ≤ i ≤ HSIZE` .. `less(i / 2, i)` holds" (spec/42_priority_queue.md R168). -/
def heapOrdered (h : List HeapEntry) : Prop := ∀ i, 2 ≤ i → i ≤ h.length → slotLess h (i / 2) i = true

/-- The queue: within its capacity (spec/00_scope.md R6), ordered (R168), sequence numbers below `SEQ` and
all different (spec/42_priority_queue.md R161). -/
structure State.QueueInv (s : State) : Prop where
  size : s.heap.length ≤ Config.heapCap
  ordered : heapOrdered s.heap
  stamped : ∀ e ∈ s.heap, e.seq.toNat < s.seq.toNat
  distinct : (s.heap.map (·.seq)).Nodup

/-- The BitSink between operations, none of which has failed: `WCNT` ≤ 7 and the bits of `WBUF` at and above
`WCNT` are 0 (spec/10_state.md R34, spec/40_bitsink.md R124). -/
def State.SinkInv (s : State) : Prop := s.wcnt.toNat ≤ 7 ∧ s.wbuf.toNat < 2 ^ s.wcnt.toNat

/-- The BitSource between operations: `RCNT` ≤ 7 (spec/41_bitsource.md R144). -/
def State.SourceInv (s : State) : Prop := s.rcnt.toNat ≤ 7

/-- The tree, its description and the code table: the capacities of spec/00_scope.md R7, the value range
of spec/10_state.md R32, and the shape of R30. -/
structure State.TreeInv (s : State) : Prop where
  store : s.nodes.length ≤ Config.nodeCap
  stack : s.stk.length ≤ Config.stackCap
  description : s.ser.length ≤ Config.serCap
  units : ∀ v ∈ s.ser, v.toNat ≤ 128
  codes : ∀ sym, (s.codeAt sym).length ≤ Config.codeMax
  shape : s.root = Config.nil ∨ ∃ t : Tree, s.ownsTree t ∧ t.symbols.length ≤ Config.alphabetSize

/-- `ERR` is "0 unless `FAIL` = 1" (spec/10_state.md R23), and a failed invocation has its kind. -/
def State.ErrInv (s : State) : Prop := s.err = .none ↔ s.phase ≠ .failed

/-- What the outside presents next is something the spec lets it present: no unassigned code on a unit
bus, no exchange of streams while the block is busy. -/
def State.properStimulus (s : State) : Prop :=
  match s.stim with
  | .issue t :: _ => ∃ i, decode t = .ok i
  | .attach _ _ _ :: _ => s.busy = false
  | _ => True

end Sys2Proof.Machine
end

