-- ==== Sys2Proof/Certificates/Slice0/Obligations.lean ====
section
/-! DEFINITION. The statements for the provers. -/

open Sys2Proof Sys2Proof.Machine

/-! ## Encoding and the step -/

/-- Every operation the ports can carry comes back from its transfer, with every operand at every value
(spec/30_encoding.md R100, R101, R103). -/
def Obligations.DecodeEncodeRoundTrip : Prop :=
  ∀ i : Instr, i.wellFormed = true → decode (encode i) = .ok i

/-- The code map of spec/30_encoding.md R101. -/
def Obligations.OperationCodeMap : Prop :=
  ∀ t : Transfer,
    (t.op = 0x01 → decode t = .ok .encode) ∧
    (t.op = 0x02 → decode t = .ok .decode) ∧
    (t.op = 0x03 → decode t = .ok .codecFcount) ∧
    (t.op = 0x04 → decode t = .ok .codecWheader) ∧
    (t.op = 0x05 → decode t = .ok .codecWpayload) ∧
    (t.op = 0x06 → decode t = .ok .codecRheader) ∧
    (t.op = 0x07 → decode t = .ok .codecWalk) ∧
    (t.op = 0x10 → decode t = .ok (.snkWbits (portSequence t.len t.bits))) ∧
    (t.op = 0x11 → decode t = .ok (.snkWint t.word)) ∧
    (t.op = 0x12 → decode t = .ok .snkWstr) ∧
    (t.op = 0x13 → decode t = .ok .snkClose) ∧
    (t.op = 0x20 → decode t = .ok .srcRbit) ∧
    (t.op = 0x21 → decode t = .ok .srcRint) ∧
    (t.op = 0x22 → decode t = .ok .srcRstr) ∧
    (t.op = 0x23 → decode t = .ok .srcClose) ∧
    (t.op = 0x30 → decode t = .ok (.pqInsert t.word t.node)) ∧
    (t.op = 0x31 → decode t = .ok .pqDelmin) ∧
    (t.op = 0x32 → decode t = .ok .pqPeek) ∧
    (t.op = 0x33 → decode t = .ok .pqIsempty) ∧
    (t.op = 0x34 → decode t = .ok .pqIsfull) ∧
    (t.op = 0x35 → decode t = .ok .pqSize) ∧
    (t.op = 0x40 → decode t = .ok .htBuild) ∧
    (t.op = 0x41 → decode t = .ok .htGencodes) ∧
    (t.op = 0x42 → decode t = .ok .htSer) ∧
    (t.op = 0x43 → decode t = .ok .htDeser)

/-- The 231 codes that are not of spec/30_encoding.md R101 are refused by name on a unit bus, and no
other code is (the refusal is the model's choice, log 12). -/
def Obligations.UnassignedCodesRefused : Prop :=
  ∀ (s : State) (t : Transfer) (rest : List Stimulus), s.stim = .issue t :: rest →
    (step s = .refused (.unassignedCode t.op) ↔
      t.op.toNat ∉ [0x01, 0x02, 0x03, 0x04, 0x05, 0x06, 0x07, 0x10, 0x11, 0x12, 0x13, 0x20, 0x21, 0x22, 0x23,
        0x30, 0x31, 0x32, 0x33, 0x34, 0x35, 0x40, 0x41, 0x42, 0x43])

/-- A transfer that decodes to an operation makes the step that operation, with the transfer taken off the
queue of stimuli (log 2, log 3). -/
def Obligations.StepRunsIssuedOperation : Prop :=
  ∀ (s : State) (t : Transfer) (rest : List Stimulus) (i : Instr),
    s.stim = .issue t :: rest → decode t = .ok i → step s = exec i { s with stim := rest }

/-! ## The command port, reset, STATUS -/

/-- spec/60_exceptions.md R249: a code other than 0x01 and 0x02 while the block is not busy; no port call
is made and no other register changes. -/
def Obligations.IllegalCommandTaken : Prop :=
  ∀ (s : State) (op : BitVec 8) (rest : List Stimulus),
    s.stim = .command op :: rest → op ≠ 0x01 → op ≠ 0x02 → s.busy = false →
    step s = .next { s with stim := rest, err := .illegalCommand, phase := .failed }

/-- spec/70_reset_and_hazards.md R288: a command while `BUSY` = 1 has no effect at all. -/
def Obligations.CommandIgnoredWhileBusy : Prop :=
  ∀ (s : State) (op : BitVec 8) (rest : List Stimulus),
    s.stim = .command op :: rest → s.busy = true → step s = .next { s with stim := rest }

/-- spec/70_reset_and_hazards.md R272: every register and table at its start value, so that nothing of an
earlier invocation is left. That the result port carries nothing then is the model's choice (log 11). -/
def Obligations.CommandStartsInvocation : Prop :=
  ∀ (s : State) (op : BitVec 8) (rest : List Stimulus),
    s.stim = .command op :: rest → op = 0x01 ∨ op = 0x02 → s.busy = false →
    ∃ u, step s = .next u ∧
      u.phase = (if op = 0x01 then .eCount else .dHeader) ∧ u.err = .none ∧
      u.total = 0 ∧ u.remain = 0 ∧ u.cursor = 255 ∧ u.root = 255 ∧
      u.nnodes = 0 ∧ u.hsize = 0 ∧ u.seq = 0 ∧ u.sp = 0 ∧ u.serlen = 0 ∧
      u.wbuf = 0 ∧ u.wcnt = 0 ∧ u.rbuf = 0 ∧ u.rcnt = 0 ∧ u.sclosed = false ∧ u.rclosed = false ∧
      (∀ sym, u.freqAt sym = 0) ∧ (∀ sym, u.clen sym = 0) ∧
      u.code = Vector.replicate 128 [] ∧ u.heap = [] ∧ u.nodes = [] ∧ u.stk = [] ∧ u.ser = [] ∧
      u.result = .none ∧ u.env = s.env ∧ u.stim = rest

/-- spec/70_reset_and_hazards.md R270, R271: the reset values of spec/10_state.md R39 from any state, busy
or not; the host's streams are left as they are; a block that is not busy then waits. -/
def Obligations.ResetAppliesAtOnce : Prop :=
  (∀ (s : State) (rest : List Stimulus), s.stim = .reset :: rest →
    ∃ u, step s = .next u ∧
      u.phase = .idle ∧ u.err = .none ∧ u.total = 0 ∧ u.remain = 0 ∧ u.cursor = 255 ∧ u.root = 255 ∧
      u.nnodes = 0 ∧ u.hsize = 0 ∧ u.seq = 0 ∧ u.sp = 0 ∧ u.serlen = 0 ∧
      u.wbuf = 0 ∧ u.wcnt = 0 ∧ u.rbuf = 0 ∧ u.rcnt = 0 ∧ u.sclosed = false ∧ u.rclosed = false ∧
      (∀ sym, u.freqAt sym = 0) ∧ (∀ sym, u.clen sym = 0) ∧
      u.code = Vector.replicate 128 [] ∧ u.heap = [] ∧ u.nodes = [] ∧ u.stk = [] ∧ u.ser = [] ∧
      u.status = 0x0000 ∧ u.env = s.env ∧ u.stim = rest) ∧
  (∀ s : State, s.stim = [] → s.busy = false → step s = .next s)

/-- The reset state itself: the column "after power-on reset" of spec/10_state.md R39. -/
def Obligations.ResetStateValues : Prop :=
  State.reset.phase = .idle ∧ State.reset.err = .none ∧ State.reset.total = 0 ∧ State.reset.remain = 0 ∧
  State.reset.cursor = 255 ∧ State.reset.root = 255 ∧ State.reset.nnodes = 0 ∧ State.reset.hsize = 0 ∧
  State.reset.seq = 0 ∧ State.reset.sp = 0 ∧ State.reset.serlen = 0 ∧ State.reset.wbuf = 0 ∧
  State.reset.wcnt = 0 ∧ State.reset.rbuf = 0 ∧ State.reset.rcnt = 0 ∧ State.reset.sclosed = false ∧
  State.reset.rclosed = false ∧ (∀ sym, State.reset.freqAt sym = 0) ∧ (∀ sym, State.reset.clen sym = 0) ∧
  State.reset.heap = [] ∧ State.reset.nodes = [] ∧ State.reset.stk = [] ∧ State.reset.ser = [] ∧
  State.reset.status = 0x0000

/-- The fields of STATUS (spec/10_state.md R23). The clause "`ERR` 0 unless `FAIL` = 1" is stated of the
states that keep the invariant `ErrInv`. The two lists are the value column of R22 and the code column of
spec/60_exceptions.md R240. -/
def Obligations.StatusFields : Prop :=
  ∀ s : State,
    s.status.extractLsb' 0 4 = s.phase.code ∧
    s.status.extractLsb' 4 4 = s.err.code ∧
    (s.ErrInv → s.phase ≠ .failed → s.status.extractLsb' 4 4 = 0) ∧
    s.status.getLsbD 8 =
      decide (1 ≤ s.phase.code.toNat ∧ s.phase.code.toNat ≤ 6 ∨ 8 ≤ s.phase.code.toNat ∧ s.phase.code.toNat ≤ 10) ∧
    s.status.getLsbD 9 = decide (s.phase.code = 14) ∧
    s.status.getLsbD 10 = decide (s.phase.code = 15) ∧
    s.status.extractLsb' 11 5 = 0 ∧
    [Phase.idle, .eCount, .eBuild, .eCodes, .eHeader, .ePayload, .eClose, .dHeader, .dWalk, .dClose, .done,
      .failed].map Phase.code = [0, 1, 2, 3, 4, 5, 6, 8, 9, 10, 14, 15] ∧
    [ErrKind.none, .ioError, .malformedTree, .endOfStream, .symbolRange, .countOverflow, .badCount,
      .precondition, .replayMismatch, .illegalCommand].map ErrKind.code = [0, 1, 2, 3, 4, 5, 6, 7, 8, 9]

/-! ## The sequencer -/

/-- `u` is where the sequencer stands after a phase whose operation has left the block in `t`: on success
(`PHASE` untouched) at the successor, otherwise (failure entry or reset) where the operation left it. -/
def advancePhase (phase next : Phase) (t : State) : State :=
  if t.phase = phase then { t with phase := next } else t

/-- spec/10_state.md R22: in each phase a step performs the phase's operation and goes to the phase's
successor; in `E_CLOSE` and `D_CLOSE` the stream that the operation leaves open is released or closed. -/
def Obligations.SequencerFollowsPhases : Prop :=
  ∀ s t : State, s.stim = [] →
    (s.phase = .eCount → exec .codecFcount s = .next t → step s = .next (advancePhase .eCount .eBuild t)) ∧
    (s.phase = .eBuild → exec .htBuild s = .next t → step s = .next (advancePhase .eBuild .eCodes t)) ∧
    (s.phase = .eCodes → exec .htGencodes s = .next t → step s = .next (advancePhase .eCodes .eHeader t)) ∧
    (s.phase = .eHeader → exec .codecWheader s = .next t → step s = .next (advancePhase .eHeader .ePayload t)) ∧
    (s.phase = .ePayload → exec .codecWpayload s = .next t → step s = .next (advancePhase .ePayload .eClose t)) ∧
    (s.phase = .dHeader → exec .codecRheader s = .next t → step s = .next (advancePhase .dHeader .dWalk t)) ∧
    (s.phase = .dWalk → exec .codecWalk s = .next t → step s = .next (advancePhase .dWalk .dClose t)) ∧
    (s.phase = .eClose → s.env.obliging → exec .snkClose s = .next t → t.phase = .eClose →
      step s = .next { t with phase := .done, env := t.env.after [.srcRelease true] }) ∧
    (s.phase = .dClose → s.env.obliging → exec .srcClose s = .next t → t.phase = .dClose →
      step s = .next { t with phase := .done, env := t.env.after [.snkClose true] })

/-- ENCODE as one operation is the run of the sequencer from its command: the acceptance and six phases
(spec/44_codec.md R215); DECODE the acceptance and three phases (R219). It holds however the invocation
ends. -/
def Obligations.InvocationIsSequencerRun : Prop :=
  ∀ s : State, s.busy = false →
    exec .encode { s with stim := [] } = Sys2Proof.core.run 7 { s with stim := [.command 0x01] } ∧
    exec .decode { s with stim := [] } = Sys2Proof.core.run 4 { s with stim := [.command 0x02] }

/-- "Nothing of an earlier invocation, successful or failed, influences a later one"
(spec/70_reset_and_hazards.md R272): the outcome depends on the host's side alone. -/
def Obligations.NothingCarriesOver : Prop :=
  ∀ s s' : State, s.busy = false → s'.busy = false → s.env = s'.env → s.stim = s'.stim →
    exec .encode s = exec .encode s' ∧ exec .decode s = exec .decode s'

/-! ## Failure -/

/-- spec/60_exceptions.md R252, for a host that answers: `ERR` and `PHASE`, the closing calls in their
order with their results ignored, the stream already closed not closed again. That every kind makes no call
outside an invocation, as R252 says of IllegalCommand, is the model's reading (log 10), and that the result
port carries nothing after a raise its choice (log 11). -/
def Obligations.FailureEntryReleasesStreams : Prop :=
  ∀ (k : ErrKind) (s : State), s.env.answering →
    (s.phase.encoding = true → s.sclosed = false →
      enterFailure k s = .next { s with
        err := k, phase := .failed, sclosed := true, result := .none
        env := { s.env with
          answers := s.env.answers.drop 2
          log := s.env.log ++ [.snkClose (s.env.answers.getD 0 .ok == .ok),
            .srcRelease (s.env.answers.getD 1 .ok == .ok)] } }) ∧
    (s.phase.encoding = true → s.sclosed = true →
      enterFailure k s = .next { s with
        err := k, phase := .failed, result := .none
        env := { s.env with
          answers := s.env.answers.drop 1
          log := s.env.log ++ [.srcRelease (s.env.answers.getD 0 .ok == .ok)] } }) ∧
    (s.phase.decoding = true → s.rclosed = false →
      enterFailure k s = .next { s with
        err := k, phase := .failed, rclosed := true, result := .none
        env := { s.env with
          answers := s.env.answers.drop 2
          log := s.env.log ++ [.srcRelease (s.env.answers.getD 0 .ok == .ok),
            .snkClose (s.env.answers.getD 1 .ok == .ok)] } }) ∧
    (s.phase.decoding = true → s.rclosed = true →
      enterFailure k s = .next { s with
        err := k, phase := .failed, result := .none
        env := { s.env with
          answers := s.env.answers.drop 1
          log := s.env.log ++ [.snkClose (s.env.answers.getD 0 .ok == .ok)] } }) ∧
    (s.busy = false → enterFailure k s = .next { s with err := k, phase := .failed, result := .none })

/-- spec/60_exceptions.md R254: what can leave `FAILED`, and where it leads. A command and a reset go to
the start states of spec/10_state.md R39; ENCODE or DECODE issued as one operation (log 3) and a reset
while a harness's port call waits (log 7) are the model's other two ways of presenting the same. -/
def Obligations.FailedLeftOnlyByCommandOrReset : Prop :=
  ∀ s u : State, s.phase = .failed → step s = .next u → u.phase ≠ .failed →
    (∃ op rest, s.stim = .command op :: rest ∧ (op = 0x01 ∨ op = 0x02) ∧
      u = { State.reset with
        phase := if op = 0x01 then .eCount else .dHeader, env := s.env, stim := rest }) ∨
    (∃ rest, s.stim = .reset :: rest ∧ u = { State.reset with env := s.env, stim := rest }) ∨
    (∃ t rest, s.stim = .issue t :: rest ∧ (decode t = .ok .encode ∨ decode t = .ok .decode)) ∨
    (PortAnswer.reset ∈ s.env.answers ∧ u = { State.reset with env := u.env, stim := s.stim.tail })

/-- spec/60_exceptions.md R241: a port call that returns `Fail` raises IOError at that call. The first
clause is of every operation and every call: an operation's own calls end at the first that fails, and then
IOError is raised; if none fails it ends in another way. The other clauses say what has happened before the
raise (R253, spec/20_memory.md R67): nothing when the call is an operation's first, and for a later call
everything before it and nothing after. In the clause of SNK.WBITS the failed byte is still in `WBUF` and
`WCNT` = 8, as R253 and the pseudocode of spec/40_bitsink.md R120 have it; that R124 is no bar to this is the
model's reading (log 15). Counts past 2^32 - 1 in the clause of CODEC.FCOUNT are the model's choice (log 17). -/
def Obligations.FailedCallIsIOError : Prop :=
  (∀ (i : Instr) (s : State), s.env.answering →
    (∃ u calls, exec i s = .next u ∧ u.env = s.env.after calls ∧ s.env.gives calls ∧
      ∀ e ∈ calls, e.failed = false) ∨
    (∃ k t calls, exec i s = enterFailure k t ∧ t.env = s.env.after calls ∧ s.env.gives calls ∧
      (t.phase = s.phase ∨ i = .encode ∧ t.phase.encoding = true ∨ i = .decode ∧ t.phase.decoding = true) ∧
      ((k = .ioError ∧ ∃ before last, calls = before ++ [last] ∧ last.failed = true ∧
          ∀ e ∈ before, e.failed = false) ∨
        (k ≠ .ioError ∧ ∀ e ∈ calls, e.failed = false))) ∨
    (∃ f, f ≠ .unanswered ∧ exec i s = .fault f)) ∧
  (∀ (s : State) (rest : List PortAnswer) (v : Word), s.env.answers = .fail :: rest →
    let failedAt := fun e : PortEvent =>
      enterFailure .ioError (s.withEnv { s.env with answers := rest, log := s.env.log ++ [e] })
    exec .codecFcount s = failedAt (.srcNext .fail) ∧
    exec .codecWpayload s = failedAt (.srcRewind false) ∧
    (s.rclosed = false → exec .srcClose s = failedAt (.srcRelease false)) ∧
    (s.rclosed = false → s.rcnt = 0 →
      exec .srcRbit s = failedAt (.srcNext .fail) ∧
      exec .srcRint s = failedAt (.srcNext .fail) ∧
      exec .srcRstr s = failedAt (.srcNext .fail) ∧
      exec .codecRheader s = failedAt (.srcNext .fail)) ∧
    (s.sclosed = false → s.wcnt = 0 →
      exec (.snkWint v) s = failedAt (.snkPut (v.extractLsb' 24 8) false) ∧
      exec .snkWstr s = failedAt (.snkPut 0x00 false) ∧
      exec .codecWheader s = failedAt (.snkPut (s.total.extractLsb' 24 8) false) ∧
      exec .snkClose s = failedAt (.snkClose false)) ∧
    (s.sclosed = false → s.wcnt ≠ 0 → s.wcnt.toNat ≤ 8 →
      exec .snkClose s = failedAt (.snkPut (s.wbuf <<< (8 - s.wcnt.toNat)) false))) ∧
  (∀ (s : State) (k : Nat) (rest : List PortAnswer), s.env.answers = List.replicate k .ok ++ .fail :: rest →
    let failedAfter := fun (u : State) (calls : List PortEvent) (e : PortEvent) =>
      enterFailure .ioError (u.withEnv (s.env.after (calls ++ [e])))
    (s.sclosed = false → s.SinkInv → ∀ (bits : Bits) (b : Byte), (fullBytes (s.pendingBits ++ bits))[k]? = some b →
      exec (.snkWbits bits) s = failedAfter { s with wbuf := b, wcnt := 8 }
        (puts ((fullBytes (s.pendingBits ++ bits)).take k)) (.snkPut b false)) ∧
    (s.sclosed = false → s.wcnt = 0 → ∀ (v : Word) (b : Byte), (bigEndianBytes v)[k]? = some b →
      exec (.snkWint v) s = failedAfter s (puts ((bigEndianBytes v).take k)) (.snkPut b false)) ∧
    (s.sclosed = false → s.wcnt = 0 → ∀ b : Byte, (0x00 :: s.serlen :: s.ser)[k]? = some b →
      exec .snkWstr s = failedAfter s (puts ((0x00 :: s.serlen :: s.ser).take k)) (.snkPut b false)) ∧
    (s.sclosed = false → s.SinkInv ∨ s.wcnt = 8 → s.wcnt ≠ 0 → k = 1 →
      exec .snkClose s = failedAfter { s with wbuf := 0, wcnt := 0 } (puts (paddedBytes s.pendingBits))
        (.snkClose false)) ∧
    (s.rclosed = false → s.rcnt = 0 → k < 4 → k ≤ s.env.src.length →
      exec .srcRint s = failedAfter s (reads (s.env.src.take k)) (.srcNext .fail)) ∧
    (s.rclosed = false → s.rcnt = 0 → k < 2 → k ≤ s.env.src.length →
      exec .srcRstr s = failedAfter s (reads (s.env.src.take k)) (.srcNext .fail)) ∧
    (∀ (hi lo : Byte) (units tail : List Byte), s.rclosed = false → s.rcnt = 0 →
      s.env.src = hi :: lo :: units ++ tail → k = 2 + units.length →
      units.length < hi.toNat * 256 + lo.toNat → hi.toNat * 256 + lo.toNat ≤ 255 → (∀ u ∈ units, u.toNat ≤ 128) →
      exec .srcRstr s = failedAfter { s with ser := units } (reads (hi :: lo :: units)) (.srcNext .fail)) ∧
    (∀ good tail : List Byte, s.env.src = good ++ tail → k = good.length → (∀ x ∈ good, x.toNat ≤ 127) →
      s.total.toNat + good.length ≤ 2147483647 →
      ∃ u, exec .codecFcount s = failedAfter u (reads good) (.srcNext .fail) ∧
        u = { s with freq := u.freq, total := s.total + BitVec.ofNat 32 good.length } ∧
        ∀ sym, u.freqAt sym = s.freqAt sym + BitVec.ofNat 32 (good.count sym.byte)) ∧
    (∀ (t : Tree) (xs : List (Symbol × Bits)) (x : Symbol × Bits) (tail : Bits), s.rclosed = false → s.SourceInv →
      s.holdsTree t → s.nodes.length ≤ 255 → (∀ y ∈ xs ++ [x], t.reaches y.2 y.1) →
      xs.length < s.total.toNat → s.total.msb = false → s.bitsAhead = (xs ++ [x]).flatMap (·.2) ++ tail →
      k + 1 = (walkCalls s.rcnt.toNat s.env.src (xs ++ [x])).length →
      ∃ u, exec .codecWalk s = failedAfter u ((walkCalls s.rcnt.toNat s.env.src (xs ++ [x])).take k)
          (.snkPut x.1.byte false) ∧
        u = { s with
          remain := s.total - BitVec.ofNat 32 xs.length, cursor := follow s.nodes s.root x.2
          rbuf := u.rbuf, rcnt := u.rcnt })) ∧
  (∀ (s t : State) (rest : List PortAnswer), s.stim = [] → t.env.answers = .fail :: rest →
    (s.phase = .eClose → exec .snkClose s = .next t → t.phase = .eClose →
      step s = enterFailure .ioError (t.withEnv (t.env.after [.srcRelease false]))) ∧
    (s.phase = .dClose → exec .srcClose s = .next t → t.phase = .dClose →
      step s = enterFailure .ioError (t.withEnv (t.env.after [.snkClose false]))))

/-- A port call that is never answered stops the machine, and a reset that comes while a call waits
resets the block and leaves the streams as they were (spec/70_reset_and_hazards.md R271, R274; the two
ways of showing them are the model's, log 6, log 7). The first clause is of every operation and every call,
those of failure entry among them; the second and the third name operations, and failure entry itself, that
begin with a call. -/
def Obligations.SilentHostStopsAndResetCuts : Prop :=
  (∀ (i : Instr) (s : State),
    (∃ u calls, exec i s = .next u ∧ u.env = s.env.after calls ∧ s.env.gives calls) ∨
    (∃ calls rest, s.env.gives calls ∧ s.env.answers.drop calls.length = .never :: rest ∧
      exec i s = .fault .unanswered) ∨
    (∃ calls rest, s.env.gives calls ∧ s.env.answers.drop calls.length = .reset :: rest ∧
      exec i s = .next { State.reset with
        env := { s.env.after calls with answers := rest }, stim := s.stim }) ∨
    (∃ f, f ≠ .unanswered ∧ exec i s = .fault f)) ∧
  (∀ (s : State) (rest : List PortAnswer) (v : Word) (k : ErrKind) (stopped : Host.Outcome State Fault Refusal),
    (s.env.answers = .never :: rest ∧ stopped = .fault .unanswered ∨
      s.env.answers = .reset :: rest ∧
        stopped = .next { State.reset with env := { s.env with answers := rest }, stim := s.stim }) →
    exec .codecFcount s = stopped ∧
    exec .codecWpayload s = stopped ∧
    (s.rclosed = false → exec .srcClose s = stopped) ∧
    (s.rclosed = false → s.rcnt = 0 → exec .srcRbit s = stopped ∧ exec .srcRint s = stopped ∧
      exec .srcRstr s = stopped ∧ exec .codecRheader s = stopped) ∧
    (s.sclosed = false → exec .snkClose s = stopped) ∧
    (s.sclosed = false → s.wcnt = 0 → exec (.snkWint v) s = stopped ∧ exec .snkWstr s = stopped ∧
      exec .codecWheader s = stopped) ∧
    (s.busy = true → enterFailure k s = stopped)) ∧
  (∀ (s : State) (first : PortAnswer) (rest : List PortAnswer) (k : ErrKind), first = .ok ∨ first = .fail →
    (s.phase.encoding = true ∧ s.sclosed = false ∨ s.phase.decoding = true ∧ s.rclosed = false) →
    let closing := if s.phase.encoding then PortEvent.snkClose (first == .ok) else .srcRelease (first == .ok)
    (s.env.answers = first :: .never :: rest → enterFailure k s = .fault .unanswered) ∧
    (s.env.answers = first :: .reset :: rest →
      enterFailure k s = .next { State.reset with
        env := { s.env.after [closing] with answers := rest }, stim := s.stim }))

/-- spec/60_exceptions.md R247: an operation whose stated precondition is false raises Precondition from
the state it was given. -/
def Obligations.PreconditionsRaise : Prop :=
  ∀ (s : State) (bits : Bits) (v key : Word) (payload : NodeRef),
    let raised := enterFailure .precondition s
    (s.heap.length = 128 ∨ s.seq = 255 → exec (.pqInsert key payload) s = raised) ∧
    (s.heap = [] → exec .pqDelmin s = raised ∧ exec .pqPeek s = raised) ∧
    (s.sclosed = true → exec (.snkWbits bits) s = raised ∧ exec (.snkWint v) s = raised ∧
      exec .snkWstr s = raised ∧ exec .snkClose s = raised) ∧
    (s.wcnt ≠ 0 → exec (.snkWint v) s = raised ∧ exec .snkWstr s = raised) ∧
    (s.rclosed = true → exec .srcRbit s = raised ∧ exec .srcRint s = raised ∧
      exec .srcRstr s = raised ∧ exec .srcClose s = raised) ∧
    (s.rcnt ≠ 0 → exec .srcRint s = raised ∧ exec .srcRstr s = raised) ∧
    (s.total.toInt < 0 ∨ 0 < s.total.toInt ∧ s.root = 255 → exec .codecWalk s = raised)

/-- Which errors an invocation can end in: ENCODE in the source's IOError, SymbolRange, CountOverflow and
ReplayMismatch (spec/44_codec.md R210 to R216), DECODE in IOError, MalformedTree, EndOfStream and BadCount
(R212, R213, R219); so neither ever ends in Precondition (spec/60_exceptions.md R247). One that ends in `DONE`
has made no call that failed, one that ends in IOError has (R241). -/
def Obligations.InvocationErrors : Prop :=
  ∀ s u : State, s.busy = false →
    (exec .encode s = .next u →
      (u.phase = .done ∧ u.err = .none) ∨ (u.phase = .idle ∧ PortAnswer.reset ∈ s.env.answers) ∨
      (u.phase = .failed ∧ u.err ∈ [ErrKind.ioError, .symbolRange, .countOverflow, .replayMismatch])) ∧
    (exec .encode s = .next u ∨ exec .decode s = .next u →
      ∃ calls, u.env.log = s.env.log ++ calls ∧
        (u.phase = .done → ∀ e ∈ calls, e.failed = false) ∧
        (u.err = .ioError → ∃ e ∈ calls, e.failed = true)) ∧
    (exec .decode s = .next u →
      (u.phase = .done ∧ u.err = .none) ∨ (u.phase = .idle ∧ PortAnswer.reset ∈ s.env.answers) ∨
      (u.phase = .failed ∧ u.err ∈ [ErrKind.ioError, .malformedTree, .endOfStream, .badCount]))

/-! ## BitSink -/

/-- SNK.WBITS (spec/40_bitsink.md R120, R124): the complete groups of 8 of the pending bits followed by the
new ones are put, most significant bit first; the rest stays pending. -/
def Obligations.WbitsPacks : Prop :=
  ∀ (s : State) (bits : Bits), s.sclosed = false → s.SinkInv → s.env.obliging →
    ∃ u, exec (.snkWbits bits) s = .next u ∧
      u = { s with
        wbuf := u.wbuf, wcnt := u.wcnt, result := .none
        env := s.env.after (puts (fullBytes (s.pendingBits ++ bits))) } ∧
      u.pendingBits = leftoverBits (s.pendingBits ++ bits) ∧
      u.wcnt.toNat = (s.wcnt.toNat + bits.length) % 8 ∧ u.SinkInv

/-- "The result depends only on the concatenation of all bit sequences written so far, not on how they
were split into calls" (spec/40_bitsink.md R120), however the port calls go. -/
def Obligations.WbitsConcatenation : Prop :=
  ∀ (xs ys : Bits) (s : State), snkWbits (xs ++ ys) s = (do snkWbits xs; snkWbits ys : Op Unit) s

/-- SNK.WINT puts the four bytes of its operand, most significant first (spec/40_bitsink.md R121), and
SNK.WSTR the 16-bit length and the units (R122); no register changes. -/
def Obligations.ByteLevelWrites : Prop :=
  ∀ (s : State) (v : Word), s.sclosed = false → s.wcnt = 0 → s.env.obliging →
    exec (.snkWint v) s = .next { s with
      result := .none
      env := s.env.after (puts [v.extractLsb' 24 8, v.extractLsb' 16 8, v.extractLsb' 8 8, v.extractLsb' 0 8]) } ∧
    exec .snkWstr s = .next { s with
      result := .none
      env := s.env.after (puts (0x00 :: BitVec.ofNat 8 s.ser.length :: s.ser)) }

/-- The mixed-width view of spec/20_memory.md R64: the 32 bits `v[31] .. v[0]` from an empty buffer give
the bytes of SNK.WINT(v). -/
def Obligations.WbitsOfWordIsWint : Prop :=
  ∀ (s : State) (v : Word), s.sclosed = false → s.wcnt = 0 → s.wbuf = 0 → s.env.obliging →
    exec (.snkWbits ((List.range 32).map fun i => v.getMsbD i)) s = exec (.snkWint v) s ∧
    ∃ u, exec (.snkWint v) s = .next u ∧
      sinkBytes u.env.log = sinkBytes s.env.log ++
        [v.extractLsb' 24 8, v.extractLsb' 16 8, v.extractLsb' 8 8, v.extractLsb' 0 8]

/-- SNK.CLOSE (spec/40_bitsink.md R123): the pending bits at the top of a last byte, zeros below, and no
byte when none is pending; then the sink is closed. The 8 pending bits that a failed SNK.WBITS leaves (log 15)
are a byte without padding. -/
def Obligations.SnkCloseFlushes : Prop :=
  ∀ s : State, s.sclosed = false → s.SinkInv ∨ s.wcnt = 8 → s.env.obliging →
    exec .snkClose s = .next { s with
      wbuf := 0, wcnt := 0, sclosed := true, result := .none
      env := s.env.after (puts (paddedBytes s.pendingBits) ++ [.snkClose true]) }

/-! ## BitSource -/

/-- SRC.RBIT (spec/41_bitsource.md R140, R144): the oldest bit ahead is returned and removed; a byte is
pulled only when none is buffered. -/
def Obligations.RbitReturnsOldest : Prop :=
  ∀ (s : State) (b : Bool) (rest : Bits), s.rclosed = false → s.SourceInv → s.env.obliging →
    s.bitsAhead = b :: rest →
    ∃ u, exec .srcRbit s = .next u ∧
      u = { s with
        rbuf := u.rbuf, rcnt := u.rcnt, result := .bit b
        env := s.env.after (if s.rcnt = 0 then reads (s.env.src.take 1) else []) } ∧
      u.bitsAhead = rest ∧ u.SourceInv

/-- SRC.RINT (spec/41_bitsource.md R141): the four bytes of a word, most significant first, give the
word. -/
def Obligations.RintReadsBigEndian : Prop :=
  ∀ (s : State) (v : Word) (rest : List Byte), s.rclosed = false → s.rcnt = 0 → s.env.obliging →
    s.env.src = [v.extractLsb' 24 8, v.extractLsb' 16 8, v.extractLsb' 8 8, v.extractLsb' 0 8] ++ rest →
    exec .srcRint s = .next { s with
      result := .word v
      env := s.env.after
        (reads [v.extractLsb' 24 8, v.extractLsb' 16 8, v.extractLsb' 8 8, v.extractLsb' 0 8]) }

/-- SRC.RSTR on a length of at most 255 and units of at most 128 (spec/41_bitsource.md R142). -/
def Obligations.RstrReadsUnits : Prop :=
  ∀ (s : State) (hi lo : Byte) (units rest : List Byte), s.rclosed = false → s.rcnt = 0 → s.env.obliging →
    s.env.src = hi :: lo :: units ++ rest → hi.toNat * 256 + lo.toNat = units.length → units.length ≤ 255 →
    (∀ u ∈ units, u.toNat ≤ 128) →
    exec .srcRstr s = .next { s with
      ser := units, result := .none, env := s.env.after (reads (hi :: lo :: units)) }

/-- SRC.RSTR refuses a length above 255 before any unit is read, and a unit above 128 where it stands
(spec/41_bitsource.md R142, spec/30_encoding.md R95). -/
def Obligations.RstrRejects : Prop :=
  ∀ (s : State) (hi lo bad : Byte) (units rest : List Byte), s.rclosed = false → s.rcnt = 0 → s.env.obliging →
    (s.env.src = hi :: lo :: rest → 255 < hi.toNat * 256 + lo.toNat →
      exec .srcRstr s = enterFailure .malformedTree { s with env := s.env.after (reads [hi, lo]) }) ∧
    (s.env.src = hi :: lo :: units ++ bad :: rest → hi.toNat * 256 + lo.toNat ≤ 255 →
      units.length < hi.toNat * 256 + lo.toNat → (∀ u ∈ units, u.toNat ≤ 128) → 128 < bad.toNat →
      exec .srcRstr s = enterFailure .malformedTree { s with
        ser := units, env := s.env.after (reads (hi :: lo :: units ++ [bad])) })

/-- SRC.CLOSE (spec/41_bitsource.md R143): the source is released, buffered bits are discarded unread. -/
def Obligations.SrcCloseReleases : Prop :=
  ∀ s : State, s.rclosed = false → s.env.obliging →
    exec .srcClose s = .next { s with
      rclosed := true, result := .none, env := s.env.after [.srcRelease true] }

/-- spec/60_exceptions.md R243: `End` where SRC.RBIT, SRC.RINT or SRC.RSTR needs a byte. -/
def Obligations.EndOfStreamRaised : Prop :=
  ∀ s : State, s.rclosed = false → s.rcnt = 0 → s.env.obliging →
    let ended := fun (u : State) => enterFailure .endOfStream
      { u with env := s.env.after (reads s.env.src ++ [.srcNext .eof]) }
    (s.env.src = [] → exec .srcRbit s = ended s) ∧
    (s.env.src.length < 4 → exec .srcRint s = ended s) ∧
    (s.env.src.length < 2 → exec .srcRstr s = ended s) ∧
    (∀ (hi lo : Byte) (units : List Byte), s.env.src = hi :: lo :: units →
      units.length < hi.toNat * 256 + lo.toNat → hi.toNat * 256 + lo.toNat ≤ 255 →
      (∀ u ∈ units, u.toNat ≤ 128) → exec .srcRstr s = ended { s with ser := units })

/-! ## PriorityQueue -/

/-- PQ.INSERT (spec/42_priority_queue.md R162) adds one entry, stamped with `SEQ`, and changes nothing but
the queue and `SEQ`; the order of R168 is kept. -/
def Obligations.InsertAddsEntry : Prop :=
  ∀ (s : State) (key : Word) (payload : NodeRef), s.heap.length < 128 → s.seq ≠ 255 →
    ∃ h, exec (.pqInsert key payload) s = .next { s with heap := h, seq := s.seq + 1, result := .none } ∧
      h.Perm ({ key := key, seq := s.seq, pay := payload } :: s.heap) ∧
      (s.QueueInv → heapOrdered h)

/-- PQ.DELMIN (spec/42_priority_queue.md R163, R168) returns the payload of the least entry of the queue
and removes that entry and nothing else; `SEQ` is not changed. -/
def Obligations.DelminTakesLeast : Prop :=
  ∀ (s : State) (top : HeapEntry) (rest : List HeapEntry), s.QueueInv → s.heap = top :: rest →
    ∃ h, exec .pqDelmin s = .next { s with heap := h, result := .node top.pay } ∧
      h.Perm rest ∧ heapOrdered h ∧
      ∀ e ∈ rest, top.key.toNat < e.key.toNat ∨ top.key = e.key ∧ top.seq.toNat < e.seq.toNat

/-- PQ.PEEK, PQ.ISEMPTY, PQ.ISFULL and PQ.SIZE (spec/42_priority_queue.md R164 to R167), with their
codes, answer and write nothing; PQ.PEEK raises Precondition on the empty queue. -/
def Obligations.QueueQueriesAnswer : Prop :=
  ∀ (s : State) (t : Transfer),
    (∀ top rest, s.heap = top :: rest → exec .pqPeek s = .next { s with result := .key top.key }) ∧
    (s.heap = [] → exec .pqPeek s = enterFailure .precondition s) ∧
    exec .pqIsempty s = .next { s with result := .flag (decide (s.heap.length = 0)) } ∧
    exec .pqIsfull s = .next { s with result := .flag (decide (s.heap.length = 128)) } ∧
    exec .pqSize s = .next { s with result := .size (BitVec.ofNat 8 s.heap.length) } ∧
    (decode t = .ok .pqPeek ↔ t.op = 0x32) ∧ (decode t = .ok .pqIsempty ↔ t.op = 0x33) ∧
    (decode t = .ok .pqIsfull ↔ t.op = 0x34) ∧ (decode t = .ok .pqSize ↔ t.op = 0x35)

/-- "for every non-root entry, parent key ≤ child key" (spec/42_priority_queue.md R168), with the capacity
and the sequence numbers that the argument needs: every step keeps it. -/
def Obligations.StepKeepsQueueInv : Prop :=
  ∀ s u : State, s.QueueInv → step s = .next u →
    u.QueueInv ∧ ∀ i, 2 ≤ i → i ≤ u.heap.length →
      ∃ p c, u.heap[i / 2 - 1]? = some p ∧ u.heap[i - 1]? = some c ∧ p.key.toNat ≤ c.key.toNat

/-! ## HuffmanTree -/

/-- HT.BUILD (spec/43_huffman_tree.md R181) builds, from every frequency table, the tree that the source's
Build gives on an ordered list: no tree for no Symbol, else one leaf per occurring Symbol. The queue ends
empty; nothing but the queue, `SEQ`, the node store and `ROOT` is written. For counts whose sum is 2^32 or
more the keys add modulo 2^32, which is the model's choice (log 17). -/
def Obligations.BuildIsHuffman : Prop :=
  ∀ s : State, ∃ u, exec .htBuild s = .next u ∧
    u = { s with heap := [], seq := u.seq, nodes := u.nodes, root := u.root, result := .none } ∧
    (s.occurring = [] → u.nodes = [] ∧ u.root = 255 ∧ u.seq = 0) ∧
    (s.occurring ≠ [] → ∃ t, s.huffman = some t ∧ u.ownsTree t ∧ t.symbols.Perm s.occurring ∧
      u.nodes.length = 2 * s.occurring.length - 1 ∧ u.seq.toNat = 2 * s.occurring.length - 1)

/-- HT.GENCODES and HT.SER (spec/43_huffman_tree.md R182, R184) on a tree of at most 128 leaves and on the
empty tree: the code table is the tree's, the description is its post-order; nothing else is written. -/
def Obligations.TraversalsOfTree : Prop :=
  ∀ s : State,
    (∀ t : Tree, s.holdsTree t → t.symbols.length ≤ 128 →
      exec .htGencodes s = .next { s with code := t.codeTable, result := .none } ∧
      exec .htSer s = .next { s with ser := t.postorder, result := .none }) ∧
    (s.root = 255 →
      exec .htGencodes s = .next { s with code := Vector.replicate 128 [], result := .none } ∧
      exec .htSer s = .next { s with ser := [], result := .none })

/-- HT.DESER (spec/43_huffman_tree.md R185) on the description of a tree of at most 128 leaves, repeated
Symbols allowed, and on the empty description. -/
def Obligations.DeserRebuildsTree : Prop :=
  ∀ s : State,
    (∀ t : Tree, s.ser = t.postorder → t.symbols.length ≤ 128 →
      ∃ u, exec .htDeser s = .next u ∧
        u = { s with nodes := u.nodes, root := u.root, stk := [], result := .none } ∧
        u.ownsTree t ∧ u.nodes.length = t.postorder.length) ∧
    (s.ser = [] → exec .htDeser s = .next { s with nodes := [], root := 255, stk := [], result := .none })

/-- HT.DESER fails with MalformedTree on every other description that SRC.RSTR lets through
(spec/43_huffman_tree.md R185): underflow, a count other than one at the end, or a full stack. -/
def Obligations.DeserRejectsNonTree : Prop :=
  ∀ s : State, s.ser ≠ [] → s.ser.length ≤ 255 → (∀ v ∈ s.ser, v.toNat ≤ 128) →
    (¬ ∃ t : Tree, s.ser = t.postorder) →
    ∃ u, exec .htDeser s = enterFailure .malformedTree u ∧
      u = { s with nodes := u.nodes, root := 255, stk := u.stk }

/-- "for all trees produced by the build step, `deserialize(serialize(t))` is structurally identical to
`t`" (spec/43_huffman_tree.md R186), the empty tree included. -/
def Obligations.SerializeDeserializeInverse : Prop :=
  ∀ s : State, ∃ u v w, exec .htBuild s = .next u ∧ exec .htSer u = .next v ∧ exec .htDeser v = .next w ∧
    (∀ t : Tree, u.holdsTree t → w.holdsTree t) ∧ (u.root = 255 ↔ w.root = 255) ∧
    (u.root ≠ 255 → ∃ t : Tree, u.holdsTree t)

/-- The code table after HT.BUILD and HT.GENCODES (spec/43_huffman_tree.md R183): exactly the occurring
Symbols have a code, no code is a prefix of another, and no code is longer than 127 bits. -/
def Obligations.CodeTablePrefixFree : Prop :=
  ∀ s : State, ∃ u v, exec .htBuild s = .next u ∧ exec .htGencodes u = .next v ∧
    (∀ sym, v.codeAt sym ≠ [] ↔ s.freqAt sym ≠ 0) ∧
    (∀ a b, a ≠ b → v.codeAt a ≠ [] → v.codeAt b ≠ [] → ¬ v.codeAt a <+: v.codeAt b) ∧
    (∀ sym, (v.codeAt sym).length ≤ 127)

/-- No code tree over the occurring Symbols is cheaper than the one HT.BUILD makes
(spec/43_huffman_tree.md R183, optimality, stated of code trees), when there are two or more of them and
the counts add up without wrapping. -/
def Obligations.CodeTableOptimal : Prop :=
  ∀ s : State, 2 ≤ s.occurring.length → (s.occurring.map fun sym => (s.freqAt sym).toNat).sum < 2 ^ 32 →
    ∃ u v, exec .htBuild s = .next u ∧ exec .htGencodes u = .next v ∧
      ∀ t : Tree, t.symbols.Perm s.occurring →
        (s.occurring.map fun sym => (s.freqAt sym).toNat * (v.codeAt sym).length).sum ≤ s.treeCost t

/-! ## Codec -/

/-- CODEC.FCOUNT (spec/44_codec.md R210) on bytes below 128 whose number the header can hold. That a count
goes on modulo 2^32, in states that only a harness reaches, is the model's choice (log 17). -/
def Obligations.FcountCounts : Prop :=
  ∀ s : State, (∀ b ∈ s.env.src, b.toNat ≤ 127) → s.total.toNat + s.env.src.length ≤ 2147483647 →
    s.env.obliging →
    ∃ u, exec .codecFcount s = .next u ∧
      u = { s with
        freq := u.freq, total := s.total + BitVec.ofNat 32 s.env.src.length, result := .none
        env := s.env.after (reads s.env.src ++ [.srcNext .eof]) } ∧
      ∀ sym, u.freqAt sym = s.freqAt sym + BitVec.ofNat 32 (s.env.src.count sym.byte)

/-- CODEC.FCOUNT faults (spec/44_codec.md R210): SymbolRange at the first byte above 127, also when the
count is full; CountOverflow at a byte that the count cannot hold; the bytes before are counted, modulo
2^32 by the model's choice (log 17). -/
def Obligations.FcountRejects : Prop :=
  ∀ (s : State) (good rest : List Byte) (b : Byte), s.env.src = good ++ b :: rest →
    (∀ x ∈ good, x.toNat ≤ 127) → s.env.obliging →
    (127 < b.toNat → s.total.toNat + good.length ≤ 2147483647 →
      ∃ u, exec .codecFcount s = enterFailure .symbolRange u ∧
        u = { s with
          freq := u.freq, total := s.total + BitVec.ofNat 32 good.length
          env := s.env.after (reads (good ++ [b])) } ∧
        ∀ sym, u.freqAt sym = s.freqAt sym + BitVec.ofNat 32 (good.count sym.byte)) ∧
    (b.toNat ≤ 127 → s.total.toNat + good.length = 2147483647 →
      ∃ u, exec .codecFcount s = enterFailure .countOverflow u ∧
        u = { s with
          freq := u.freq, total := 2147483647, env := s.env.after (reads (good ++ [b])) } ∧
        ∀ sym, u.freqAt sym = s.freqAt sym + BitVec.ofNat 32 (good.count sym.byte))

/-- CODEC.WHEADER (spec/44_codec.md R211) for a tree and for the empty tree. -/
def Obligations.WheaderWrites : Prop :=
  ∀ s : State, s.sclosed = false → s.wcnt = 0 → s.env.obliging →
    (∀ t : Tree, s.holdsTree t → t.symbols.length ≤ 128 →
      exec .codecWheader s = .next { s with
        ser := t.postorder, result := .none
        env := s.env.after
          (puts (bigEndianBytes s.total ++ 0x00 :: BitVec.ofNat 8 t.postorder.length :: t.postorder)) }) ∧
    (s.root = 255 →
      exec .codecWheader s = .next { s with
        ser := [], result := .none, env := s.env.after (puts (bigEndianBytes s.total ++ [0x00, 0x00])) })

/-- CODEC.WPAYLOAD (spec/44_codec.md R214) on a replay of `TOTAL` bytes that all have codes: the codes are
fed to the BitSink in order. -/
def Obligations.WpayloadWrites : Prop :=
  ∀ s : State, s.sclosed = false → s.SinkInv → s.env.obliging →
    (∀ b ∈ s.env.replay, b.toNat ≤ 127 ∧ s.codeAt (symbolOf b) ≠ []) → s.env.replay.length = s.total.toNat →
    ∃ u, exec .codecWpayload s = .next u ∧
      u = { s with
        wbuf := u.wbuf, wcnt := u.wcnt, result := .none
        env := s.env.after
          (.srcRewind true :: s.payloadCalls s.pendingBits s.env.replay ++ [.srcNext .eof]) } ∧
      u.env.src = [] ∧ u.env.replay = s.env.replay ∧
      sourceBytes u.env.log = sourceBytes s.env.log ++ s.env.replay ∧
      sinkBytes u.env.log = sinkBytes s.env.log ++ fullBytes (s.pendingBits ++ s.payloadBits s.env.replay) ∧
      u.pendingBits = leftoverBits (s.pendingBits ++ s.payloadBits s.env.replay) ∧ u.SinkInv

/-- CODEC.WPAYLOAD raises ReplayMismatch (spec/44_codec.md R214, spec/60_exceptions.md R248) at a byte above
127, at a byte without a code, at a byte after `TOTAL` bytes, and at `End` before `TOTAL` bytes; the bytes
before have been encoded as ever, the byte is read and nothing else is done. -/
def Obligations.WpayloadRejects : Prop :=
  ∀ (s : State) (good rest : List Byte) (b : Byte), s.sclosed = false → s.SinkInv → s.env.obliging →
    (∀ x ∈ good, x.toNat ≤ 127 ∧ s.codeAt (symbolOf x) ≠ []) → good.length ≤ s.total.toNat →
    let rejectedAt := fun (last : PortEvent) =>
      ∃ u, exec .codecWpayload s = enterFailure .replayMismatch u ∧
        u = { s with
          wbuf := u.wbuf, wcnt := u.wcnt
          env := s.env.after (.srcRewind true :: s.payloadCalls s.pendingBits good ++ [last]) } ∧
        sinkBytes u.env.log = sinkBytes s.env.log ++ fullBytes (s.pendingBits ++ s.payloadBits good) ∧
        u.pendingBits = leftoverBits (s.pendingBits ++ s.payloadBits good) ∧ u.SinkInv
    (s.env.replay = good ++ b :: rest →
      127 < b.toNat ∨ s.codeAt (symbolOf b) = [] ∨ good.length = s.total.toNat →
      rejectedAt (.srcNext (.byte b))) ∧
    (s.env.replay = good → good.length < s.total.toNat → rejectedAt (.srcNext .eof))

/-- CODEC.RHEADER (spec/44_codec.md R212) on a count that is not negative and the description of a tree,
and on the empty input's header. -/
def Obligations.RheaderReads : Prop :=
  ∀ (s : State) (rest : List Byte), s.rclosed = false → s.rcnt = 0 → s.env.obliging →
    (∀ (v : Word) (t : Tree), v.msb = false → t.symbols.length ≤ 128 →
      s.env.src = bigEndianBytes v ++ 0x00 :: BitVec.ofNat 8 t.postorder.length :: t.postorder ++ rest →
      ∃ u, exec .codecRheader s = .next u ∧
        u = { s with
          total := v, ser := t.postorder, nodes := u.nodes, root := u.root, stk := [], result := .none
          env := s.env.after
            (reads (bigEndianBytes v ++ 0x00 :: BitVec.ofNat 8 t.postorder.length :: t.postorder)) } ∧
        u.ownsTree t) ∧
    (s.env.src = [0x00, 0x00, 0x00, 0x00, 0x00, 0x00] ++ rest →
      exec .codecRheader s = .next { s with
        total := 0, ser := [], nodes := [], root := 255, stk := [], result := .none
        env := s.env.after (reads [0x00, 0x00, 0x00, 0x00, 0x00, 0x00]) })

/-- CODEC.RHEADER faults (spec/44_codec.md R212, in the order of spec/60_exceptions.md R251): EndOfStream in
the count; BadCount for a negative count, before the description is read; and for every other count, 0 among
them, with `TOTAL` written: EndOfStream in the length or the units, MalformedTree for a length above 255, for
a unit above 128 and for a description that is no tree's, and for a positive count with the empty one. -/
def Obligations.RheaderRejects : Prop :=
  ∀ (s : State) (v : Word) (rest : List Byte), s.rclosed = false → s.rcnt = 0 → s.env.obliging →
    let ended := fun (u : State) => enterFailure .endOfStream
      { u with env := s.env.after (reads s.env.src ++ [.srcNext .eof]) }
    let malformed := fun (u : State) (bytes : List Byte) => enterFailure .malformedTree
      { u with env := s.env.after (reads bytes) }
    (s.env.src.length < 4 → exec .codecRheader s = ended s) ∧
    (s.env.src = bigEndianBytes v ++ rest → v.toInt < 0 →
      exec .codecRheader s = enterFailure .badCount { s with
        total := v, env := s.env.after (reads (bigEndianBytes v)) }) ∧
    (s.env.src = bigEndianBytes v ++ [0x00, 0x00] ++ rest → 0 < v.toInt →
      exec .codecRheader s = malformed { s with total := v, ser := [], nodes := [], root := 255, stk := [] }
        (bigEndianBytes v ++ [0x00, 0x00])) ∧
    (s.env.src = bigEndianBytes v ++ rest → 0 ≤ v.toInt → rest.length < 2 →
      exec .codecRheader s = ended { s with total := v }) ∧
    (∀ (hi lo : Byte) (units tail : List Byte), 0 ≤ v.toInt → (∀ u ∈ units, u.toNat ≤ 128) →
      (s.env.src = bigEndianBytes v ++ hi :: lo :: tail → 255 < hi.toNat * 256 + lo.toNat →
        exec .codecRheader s = malformed { s with total := v } (bigEndianBytes v ++ [hi, lo])) ∧
      (s.env.src = bigEndianBytes v ++ hi :: lo :: units → units.length < hi.toNat * 256 + lo.toNat →
        hi.toNat * 256 + lo.toNat ≤ 255 →
        exec .codecRheader s = ended { s with total := v, ser := units }) ∧
      (∀ bad : Byte, s.env.src = bigEndianBytes v ++ hi :: lo :: units ++ bad :: tail → 128 < bad.toNat →
        units.length < hi.toNat * 256 + lo.toNat → hi.toNat * 256 + lo.toNat ≤ 255 →
        exec .codecRheader s = malformed { s with total := v, ser := units }
          (bigEndianBytes v ++ hi :: lo :: units ++ [bad])) ∧
      (s.env.src = bigEndianBytes v ++ hi :: lo :: units ++ tail → units.length = hi.toNat * 256 + lo.toNat →
        units.length ≤ 255 → units ≠ [] → (¬ ∃ t : Tree, units = t.postorder) →
        ∃ u, exec .codecRheader s = malformed u (bigEndianBytes v ++ hi :: lo :: units) ∧
          u = { s with total := v, ser := units, nodes := u.nodes, root := 255, stk := u.stk }))

/-- CODEC.WALK (spec/44_codec.md R213): `xs` are the Symbols with the bits that lead to each; they are
emitted in order and no further bit is read. With `TOTAL` = 0 nothing is read, with or without a tree. -/
def Obligations.WalkEmitsSymbols : Prop :=
  ∀ s : State,
    (∀ (t : Tree) (xs : List (Symbol × Bits)) (rest : Bits), s.rclosed = false → s.SourceInv → s.env.obliging →
      s.holdsTree t → s.nodes.length ≤ 255 → (∀ x ∈ xs, t.reaches x.2 x.1) →
      s.total.toNat = xs.length → s.total.msb = false → s.bitsAhead = xs.flatMap (·.2) ++ rest →
      ∃ u, exec .codecWalk s = .next u ∧
        u = { s with
          remain := 0, cursor := s.root, rbuf := u.rbuf, rcnt := u.rcnt, result := .none
          env := s.env.after (walkCalls s.rcnt.toNat s.env.src xs) } ∧
        u.bitsAhead = rest ∧ u.SourceInv ∧
        sinkBytes u.env.log = sinkBytes s.env.log ++ xs.map (fun x => x.1.byte) ∧
        sourceBytes u.env.log ++ u.env.src = sourceBytes s.env.log ++ s.env.src ∧
        u.env.replay = s.env.replay) ∧
    (s.total = 0 → exec .codecWalk s = .next { s with remain := 0, cursor := s.root, result := .none })

/-- A truncated payload (spec/60_exceptions.md R251): "every symbol whose code was complete is emitted
before EndOfStream is raised", the source is read to its end, and the cursor stands where the bits left over
lead. -/
def Obligations.WalkTruncatedPayload : Prop :=
  ∀ (s : State) (t : Tree) (xs : List (Symbol × Bits)) (p : Bits), s.rclosed = false → s.SourceInv →
    s.env.obliging → s.holdsTree t → s.nodes.length ≤ 255 → (∀ x ∈ xs, t.reaches x.2 x.1) →
    xs.length < s.total.toNat → s.total.msb = false → s.bitsAhead = xs.flatMap (·.2) ++ p →
    (∀ q sym, q <+: p → ¬ t.reaches q sym) →
    let calls := walkCalls s.rcnt.toNat s.env.src xs
    ∃ u, exec .codecWalk s = enterFailure .endOfStream u ∧
      u = { s with
        remain := s.total - BitVec.ofNat 32 xs.length, cursor := follow s.nodes s.root p
        rbuf := u.rbuf, rcnt := u.rcnt
        env := s.env.after (calls ++ reads (s.env.src.drop (sourceBytes calls).length) ++ [.srcNext .eof]) } ∧
      u.bitsAhead = [] ∧ sinkBytes u.env.log = sinkBytes s.env.log ++ xs.map (fun x => x.1.byte)

/-! ## Invocations -/

/-- ENCODE (spec/44_codec.md R215) of any input of bytes below 128, faithfully replayed to a host that
fails no call: the sink receives the container of spec/30_encoding.md R90 for the Huffman tree of the
input, the source is read twice to its end, both streams are released, and STATUS is `DONE`. -/
def Obligations.EncodeWritesContainer : Prop :=
  ∀ (s : State) (x : List Byte), s.busy = false → s.env.src = x → s.env.replay = x →
    (∀ b ∈ x, b.toNat ≤ 127) → x.length ≤ 2147483647 → s.env.obliging →
    ∃ u, exec .encode s = .next u ∧ u.status = 0x020E ∧
      u = { State.reset with
        phase := .done, total := BitVec.ofNat 32 x.length, sclosed := true, freq := u.freq, code := u.code
        seq := u.seq, nodes := u.nodes, root := u.root, ser := u.ser, env := u.env, stim := s.stim } ∧
      (∀ sym, u.freqAt sym = BitVec.ofNat 32 (x.count sym.byte)) ∧
      (x = [] ∧ u.ser = [] ∧ u.code = Vector.replicate 128 [] ∨
        ∃ t, u.huffman = some t ∧ u.ser = t.postorder ∧ u.code = t.codeTable) ∧
      sinkBytes u.env.log = sinkBytes s.env.log ++ container x.length u.ser (u.payloadBits x) ∧
      sourceBytes u.env.log = sourceBytes s.env.log ++ x ++ x ∧ u.env.src = [] ∧ u.env.replay = x ∧
      ∃ l, u.env.log = l ++ [.snkClose true, .srcRelease true]

/-- The length of the container (spec/30_encoding.md R94). -/
def Obligations.ContainerLength : Prop :=
  ∀ (s : State) (x : List Byte), s.busy = false → s.env.src = x → s.env.replay = x →
    (∀ b ∈ x, b.toNat ≤ 127) → x.length ≤ 2147483647 → s.env.obliging →
    ∃ u, exec .encode s = .next u ∧
      let p := (allSymbols.map fun sym => (u.freqAt sym).toNat * (u.codeAt sym).length).sum
      (sinkBytes u.env.log).length = (sinkBytes s.env.log).length + (4 + 2 + u.ser.length + (p + 7) / 8)

/-- DECODE (spec/44_codec.md R219) of a container with any tree of at most 128 leaves, `xs` being the
Symbols with the bits that lead to each: they are emitted, exactly ceil(B / 8) payload bytes are read
(R220), both streams are released, and STATUS is `DONE`. And of the empty input's container. -/
def Obligations.DecodeReadsContainer : Prop :=
  ∀ s : State, s.busy = false → s.env.obliging →
    (∀ (t : Tree) (xs : List (Symbol × Bits)) (payload : List Byte) (rest : Bits),
      t.symbols.length ≤ 128 → xs.length ≤ 2147483647 → (∀ x ∈ xs, t.reaches x.2 x.1) →
      payload.flatMap bitsOfByte = xs.flatMap (·.2) ++ rest →
      let header := bigEndianBytes (BitVec.ofNat 32 xs.length) ++
        0x00 :: BitVec.ofNat 8 t.postorder.length :: t.postorder
      s.env.src = header ++ payload →
      ∃ u, exec .decode s = .next u ∧ u.status = 0x020E ∧
        u = { State.reset with
          phase := .done, total := BitVec.ofNat 32 xs.length, cursor := u.root, root := u.root
          nodes := u.nodes, ser := t.postorder, rbuf := u.rbuf, rcnt := u.rcnt, rclosed := true
          env := u.env, stim := s.stim } ∧
        u.ownsTree t ∧
        sinkBytes u.env.log = sinkBytes s.env.log ++ xs.map (fun x => x.1.byte) ∧
        sourceBytes u.env.log = sourceBytes s.env.log ++ header ++
          payload.take (((xs.flatMap (·.2)).length + 7) / 8) ∧
        u.env.src = payload.drop (((xs.flatMap (·.2)).length + 7) / 8) ∧
        ∃ l, u.env.log = l ++ [.srcRelease true, .snkClose true]) ∧
    (∀ extra : List Byte, s.env.src = [0x00, 0x00, 0x00, 0x00, 0x00, 0x00] ++ extra →
      exec .decode s = .next { State.reset with
        phase := .done, rclosed := true, stim := s.stim
        env := s.env.after (reads [0x00, 0x00, 0x00, 0x00, 0x00, 0x00] ++ [.srcRelease true, .snkClose true]) })

/-- "for all byte sequences composed of values in [0,127], `decode(encode(x)) == x`"
(spec/44_codec.md R221), for every length the count can hold, whatever the two blocks held before. -/
def Obligations.RoundTrip : Prop :=
  ∀ (x : List Byte) (s : State), s.busy = false → (∀ b ∈ x, b.toNat ≤ 127) → x.length ≤ 2147483647 →
    s.env.obliging → s.env.src = x → s.env.replay = x →
    ∃ u c, exec .encode s = .next u ∧ u.phase = .done ∧ sinkBytes u.env.log = sinkBytes s.env.log ++ c ∧
      ∀ s' : State, s'.busy = false → s'.env.obliging → s'.env.src = c →
        ∃ u', exec .decode s' = .next u' ∧ u'.phase = .done ∧
          sinkBytes u'.env.log = sinkBytes s'.env.log ++ x

/-- "Trailing bytes are therefore ignored" (spec/44_codec.md R220): a successful DECODE goes the same way
whatever bytes follow, and leaves them unread. -/
def Obligations.TrailingBytesIgnored : Prop :=
  ∀ (s u : State) (extra : List Byte), s.busy = false → exec .decode s = .next u → u.phase = .done →
    exec .decode (s.withEnv { s.env with src := s.env.src ++ extra }) =
      .next (u.withEnv { u.env with src := u.env.src ++ extra })

/-! ## Invariants of every step -/

/-- The tree, the description and the code table keep their capacities and their shape
(spec/10_state.md R27, R30 to R32, spec/00_scope.md R7). -/
def Obligations.StepKeepsTreeInv : Prop :=
  ∀ s u : State, s.TreeInv → step s = .next u → u.TreeInv

/-- `WCNT` ≤ 7 with `WBUF` clear above it outside `FAILED`, and `RCNT` ≤ 7, after every step
(spec/10_state.md R34, spec/40_bitsink.md R124, spec/41_bitsource.md R144). A step from an intact sink leaves
it intact in `FAILED` as well, but for the one raise that R253 of spec/60_exceptions.md puts at a full buffer,
the failed `SnkPut` of SNK.WBITS (log 15). -/
def Obligations.StepKeepsStreamBuffers : Prop :=
  ∀ s u : State, step s = .next u →
    ((s.phase ≠ .failed → s.SinkInv) → u.phase ≠ .failed → u.SinkInv) ∧
    (s.SinkInv → u.SinkInv ∨ (u.phase = .failed ∧ u.err = .ioError ∧ u.wcnt = 8)) ∧
    (s.SourceInv → u.SourceInv)

/-- `ERR` is not 0 exactly in `FAILED` (spec/10_state.md R23, R24, spec/70_reset_and_hazards.md R274). -/
def Obligations.StepKeepsErrInv : Prop :=
  ∀ s u : State, s.ErrInv → step s = .next u → u.ErrInv

/-- The invariants hold at reset. -/
def Obligations.ResetMeetsInvariants : Prop :=
  State.reset.QueueInv ∧ State.reset.TreeInv ∧ State.reset.SinkInv ∧ State.reset.SourceInv ∧ State.reset.ErrInv

/-- In every state that keeps the invariants of the tree, a host that answers its port calls makes every
step answer a next state: no error of the block stops the machine (spec/60_exceptions.md R252,
spec/70_reset_and_hazards.md R290: "termination of every operation follows .. given that every port call is
answered"). -/
def Obligations.AnsweredStepsComplete : Prop :=
  ∀ s : State, s.TreeInv → s.env.answering → s.properStimulus → ∃ u, step s = .next u
end

