-- ==== Sys2Proof/Laws/Decode.lean ====
section
/-! SUPPORT. The operand port of SNK.WBITS, and what the decoder answers. -/

namespace Sys2Proof

/-- Bit `i` of the number put on the port is element `i` of the sequence. -/
theorem sequenceNat_testBit (bits : Bits) (i : Nat) : (sequenceNat bits).testBit i = bits.getD i false := by
  induction bits generalizing i with
  | nil => simp [sequenceNat]
  | cons b rest ih =>
    have hb : b.toNat < 2 := b.toNat_lt
    cases i with
    | zero =>
      cases b <;> simp [sequenceNat, Nat.testBit_zero, Nat.add_mod]
    | succ i =>
      rw [Nat.testBit_succ]
      have : sequenceNat (b :: rest) / 2 = sequenceNat rest := by
        simp only [sequenceNat]; omega
      rw [this, ih]
      simp

/-- The decoder answers well-formed operations only. -/
theorem decode_wellFormed {t : Transfer} {i : Instr} (h : decode t = .ok i) : i.wellFormed = true := by
  unfold decode at h
  split at h <;> simp at h <;> subst h <;> simp [Instr.wellFormed, portSequence]
  have := t.len.isLt
  omega

end Sys2Proof
end

