-- ==== Sys2Proof/Laws/State.lean ====
section
/-! SUPPORT. One lemma per field per named update of the state, and the table laws. -/

namespace Sys2Proof.Machine

variable (s : State)

/-! ## `State.record` -/

@[simp] theorem State.record_total (e : PortEvent) : (s.record e).total = s.total := rfl
@[simp] theorem State.record_remain (e : PortEvent) : (s.record e).remain = s.remain := rfl
@[simp] theorem State.record_cursor (e : PortEvent) : (s.record e).cursor = s.cursor := rfl
@[simp] theorem State.record_root (e : PortEvent) : (s.record e).root = s.root := rfl
@[simp] theorem State.record_seq (e : PortEvent) : (s.record e).seq = s.seq := rfl
@[simp] theorem State.record_wbuf (e : PortEvent) : (s.record e).wbuf = s.wbuf := rfl
@[simp] theorem State.record_wcnt (e : PortEvent) : (s.record e).wcnt = s.wcnt := rfl
@[simp] theorem State.record_sclosed (e : PortEvent) : (s.record e).sclosed = s.sclosed := rfl
@[simp] theorem State.record_rbuf (e : PortEvent) : (s.record e).rbuf = s.rbuf := rfl
@[simp] theorem State.record_rcnt (e : PortEvent) : (s.record e).rcnt = s.rcnt := rfl
@[simp] theorem State.record_rclosed (e : PortEvent) : (s.record e).rclosed = s.rclosed := rfl
@[simp] theorem State.record_phase (e : PortEvent) : (s.record e).phase = s.phase := rfl
@[simp] theorem State.record_err (e : PortEvent) : (s.record e).err = s.err := rfl
@[simp] theorem State.record_freq (e : PortEvent) : (s.record e).freq = s.freq := rfl
@[simp] theorem State.record_code (e : PortEvent) : (s.record e).code = s.code := rfl
@[simp] theorem State.record_heap (e : PortEvent) : (s.record e).heap = s.heap := rfl
@[simp] theorem State.record_nodes (e : PortEvent) : (s.record e).nodes = s.nodes := rfl
@[simp] theorem State.record_stk (e : PortEvent) : (s.record e).stk = s.stk := rfl
@[simp] theorem State.record_ser (e : PortEvent) : (s.record e).ser = s.ser := rfl
@[simp] theorem State.record_result (e : PortEvent) : (s.record e).result = s.result := rfl
@[simp] theorem State.record_env (e : PortEvent) : (s.record e).env = { s.env with log := s.env.log ++ [e] } := rfl
@[simp] theorem State.record_stim (e : PortEvent) : (s.record e).stim = s.stim := rfl

/-! ## `State.withEnv` -/

@[simp] theorem State.withEnv_total (e : Env) : (s.withEnv e).total = s.total := rfl
@[simp] theorem State.withEnv_remain (e : Env) : (s.withEnv e).remain = s.remain := rfl
@[simp] theorem State.withEnv_cursor (e : Env) : (s.withEnv e).cursor = s.cursor := rfl
@[simp] theorem State.withEnv_root (e : Env) : (s.withEnv e).root = s.root := rfl
@[simp] theorem State.withEnv_seq (e : Env) : (s.withEnv e).seq = s.seq := rfl
@[simp] theorem State.withEnv_wbuf (e : Env) : (s.withEnv e).wbuf = s.wbuf := rfl
@[simp] theorem State.withEnv_wcnt (e : Env) : (s.withEnv e).wcnt = s.wcnt := rfl
@[simp] theorem State.withEnv_sclosed (e : Env) : (s.withEnv e).sclosed = s.sclosed := rfl
@[simp] theorem State.withEnv_rbuf (e : Env) : (s.withEnv e).rbuf = s.rbuf := rfl
@[simp] theorem State.withEnv_rcnt (e : Env) : (s.withEnv e).rcnt = s.rcnt := rfl
@[simp] theorem State.withEnv_rclosed (e : Env) : (s.withEnv e).rclosed = s.rclosed := rfl
@[simp] theorem State.withEnv_phase (e : Env) : (s.withEnv e).phase = s.phase := rfl
@[simp] theorem State.withEnv_err (e : Env) : (s.withEnv e).err = s.err := rfl
@[simp] theorem State.withEnv_freq (e : Env) : (s.withEnv e).freq = s.freq := rfl
@[simp] theorem State.withEnv_code (e : Env) : (s.withEnv e).code = s.code := rfl
@[simp] theorem State.withEnv_heap (e : Env) : (s.withEnv e).heap = s.heap := rfl
@[simp] theorem State.withEnv_nodes (e : Env) : (s.withEnv e).nodes = s.nodes := rfl
@[simp] theorem State.withEnv_stk (e : Env) : (s.withEnv e).stk = s.stk := rfl
@[simp] theorem State.withEnv_ser (e : Env) : (s.withEnv e).ser = s.ser := rfl
@[simp] theorem State.withEnv_result (e : Env) : (s.withEnv e).result = s.result := rfl
@[simp] theorem State.withEnv_env (e : Env) : (s.withEnv e).env = e := rfl
@[simp] theorem State.withEnv_stim (e : Env) : (s.withEnv e).stim = s.stim := rfl

/-! ## `State.setFreq` -/

@[simp] theorem State.setFreq_total (sym : Symbol) (v : Word) : (s.setFreq sym v).total = s.total := rfl
@[simp] theorem State.setFreq_remain (sym : Symbol) (v : Word) : (s.setFreq sym v).remain = s.remain := rfl
@[simp] theorem State.setFreq_cursor (sym : Symbol) (v : Word) : (s.setFreq sym v).cursor = s.cursor := rfl
@[simp] theorem State.setFreq_root (sym : Symbol) (v : Word) : (s.setFreq sym v).root = s.root := rfl
@[simp] theorem State.setFreq_seq (sym : Symbol) (v : Word) : (s.setFreq sym v).seq = s.seq := rfl
@[simp] theorem State.setFreq_wbuf (sym : Symbol) (v : Word) : (s.setFreq sym v).wbuf = s.wbuf := rfl
@[simp] theorem State.setFreq_wcnt (sym : Symbol) (v : Word) : (s.setFreq sym v).wcnt = s.wcnt := rfl
@[simp] theorem State.setFreq_sclosed (sym : Symbol) (v : Word) : (s.setFreq sym v).sclosed = s.sclosed := rfl
@[simp] theorem State.setFreq_rbuf (sym : Symbol) (v : Word) : (s.setFreq sym v).rbuf = s.rbuf := rfl
@[simp] theorem State.setFreq_rcnt (sym : Symbol) (v : Word) : (s.setFreq sym v).rcnt = s.rcnt := rfl
@[simp] theorem State.setFreq_rclosed (sym : Symbol) (v : Word) : (s.setFreq sym v).rclosed = s.rclosed := rfl
@[simp] theorem State.setFreq_phase (sym : Symbol) (v : Word) : (s.setFreq sym v).phase = s.phase := rfl
@[simp] theorem State.setFreq_err (sym : Symbol) (v : Word) : (s.setFreq sym v).err = s.err := rfl
@[simp] theorem State.setFreq_freq (sym : Symbol) (v : Word) : (s.setFreq sym v).freq = s.freq.set sym.toNat v (by have := sym.isLt; omega) := rfl
@[simp] theorem State.setFreq_code (sym : Symbol) (v : Word) : (s.setFreq sym v).code = s.code := rfl
@[simp] theorem State.setFreq_heap (sym : Symbol) (v : Word) : (s.setFreq sym v).heap = s.heap := rfl
@[simp] theorem State.setFreq_nodes (sym : Symbol) (v : Word) : (s.setFreq sym v).nodes = s.nodes := rfl
@[simp] theorem State.setFreq_stk (sym : Symbol) (v : Word) : (s.setFreq sym v).stk = s.stk := rfl
@[simp] theorem State.setFreq_ser (sym : Symbol) (v : Word) : (s.setFreq sym v).ser = s.ser := rfl
@[simp] theorem State.setFreq_result (sym : Symbol) (v : Word) : (s.setFreq sym v).result = s.result := rfl
@[simp] theorem State.setFreq_env (sym : Symbol) (v : Word) : (s.setFreq sym v).env = s.env := rfl
@[simp] theorem State.setFreq_stim (sym : Symbol) (v : Word) : (s.setFreq sym v).stim = s.stim := rfl

/-! ## `State.setCode` -/

@[simp] theorem State.setCode_total (sym : Symbol) (p : Bits) : (s.setCode sym p).total = s.total := rfl
@[simp] theorem State.setCode_remain (sym : Symbol) (p : Bits) : (s.setCode sym p).remain = s.remain := rfl
@[simp] theorem State.setCode_cursor (sym : Symbol) (p : Bits) : (s.setCode sym p).cursor = s.cursor := rfl
@[simp] theorem State.setCode_root (sym : Symbol) (p : Bits) : (s.setCode sym p).root = s.root := rfl
@[simp] theorem State.setCode_seq (sym : Symbol) (p : Bits) : (s.setCode sym p).seq = s.seq := rfl
@[simp] theorem State.setCode_wbuf (sym : Symbol) (p : Bits) : (s.setCode sym p).wbuf = s.wbuf := rfl
@[simp] theorem State.setCode_wcnt (sym : Symbol) (p : Bits) : (s.setCode sym p).wcnt = s.wcnt := rfl
@[simp] theorem State.setCode_sclosed (sym : Symbol) (p : Bits) : (s.setCode sym p).sclosed = s.sclosed := rfl
@[simp] theorem State.setCode_rbuf (sym : Symbol) (p : Bits) : (s.setCode sym p).rbuf = s.rbuf := rfl
@[simp] theorem State.setCode_rcnt (sym : Symbol) (p : Bits) : (s.setCode sym p).rcnt = s.rcnt := rfl
@[simp] theorem State.setCode_rclosed (sym : Symbol) (p : Bits) : (s.setCode sym p).rclosed = s.rclosed := rfl
@[simp] theorem State.setCode_phase (sym : Symbol) (p : Bits) : (s.setCode sym p).phase = s.phase := rfl
@[simp] theorem State.setCode_err (sym : Symbol) (p : Bits) : (s.setCode sym p).err = s.err := rfl
@[simp] theorem State.setCode_freq (sym : Symbol) (p : Bits) : (s.setCode sym p).freq = s.freq := rfl
@[simp] theorem State.setCode_code (sym : Symbol) (p : Bits) : (s.setCode sym p).code = s.code.set sym.toNat p (by have := sym.isLt; omega) := rfl
@[simp] theorem State.setCode_heap (sym : Symbol) (p : Bits) : (s.setCode sym p).heap = s.heap := rfl
@[simp] theorem State.setCode_nodes (sym : Symbol) (p : Bits) : (s.setCode sym p).nodes = s.nodes := rfl
@[simp] theorem State.setCode_stk (sym : Symbol) (p : Bits) : (s.setCode sym p).stk = s.stk := rfl
@[simp] theorem State.setCode_ser (sym : Symbol) (p : Bits) : (s.setCode sym p).ser = s.ser := rfl
@[simp] theorem State.setCode_result (sym : Symbol) (p : Bits) : (s.setCode sym p).result = s.result := rfl
@[simp] theorem State.setCode_env (sym : Symbol) (p : Bits) : (s.setCode sym p).env = s.env := rfl
@[simp] theorem State.setCode_stim (sym : Symbol) (p : Bits) : (s.setCode sym p).stim = s.stim := rfl

/-! ## `State.powerReset` -/

@[simp] theorem State.powerReset_total : (s.powerReset).total = 0 := rfl
@[simp] theorem State.powerReset_remain : (s.powerReset).remain = 0 := rfl
@[simp] theorem State.powerReset_cursor : (s.powerReset).cursor = Config.nil := rfl
@[simp] theorem State.powerReset_root : (s.powerReset).root = Config.nil := rfl
@[simp] theorem State.powerReset_seq : (s.powerReset).seq = 0 := rfl
@[simp] theorem State.powerReset_wbuf : (s.powerReset).wbuf = 0 := rfl
@[simp] theorem State.powerReset_wcnt : (s.powerReset).wcnt = 0 := rfl
@[simp] theorem State.powerReset_sclosed : (s.powerReset).sclosed = false := rfl
@[simp] theorem State.powerReset_rbuf : (s.powerReset).rbuf = 0 := rfl
@[simp] theorem State.powerReset_rcnt : (s.powerReset).rcnt = 0 := rfl
@[simp] theorem State.powerReset_rclosed : (s.powerReset).rclosed = false := rfl
@[simp] theorem State.powerReset_phase : (s.powerReset).phase = .idle := rfl
@[simp] theorem State.powerReset_err : (s.powerReset).err = .none := rfl
@[simp] theorem State.powerReset_freq : (s.powerReset).freq = Vector.replicate 128 0 := rfl
@[simp] theorem State.powerReset_code : (s.powerReset).code = Vector.replicate 128 [] := rfl
@[simp] theorem State.powerReset_heap : (s.powerReset).heap = [] := rfl
@[simp] theorem State.powerReset_nodes : (s.powerReset).nodes = [] := rfl
@[simp] theorem State.powerReset_stk : (s.powerReset).stk = [] := rfl
@[simp] theorem State.powerReset_ser : (s.powerReset).ser = [] := rfl
@[simp] theorem State.powerReset_result : (s.powerReset).result = .none := rfl
@[simp] theorem State.powerReset_env : (s.powerReset).env = s.env := rfl
@[simp] theorem State.powerReset_stim : (s.powerReset).stim = s.stim := rfl

/-! ## `State.initialise` -/

@[simp] theorem State.initialise_total (p : Phase) : (s.initialise p).total = 0 := rfl
@[simp] theorem State.initialise_remain (p : Phase) : (s.initialise p).remain = 0 := rfl
@[simp] theorem State.initialise_cursor (p : Phase) : (s.initialise p).cursor = Config.nil := rfl
@[simp] theorem State.initialise_root (p : Phase) : (s.initialise p).root = Config.nil := rfl
@[simp] theorem State.initialise_seq (p : Phase) : (s.initialise p).seq = 0 := rfl
@[simp] theorem State.initialise_wbuf (p : Phase) : (s.initialise p).wbuf = 0 := rfl
@[simp] theorem State.initialise_wcnt (p : Phase) : (s.initialise p).wcnt = 0 := rfl
@[simp] theorem State.initialise_sclosed (p : Phase) : (s.initialise p).sclosed = false := rfl
@[simp] theorem State.initialise_rbuf (p : Phase) : (s.initialise p).rbuf = 0 := rfl
@[simp] theorem State.initialise_rcnt (p : Phase) : (s.initialise p).rcnt = 0 := rfl
@[simp] theorem State.initialise_rclosed (p : Phase) : (s.initialise p).rclosed = false := rfl
@[simp] theorem State.initialise_phase (p : Phase) : (s.initialise p).phase = p := rfl
@[simp] theorem State.initialise_err (p : Phase) : (s.initialise p).err = .none := rfl
@[simp] theorem State.initialise_freq (p : Phase) : (s.initialise p).freq = Vector.replicate 128 0 := rfl
@[simp] theorem State.initialise_code (p : Phase) : (s.initialise p).code = Vector.replicate 128 [] := rfl
@[simp] theorem State.initialise_heap (p : Phase) : (s.initialise p).heap = [] := rfl
@[simp] theorem State.initialise_nodes (p : Phase) : (s.initialise p).nodes = [] := rfl
@[simp] theorem State.initialise_stk (p : Phase) : (s.initialise p).stk = [] := rfl
@[simp] theorem State.initialise_ser (p : Phase) : (s.initialise p).ser = [] := rfl
@[simp] theorem State.initialise_result (p : Phase) : (s.initialise p).result = .none := rfl
@[simp] theorem State.initialise_env (p : Phase) : (s.initialise p).env = s.env := rfl
@[simp] theorem State.initialise_stim (p : Phase) : (s.initialise p).stim = s.stim := rfl

/-! ## The tables -/

@[simp] theorem State.freqAt_setFreq_self (sym : Symbol) (v : Word) : (s.setFreq sym v).freqAt sym = v := by
  simp [State.freqAt, State.setFreq]

theorem State.freqAt_setFreq_ne {sym other : Symbol} (v : Word) (h : sym ≠ other) :
    (s.setFreq sym v).freqAt other = s.freqAt other := by
  have : sym.toNat ≠ other.toNat := fun e => h (BitVec.eq_of_toNat_eq e)
  simp [State.freqAt, State.setFreq, this]

@[simp] theorem State.codeAt_setCode_self (sym : Symbol) (p : Bits) : (s.setCode sym p).codeAt sym = p := by
  simp [State.codeAt, State.setCode]

theorem State.codeAt_setCode_ne {sym other : Symbol} (p : Bits) (h : sym ≠ other) :
    (s.setCode sym p).codeAt other = s.codeAt other := by
  have : sym.toNat ≠ other.toNat := fun e => h (BitVec.eq_of_toNat_eq e)
  simp [State.codeAt, State.setCode, this]

@[simp] theorem State.freqAt_initialise (p : Phase) (sym : Symbol) : (s.initialise p).freqAt sym = 0 := by
  simp [State.freqAt]

@[simp] theorem State.codeAt_initialise (p : Phase) (sym : Symbol) : (s.initialise p).codeAt sym = [] := by
  simp [State.codeAt]

/-! ## Reset and start of an invocation -/

@[simp] theorem State.busy_powerReset : s.powerReset.busy = false := rfl

@[simp] theorem State.status_powerReset : s.powerReset.status = 0x0000#16 := by
  simp [State.status, State.failed, State.done, State.busy, ErrKind.code, Phase.code, Phase.encoding,
    Phase.decoding]

@[simp] theorem State.powerReset_powerReset : s.powerReset.powerReset = s.powerReset := rfl

@[simp] theorem State.initialise_initialise (p q : Phase) : (s.initialise p).initialise q = s.initialise q := rfl

end Sys2Proof.Machine
end

