-- ==== Sys2Proof/Laws/Ops.lean ====
section
/-! SUPPORT. How operations compose, and one lemma for each shared operation of Machine/Ops.lean that says
what it can do. -/

namespace Sys2Proof.Machine

variable {α β : Type}

/-! ## Running pseudocode -/

@[simp] theorem run_bind {ε : Type} (x : EStateM ε State α) (f : α → EStateM ε State β) (s : State) :
    (x >>= f) s = match x s with
      | .ok a t => f a t
      | .error e t => .error e t := by
  change EStateM.bind x f s = _
  unfold EStateM.bind
  cases x s <;> rfl

@[simp] theorem run_map {ε : Type} (f : α → β) (x : EStateM ε State α) (s : State) :
    (f <$> x) s = match x s with
      | .ok a t => .ok (f a) t
      | .error e t => .error e t := by
  change EStateM.map f x s = _
  unfold EStateM.map
  cases x s <;> rfl

@[simp] theorem run_pure {ε : Type} (a : α) (s : State) : (pure a : EStateM ε State α) s = .ok a s := rfl

@[simp] theorem run_get {ε : Type} (s : State) : (get : EStateM ε State State) s = .ok s s := rfl

@[simp] theorem run_modify {ε : Type} (f : State → State) (s : State) :
    (modify f : EStateM ε State PUnit) s = .ok () (f s) := rfl

@[simp] theorem run_raise (k : ErrKind) (s : State) : (raise k : Op α) s = .error (.raised k) s := rfl

@[simp] theorem run_stop (f : Fault) (s : State) : (stop f : Op α) s = .error (.cut (.stop f)) s := rfl

@[simp] theorem run_setPhase (p : Phase) (s : State) : setPhase p s = .ok () { s with phase := p } := rfl

theorem run_ite {ε : Type} (c : Prop) [Decidable c] (x y : EStateM ε State α) (s : State) :
    (if c then x else y) s = if c then x s else y s := by
  split <;> rfl

/-! ## From an operation to a step -/

theorem complete_of_ok {op : Op Result} {s t : State} {r : Result} (h : op s = .ok r t) :
    complete op s = .next { t with result := r } := by
  simp [complete, h]

theorem complete_of_raised {op : Op Result} {s t : State} {k : ErrKind} (h : op s = .error (.raised k) t) :
    complete op s = enterFailure k t := by
  simp [complete, h]

theorem complete_of_cut {op : Op Result} {s t : State} {c : Cut} (h : op s = .error (.cut c) t) :
    complete op s = cutOff c t := by
  simp [complete, h]

/-- Every way in which an operation that becomes a step can answer a next state. -/
theorem complete_next {op : Op Result} {s u : State} (h : complete op s = .next u) :
    (∃ r t, op s = .ok r t ∧ u = { t with result := r }) ∨
    (∃ k t, op s = .error (.raised k) t ∧ enterFailure k t = .next u) ∨
    (∃ t, op s = .error (.cut .resetApplied) t ∧ u = t.powerReset) := by
  unfold complete at h
  split at h
  · next r t hr => exact .inl ⟨r, t, hr, by simpa using h.symm⟩
  · next k t hr => exact .inr (.inl ⟨k, t, hr, h⟩)
  · next c t hr =>
    cases c with
    | stop f => simp [cutOff] at h
    | resetApplied => exact .inr (.inr ⟨t, hr, by simpa [cutOff] using h.symm⟩)

/-- No operation answers with a refusal. -/
theorem complete_not_refused (op : Op Result) (s : State) (r : Refusal) : complete op s ≠ .refused r := by
  unfold complete enterFailure
  split
  · simp
  · split
    · simp
    · next c t _ => cases c <;> simp [cutOff]
  · next c t _ => cases c <;> simp [cutOff]

theorem noResult_ok {op : Op Unit} {s t : State} (h : op s = .ok () t) : noResult op s = .ok .none t := by
  simp [noResult, h]

theorem noResult_error {op : Op Unit} {s t : State} {e : Halt} (h : op s = .error e t) :
    noResult op s = .error e t := by
  simp [noResult, h]

/-! ## Port calls -/

/-- The host's side with its next answer used up. -/
def Env.used (e : Env) : Env := { e with answers := e.answers.tail }

theorem answered_of_ok {s : State} (h : s.env.answers.head? ≠ some .fail)
    (h' : s.env.answers.head? ≠ some .never) (h'' : s.env.answers.head? ≠ some .reset) :
    answered s = .ok true (s.withEnv s.env.used) := by
  unfold answered State.withEnv Env.used
  split <;> simp_all
  obtain ⟨⟩ := s
  rename_i env _ _
  obtain ⟨⟩ := env
  simp_all

theorem answered_of_fail {s : State} {rest : List PortAnswer} (h : s.env.answers = .fail :: rest) :
    answered s = .ok false (s.withEnv s.env.used) := by
  unfold answered State.withEnv Env.used
  split <;> simp_all

theorem Env.obliging.used {e : Env} (h : e.obliging) : e.used.obliging :=
  fun a ha => h a (List.mem_of_mem_tail ha)

theorem answered_of_obliging {s : State} (h : s.env.obliging) :
    answered s = .ok true (s.withEnv s.env.used) := by
  apply answered_of_ok <;> intro hc <;> have := h _ (List.mem_of_mem_head? hc) <;> simp at this

theorem snkPut_of_obliging {s : State} (h : s.env.obliging) (b : Byte) :
    snkPut b s = .ok true (s.withEnv (s.env.after [.snkPut b true])) := by
  simp [snkPut, answered_of_obliging h, State.withEnv, State.record, Env.used, Env.after, Env.afterCall, Env.srcAfter]

theorem snkClosePort_of_obliging {s : State} (h : s.env.obliging) :
    snkClosePort s = .ok true (s.withEnv (s.env.after [.snkClose true])) := by
  simp [snkClosePort, answered_of_obliging h, State.withEnv, State.record, Env.used, Env.after, Env.afterCall, Env.srcAfter]

theorem srcRelease_of_obliging {s : State} (h : s.env.obliging) :
    srcRelease s = .ok true (s.withEnv (s.env.after [.srcRelease true])) := by
  simp [srcRelease, answered_of_obliging h, State.withEnv, State.record, Env.used, Env.after, Env.afterCall, Env.srcAfter]

theorem srcNext_of_obliging_nil {s : State} (h : s.env.obliging) (hs : s.env.src = []) :
    srcNext s = .ok .eof (s.withEnv (s.env.after [.srcNext .eof])) := by
  simp [srcNext, answered_of_obliging h, State.withEnv, State.record, Env.used, Env.after, Env.afterCall, Env.srcAfter, hs]

theorem srcNext_of_obliging_cons {s : State} {b : Byte} {rest : List Byte} (h : s.env.obliging)
    (hs : s.env.src = b :: rest) :
    srcNext s = .ok (.byte b) (s.withEnv (s.env.after [.srcNext (.byte b)])) := by
  simp [srcNext, answered_of_obliging h, State.withEnv, State.record, Env.used, Env.after, Env.afterCall, Env.srcAfter, hs]

theorem sourceBytes_append (xs ys : List PortEvent) :
    sourceBytes (xs ++ ys) = sourceBytes xs ++ sourceBytes ys := by
  induction xs with
  | nil => rfl
  | cons x xs ih =>
    cases x with
    | srcNext r => cases r <;> simp [sourceBytes, ih]
    | _ => simp [sourceBytes, ih]

theorem sinkBytes_append (xs ys : List PortEvent) : sinkBytes (xs ++ ys) = sinkBytes xs ++ sinkBytes ys := by
  induction xs with
  | nil => rfl
  | cons x xs ih =>
    cases x with
    | snkPut b ok => cases ok <;> simp [sinkBytes, ih]
    | _ => simp [sinkBytes, ih]

@[simp] theorem sinkBytes_puts (bytes : List Byte) : sinkBytes (puts bytes) = bytes := by
  induction bytes with
  | nil => rfl
  | cons b bytes ih => simpa [puts, sinkBytes] using ih

@[simp] theorem sourceBytes_puts (bytes : List Byte) : sourceBytes (puts bytes) = [] := by
  induction bytes with
  | nil => rfl
  | cons b bytes ih => simpa [puts, sourceBytes] using ih

@[simp] theorem sourceBytes_reads (bytes : List Byte) : sourceBytes (reads bytes) = bytes := by
  induction bytes with
  | nil => rfl
  | cons b bytes ih => simpa [reads, sourceBytes] using ih

theorem Env.after_append (e : Env) (xs ys : List PortEvent) : e.after (xs ++ ys) = (e.after xs).after ys :=
  List.foldl_append ..

@[simp] theorem Env.after_nil (e : Env) : e.after [] = e := rfl

theorem Env.after_cons (e : Env) (x : PortEvent) (xs : List PortEvent) :
    e.after (x :: xs) = (e.afterCall x).after xs := rfl

@[simp] theorem Env.after_replay (e : Env) (xs : List PortEvent) : (e.after xs).replay = e.replay := by
  induction xs generalizing e with
  | nil => rfl
  | cons x xs ih => exact ih _

@[simp] theorem Env.after_log (e : Env) (xs : List PortEvent) : (e.after xs).log = e.log ++ xs := by
  induction xs generalizing e with
  | nil => simp
  | cons x xs ih => simp [Env.after_cons, ih, Env.afterCall]

@[simp] theorem Env.after_answers (e : Env) (xs : List PortEvent) :
    (e.after xs).answers = e.answers.drop xs.length := by
  induction xs generalizing e with
  | nil => rfl
  | cons x xs ih => simp [Env.after_cons, ih, Env.afterCall]

/-- Calls that are no rewind take their bytes from the front of the source. -/
theorem Env.after_src (e : Env) (xs : List PortEvent) (h : PortEvent.srcRewind true ∉ xs) :
    (e.after xs).src = e.src.drop (sourceBytes xs).length := by
  induction xs generalizing e with
  | nil => rfl
  | cons x xs ih =>
    have hx : PortEvent.srcRewind true ∉ xs := fun hm => h (List.mem_cons_of_mem _ hm)
    have h1 : x ≠ .srcRewind true := fun he => h (he ▸ List.mem_cons_self ..)
    rw [Env.after_cons, ih _ hx]
    cases x with
    | srcNext r => cases r <;> simp [Env.afterCall, Env.srcAfter, sourceBytes]
    | srcRewind ok => cases ok <;> simp_all [Env.afterCall, Env.srcAfter, sourceBytes]
    | _ => simp [Env.afterCall, Env.srcAfter, sourceBytes]

theorem Env.obliging.after {e : Env} (h : e.obliging) (xs : List PortEvent) : (e.after xs).obliging :=
  fun a ha => h a (List.mem_of_mem_drop (by simpa using ha))

@[simp] theorem Env.gives_nil (e : Env) : e.gives [] := by simp [Env.gives]

/-- The answers of a stretch of calls are those of its first part and, from there, of its second. -/
theorem Env.gives_append (e : Env) (xs ys : List PortEvent) :
    e.gives (xs ++ ys) ↔ e.gives xs ∧ (e.after xs).gives ys := by
  constructor
  · intro h
    refine ⟨fun j x hj => h j x ?_, fun j y hj => ?_⟩
    · rw [List.getElem?_append_left (List.getElem?_eq_some_iff.mp hj).1, hj]
    · have := h (xs.length + j) y (by rw [List.getElem?_append_right (by omega)]; simpa using hj)
      simpa [List.getD_eq_getElem?_getD, List.getElem?_drop] using this
  · rintro ⟨hx, hy⟩ j z hj
    by_cases hl : j < xs.length
    · exact hx j z (by rwa [List.getElem?_append_left hl] at hj)
    · have hl' : xs.length ≤ j := Nat.le_of_not_lt hl
      have := hy (j - xs.length) z (by rwa [List.getElem?_append_right hl'] at hj)
      simpa [List.getD_eq_getElem?_getD, List.getElem?_drop, Nat.add_sub_cancel' hl'] using this

/-! ### One port call, whatever the host does -/

theorem Env.gives_singleton (e : Env) (event : PortEvent) :
    e.gives [event] ↔ e.answers.getD 0 .ok = if event.failed then .fail else .ok := by
  constructor
  · intro h
    exact h 0 event rfl
  · intro h j ev hj
    cases j with
    | zero =>
      obtain rfl : event = ev := by simpa using hj
      exact h
    | succ j => simp at hj

/-- The answer decides: a call goes on with `b` exactly when the host answers so. -/
theorem answered_ok {s t : State} {b : Bool} (h : answered s = .ok b t) :
    t = s.withEnv s.env.used ∧ s.env.answers.getD 0 .ok = if b then .ok else .fail := by
  rcases ha : s.env.answers with _ | ⟨a, rest⟩
  · rw [answered_of_ok (by simp [ha]) (by simp [ha]) (by simp [ha])] at h
    simp at h
    simp [← h]
  · cases a with
    | ok =>
      rw [answered_of_ok (by simp [ha]) (by simp [ha]) (by simp [ha])] at h
      simp at h
      simp [← h]
    | fail =>
      rw [answered_of_fail ha] at h
      simp at h
      simp [← h]
    | never => simp [answered, ha] at h
    | reset => simp [answered, ha] at h

/-- A call is cut off when it is never answered and when a reset overtakes it. -/
theorem answered_error {s t : State} {c : Cut} (h : answered s = .error c t) :
    (c = .stop .unanswered ∧ ∃ rest, s.env.answers = .never :: rest) ∨
    (c = .resetApplied ∧ ∃ rest, s.env.answers = .reset :: rest ∧
      t = s.withEnv { s.env with answers := rest }) := by
  unfold answered at h
  split at h <;> simp at h
  · next rest hr => exact .inl ⟨h.1.symm, rest, hr⟩
  · next rest hr => exact .inr ⟨h.1.symm, rest, hr, h.2.symm⟩

/-- What a port call can come to: `called` is the call that is recorded for an answer. -/
def CallSpec (p : Port α) (called : α → State → PortEvent) : Prop :=
  (∀ s t a, p s = .ok a t → t = s.withEnv (s.env.afterCall (called a s)) ∧ s.env.gives [called a s]) ∧
  (∀ s t c, p s = .error c t →
    (c = .stop .unanswered ∧ ∃ rest, s.env.answers = .never :: rest) ∨
    (c = .resetApplied ∧ ∃ rest, s.env.answers = .reset :: rest ∧
      t = s.withEnv { s.env with answers := rest }))

/-- The calls that only record their answer. -/
theorem recordedCall_spec (event : Bool → PortEvent) (hf : ∀ ok, (event ok).failed = !ok)
    (hs : ∀ ok (e : Env), e.srcAfter (event ok) = e.src) :
    CallSpec (do let ok ← answered; modify fun s => s.record (event ok); pure ok) (fun ok _ => event ok) := by
  refine ⟨fun s t ok h => ?_, fun s t c h => ?_⟩
  · simp only [run_bind] at h
    split at h
    · next ok' u hu =>
      obtain ⟨rfl, ha⟩ := answered_ok hu
      simp at h
      obtain ⟨rfl, rfl⟩ := h
      refine ⟨by simp [State.withEnv, State.record, Env.used, Env.afterCall, hs], (Env.gives_singleton ..).mpr ?_⟩
      rw [hf]
      cases ok' <;> simpa using ha
    · simp at h
  · simp only [run_bind] at h
    split at h
    · simp at h
    · next c' u hu =>
      simp at h
      obtain ⟨rfl, rfl⟩ := h
      exact answered_error hu

theorem snkPut_spec (b : Byte) : CallSpec (snkPut b) (fun ok _ => .snkPut b ok) :=
  recordedCall_spec (.snkPut b) (fun _ => rfl) (fun _ _ => rfl)

theorem snkClosePort_spec : CallSpec snkClosePort (fun ok _ => .snkClose ok) :=
  recordedCall_spec .snkClose (fun _ => rfl) (fun _ _ => rfl)

theorem srcRelease_spec : CallSpec srcRelease (fun ok _ => .srcRelease ok) :=
  recordedCall_spec .srcRelease (fun _ => rfl) (fun _ _ => rfl)

theorem srcRewind_spec : CallSpec srcRewind (fun ok _ => .srcRewind ok) := by
  refine ⟨fun s t ok h => ?_, fun s t c h => ?_⟩
  · simp only [srcRewind, run_bind] at h
    split at h
    · next ok' u hu =>
      obtain ⟨rfl, ha⟩ := answered_ok hu
      cases ok' <;> simp at h <;> obtain ⟨rfl, rfl⟩ := h <;>
        exact ⟨rfl, (Env.gives_singleton ..).mpr (by simpa [PortEvent.failed] using ha)⟩
    · simp at h
  · simp only [srcRewind, run_bind] at h
    split at h
    · next ok' u hu => cases ok' <;> simp at h
    · next c' u hu =>
      simp at h
      obtain ⟨rfl, rfl⟩ := h
      exact answered_error hu

theorem srcNext_spec : CallSpec srcNext (fun r _ => .srcNext r) := by
  refine ⟨fun s t r h => ?_, fun s t c h => ?_⟩
  · simp only [srcNext, run_bind] at h
    split at h
    · next ok' u hu =>
      obtain ⟨rfl, ha⟩ := answered_ok hu
      cases ok'
      · simp at h
        obtain ⟨rfl, rfl⟩ := h
        exact ⟨rfl, (Env.gives_singleton ..).mpr (by simpa [PortEvent.failed] using ha)⟩
      · rcases hs : s.env.src with _ | ⟨b, rest⟩ <;> simp [State.withEnv, Env.used, hs] at h <;>
          obtain ⟨rfl, rfl⟩ := h <;>
          refine ⟨?_, (Env.gives_singleton ..).mpr (by simpa [PortEvent.failed] using ha)⟩ <;>
          simp [State.withEnv, State.record, Env.afterCall, Env.srcAfter, hs]
    · simp at h
  · simp only [srcNext, run_bind] at h
    split at h
    · next ok' u hu =>
      cases ok'
      · simp at h
      · rcases hs : u.env.src with _ | ⟨b, rest⟩ <;> simp [hs] at h
    · next c' u hu =>
      simp at h
      obtain ⟨rfl, rfl⟩ := h
      exact answered_error hu

/-! ### A host that fails no call -/

/-- `SnkPut` of a list of bytes to a host that fails no call. -/
theorem putBytes_of_obliging (bytes : List Byte) {s : State} (h : s.env.obliging) :
    putBytes bytes s = .ok () (s.withEnv (s.env.after (puts bytes))) := by
  induction bytes generalizing s with
  | nil => simp [putBytes, puts, State.withEnv]
  | cons b bytes ih =>
    have h' : (s.withEnv (s.env.after [.snkPut b true])).env.obliging := h.after _
    simp only [putBytes, orIOError, lift, run_bind, snkPut_of_obliging h, if_true, run_pure, ih h']
    simp [State.withEnv, puts, ← Env.after_append]

theorem nextByte_of_obliging {s : State} {b : Byte} {rest : List Byte} (h : s.env.obliging)
    (hs : s.env.src = b :: rest) :
    nextByte s = .ok b (s.withEnv (s.env.after [.srcNext (.byte b)])) := by
  simp [nextByte, lift, srcNext_of_obliging_cons h hs]

theorem nextByte_of_obliging_nil {s : State} (h : s.env.obliging) (hs : s.env.src = []) :
    nextByte s = .error (.raised .endOfStream) (s.withEnv (s.env.after [.srcNext .eof])) := by
  simp [nextByte, lift, srcNext_of_obliging_nil h hs]

/-! ## Failure entry -/

/-- Outside an invocation "only the first and last lines apply" (spec/60_exceptions.md R252). -/
theorem failureEntry_of_not_busy (k : ErrKind) {s : State} (h : s.busy = false) :
    failureEntry k s = .ok () { s with err := k, phase := .failed } := by
  obtain ⟨h1, h2⟩ : s.phase.encoding = false ∧ s.phase.decoding = false := by
    simpa [State.busy, Bool.or_eq_false_iff] using h
  simp [failureEntry, h1, h2]

theorem encoding_not_decoding {p : Phase} (h : p.encoding = true) : p.decoding = false := by
  cases p <;> simp_all [Phase.encoding, Phase.decoding]

theorem decoding_not_encoding {p : Phase} (h : p.decoding = true) : p.encoding = false := by
  cases p <;> simp_all [Phase.encoding, Phase.decoding]

/-- Port calls change the host's side and nothing else. -/
def EnvOnly (s t : State) : Prop := t = s.withEnv t.env

theorem EnvOnly.trans {s t u : State} (h : EnvOnly s t) (h' : EnvOnly t u) : EnvOnly s u := by
  unfold EnvOnly at *
  rw [h', h]
  rfl

theorem answered_envOnly {s t : State} {b : Bool} (h : answered s = .ok b t) : EnvOnly s t := by
  unfold answered at h
  split at h <;> simp at h <;> obtain ⟨-, rfl⟩ := h <;> rfl

theorem snkClosePort_envOnly {s t : State} {b : Bool} (h : snkClosePort s = .ok b t) : EnvOnly s t := by
  simp only [snkClosePort, run_bind] at h
  split at h
  · next c u hu =>
    simp at h
    obtain ⟨-, rfl⟩ := h
    exact (answered_envOnly hu).trans rfl
  · simp at h

theorem srcRelease_envOnly {s t : State} {b : Bool} (h : srcRelease s = .ok b t) : EnvOnly s t := by
  simp only [srcRelease, run_bind] at h
  split at h
  · next c u hu =>
    simp at h
    obtain ⟨-, rfl⟩ := h
    exact (answered_envOnly hu).trans rfl
  · simp at h

/-- However failure entry ends normally, `ERR` is the kind, `PHASE` is `FAILED`, and beside them only
`SCLOSED`, `RCLOSED` and the host's side may have changed (spec/60_exceptions.md R252, R253). -/
theorem failureEntry_ok {k : ErrKind} {s t : State} (h : failureEntry k s = .ok () t) :
    t = { s with err := k, phase := .failed, sclosed := t.sclosed, rclosed := t.rclosed, env := t.env } := by
  cases he : s.phase.encoding <;> cases hd : s.phase.decoding
  · simp [failureEntry, he, hd] at h
    subst h
    rfl
  · cases hr : s.rclosed <;> simp [failureEntry, he, hd, hr] at h
    · repeat' split at h
      all_goals simp at h
      rename_i hu _ _ _ hv
      have h1 := srcRelease_envOnly hu
      have h2 := snkClosePort_envOnly hv
      unfold EnvOnly at h1 h2
      subst h
      rw [h2, h1]
      rfl
    · split at h <;> simp at h
      rename_i hv
      have h2 := snkClosePort_envOnly hv
      unfold EnvOnly at h2
      subst h
      rw [h2]
      rfl
  · cases hc : s.sclosed <;> simp [failureEntry, he, hd, hc] at h
    · repeat' split at h
      all_goals simp at h
      rename_i hu _ _ _ hv
      have h1 := snkClosePort_envOnly hu
      have h2 := srcRelease_envOnly hv
      unfold EnvOnly at h1 h2
      subst h
      rw [h2, h1]
      rfl
    · split at h <;> simp at h
      rename_i hv
      have h2 := srcRelease_envOnly hv
      unfold EnvOnly at h2
      subst h
      rw [h2]
      rfl
  · rw [encoding_not_decoding he] at hd
    cases hd

end Sys2Proof.Machine
end

