-- ==== Sys2Proof/Laws/PerInstr.lean ====
section
/-! SUPPORT. One fact about every operation as syntax: the transfer that carries it has the operation's
own code of spec/30_encoding.md R101, whatever its operands. -/

namespace Sys2Proof.Laws.OperationCode

/-- The code column of spec/30_encoding.md R101, as `UNIT` and `FUNC`. -/
def unitFunc : Instr → Nat × Nat
  | .encode => (0, 1)
  | .decode => (0, 2)
  | .codecFcount => (0, 3)
  | .codecWheader => (0, 4)
  | .codecWpayload => (0, 5)
  | .codecRheader => (0, 6)
  | .codecWalk => (0, 7)
  | .snkWbits _ => (1, 0)
  | .snkWint _ => (1, 1)
  | .snkWstr => (1, 2)
  | .snkClose => (1, 3)
  | .srcRbit => (2, 0)
  | .srcRint => (2, 1)
  | .srcRstr => (2, 2)
  | .srcClose => (2, 3)
  | .pqInsert _ _ => (3, 0)
  | .pqDelmin => (3, 1)
  | .pqPeek => (3, 2)
  | .pqIsempty => (3, 3)
  | .pqIsfull => (3, 4)
  | .pqSize => (3, 5)
  | .htBuild => (4, 0)
  | .htGencodes => (4, 1)
  | .htSer => (4, 2)
  | .htDeser => (4, 3)

/-- `OP[7:4]` and `OP[3:0]` of the operation's transfer are its `UNIT` and `FUNC`. -/
def Statement (i : Instr) : Prop :=
  ((unitField (encode i).op).toNat, (funcField (encode i).op).toNat) = unitFunc i

theorem encode : Statement .encode := rfl
theorem decode : Statement .decode := rfl
theorem codecFcount : Statement .codecFcount := rfl
theorem codecWheader : Statement .codecWheader := rfl
theorem codecWpayload : Statement .codecWpayload := rfl
theorem codecRheader : Statement .codecRheader := rfl
theorem codecWalk : Statement .codecWalk := rfl
theorem snkWbits (bits : Bits) : Statement (.snkWbits bits) := by
  simp only [Statement, Sys2Proof.encode, codeOnly]
  rfl
theorem snkWint (v : Word) : Statement (.snkWint v) := by
  simp only [Statement, Sys2Proof.encode, codeOnly]
  rfl
theorem snkWstr : Statement .snkWstr := rfl
theorem snkClose : Statement .snkClose := rfl
theorem srcRbit : Statement .srcRbit := rfl
theorem srcRint : Statement .srcRint := rfl
theorem srcRstr : Statement .srcRstr := rfl
theorem srcClose : Statement .srcClose := rfl
theorem pqInsert (key : Word) (payload : NodeRef) : Statement (.pqInsert key payload) := by
  simp only [Statement, Sys2Proof.encode, codeOnly]
  rfl
theorem pqDelmin : Statement .pqDelmin := rfl
theorem pqPeek : Statement .pqPeek := rfl
theorem pqIsempty : Statement .pqIsempty := rfl
theorem pqIsfull : Statement .pqIsfull := rfl
theorem pqSize : Statement .pqSize := rfl
theorem htBuild : Statement .htBuild := rfl
theorem htGencodes : Statement .htGencodes := rfl
theorem htSer : Statement .htSer := rfl
theorem htDeser : Statement .htDeser := rfl

end Sys2Proof.Laws.OperationCode
end

