-- ==== Sys2Proof/Laws/Queue.lean ====
section
/-! SUPPORT. The heap algorithms of Machine/PriorityQueue.lean only rearrange entries; the order of
entries. -/

namespace Sys2Proof.Machine

theorem set_set_perm {α : Type} {l : List α} {i j : Nat} {a b : α} (hi : l[i]? = some a) (hj : l[j]? = some b) :
    ((l.set i b).set j a).Perm l := by
  obtain ⟨hi', rfl⟩ := List.getElem?_eq_some_iff.mp hi
  obtain ⟨hj', rfl⟩ := List.getElem?_eq_some_iff.mp hj
  exact List.set_set_perm hi' hj'

/-- A swap exchanges two slots and nothing else (spec/42_priority_queue.md R161). -/
theorem swapSlots_perm (h : List HeapEntry) (i j : Nat) : (swapSlots h i j).Perm h := by
  unfold swapSlots slot
  split
  · next a b ha hb => exact set_set_perm ha hb
  · exact List.Perm.refl h

theorem bubbleUp_perm (fuel i : Nat) (h : List HeapEntry) : (bubbleUp fuel i h).Perm h := by
  induction fuel generalizing i h with
  | zero => exact List.Perm.refl h
  | succ fuel ih =>
    unfold bubbleUp
    split
    · exact (ih _ _).trans (swapSlots_perm _ _ _)
    · exact List.Perm.refl h

theorem siftDown_perm (fuel i : Nat) (h : List HeapEntry) : (siftDown fuel i h).Perm h := by
  induction fuel generalizing i h with
  | zero => exact List.Perm.refl h
  | succ fuel ih =>
    unfold siftDown
    split
    · exact List.Perm.refl h
    · split
      · exact (ih _ _).trans (swapSlots_perm _ _ _)
      · exact List.Perm.refl h

/-- PQ.INSERT keeps the other entries and adds its own. -/
theorem heapInsert_perm (h : List HeapEntry) (e : HeapEntry) : (heapInsert h e).Perm (e :: h) :=
  (bubbleUp_perm _ _ _).trans (List.perm_append_singleton e h)

theorem heapInsert_length (h : List HeapEntry) (e : HeapEntry) : (heapInsert h e).length = h.length + 1 := by
  simpa using (heapInsert_perm h e).length_eq

/-- PQ.DELMIN keeps every entry but the one in slot 1. -/
theorem heapRemoveTop_perm (top : HeapEntry) (rest : List HeapEntry) : (heapRemoveTop top rest).Perm rest := by
  refine (siftDown_perm _ _ _).trans ?_
  cases rest with
  | nil => simp
  | cons x xs =>
    have hne : x :: xs ≠ [] := by simp
    have hl : (top :: x :: xs).getLast (by simp) = (x :: xs).getLast hne := List.getLast_cons hne
    rw [hl]
    simp only [List.set_cons_zero, List.dropLast_cons_of_ne_nil hne]
    exact ((List.perm_append_singleton _ _).symm).trans (by rw [List.dropLast_append_getLast])

theorem heapRemoveTop_length (top : HeapEntry) (rest : List HeapEntry) :
    (heapRemoveTop top rest).length = rest.length :=
  (heapRemoveTop_perm top rest).length_eq

/-! ## The order of spec/42_priority_queue.md R161 -/

theorem less_irrefl (a : HeapEntry) : a.less a = false := by
  simp [HeapEntry.less, BitVec.ult]

theorem less_trans {a b c : HeapEntry} (h : a.less b = true) (h' : b.less c = true) : a.less c = true := by
  simp only [HeapEntry.less, BitVec.ult, Bool.or_eq_true, Bool.and_eq_true, decide_eq_true_eq, beq_iff_eq] at *
  rcases h with h | ⟨h1, h2⟩ <;> rcases h' with h' | ⟨h1', h2'⟩
  · exact .inl (by omega)
  · rw [← h1']; exact .inl h
  · rw [h1]; exact .inl h'
  · exact .inr ⟨h1.trans h1', by omega⟩

/-- Two entries with different sequence numbers are ordered one way (spec/42_priority_queue.md R161: "the
order is total and strict"). -/
theorem less_total {a b : HeapEntry} (h : a.seq ≠ b.seq) : a.less b = true ∨ b.less a = true := by
  have hs : a.seq.toNat ≠ b.seq.toNat := fun e => h (BitVec.eq_of_toNat_eq e)
  simp only [HeapEntry.less, BitVec.ult, Bool.or_eq_true, Bool.and_eq_true, decide_eq_true_eq, beq_iff_eq]
  by_cases hk : a.key = b.key
  · rcases Nat.lt_or_gt_of_ne hs with h1 | h1
    · exact .inl (.inr ⟨hk, h1⟩)
    · exact .inr (.inr ⟨hk.symm, h1⟩)
  · have : a.key.toNat ≠ b.key.toNat := fun e => hk (BitVec.eq_of_toNat_eq e)
    rcases Nat.lt_or_gt_of_ne this with h1 | h1
    · exact .inl (.inl h1)
    · exact .inr (.inl h1)

end Sys2Proof.Machine
end

