-- ==== Sys2Proof/Tests/Slice0.lean ====
section
/-! SUPPORT. The model's own tests (expected values from spec/95_test_vectors.md and the examples of the
rules) and, for every statement that has hypotheses, a witness that meets them. -/

namespace Sys2Proof.Tests

set_option Elab.async false

open Sys2Proof Sys2Proof.Machine

/-! ## Helpers -/

/-- The reset state with streams attached (spec/92_eei_decisions.md P1 to P3). -/
def streams (src replay : List Byte) (answers : List PortAnswer) : State :=
  { State.reset with env := { src := src, replay := replay, answers := answers, log := [] } }

/-- The outcome is a next state with the property. -/
def nextWith (o : Host.Outcome State Fault Refusal) (p : State → Bool) : Bool :=
  match o with
  | .next t => p t
  | .fault _ => false
  | .refused _ => false

theorem nextWith_spec {o : Host.Outcome State Fault Refusal} {p : State → Bool} (h : nextWith o p = true) :
    ∃ t, o = .next t ∧ p t = true := by
  cases o <;> simp_all [nextWith]

/-- What the sink holds. -/
def sink (t : State) : List Byte := sinkBytes t.env.log

/-- The heap's slots as (key, seq, payload). -/
def slots (t : State) : List (Nat × Nat × Nat) := t.heap.map fun e => (e.key.toNat, e.seq.toNat, e.pay.toNat)

/-- The tree of the running example: root(left = leaf 98, right = leaf 97), `SER` = [98, 97, 128]. -/
def ba : Tree := .node (.leaf 98) (.leaf 97)

/-- A state that holds it. -/
def baState : State := { State.reset with nodes := [.leaf 98, .leaf 97, .branch 0 1], root := 2 }

/-! ## Well-formedness -/

theorem test_wellFormed_refuses_128_bits : (Instr.snkWbits (List.replicate 128 true)).wellFormed = false := by
  decide +kernel

theorem test_wellFormed_admits_127_bits : (Instr.snkWbits (List.replicate 127 true)).wellFormed = true := by
  decide +kernel

/-! ## Decoding: `UNIT` in bits 7:4 and `FUNC` in bits 3:0, written out (spec/30_encoding.md R100, R101) -/

theorem test_decode_codec :
    decodeTableWord 8 0b0000_0001 = some .encode ∧ decodeTableWord 8 0b0000_0010 = some .decode ∧
    decodeTableWord 8 0b0000_0011 = some .codecFcount ∧ decodeTableWord 8 0b0000_0100 = some .codecWheader ∧
    decodeTableWord 8 0b0000_0101 = some .codecWpayload ∧ decodeTableWord 8 0b0000_0110 = some .codecRheader ∧
    decodeTableWord 8 0b0000_0111 = some .codecWalk := by decide +kernel

theorem test_decode_bitSink :
    decodeTableWord 8 0b0001_0000 = some (.snkWbits []) ∧ decodeTableWord 8 0b0001_0001 = some (.snkWint 0) ∧
    decodeTableWord 8 0b0001_0010 = some .snkWstr ∧ decodeTableWord 8 0b0001_0011 = some .snkClose := by
  decide +kernel

theorem test_decode_bitSource :
    decodeTableWord 8 0b0010_0000 = some .srcRbit ∧ decodeTableWord 8 0b0010_0001 = some .srcRint ∧
    decodeTableWord 8 0b0010_0010 = some .srcRstr ∧ decodeTableWord 8 0b0010_0011 = some .srcClose := by
  decide +kernel

theorem test_decode_priorityQueue :
    decodeTableWord 8 0b0011_0000 = some (.pqInsert 0 0) ∧ decodeTableWord 8 0b0011_0001 = some .pqDelmin ∧
    decodeTableWord 8 0b0011_0010 = some .pqPeek ∧ decodeTableWord 8 0b0011_0011 = some .pqIsempty ∧
    decodeTableWord 8 0b0011_0100 = some .pqIsfull ∧ decodeTableWord 8 0b0011_0101 = some .pqSize := by
  decide +kernel

theorem test_decode_huffmanTree :
    decodeTableWord 8 0b0100_0000 = some .htBuild ∧ decodeTableWord 8 0b0100_0001 = some .htGencodes ∧
    decodeTableWord 8 0b0100_0010 = some .htSer ∧ decodeTableWord 8 0b0100_0011 = some .htDeser := by
  decide +kernel

/-- The neighbours of the map's codes are unassigned (spec/30_encoding.md R102). -/
theorem test_decode_unassigned :
    decodeTableWord 8 0x00 = none ∧ decodeTableWord 8 0x08 = none ∧ decodeTableWord 8 0x14 = none ∧
    decodeTableWord 8 0x24 = none ∧ decodeTableWord 8 0x36 = none ∧ decodeTableWord 8 0x44 = none ∧
    decodeTableWord 8 0x50 = none ∧ decodeTableWord 8 0xFF = none := by decide +kernel

/-- The operand ports: SNK.WBITS("101") has `len` 3, lines 0 and 2 set; PQ.INSERT(5, 10). -/
theorem test_decode_operands :
    decode { op := 0x10, len := 3, bits := 0b101, word := 7, node := 9 } = .ok (.snkWbits [true, false, true]) ∧
    decode { op := 0x30, len := 3, bits := 0b101, word := 5, node := 10 } = .ok (.pqInsert 5 10) := by
  decide +kernel

/-- A table word presented to the reset state runs (SNK.WINT with zero operands: four zero bytes). -/
theorem test_fetched_word_runs :
    nextWith (step (State.reset.withFetchWord 8 0x11)) (fun t => sink t = [0, 0, 0, 0]) = true := by
  decide +kernel

/-! ## BitSink (V10 to V15) -/

theorem test_snkWbits_completes_a_byte :
    nextWith (exec (.snkWbits [true, true, false, false, true, true, false]) { State.reset with wbuf := 5, wcnt := 3 })
      (fun t => sink t = [0xB9] ∧ t.wcnt = 2 ∧ t.wbuf = 0b10) = true := by decide +kernel

/-- After SNK.CLOSE; and the failed put of V15, the registers as at the raising line (R253). -/
theorem test_snkWbits_faults :
    nextWith (exec (.snkWbits [true]) { State.reset with sclosed := true })
      (fun t => t.status = 0x047F ∧ t.env.log = []) = true ∧
    nextWith (exec (.snkWbits [true, true, false, false, true, true, false])
        { streams [] [] [.fail] with wbuf := 5, wcnt := 3 })
      (fun t => t.status = 0x041F ∧ sink t = [] ∧ t.wcnt = 8 ∧ t.wbuf = 0xB9) = true := by decide +kernel

theorem test_snkWint_order :
    nextWith (exec (.snkWint 0x12345678) State.reset) (fun t => sink t = [0x12, 0x34, 0x56, 0x78]) = true := by
  decide +kernel

theorem test_snkWint_second_put_fails :
    nextWith (exec (.snkWint 4) (streams [] [] [.ok, .fail]))
      (fun t => sink t = [0x00] ∧ t.status = 0x041F) = true := by decide +kernel

theorem test_snkWstr_sentinel :
    nextWith (exec .snkWstr { State.reset with ser := [0, 127, 128] })
      (fun t => sink t = [0x00, 0x03, 0x00, 0x7F, 0x80]) = true := by decide +kernel

theorem test_snkClose_pads :
    nextWith (exec .snkClose { State.reset with wbuf := 0b0110111, wcnt := 7 })
      (fun t => sink t = [0x6E] ∧ t.sclosed ∧ t.wcnt = 0) = true := by decide +kernel

theorem test_snkClose_nothing_pending :
    nextWith (exec .snkClose State.reset) (fun t => t.env.log = [.snkClose true]) = true := by decide +kernel

/-! ## BitSource (V20 to V23) -/

theorem test_srcRbit_pulls_a_byte :
    nextWith (exec .srcRbit (streams [0xB9, 0x40] [] []))
      (fun t => t.result = .bit true ∧ t.rbuf = 0x72 ∧ t.rcnt = 7 ∧ t.env.src = [0x40]) = true := by decide +kernel

theorem test_srcRbit_end :
    nextWith (exec .srcRbit (streams [] [] [])) (fun t => t.status = 0x043F ∧ t.rcnt = 0) = true := by decide +kernel

theorem test_srcRint_order :
    nextWith (exec .srcRint (streams [0x12, 0x34, 0x56, 0x78] [] [])) (fun t => t.result = .word 305419896) = true := by
  decide +kernel

theorem test_srcRint_truncated :
    nextWith (exec .srcRint (streams [0, 0, 0] [] []))
      (fun t => t.status = 0x043F ∧ sourceBytes t.env.log = [0, 0, 0]) = true := by decide +kernel

theorem test_srcRstr_units :
    nextWith (exec .srcRstr (streams [0x00, 0x03, 0x62, 0x61, 0x80] [] []))
      (fun t => t.ser = [98, 97, 128]) = true := by decide +kernel

theorem test_srcRstr_reserved_unit :
    nextWith (exec .srcRstr (streams [0x00, 0x02, 0x61, 0x81] [] []))
      (fun t => t.status = 0x042F ∧ t.serlen = 1 ∧ t.env.src = []) = true := by decide +kernel

theorem test_srcClose_drops_bits :
    nextWith (exec .srcClose { State.reset with rbuf := 0x80, rcnt := 7 })
      (fun t => t.rclosed ∧ t.env.log = [.srcRelease true]) = true := by decide +kernel

/-! ## PriorityQueue (V30 to V33) -/

/-- The heap of the example of spec/42_priority_queue.md R162. -/
def threeSlots : State :=
  { State.reset with heap := [⟨3, 1, 11⟩, ⟨5, 0, 10⟩, ⟨5, 2, 12⟩], seq := 3 }

/-- The heap of the example of spec/42_priority_queue.md R163. -/
def sixSlots : State :=
  { State.reset with
    heap := [⟨1, 3, 13⟩, ⟨3, 1, 11⟩, ⟨1, 5, 15⟩, ⟨5, 0, 10⟩, ⟨3, 4, 14⟩, ⟨5, 2, 12⟩], seq := 6 }

theorem test_pqInsert_rises :
    nextWith (exec (.pqInsert 1 13) threeSlots)
      (fun t => slots t = [(1, 3, 13), (3, 1, 11), (5, 2, 12), (5, 0, 10)] ∧ t.seq = 4) = true := by decide +kernel

theorem test_pqInsert_full :
    nextWith (exec (.pqInsert 7 0) { State.reset with heap := List.replicate 128 ⟨7, 0, 0⟩ })
      (fun t => t.status = 0x047F ∧ t.hsize = 128 ∧ t.seq = 0) = true := by decide +kernel

theorem test_pqDelmin_sifts :
    nextWith (exec .pqDelmin sixSlots)
      (fun t => t.result = .node 13 ∧
        slots t = [(1, 5, 15), (3, 1, 11), (5, 2, 12), (5, 0, 10), (3, 4, 14)] ∧ t.seq = 6) = true := by
  decide +kernel

theorem test_pqDelmin_empty : nextWith (exec .pqDelmin State.reset) (fun t => t.status = 0x047F) = true := by
  decide +kernel

theorem test_pqPeek : nextWith (exec .pqPeek sixSlots) (fun t => t.result = .key 1) = true := by decide +kernel

theorem test_pqIsempty_reset : nextWith (exec .pqIsempty State.reset) (fun t => t.result = .flag true) = true := by
  decide +kernel

theorem test_pqIsfull :
    nextWith (exec .pqIsfull { State.reset with heap := List.replicate 128 ⟨7, 0, 0⟩ })
      (fun t => t.result = .flag true) = true := by decide +kernel

theorem test_pqSize : nextWith (exec .pqSize sixSlots) (fun t => t.result = .size 6) = true := by decide +kernel

/-! ## HuffmanTree (V40 to V47) -/

/-- `FREQ[97]` = 3, `FREQ[98]` = 1. -/
def aaabCounted : State := ((State.reset.setFreq 97 3).setFreq 98 1)

theorem test_htBuild_aaab :
    nextWith (exec .htBuild aaabCounted)
      (fun t => t.nodes = [.leaf 97, .leaf 98, .branch 1 0] ∧ t.root = 2 ∧ t.heap = [] ∧ t.seq = 3) = true := by
  decide +kernel

/-- `"abcc"`: the tie at key 2 between leaf c and node 3 goes to the leaf (V42). -/
theorem test_htBuild_tie :
    nextWith (exec .htBuild (((State.reset.setFreq 97 1).setFreq 98 1).setFreq 99 2))
      (fun t => t.nodes = [.leaf 97, .leaf 98, .leaf 99, .branch 0 1, .branch 2 3] ∧ t.root = 4) = true := by
  decide +kernel

theorem test_htGencodes :
    nextWith (exec .htGencodes baState)
      (fun t => t.codeAt 98 = [false] ∧ t.codeAt 97 = [true] ∧ t.codeAt 99 = []) = true := by decide +kernel

theorem test_htGencodes_lone_leaf :
    nextWith (exec .htGencodes { State.reset with nodes := [.leaf 122], root := 0 })
      (fun t => t.codeAt 122 = [false]) = true := by decide +kernel

theorem test_htSer :
    nextWith (exec .htSer { State.reset with
        nodes := [.leaf 99, .leaf 97, .leaf 98, .branch 1 2, .branch 0 3], root := 4 })
      (fun t => t.ser = [99, 97, 98, 128, 128]) = true := by decide +kernel

theorem test_htDeser :
    nextWith (exec .htDeser { State.reset with ser := [99, 97, 98, 128, 128] })
      (fun t => t.nodes = [.leaf 99, .leaf 97, .leaf 98, .branch 1 2, .branch 0 3] ∧ t.root = 4 ∧ t.stk = []) = true := by
  decide +kernel

theorem test_htDeser_underflow :
    nextWith (exec .htDeser { State.reset with ser := [97, 98, 128, 128] })
      (fun t => t.status = 0x042F ∧ t.sp = 1) = true := by decide +kernel

/-! ## Codec (V50 to V68, P1, P2) -/

theorem test_codecFcount :
    nextWith (exec .codecFcount (streams [0x61, 0x61, 0x61, 0x62] [] []))
      (fun t => t.total = 4 ∧ t.freqAt 97 = 3 ∧ t.freqAt 98 = 1) = true := by decide +kernel

theorem test_codecFcount_overflow :
    nextWith (exec .codecFcount { streams [0x61] [] [] with total := 2147483647 })
      (fun t => t.status = 0x045F ∧ t.freqAt 97 = 0) = true := by decide +kernel

theorem test_codecWheader :
    nextWith (exec .codecWheader { baState with total := 4 })
      (fun t => sink t = [0x00, 0x00, 0x00, 0x04, 0x00, 0x03, 0x62, 0x61, 0x80]) = true := by decide +kernel

theorem test_codecWpayload_pending :
    nextWith (exec .codecWpayload
        { ((streams [] [0x61, 0x61, 0x61, 0x62] []).setCode 97 [true]).setCode 98 [false] with total := 4 })
      (fun t => sink t = [] ∧ t.wcnt = 4 ∧ t.wbuf = 0b1110) = true := by decide +kernel

theorem test_codecWpayload_short_replay :
    nextWith (exec .codecWpayload { (streams [] [0x61] []).setCode 97 [true] with total := 2 })
      (fun t => t.status = 0x048F) = true := by decide +kernel

theorem test_codecRheader :
    nextWith (exec .codecRheader (streams [0, 0, 0, 4, 0, 3, 0x62, 0x61, 0x80] [] []))
      (fun t => t.total = 4 ∧ t.root = 2 ∧ t.nodes = [.leaf 98, .leaf 97, .branch 0 1]) = true := by decide +kernel

theorem test_codecRheader_bad_count :
    nextWith (exec .codecRheader (streams [0xFF, 0xFF, 0xFF, 0xFF, 0, 1, 0x81] [] []))
      (fun t => t.status = 0x046F ∧ t.env.src = [0, 1, 0x81]) = true := by decide +kernel

theorem test_codecWalk :
    nextWith (exec .codecWalk { baState with total := 4, env := { Env.empty with src := [0xE0] } })
      (fun t => sink t = [0x61, 0x61, 0x61, 0x62] ∧ t.rcnt = 4 ∧ t.remain = 0 ∧ t.cursor = 2) = true := by
  decide +kernel

/-- The bits at a lone-leaf root are read and their value is ignored (V62). -/
theorem test_codecWalk_lone_leaf :
    nextWith (exec .codecWalk { State.reset with
        nodes := [.leaf 122], root := 0, total := 4, env := { Env.empty with src := [0xF0] } })
      (fun t => sink t = [0x7A, 0x7A, 0x7A, 0x7A] ∧ t.rcnt = 4) = true := by decide +kernel

theorem test_encode_aaab :
    nextWith (exec .encode (streams [0x61, 0x61, 0x61, 0x62] [0x61, 0x61, 0x61, 0x62] []))
      (fun t => sink t = [0x00, 0x00, 0x00, 0x04, 0x00, 0x03, 0x62, 0x61, 0x80, 0xE0] ∧ t.status = 0x020E) = true := by
  decide +kernel

/-- The sink's close fails: failure entry closes it a second time and releases the source (V57). -/
theorem test_encode_close_fails :
    nextWith (exec .encode (streams [] [] (List.replicate 9 .ok ++ [.fail])))
      (fun t => t.status = 0x041F ∧
        t.env.log.drop 9 = [.snkClose false, .snkClose true, .srcRelease true]) = true := by decide +kernel

theorem test_decode_aaab :
    nextWith (exec .decode (streams [0x00, 0x00, 0x00, 0x04, 0x00, 0x03, 0x62, 0x61, 0x80, 0xE0] [] []))
      (fun t => sink t = [0x61, 0x61, 0x61, 0x62] ∧ t.status = 0x020E) = true := by decide +kernel

/-- The count is trusted: 9 Symbols of an 8-bit payload (V63). -/
theorem test_decode_count_too_large :
    nextWith (exec .decode (streams [0x00, 0x00, 0x00, 0x09, 0x00, 0x03, 0x62, 0x61, 0x80, 0xE0] [] []))
      (fun t => sink t = [0x61, 0x61, 0x61, 0x62, 0x62, 0x62, 0x62, 0x62] ∧ t.status = 0x043F) = true := by
  decide +kernel

/-! ## The command port and reset (V70 to V73) -/

theorem test_illegal_command :
    nextWith (step { State.reset with stim := [.command 0x30] })
      (fun t => t.status = 0x049F ∧ t.env.log = []) = true := by decide +kernel

theorem test_legal_command :
    nextWith (step { State.reset with phase := .failed, err := .ioError, stim := [.command 0x01] })
      (fun t => t.status = 0x0101) = true := by decide +kernel

theorem test_reset_while_busy :
    nextWith (step { State.reset with phase := .ePayload, wcnt := 3, wbuf := 5, stim := [.reset] })
      (fun t => t.status = 0x0000 ∧ t.wcnt = 0 ∧ t.env.log = []) = true := by decide +kernel

/-! ## Witnesses: for each statement with hypotheses, a state and operands that meet them -/

/-- Some next state. -/
theorem exists_next {o : Host.Outcome State Fault Refusal} (h : nextWith o (fun _ => true) = true) :
    ∃ t, o = .next t :=
  let ⟨t, ht, _⟩ := nextWith_spec h
  ⟨t, ht⟩

/-- No description of a tree is just the sentinel. -/
theorem sentinel_not_postorder : ¬ ∃ t : Tree, [128#8] = t.postorder := by
  rintro ⟨t, ht⟩
  cases t with
  | leaf sym =>
    revert sym
    decide +kernel
  | node l r =>
    have hl : l.postorder ≠ [] := by cases l <;> simp [Tree.postorder]
    have := congrArg List.length ht
    have := List.length_pos_iff.mpr hl
    simp [Tree.postorder] at *
    omega

/-- The description of a tree with an internal node ends in the sentinel. -/
theorem postorder_last {ser : List Byte} (h1 : ser.length ≠ 1) (h2 : ser.getLast? ≠ some 128) :
    ¬ ∃ t : Tree, ser = t.postorder := by
  rintro ⟨t, rfl⟩
  cases t with
  | leaf sym => simp [Tree.postorder] at h1
  | node l r => simp [Tree.postorder, Config.sentinel] at h2

/-- `ba` is in the store of `baState`, reached without sharing. -/
theorem baState_owns : baState.ownsTree ba :=
  ⟨⟨by decide +kernel, 0, 1, rfl, rfl, rfl⟩, by decide +kernel⟩

/-- A store with a lone leaf. -/
def loneState : State := { State.reset with nodes := [.leaf 122], root := 0 }

theorem loneState_owns : loneState.ownsTree (.leaf 122) :=
  ⟨⟨by decide +kernel, rfl⟩, by decide +kernel⟩

/-- root(left = leaf c, right = (left = leaf a, right = leaf b)). -/
def cab : Tree := .node (.leaf 99) (.node (.leaf 97) (.leaf 98))

def cabState : State :=
  { State.reset with nodes := [.leaf 99, .leaf 97, .leaf 98, .branch 1 2, .branch 0 3], root := 4 }

theorem cabState_owns : cabState.ownsTree cab :=
  ⟨⟨by decide +kernel, 0, 3, rfl, rfl, 1, 2, rfl, rfl, rfl⟩, by decide +kernel⟩

/-- A tree of the greatest depth: a comb of 128 leaves. -/
def comb : Nat → Tree
  | 0 => .leaf 0
  | n + 1 => .node (.leaf (BitVec.ofNat 7 (n + 1))) (comb n)

theorem comb_symbols : (comb 127).symbols.length = 128 ∧ (comb 127).postorder.length = 255 := by decide +kernel

theorem sixSlots_QueueInv : sixSlots.QueueInv where
  size := by decide +kernel
  ordered := by
    have h : ∀ i ∈ List.range 7, 2 ≤ i → slotLess sixSlots.heap (i / 2) i = true := by decide +kernel
    intro i h2 hi
    exact h i (List.mem_range.mpr (Nat.lt_succ_of_le hi)) h2
  stamped := by decide +kernel
  distinct := by decide +kernel

theorem witness_DecodeEncodeRoundTrip :
    (Instr.snkWbits (List.replicate 127 true)).wellFormed = true ∧ (Instr.snkWbits []).wellFormed = true ∧
    (Instr.pqInsert 0xFFFFFFFF 0xFF).wellFormed = true := by decide +kernel

theorem witness_OperationCodeMap (op : BitVec 8) : ∃ t : Transfer, t.op = op := ⟨codeOnly op, rfl⟩

theorem witness_UnassignedCodesRefused :
    { State.reset with stim := [.issue (codeOnly 0xFF)] }.stim = .issue (codeOnly 0xFF) :: [] ∧
    { State.reset with stim := [.issue (codeOnly 0x43)] }.stim = .issue (codeOnly 0x43) :: [] := ⟨rfl, rfl⟩

theorem witness_StepRunsIssuedOperation :
    { State.reset with stim := [.issue (codeOnly 0x31), .quiet] }.stim = .issue (codeOnly 0x31) :: [.quiet] ∧
    decode (codeOnly 0x31) = .ok .pqDelmin := ⟨rfl, rfl⟩

theorem witness_IllegalCommandTaken :
    let s := { State.reset with phase := .done, stim := [.command 0x03] }
    s.stim = .command 0x03 :: [] ∧ 0x03#8 ≠ 0x01 ∧ 0x03#8 ≠ 0x02 ∧ s.busy = false := by decide +kernel

theorem witness_CommandIgnoredWhileBusy :
    let s := { State.reset with phase := .dClose, stim := [.command 0x01] }
    s.stim = .command 0x01 :: [] ∧ s.busy = true := by decide +kernel

theorem witness_CommandStartsInvocation :
    (let s := { baState with phase := .done, stim := [.command 0x01] }
     s.stim = .command 0x01 :: [] ∧ s.busy = false) ∧
    (let s := { baState with phase := .failed, err := .badCount, stim := [.command 0x02] }
     s.stim = .command 0x02 :: [] ∧ s.busy = false) := by decide +kernel

theorem witness_ResetAppliesAtOnce :
    { sixSlots with phase := .eBuild, stim := [.reset] }.stim = .reset :: [] ∧
    (let s := { baState with phase := .done }; s.stim = [] ∧ s.busy = false) := by decide +kernel

theorem witness_StatusFields :
    { State.reset with phase := .eCount }.ErrInv ∧ { State.reset with phase := .eCount }.phase ≠ .failed := by
  unfold State.ErrInv
  decide +kernel

theorem witness_SequencerFollowsPhases_encode :
    (∃ t, exec .codecFcount { streams [0x61] [0x61] [] with phase := .eCount } = .next t) ∧
    (∃ t, exec .htBuild { aaabCounted with phase := .eBuild } = .next t) ∧
    (∃ t, exec .htGencodes { baState with phase := .eCodes } = .next t) ∧
    (∃ t, exec .codecWheader { baState with phase := .eHeader } = .next t) ∧
    (∃ t, exec .codecWpayload { streams [] [] [] with phase := .ePayload } = .next t) ∧
    { State.reset with phase := .eClose, wcnt := 4 }.env.obliging ∧
    (∃ t, exec .snkClose { State.reset with phase := .eClose, wcnt := 4 } = .next t ∧ t.phase = .eClose) := by
  refine ⟨exists_next ?_, exists_next ?_, exists_next ?_, exists_next ?_, exists_next ?_, ?_, ?_⟩
  iterate 6 · decide +kernel
  have h : nextWith (exec .snkClose { State.reset with phase := .eClose, wcnt := 4 })
      (fun t => decide (t.phase = .eClose)) = true := by decide +kernel
  simpa using nextWith_spec h

theorem witness_SequencerFollowsPhases_decode :
    (∃ t, exec .codecRheader { streams [0, 0, 0, 0, 0, 0] [] [] with phase := .dHeader } = .next t) ∧
    (∃ t, exec .codecWalk { baState with phase := .dWalk } = .next t) ∧
    { State.reset with phase := .dClose, rcnt := 4 }.env.obliging ∧
    (∃ t, exec .srcClose { State.reset with phase := .dClose, rcnt := 4 } = .next t ∧ t.phase = .dClose) := by
  refine ⟨exists_next (by decide +kernel), exists_next (by decide +kernel), by decide +kernel, ?_⟩
  have h : nextWith (exec .srcClose { State.reset with phase := .dClose, rcnt := 4 })
      (fun t => decide (t.phase = .dClose)) = true := by decide +kernel
  simpa using nextWith_spec h

theorem witness_InvocationIsSequencerRun :
    { streams [0x61] [0x61] [] with phase := .failed, err := .badCount }.busy = false := by decide +kernel

theorem witness_NothingCarriesOver :
    let s := { baState with phase := .done }
    let s' := { sixSlots with phase := .failed, err := .precondition }
    s.busy = false ∧ s'.busy = false ∧ s.env = s'.env ∧ s.stim = s'.stim := by decide +kernel

theorem witness_FailureEntryReleasesStreams :
    { State.reset with env := { Env.empty with answers := [.fail, .ok] } }.env.answering ∧
    (let s := { State.reset with phase := .ePayload }; s.phase.encoding = true ∧ s.sclosed = false) ∧
    (let s := { State.reset with phase := .eClose, sclosed := true }
     s.phase.encoding = true ∧ s.sclosed = true) ∧
    (let s := { State.reset with phase := .dWalk }; s.phase.decoding = true ∧ s.rclosed = false) ∧
    (let s := { State.reset with phase := .dClose, rclosed := true }
     s.phase.decoding = true ∧ s.rclosed = true) ∧
    State.reset.busy = false := by decide +kernel

theorem witness_FailedLeftOnlyByCommandOrReset :
    (∃ u, step { State.reset with phase := .failed, err := .badCount, stim := [.command 0x02] } = .next u ∧
      u.phase ≠ .failed) ∧
    (∃ u, step { State.reset with phase := .failed, err := .badCount, stim := [.reset] } = .next u ∧
      u.phase ≠ .failed) ∧
    (∃ u, step { State.reset with phase := .failed, err := .badCount, stim := [.issue (codeOnly 0x01)] } = .next u ∧
      u.phase ≠ .failed) ∧
    (∃ u, step { streams [] [] [.reset] with
        phase := .failed, err := .badCount, stim := [.issue (codeOnly 0x23)] } = .next u ∧ u.phase ≠ .failed) := by
  have h1 : nextWith (step { State.reset with phase := .failed, err := .badCount, stim := [.command 0x02] })
      (fun u => decide (u.phase ≠ .failed)) = true := by decide +kernel
  have h2 : nextWith (step { State.reset with phase := .failed, err := .badCount, stim := [.reset] })
      (fun u => decide (u.phase ≠ .failed)) = true := by decide +kernel
  have h3 : nextWith (step { State.reset with
      phase := .failed, err := .badCount, stim := [.issue (codeOnly 0x01)] })
      (fun u => decide (u.phase ≠ .failed)) = true := by decide +kernel
  have h4 : nextWith (step { streams [] [] [.reset] with
      phase := .failed, err := .badCount, stim := [.issue (codeOnly 0x23)] })
      (fun u => decide (u.phase ≠ .failed)) = true := by decide +kernel
  exact ⟨by simpa using nextWith_spec h1, by simpa using nextWith_spec h2, by simpa using nextWith_spec h3,
    by simpa using nextWith_spec h4⟩

theorem witness_FailedCallIsIOError_first :
    (streams [] [] [.ok, .fail]).env.answering ∧
    (let s := streams [0x61] [] [.fail]
     s.env.answers = .fail :: [] ∧ s.rclosed = false ∧ s.rcnt = 0 ∧ s.sclosed = false ∧ s.wcnt = 0) ∧
    (let s := { streams [] [] [.fail] with wcnt := 8, wbuf := 0xB9 }
     s.env.answers = .fail :: [] ∧ s.sclosed = false ∧ s.wcnt ≠ 0 ∧ s.wcnt.toNat ≤ 8) := by decide +kernel

/-- The last byte that each operation puts or reads. -/
theorem witness_FailedCallIsIOError_later :
    (let s := { streams [] [] (List.replicate 16 .ok ++ [.fail]) with wcnt := 7, wbuf := 0x7F }
     s.env.answers = List.replicate 16 .ok ++ .fail :: [] ∧ s.sclosed = false ∧ s.SinkInv ∧ s.wcnt ≠ 0 ∧
       ((fullBytes (s.pendingBits ++ List.replicate 130 true))[16]?).isSome) ∧
    (let s := streams [1, 2, 3, 4] [] (List.replicate 3 .ok ++ [.fail])
     s.env.answers = List.replicate 3 .ok ++ .fail :: [] ∧ s.sclosed = false ∧ s.wcnt = 0 ∧
       (bigEndianBytes 0x12345678)[3]? = some 0x78 ∧ s.rclosed = false ∧ s.rcnt = 0 ∧ 3 ≤ s.env.src.length) ∧
    (let s := { streams [1] [] [.ok, .fail] with ser := [98, 97, 128] }
     s.env.answers = List.replicate 1 .ok ++ .fail :: [] ∧ (0x00 :: s.serlen :: s.ser)[1]? = some 3 ∧
       1 ≤ s.env.src.length) := by
  unfold State.SinkInv
  decide +kernel

theorem witness_FailedCallIsIOError_units :
    (let s := streams [0x00, 0x03, 98, 97, 128] [] (List.replicate 4 .ok ++ [.fail])
     s.env.answers = List.replicate 4 .ok ++ .fail :: [] ∧ s.rclosed = false ∧ s.rcnt = 0 ∧
       s.env.src = 0x00 :: 0x03 :: [98, 97] ++ [128] ∧ 4 = 2 + [98#8, 97].length ∧
       [98#8, 97].length < (0x00 : Byte).toNat * 256 + (0x03 : Byte).toNat ∧
       (0x00 : Byte).toNat * 256 + (0x03 : Byte).toNat ≤ 255 ∧ ∀ u ∈ [98#8, 97], u.toNat ≤ 128) ∧
    (let s := { streams [97, 98] [] [.ok, .fail] with total := 2147483646 }
     s.env.answers = List.replicate 1 .ok ++ .fail :: [] ∧ s.env.src = [97] ++ [98] ∧ 1 = [97#8].length ∧
       (∀ x ∈ [97#8], x.toNat ≤ 127) ∧ s.total.toNat + [97#8].length ≤ 2147483647) := by
  decide +kernel

/-- Payload 0x7F under `cab`: c is put, then the put of b fails; the calls are a read and two puts. -/
theorem witness_FailedCallIsIOError_walk :
    let s := { cabState with total := 4, env := { Env.empty with src := [0x7F], answers := [.ok, .ok, .fail] } }
    let xs : List (Symbol × Bits) := [(99, [false])]
    let x : Symbol × Bits := (98, [true, true])
    (s.env.answers = List.replicate 2 .ok ++ .fail :: [] ∧ s.rclosed = false ∧ s.rcnt.toNat ≤ 7 ∧
      s.nodes.length ≤ 255 ∧ xs.length < s.total.toNat ∧ s.total.msb = false ∧
      s.bitsAhead = (xs ++ [x]).flatMap (·.2) ++ List.replicate 5 true ∧
      2 + 1 = (walkCalls s.rcnt.toNat s.env.src (xs ++ [x])).length) ∧
    s.holdsTree cab ∧ ∀ y ∈ xs ++ [x], cab.reaches y.2 y.1 :=
  ⟨by decide +kernel, cabState_owns.1, by simp [cab, Tree.reaches, Tree.paths]⟩

/-- The SnkClose of SNK.CLOSE after its byte. -/
theorem witness_FailedCallIsIOError_snkClose :
    ∀ n ∈ [7#4, 8#4],
      let s := { streams [] [] [.ok, .fail] with wcnt := n, wbuf := 0x7F }
      s.env.answers = List.replicate 1 .ok ++ .fail :: [] ∧ s.sclosed = false ∧ (s.SinkInv ∨ s.wcnt = 8) ∧
        s.wcnt ≠ 0 := by
  unfold State.SinkInv
  decide +kernel

theorem witness_FailedCallIsIOError_closing :
    (∃ t, exec .snkClose { streams [] [] [.ok, .ok, .fail] with phase := .eClose, wcnt := 4 } = .next t ∧
      t.phase = .eClose ∧ t.env.answers = .fail :: []) ∧
    (∃ t, exec .srcClose { streams [] [] [.ok, .fail] with phase := .dClose, rcnt := 4 } = .next t ∧
      t.phase = .dClose ∧ t.env.answers = .fail :: []) := by
  have h1 : nextWith (exec .snkClose { streams [] [] [.ok, .ok, .fail] with phase := .eClose, wcnt := 4 })
      (fun t => decide (t.phase = .eClose ∧ t.env.answers = .fail :: [])) = true := by decide +kernel
  have h2 : nextWith (exec .srcClose { streams [] [] [.ok, .fail] with phase := .dClose, rcnt := 4 })
      (fun t => decide (t.phase = .dClose ∧ t.env.answers = .fail :: [])) = true := by decide +kernel
  exact ⟨by simpa using nextWith_spec h1, by simpa using nextWith_spec h2⟩

theorem witness_SilentHostStopsAndResetCuts :
    (let s := { streams [0x61] [] [.never] with phase := .eClose }
     s.env.answers = .never :: [] ∧ s.rclosed = false ∧ s.rcnt = 0 ∧ s.sclosed = false ∧ s.wcnt = 0 ∧
       s.busy = true) ∧
    (let s := { streams [0x61] [] [.reset] with phase := .dWalk }
     s.env.answers = .reset :: [] ∧ s.rclosed = false ∧ s.rcnt = 0 ∧ s.sclosed = false ∧ s.wcnt = 0 ∧
       s.busy = true) ∧
    (let s := { streams [] [] [.fail, .never] with phase := .ePayload }
     s.phase.encoding = true ∧ s.sclosed = false ∧ s.env.answers = .fail :: .never :: []) ∧
    (let s := { streams [] [] [.ok, .reset] with phase := .dHeader }
     s.phase.decoding = true ∧ s.rclosed = false ∧ s.env.answers = .ok :: .reset :: []) := by
  decide +kernel

theorem witness_PreconditionsRaise :
    { State.reset with heap := List.replicate 128 ⟨7, 0, 0⟩ }.heap.length = 128 ∧
    { State.reset with seq := 255 }.seq = 255 ∧ State.reset.heap = [] ∧
    { State.reset with sclosed := true }.sclosed = true ∧ { State.reset with wcnt := 1 }.wcnt ≠ 0 ∧
    { State.reset with rclosed := true }.rclosed = true ∧ { State.reset with rcnt := 1 }.rcnt ≠ 0 ∧
    { State.reset with total := 0x80000000 }.total.toInt < 0 ∧
    (let s := { State.reset with total := 1 }; 0 < s.total.toInt ∧ s.root = 255) := by decide +kernel

theorem witness_InvocationErrors :
    (∃ u, exec .encode (streams [0x80] [] []) = .next u) ∧ (∃ u, exec .decode (streams [0x00] [] []) = .next u) :=
  ⟨exists_next (by decide +kernel), exists_next (by decide +kernel)⟩

/-- Seven pending bits and 127 new ones; also nothing pending and no new bit. -/
theorem witness_WbitsPacks :
    (let s := { State.reset with wcnt := 7, wbuf := 0x7F }
     s.sclosed = false ∧ s.SinkInv ∧ s.env.obliging) ∧
    (State.reset.sclosed = false ∧ State.reset.SinkInv ∧ State.reset.env.obliging) := by
  unfold State.SinkInv
  decide +kernel

theorem witness_ByteLevelWrites :
    let s := { State.reset with ser := List.replicate 255 128 }
    s.sclosed = false ∧ s.wcnt = 0 ∧ s.env.obliging := by decide +kernel

theorem witness_WbitsOfWordIsWint :
    State.reset.sclosed = false ∧ State.reset.wcnt = 0 ∧ State.reset.wbuf = 0 ∧ State.reset.env.obliging := by
  decide +kernel

theorem witness_SnkCloseFlushes :
    (∀ n ∈ [7#4, 8#4], let s := { State.reset with wcnt := n, wbuf := 0x7F }
      s.sclosed = false ∧ (s.SinkInv ∨ s.wcnt = 8) ∧ s.env.obliging) ∧
    (State.reset.sclosed = false ∧ State.reset.SinkInv ∧ State.reset.env.obliging) := by
  unfold State.SinkInv
  decide +kernel

theorem witness_RbitReturnsOldest :
    (let s := streams [0xE0] [] [.ok]
     s.rclosed = false ∧ s.SourceInv ∧ s.env.obliging ∧
       s.bitsAhead = true :: [true, true, false, false, false, false, false]) ∧
    (let s := { State.reset with rbuf := 0x80, rcnt := 7 }
     s.rclosed = false ∧ s.SourceInv ∧ s.env.obliging ∧ s.bitsAhead = true :: List.replicate 6 false) := by
  unfold State.SourceInv
  decide +kernel

theorem witness_RintReadsBigEndian :
    let s := streams [0x12, 0x34, 0x56, 0x78, 0x9A] [] []
    let v : Word := 0x12345678
    s.rclosed = false ∧ s.rcnt = 0 ∧ s.env.obliging ∧
    s.env.src = [v.extractLsb' 24 8, v.extractLsb' 16 8, v.extractLsb' 8 8, v.extractLsb' 0 8] ++ [0x9A] := by
  decide +kernel

/-- The longest description, and the empty one. -/
theorem witness_RstrReadsUnits :
    (let s := streams (0x00 :: 0xFF :: List.replicate 255 128 ++ [1]) [] []
     let units : List Byte := List.replicate 255 128
     s.rclosed = false ∧ s.rcnt = 0 ∧ s.env.obliging ∧ s.env.src = 0x00 :: 0xFF :: units ++ [1] ∧
       (0x00 : Byte).toNat * 256 + (0xFF : Byte).toNat = units.length ∧ units.length ≤ 255 ∧
       ∀ u ∈ units, u.toNat ≤ 128) ∧
    (let s := streams [0x00, 0x00] [] []
     s.env.src = 0x00 :: 0x00 :: [] ++ [] ∧ (0x00 : Byte).toNat * 256 + (0x00 : Byte).toNat = 0) := by
  decide +kernel

theorem witness_RstrRejects :
    (let s := streams [0x01, 0x00] [] []
     s.rclosed = false ∧ s.rcnt = 0 ∧ s.env.obliging ∧ s.env.src = 0x01 :: 0x00 :: [] ∧
       255 < (0x01 : Byte).toNat * 256 + (0x00 : Byte).toNat) ∧
    (let s := streams [0x00, 0x02, 0x80, 0x81] [] []
     s.rclosed = false ∧ s.rcnt = 0 ∧ s.env.obliging ∧ s.env.src = 0x00 :: 0x02 :: [0x80] ++ 0x81 :: [] ∧
       (0x00 : Byte).toNat * 256 + (0x02 : Byte).toNat ≤ 255 ∧
       [0x80#8].length < (0x00 : Byte).toNat * 256 + (0x02 : Byte).toNat ∧ (∀ u ∈ [0x80#8], u.toNat ≤ 128) ∧
       128 < (0x81 : Byte).toNat) := by
  decide +kernel

theorem witness_SrcCloseReleases :
    let s := { State.reset with rbuf := 0x80, rcnt := 7 }
    s.rclosed = false ∧ s.env.obliging := by decide +kernel

theorem witness_EndOfStreamRaised :
    (let s := State.reset
     s.rclosed = false ∧ s.rcnt = 0 ∧ s.env.obliging ∧ s.env.src = []) ∧
    (streams [1, 2, 3] [] []).env.src.length < 4 ∧ (streams [1] [] []).env.src.length < 2 ∧
    (let s := streams [0x00, 0x02, 0x80] [] []
     s.env.src = 0x00 :: 0x02 :: [0x80] ∧ [0x80#8].length < (0x00 : Byte).toNat * 256 + (0x02 : Byte).toNat ∧
       (0x00 : Byte).toNat * 256 + (0x02 : Byte).toNat ≤ 255 ∧ ∀ u ∈ [0x80#8], u.toNat ≤ 128) := by
  decide +kernel

theorem witness_InsertAddsEntry :
    (let s := { State.reset with heap := List.replicate 127 ⟨7, 0, 0⟩, seq := 254 }
     s.heap.length < 128 ∧ s.seq ≠ 255) ∧
    (sixSlots.heap.length < 128 ∧ sixSlots.seq ≠ 255) ∧ sixSlots.QueueInv :=
  ⟨by decide +kernel, by decide +kernel, sixSlots_QueueInv⟩

theorem witness_DelminTakesLeast :
    sixSlots.QueueInv ∧ sixSlots.heap = ⟨1, 3, 13⟩ :: sixSlots.heap.tail :=
  ⟨sixSlots_QueueInv, by decide +kernel⟩

theorem witness_QueueQueriesAnswer :
    sixSlots.heap = ⟨1, 3, 13⟩ :: sixSlots.heap.tail ∧ State.reset.heap = [] := by decide +kernel

theorem witness_StepKeepsQueueInv :
    { sixSlots with stim := [.issue (codeOnly 0x31)] }.QueueInv ∧
    ∃ u, step { sixSlots with stim := [.issue (codeOnly 0x31)] } = .next u :=
  ⟨⟨sixSlots_QueueInv.1, sixSlots_QueueInv.2, sixSlots_QueueInv.3, sixSlots_QueueInv.4⟩,
    exists_next (by decide +kernel)⟩

theorem witness_BuildIsHuffman : State.reset.occurring = [] ∧ aaabCounted.occurring ≠ [] := by decide +kernel

theorem witness_TraversalsOfTree :
    (cabState.holdsTree cab ∧ cab.symbols.length ≤ 128) ∧
    (loneState.holdsTree (.leaf 122) ∧ (Tree.leaf 122).symbols.length ≤ 128) ∧ State.reset.root = 255 :=
  ⟨⟨cabState_owns.1, by decide +kernel⟩, ⟨loneState_owns.1, by decide +kernel⟩, by decide +kernel⟩

theorem witness_DeserRebuildsTree :
    ({ State.reset with ser := (comb 127).postorder }.ser = (comb 127).postorder ∧
      (comb 127).symbols.length ≤ 128) ∧
    ({ State.reset with ser := [122] }.ser = (Tree.leaf 122).postorder ∧ (Tree.leaf 122).symbols.length ≤ 128) ∧
    State.reset.ser = [] :=
  ⟨⟨rfl, by decide +kernel⟩, ⟨by decide +kernel, by decide +kernel⟩, by decide +kernel⟩

/-- Underflow, two nodes at the end, a full stack. -/
theorem witness_DeserRejectsNonTree :
    (∀ ser ∈ [[128#8], [97, 98], List.replicate 129 97],
      let s := { State.reset with ser := ser }
      s.ser ≠ [] ∧ s.ser.length ≤ 255 ∧ ∀ v ∈ s.ser, v.toNat ≤ 128) ∧
    (¬ ∃ t : Tree, [128#8] = t.postorder) ∧ (¬ ∃ t : Tree, [97#8, 98] = t.postorder) ∧
    ¬ ∃ t : Tree, List.replicate 129 97#8 = t.postorder :=
  ⟨by decide +kernel, sentinel_not_postorder, postorder_last (by decide) (by decide),
    postorder_last (by decide +kernel) (by decide +kernel)⟩

/-- The tree that HT.BUILD makes of `"aaab"`, and the clause about a tree that is there. -/
theorem witness_SerializeDeserializeInverse :
    ∃ u, exec .htBuild aaabCounted = .next u ∧ u.root ≠ 255 ∧ u.holdsTree ba := by
  have h : nextWith (exec .htBuild aaabCounted)
      (fun t => decide (t.nodes = [.leaf 97, .leaf 98, .branch 1 0] ∧ t.root = 2)) = true := by decide +kernel
  obtain ⟨u, hu, hp⟩ := nextWith_spec h
  obtain ⟨hn, hr⟩ := of_decide_eq_true hp
  refine ⟨u, hu, by rw [hr]; decide, by rw [hr]; decide, ?_⟩
  rw [hn, hr]
  exact ⟨1, 0, rfl, rfl, rfl⟩

theorem witness_CodeTablePrefixFree :
    aaabCounted.freqAt 97 ≠ 0 ∧ (97 : Symbol) ≠ 98 ∧
    ∃ u v, exec .htBuild aaabCounted = .next u ∧ exec .htGencodes u = .next v ∧
      v.codeAt 97 ≠ [] ∧ v.codeAt 98 ≠ [] := by
  refine ⟨by decide +kernel, by decide +kernel, ?_⟩
  have h : nextWith (exec .htBuild aaabCounted) (fun u => nextWith (exec .htGencodes u)
      (fun v => decide (v.codeAt 97 ≠ [] ∧ v.codeAt 98 ≠ []))) = true := by decide +kernel
  obtain ⟨u, hu, hp⟩ := nextWith_spec h
  obtain ⟨v, hv, hq⟩ := nextWith_spec hp
  exact ⟨u, v, hu, hv, of_decide_eq_true hq⟩

theorem witness_CodeTableOptimal :
    2 ≤ aaabCounted.occurring.length ∧
    (aaabCounted.occurring.map fun sym => (aaabCounted.freqAt sym).toNat).sum < 2 ^ 32 ∧
    ba.symbols.Perm aaabCounted.occurring :=
  ⟨by decide +kernel, by decide +kernel, by decide +kernel⟩

theorem witness_FcountCounts :
    let s := { streams [0x00, 0x7F] [] [.ok] with total := 2147483645 }
    (∀ b ∈ s.env.src, b.toNat ≤ 127) ∧ s.total.toNat + s.env.src.length ≤ 2147483647 ∧ s.env.obliging := by
  decide +kernel

theorem witness_FcountRejects :
    (let s := { streams [0x7F, 0x80] [] [] with total := 2147483646 }
     s.env.src = [0x7F] ++ 0x80 :: [] ∧ (∀ x ∈ [0x7F#8], x.toNat ≤ 127) ∧ s.env.obliging ∧
       127 < (0x80 : Byte).toNat ∧ s.total.toNat + [0x7F#8].length ≤ 2147483647) ∧
    (let s := { streams [0x7F, 0x00] [] [] with total := 2147483646 }
     s.env.src = [0x7F] ++ 0x00 :: [] ∧ (∀ x ∈ [0x7F#8], x.toNat ≤ 127) ∧ s.env.obliging ∧
       (0x00 : Byte).toNat ≤ 127 ∧ s.total.toNat + [0x7F#8].length = 2147483647) := by
  decide +kernel

theorem witness_WheaderWrites :
    (baState.sclosed = false ∧ baState.wcnt = 0 ∧ baState.env.obliging) ∧
    (baState.holdsTree ba ∧ ba.symbols.length ≤ 128) ∧
    (State.reset.sclosed = false ∧ State.reset.wcnt = 0 ∧ State.reset.env.obliging ∧ State.reset.root = 255) :=
  ⟨by decide +kernel, ⟨baState_owns.1, by decide +kernel⟩, by decide +kernel⟩

/-- Seven pending bits, two bytes to encode. -/
theorem witness_WpayloadWrites :
    let s := { ((streams [] [0x61, 0x62] []).setCode 97 [true]).setCode 98 [false] with
      total := 2, wcnt := 7, wbuf := 0x7F }
    s.sclosed = false ∧ s.SinkInv ∧ s.env.obliging ∧
    (∀ b ∈ s.env.replay, b.toNat ≤ 127 ∧ s.codeAt (symbolOf b) ≠ []) ∧ s.env.replay.length = s.total.toNat := by
  unfold State.SinkInv
  decide +kernel

theorem witness_WpayloadRejects :
    let s := fun (replay : List Byte) => { (streams [] replay []).setCode 97 [true] with total := 1 }
    (∀ replay ∈ [[0x80], [0x62], [0x61, 0x61], []],
      (s replay).sclosed = false ∧ ((s replay).wcnt.toNat ≤ 7 ∧ (s replay).wbuf.toNat < 2 ^ (s replay).wcnt.toNat) ∧
        (s replay).env.obliging) ∧
    ((s [0x80]).env.replay = [] ++ 0x80 :: [] ∧ 127 < (0x80 : Byte).toNat) ∧
    ((s [0x62]).env.replay = [] ++ 0x62 :: [] ∧ (s [0x62]).codeAt (symbolOf 0x62) = []) ∧
    ((s [0x61, 0x61]).env.replay = [0x61] ++ 0x61 :: [] ∧ [0x61#8].length = (s []).total.toNat ∧
      (s []).codeAt (symbolOf 0x61) ≠ []) ∧
    ((s []).env.replay = [] ∧ ([] : List Byte).length < (s []).total.toNat) := by
  decide +kernel

theorem witness_RheaderReads :
    (let s := streams [0x7F, 0xFF, 0xFF, 0xFF, 0x00, 0x03, 0x62, 0x61, 0x80, 0xE0] [] []
     let v : Word := 0x7FFFFFFF
     s.rclosed = false ∧ s.rcnt = 0 ∧ s.env.obliging ∧ v.msb = false ∧ ba.symbols.length ≤ 128 ∧
       s.env.src = bigEndianBytes v ++ 0x00 :: BitVec.ofNat 8 ba.postorder.length :: ba.postorder ++ [0xE0]) ∧
    (streams [0, 0, 0, 0, 0, 0] [] []).env.src = [0x00, 0x00, 0x00, 0x00, 0x00, 0x00] ++ [] := by
  decide +kernel

theorem witness_RheaderRejects :
    (let s := streams [0x80, 0x00, 0x00, 0x00] [] []
     let v : Word := 0x80000000
     s.rclosed = false ∧ s.rcnt = 0 ∧ s.env.obliging ∧ s.env.src = bigEndianBytes v ++ [] ∧ v.toInt < 0) ∧
    (streams [0, 0, 0] [] []).env.src.length < 4 ∧
    (let s := streams [0, 0, 0, 1, 0, 0] [] []
     let v : Word := 1
     s.env.src = bigEndianBytes v ++ [0x00, 0x00] ++ [] ∧ 0 < v.toInt) ∧
    (let s := streams [0, 0, 0, 0, 0] [] []
     let v : Word := 0
     s.env.src = bigEndianBytes v ++ [0x00] ∧ 0 ≤ v.toInt ∧ [0x00#8].length < 2) := by
  decide +kernel

/-- With the count 0: a length of 256, units cut off, a reserved unit. -/
theorem witness_RheaderRejects_units :
    let src := fun bytes : List Byte => (streams (0 :: 0 :: 0 :: 0 :: bytes) [] []).env.src
    let v : Word := 0
    0 ≤ v.toInt ∧ (∀ u ∈ [97#8], u.toNat ≤ 128) ∧
    (src [1, 0] = bigEndianBytes v ++ 1 :: 0 :: [] ∧ 255 < (1 : Byte).toNat * 256 + (0 : Byte).toNat) ∧
    (src [0, 2, 97] = bigEndianBytes v ++ 0 :: 2 :: [97] ∧
      [97#8].length < (0 : Byte).toNat * 256 + (2 : Byte).toNat ∧ (0 : Byte).toNat * 256 + (2 : Byte).toNat ≤ 255) ∧
    (src [0, 2, 97, 129] = bigEndianBytes v ++ 0 :: 2 :: [97] ++ 129 :: [] ∧ 128 < (129 : Byte).toNat) := by
  decide +kernel

/-- With the count 0: two nodes at the end. -/
theorem witness_RheaderRejects_shape :
    let units : List Byte := [97, 98]
    ((streams [0, 0, 0, 0, 0, 2, 97, 98] [] []).env.src = bigEndianBytes 0 ++ 0 :: 2 :: units ++ [] ∧
      units.length = (0 : Byte).toNat * 256 + (2 : Byte).toNat ∧ (∀ u ∈ units, u.toNat ≤ 128) ∧ units ≠ []) ∧
    ¬ ∃ t : Tree, units = t.postorder :=
  ⟨by decide +kernel, postorder_last (by decide) (by decide)⟩

/-- `"aaab"` from the payload byte 0xE0; and a lone leaf under bits of either value. -/
theorem witness_WalkEmitsSymbols :
    (let s := { baState with total := 4, env := { Env.empty with src := [0xE0] } }
     let xs : List (Symbol × Bits) := [(97, [true]), (97, [true]), (97, [true]), (98, [false])]
     (s.rclosed = false ∧ s.rcnt.toNat ≤ 7 ∧ s.env.obliging ∧ s.nodes.length ≤ 255 ∧
       s.total.toNat = xs.length ∧ s.total.msb = false ∧
       s.bitsAhead = xs.flatMap (·.2) ++ List.replicate 4 false) ∧
     s.holdsTree ba ∧ ∀ x ∈ xs, ba.reaches x.2 x.1) ∧
    (let s := { loneState with total := 2, rcnt := 2, rbuf := 0x80 }
     let xs : List (Symbol × Bits) := [(122, [true]), (122, [false])]
     (s.rclosed = false ∧ s.rcnt.toNat ≤ 7 ∧ s.env.obliging ∧ s.nodes.length ≤ 255 ∧
       s.total.toNat = xs.length ∧ s.total.msb = false ∧ s.bitsAhead = xs.flatMap (·.2) ++ []) ∧
     s.holdsTree (.leaf 122) ∧ ∀ x ∈ xs, (Tree.leaf 122).reaches x.2 x.1) ∧
    baState.total = 0 :=
  ⟨⟨by decide +kernel, baState_owns.1, by simp [ba, Tree.reaches, Tree.paths]⟩,
    ⟨by decide +kernel, loneState_owns.1, by simp [Tree.reaches]⟩, rfl⟩

/-- Payload 0x7F under `cab`: c, b, b, b, and the first bit of a code. -/
theorem witness_WalkTruncatedPayload :
    let s := { cabState with total := 9, env := { Env.empty with src := [0x7F] } }
    let xs : List (Symbol × Bits) := [(99, [false]), (98, [true, true]), (98, [true, true]), (98, [true, true])]
    let p : Bits := [true]
    (s.rclosed = false ∧ s.rcnt.toNat ≤ 7 ∧ s.env.obliging ∧ s.nodes.length ≤ 255 ∧
      xs.length < s.total.toNat ∧ s.total.msb = false ∧ s.bitsAhead = xs.flatMap (·.2) ++ p) ∧
    s.holdsTree cab ∧ (∀ x ∈ xs, cab.reaches x.2 x.1) ∧ ∀ q sym, q <+: p → ¬ cab.reaches q sym := by
  refine ⟨by decide +kernel, cabState_owns.1, ?_, ?_⟩
  · simp [cab, Tree.reaches, Tree.paths]
  · intro q sym hq
    simp only [cab, Tree.reaches, Tree.paths, List.nil_append, List.cons_append, List.mem_cons, Prod.mk.injEq,
      List.not_mem_nil, or_false]
    rintro (⟨-, rfl⟩ | ⟨-, rfl⟩ | ⟨-, rfl⟩) <;> revert hq <;> decide

/-- Inputs of ENCODE: `"aaab"`, and nothing. -/
theorem witness_EncodeWritesContainer :
    ∀ x ∈ [[0x61#8, 0x61, 0x61, 0x62], []],
      let s := streams x x []
      s.busy = false ∧ s.env.src = x ∧ s.env.replay = x ∧ (∀ b ∈ x, b.toNat ≤ 127) ∧ x.length ≤ 2147483647 ∧
        s.env.obliging := by
  decide +kernel

theorem witness_ContainerLength :
    let x : List Byte := List.replicate 9 0x7F
    let s := streams x x [.ok]
    s.busy = false ∧ s.env.src = x ∧ s.env.replay = x ∧ (∀ b ∈ x, b.toNat ≤ 127) ∧ x.length ≤ 2147483647 ∧
      s.env.obliging := by
  decide +kernel

theorem witness_DecodeReadsContainer :
    (let xs : List (Symbol × Bits) := [(97, [true]), (97, [true]), (97, [true]), (98, [false])]
     let payload : List Byte := [0xE0, 0x55]
     let rest : Bits := List.replicate 4 false ++ bitsOfByte 0x55
     let s := streams [0x00, 0x00, 0x00, 0x04, 0x00, 0x03, 0x62, 0x61, 0x80, 0xE0, 0x55] [] []
     (s.busy = false ∧ s.env.obliging ∧ ba.symbols.length ≤ 128 ∧ xs.length ≤ 2147483647 ∧
       payload.flatMap bitsOfByte = xs.flatMap (·.2) ++ rest ∧
       s.env.src = (bigEndianBytes (BitVec.ofNat 32 xs.length) ++
         0x00 :: BitVec.ofNat 8 ba.postorder.length :: ba.postorder) ++ payload) ∧
     ∀ x ∈ xs, ba.reaches x.2 x.1) ∧
    (streams [0, 0, 0, 0, 0, 0, 9] [] []).env.src = [0x00, 0x00, 0x00, 0x00, 0x00, 0x00] ++ [9] :=
  ⟨⟨by decide +kernel, by simp [ba, Tree.reaches, Tree.paths]⟩, by decide +kernel⟩

theorem witness_RoundTrip :
    let x : List Byte := [0x61, 0x61, 0x61, 0x62]
    let s := streams x x []
    let s' := { streams [0x00, 0x00, 0x00, 0x04, 0x00, 0x03, 0x62, 0x61, 0x80, 0xE0] [] [] with
      phase := .failed, err := .badCount }
    s.busy = false ∧ (∀ b ∈ x, b.toNat ≤ 127) ∧ x.length ≤ 2147483647 ∧ s.env.obliging ∧ s.env.src = x ∧
      s.env.replay = x ∧ s'.busy = false ∧ s'.env.obliging ∧
      s'.env.src = [0x00, 0x00, 0x00, 0x04, 0x00, 0x03, 0x62, 0x61, 0x80, 0xE0] := by
  decide +kernel

theorem witness_TrailingBytesIgnored :
    let s := streams [0x00, 0x00, 0x00, 0x04, 0x00, 0x03, 0x62, 0x61, 0x80, 0xE0] [] []
    s.busy = false ∧ ∃ u, exec .decode s = .next u ∧ u.phase = .done := by
  have h : nextWith (exec .decode (streams [0x00, 0x00, 0x00, 0x04, 0x00, 0x03, 0x62, 0x61, 0x80, 0xE0] [] []))
      (fun u => decide (u.phase = .done)) = true := by decide +kernel
  exact ⟨by decide +kernel, by simpa using nextWith_spec h⟩

/-- `TreeInv` of `baState` however the host's side, the phase and the stimuli stand. -/
theorem baState_TreeInv (p : Phase) (e : Env) (st : List Stimulus) :
    { baState with phase := p, env := e, stim := st }.TreeInv where
  store := (by decide +kernel : baState.nodes.length ≤ Config.nodeCap)
  stack := (by decide +kernel : baState.stk.length ≤ Config.stackCap)
  description := (by decide +kernel : baState.ser.length ≤ Config.serCap)
  units := by
    intro v hv
    exact absurd hv List.not_mem_nil
  codes := by
    have h : ∀ sym, (baState.codeAt sym).length ≤ Config.codeMax := by decide +kernel
    exact h
  shape := .inr ⟨ba, baState_owns, by decide +kernel⟩

theorem witness_StepKeepsTreeInv :
    { baState with phase := .eCodes, env := Env.empty, stim := [.quiet] }.TreeInv ∧
    ∃ u, step { baState with phase := .eCodes, env := Env.empty, stim := [.quiet] } = .next u :=
  ⟨baState_TreeInv _ _ _, exists_next (by decide +kernel)⟩

/-- A close with bits pending, a put that fails, and a command to the block that it failed. -/
theorem witness_StepKeepsStreamBuffers :
    (let s := { streams [] [] [] with
       phase := .failed, err := .ioError, wcnt := 8, wbuf := 0xFF, stim := [.command 0x01] }
     (s.phase ≠ .failed → s.SinkInv) ∧ ¬s.SinkInv ∧ s.SourceInv ∧
       ∃ u, step s = .next u ∧ u.phase ≠ .failed) ∧
    (let s := { State.reset with wcnt := 7, wbuf := 0x7F, rcnt := 7, stim := [.issue (codeOnly 0x13)] }
     s.SinkInv ∧ s.SourceInv ∧ ∃ u, step s = .next u) ∧
    (let s := { streams [] [] [.fail] with
       wcnt := 7, wbuf := 0x7F, stim := [.issue { codeOnly 0x10 with len := 1, bits := 1 }] }
     s.SinkInv ∧ s.SourceInv ∧ ∃ u, step s = .next u) := by
  unfold State.SinkInv State.SourceInv
  refine ⟨⟨by decide +kernel, by decide +kernel, by decide +kernel, ?_⟩,
    ⟨by decide +kernel, by decide +kernel, exists_next (by decide +kernel)⟩,
    ⟨by decide +kernel, by decide +kernel, exists_next (by decide +kernel)⟩⟩
  have h : nextWith (step { streams [] [] [] with
      phase := .failed, err := .ioError, wcnt := 8, wbuf := 0xFF, stim := [.command 0x01] })
      (fun u => decide (u.phase ≠ .failed)) = true := by decide +kernel
  simpa using nextWith_spec h

theorem witness_StepKeepsErrInv :
    (let s := { State.reset with phase := .eClose, sclosed := true }
     s.ErrInv ∧ ∃ u, step s = .next u) ∧
    (let s := { State.reset with phase := .failed, err := .badCount, stim := [.command 0x01] }
     s.ErrInv ∧ ∃ u, step s = .next u) := by
  unfold State.ErrInv
  exact ⟨⟨by decide +kernel, exists_next (by decide +kernel)⟩, ⟨by decide +kernel, exists_next (by decide +kernel)⟩⟩

/-- A failing host, and each kind of stimulus the premise looks at. -/
theorem witness_AnsweredStepsComplete :
    (let s := { baState with
       phase := .eHeader, env := { Env.empty with answers := [.ok, .fail] }, stim := [.issue (codeOnly 0x42)] }
     s.TreeInv ∧ s.env.answering ∧ s.properStimulus) ∧
    (let s := { baState with phase := .done, env := Env.empty, stim := [.attach [1] [1] []] }
     s.TreeInv ∧ s.env.answering ∧ s.properStimulus) ∧
    (let s := { baState with phase := .dWalk, env := Env.empty, stim := [] }
     s.TreeInv ∧ s.env.answering ∧ s.properStimulus) :=
  ⟨⟨baState_TreeInv _ _ _, by decide +kernel, ⟨.htSer, rfl⟩⟩, ⟨baState_TreeInv _ _ _, by decide +kernel, rfl⟩,
    ⟨baState_TreeInv _ _ _, by decide +kernel, trivial⟩⟩

end Sys2Proof.Tests
end

section
/-! PROOFS. Scope of the block: a step that is given an operation runs that operation. -/

namespace Sys2Proof.Machine

/-- A transfer next in the queue of stimuli is taken off it and issued. -/
theorem step_of_issue {s : State} {t : Transfer} {rest : List Stimulus} (hstim : s.stim = .issue t :: rest) :
    step s = issue t { s with stim := rest } := by
  simp only [step, hstim]

/-- Issuing a transfer that decodes is running its operation (spec/00_scope.md R9). -/
theorem issue_of_decode_ok {t : Transfer} {i : Instr} (hdecode : decode t = .ok i) (s : State) :
    issue t s = exec i s := by
  simp only [issue, hdecode]

/-- Settles O4: the step issues the transfer, and an issued transfer that decodes runs its operation. -/
theorem stepRunsIssuedOperation : Obligations.StepRunsIssuedOperation := by
  unfold Obligations.StepRunsIssuedOperation
  intro s t rest i hstim hdecode
  calc step s
    _ = issue t { s with stim := rest } := step_of_issue hstim
    _ = exec i { s with stim := rest } := issue_of_decode_ok hdecode _

end Sys2Proof.Machine
end

section
/-! PROOFS. What an operation keeps: pre- and postconditions of pseudocode, with one rule for each way of composing
it. An operation that is cut off from outside is left out, because the step then ends in the reset state or not at
all. -/

namespace Sys2Proof.Machine

variable {α β : Type} {P : State → Prop} {Q : α → State → Prop} {R : β → State → Prop}
  {E : ErrKind → State → Prop}

/-- From a state with `P` the operation ends with `Q`, or raises with `E`, or is cut off. -/
def Triple (P : State → Prop) (op : Op α) (Q : α → State → Prop) (E : ErrKind → State → Prop) : Prop :=
  ∀ s, P s → (∀ a t, op s = .ok a t → Q a t) ∧ (∀ k t, op s = .error (.raised k) t → E k t)

theorem triple_pure {a : α} (h : ∀ s, P s → Q a s) : Triple P (pure a) Q E := by
  intro s hs
  refine ⟨fun b t hb => ?_, fun k t hk => ?_⟩
  · simp only [run_pure, EStateM.Result.ok.injEq] at hb
    obtain ⟨rfl, rfl⟩ := hb
    exact h s hs
  · simp at hk

theorem triple_modify {f : State → State} {Q : Unit → State → Prop} (h : ∀ s, P s → Q () (f s)) :
    Triple P (modify f) Q E := by
  intro s hs
  refine ⟨fun b t hb => ?_, fun k t hk => ?_⟩
  · simp only [run_modify, EStateM.Result.ok.injEq] at hb
    obtain ⟨-, rfl⟩ := hb
    exact h s hs
  · simp at hk

theorem triple_raise {k : ErrKind} (h : ∀ s, P s → E k s) : Triple P (raise k : Op α) Q E := by
  intro s hs
  refine ⟨fun b t hb => ?_, fun k' t hk => ?_⟩
  · simp at hb
  · simp only [run_raise, EStateM.Result.error.injEq, Halt.raised.injEq] at hk
    obtain ⟨rfl, rfl⟩ := hk
    exact h s hs

/-- The model stops, so nothing is left to show. -/
theorem triple_stop {f : Fault} : Triple P (stop f : Op α) Q E := by
  intro s _
  exact ⟨fun b t hb => by simp at hb, fun k t hk => by simp at hk⟩

theorem triple_bind {x : Op α} {f : α → Op β} (hx : Triple P x Q E) (hf : ∀ a, Triple (Q a) (f a) R E) :
    Triple P (x >>= f) R E := by
  intro s hs
  obtain ⟨hok, herr⟩ := hx s hs
  cases hxs : x s with
  | ok a t => simpa [run_bind, hxs] using hf a t (hok a t hxs)
  | error e t => simpa [run_bind, hxs] using fun k he => herr k t (by rw [hxs, he])

/-- What follows a look at the state may use that it is the state. -/
theorem triple_get_bind {f : State → Op β} (h : ∀ s, P s → Triple (fun t => t = s) (f s) R E) :
    Triple P (get >>= f) R E := by
  intro s hs
  simpa using h s hs s rfl

/-- What follows a look at the state need not use it. -/
theorem triple_get {f : State → Op β} (h : ∀ s, Triple P (f s) R E) : Triple P (get >>= f) R E := by
  intro s hs
  simpa using h s s hs

/-- An operation whose end is known, before the rest of the pseudocode. -/
theorem triple_bind_of_ok {x : Op α} {f : α → Op β} {s t : State} {a : α} (hx : x s = .ok a t)
    (hf : Triple (fun u => u = t) (f a) R E) : Triple (fun u => u = s) (x >>= f) R E := by
  rintro _ rfl
  simpa [hx] using hf t rfl

/-- A weaker precondition and stronger ends will do. -/
theorem triple_conseq {P' : State → Prop} {Q' : α → State → Prop} {E' : ErrKind → State → Prop} {op : Op α}
    (h : Triple P' op Q' E') (hP : ∀ s, P s → P' s) (hQ : ∀ a s, Q' a s → Q a s)
    (hE : ∀ k s, E' k s → E k s) : Triple P op Q E :=
  fun s hs => ⟨fun a t ht => hQ a t ((h s (hP s hs)).1 a t ht), fun k t ht => hE k t ((h s (hP s hs)).2 k t ht)⟩

theorem triple_pre {P' : State → Prop} {op : Op α} (h : Triple P' op Q E) (hP : ∀ s, P s → P' s) :
    Triple P op Q E :=
  triple_conseq h hP (fun _ _ h => h) fun _ _ h => h

theorem triple_ite {c : Prop} [Decidable c] {x y : Op α} (hx : c → Triple P x Q E) (hy : ¬c → Triple P y Q E) :
    Triple P (if c then x else y) Q E := by
  split
  · exact hx ‹_›
  · exact hy ‹_›

/-- `if c: raise k`, before the rest of the pseudocode. -/
theorem triple_guard {c : Prop} [Decidable c] {k : ErrKind} {g : β → Op α} {rest : Op α}
    (hr : c → ∀ s, P s → E k s) (hrest : ¬c → Triple P rest Q E) :
    Triple P (if c then raise k >>= g else rest) Q E :=
  triple_ite (fun hc => triple_bind (Q := fun _ _ => False) (triple_raise (hr hc)) fun _ _ hf => hf.elim) hrest

/-- A port call that is answered changes the host's side as the call it records does, and nothing else. -/
theorem triple_lift {p : Port α} {called : α → State → PortEvent} (hp : CallSpec p called)
    (h : ∀ s a, P s → s.env.gives [called a s] → Q a (s.withEnv (s.env.afterCall (called a s)))) :
    Triple P (lift p) Q E := by
  intro s hs
  cases hps : p s with
  | ok a t =>
    obtain ⟨rfl, hgives⟩ := hp.1 s t a hps
    simpa [Machine.lift, hps] using h s a hs hgives
  | error c t => simp [Machine.lift, hps]

/-- A port call whose failure is IOError (spec/60_exceptions.md R241). -/
theorem triple_orIOError {p : Port Bool} {called : Bool → State → PortEvent} {Q : Unit → State → Prop}
    (hp : CallSpec p called) (hok : ∀ s, P s → Q () (s.withEnv (s.env.afterCall (called true s))))
    (hfail : ∀ s, P s → E .ioError (s.withEnv (s.env.afterCall (called false s)))) :
    Triple P (orIOError p) Q E := by
  refine triple_bind (Q := fun ok s => if ok then Q () s else E .ioError s) (triple_lift hp fun s ok hs _ => ?_)
    fun ok => ?_
  · cases ok with
    | true => exact hok s hs
    | false => exact hfail s hs
  · cases ok with
    | true => exact triple_pure fun _ h => h
    | false => exact triple_raise fun _ h => h

/-! ## Contracts -/

/-- What an operation is asked to keep: `inv` in every state between its lines and at its end, `raised` where it
raises. Port calls do not touch it, and to raise in a state with `inv` meets it. -/
structure Contract where
  inv : State → Prop
  raised : ErrKind → State → Prop
  inv_call : ∀ {s} event, inv s → inv (s.withEnv (s.env.afterCall event))
  raised_of_inv : ∀ {k s}, k ≠ .none → inv s → raised k s

variable {C : Contract}

/-- The operation keeps the contract. -/
def Contract.Keeps (C : Contract) (op : Op α) : Prop := Triple C.inv op (fun _ => C.inv) C.raised

theorem Contract.keeps_pure {a : α} : C.Keeps (pure a : Op α) := triple_pure fun _ => id

theorem Contract.keeps_modify {f : State → State} (h : ∀ s, C.inv s → C.inv (f s)) : C.Keeps (modify f) :=
  triple_modify h

theorem Contract.keeps_raise {k : ErrKind} (hk : k ≠ .none) : C.Keeps (raise k : Op α) :=
  triple_raise fun _ => C.raised_of_inv hk

theorem Contract.keeps_bind {x : Op α} {f : α → Op β} (hx : C.Keeps x) (hf : ∀ a, C.Keeps (f a)) :
    C.Keeps (x >>= f) :=
  triple_bind hx hf

theorem Contract.keeps_get {f : State → Op β} (h : ∀ s, C.Keeps (f s)) : C.Keeps (get >>= f) :=
  triple_get h

theorem Contract.keeps_ite {c : Prop} [Decidable c] {x y : Op α} (hx : C.Keeps x) (hy : C.Keeps y) :
    C.Keeps (if c then x else y) :=
  triple_ite (fun _ => hx) (fun _ => hy)

theorem Contract.keeps_guard {c : Prop} [Decidable c] {k : ErrKind} {g : β → Op α} {rest : Op α}
    (hk : k ≠ .none) (h : C.Keeps rest) : C.Keeps (if c then raise k >>= g else rest) :=
  triple_guard (fun _ _ => C.raised_of_inv hk) (fun _ => h)

theorem Contract.keeps_lift {p : Port α} {called : α → State → PortEvent} (hp : CallSpec p called) :
    C.Keeps (lift p) :=
  triple_lift hp fun _ _ hs _ => C.inv_call _ hs

theorem Contract.keeps_orIOError {p : Port Bool} {called : Bool → State → PortEvent} (hp : CallSpec p called) :
    C.Keeps (orIOError p) :=
  triple_orIOError hp (fun _ => C.inv_call _) fun _ hs => C.raised_of_inv nofun (C.inv_call _ hs)

theorem Contract.keeps_putBytes (bytes : List Byte) : C.Keeps (putBytes bytes) := by
  induction bytes with
  | nil => exact keeps_pure
  | cons b rest ih => exact keeps_bind (keeps_orIOError (snkPut_spec b)) fun _ => ih

theorem Contract.keeps_nextByte : C.Keeps nextByte := by
  refine keeps_bind (keeps_lift srcNext_spec) fun r => ?_
  cases r with
  | byte b => exact keeps_pure
  | eof => exact keeps_raise nofun
  | fail => exact keeps_raise nofun

theorem Contract.keeps_nodeAt (n : NodeRef) : C.Keeps (nodeAt n) := by
  refine keeps_get fun s => ?_
  cases s.nodes[n.toNat]? with
  | some node => exact keeps_pure
  | none => exact triple_stop

/-- Two contracts, of which one holds all along. -/
def Contract.or (C D : Contract) : Contract where
  inv s := C.inv s ∨ D.inv s
  raised k s := C.raised k s ∨ D.raised k s
  inv_call e := Or.imp (C.inv_call e) (D.inv_call e)
  raised_of_inv hk := Or.imp (C.raised_of_inv hk) (D.raised_of_inv hk)

theorem Contract.Keeps.or {C D : Contract} {op : Op α} (hC : C.Keeps op) (hD : D.Keeps op) :
    (C.or D).Keeps op := by
  rintro s (hs | hs)
  · exact ⟨fun a t ht => .inl ((hC s hs).1 a t ht), fun k t ht => .inl ((hC s hs).2 k t ht)⟩
  · exact ⟨fun a t ht => .inr ((hD s hs).1 a t ht), fun k t ht => .inr ((hD s hs).2 k t ht)⟩

end Sys2Proof.Machine
end

section
/-! PROOFS. Which contracts the operations of the units keep, by the registers that each writes. -/

namespace Sys2Proof.Machine

variable {C : Contract}

/-! ## What a contract may leave open -/

/-- Nothing is asked of `WBUF`, `WCNT` and `SCLOSED`. -/
def Contract.IgnoresSink (C : Contract) : Prop :=
  ∀ {s} buf cnt closed, C.inv s → C.inv { s with wbuf := buf, wcnt := cnt, sclosed := closed }

/-- Nothing is asked of `RBUF`, `RCNT` and `RCLOSED`. -/
def Contract.IgnoresSource (C : Contract) : Prop :=
  ∀ {s} buf cnt closed, C.inv s → C.inv { s with rbuf := buf, rcnt := cnt, rclosed := closed }

/-- Nothing is asked of the heap and `SEQ`. -/
def Contract.IgnoresQueue (C : Contract) : Prop :=
  ∀ {s} heap seq, C.inv s → C.inv { s with heap := heap, seq := seq }

/-- Nothing is asked of the node store, `ROOT`, the stack, the description and the codes. -/
def Contract.IgnoresTree (C : Contract) : Prop :=
  ∀ {s} nodes root stk ser code, C.inv s →
    C.inv { s with nodes := nodes, root := root, stk := stk, ser := ser, code := code }

/-- Nothing is asked of `TOTAL`, `REMAIN`, `CURSOR` and the frequency table. -/
def Contract.IgnoresCounts (C : Contract) : Prop :=
  ∀ {s} total remain cursor freq, C.inv s →
    C.inv { s with total := total, remain := remain, cursor := cursor, freq := freq }

/-! ## BitSink -/

theorem Contract.keeps_writeBits (hC : C.IgnoresSink) (bits : Bits) : C.Keeps (writeBits bits) := by
  induction bits with
  | nil => exact keeps_pure
  | cons b rest ih =>
    refine keeps_bind (keeps_modify fun s => hC _ _ _) fun _ => keeps_get fun s => keeps_ite ?_ ih
    exact keeps_bind (keeps_orIOError (snkPut_spec _)) fun _ =>
      keeps_bind (keeps_modify fun s => hC _ _ _) fun _ => ih

/-- SNK.WBITS keeps what its loop keeps. -/
theorem Contract.keeps_snkWbits {bits : Bits} (h : C.Keeps (writeBits bits)) : C.Keeps (snkWbits bits) :=
  keeps_get fun _ => keeps_guard nofun h

theorem Contract.keeps_snkByteLevel : C.Keeps snkByteLevel :=
  keeps_get fun _ => keeps_ite (keeps_raise nofun) keeps_pure

theorem Contract.keeps_snkWint (v : Word) : C.Keeps (snkWint v) :=
  keeps_bind keeps_snkByteLevel fun _ => keeps_putBytes _

theorem Contract.keeps_snkWstr : C.Keeps snkWstr :=
  keeps_bind keeps_snkByteLevel fun _ => keeps_get fun _ => keeps_putBytes _

/-- SNK.CLOSE writes 0 to the buffer, or leaves it, and sets `SCLOSED`. -/
theorem Contract.keeps_snkClose (hclear : ∀ s, C.inv s → C.inv { s with wbuf := 0, wcnt := 0 })
    (hclosed : ∀ s, C.inv s → C.inv { s with sclosed := true }) : C.Keeps snkClose := by
  have hlast : C.Keeps (do orIOError snkClosePort; modify fun s => { s with sclosed := true }) :=
    keeps_bind (keeps_orIOError snkClosePort_spec) fun _ => keeps_modify hclosed
  refine keeps_get fun s => keeps_guard nofun (keeps_ite ?_ hlast)
  exact keeps_bind (keeps_orIOError (snkPut_spec _)) fun _ => keeps_bind (keeps_modify hclear) fun _ => hlast

/-! ## BitSource -/

theorem Contract.keeps_srcRbit (hC : C.IgnoresSource) : C.Keeps srcRbit := by
  refine keeps_get fun s => keeps_guard nofun (keeps_ite ?_ ?_)
  · refine keeps_bind keeps_nextByte fun b => keeps_bind (keeps_modify fun s => hC _ _ _) fun _ => ?_
    exact keeps_get fun t => keeps_bind (keeps_modify fun s => hC _ _ _) fun _ => keeps_pure
  · exact keeps_get fun t => keeps_bind (keeps_modify fun s => hC _ _ _) fun _ => keeps_pure

theorem Contract.keeps_srcByteLevel : C.Keeps srcByteLevel :=
  keeps_get fun _ => keeps_ite (keeps_raise nofun) keeps_pure

theorem Contract.keeps_srcRint : C.Keeps srcRint :=
  keeps_bind keeps_srcByteLevel fun _ => keeps_bind keeps_nextByte fun _ => keeps_bind keeps_nextByte fun _ =>
    keeps_bind keeps_nextByte fun _ => keeps_bind keeps_nextByte fun _ => keeps_pure

theorem Contract.keeps_srcClose (hclosed : ∀ s, C.inv s → C.inv { s with rclosed := true }) : C.Keeps srcClose :=
  keeps_get fun _ => keeps_guard nofun (keeps_bind (keeps_orIOError srcRelease_spec) fun _ => keeps_modify hclosed)

/-- A description within its capacity and value range (spec/10_state.md R32), with room for more units. -/
def DescriptionFits (ser : List Byte) (room : Nat) : Prop :=
  ser.length + room ≤ Config.serCap ∧ ∀ v ∈ ser, v.toNat ≤ 128

theorem DescriptionFits.append_unit {ser : List Byte} {room : Nat} {u : Byte} (h : DescriptionFits ser (room + 1))
    (hu : u.toNat ≤ 128) : DescriptionFits (ser ++ [u]) room := by
  obtain ⟨hlen, hunits⟩ := h
  refine ⟨by simp; omega, fun v hv => ?_⟩
  rcases List.mem_append.mp hv with hv | hv
  · exact hunits v hv
  · obtain rfl := List.mem_singleton.mp hv
    exact hu

/-- The contract, with a description that fits. -/
def Contract.describing (C : Contract) (room : Nat) : Contract where
  inv s := C.inv s ∧ DescriptionFits s.ser room
  raised := C.raised
  inv_call event h := ⟨C.inv_call event h.1, h.2⟩
  raised_of_inv hk h := C.raised_of_inv hk h.1

section
variable (hser : ∀ s ser, DescriptionFits ser 0 → C.inv s → C.inv { s with ser := ser })
include hser

theorem Contract.keeps_readUnits (n : Nat) :
    Triple (C.describing n).inv (readUnits n) (fun _ => C.inv) C.raised := by
  induction n with
  | zero => exact triple_pure fun _ h => h.1
  | succ n ih =>
    refine triple_bind (keeps_nextByte (C := C.describing (n + 1))) fun u => ?_
    refine triple_guard (fun _ s hs => C.raised_of_inv nofun hs.1) fun hu => ?_
    refine triple_bind (Q := fun _ => (C.describing n).inv) (triple_modify ?_) fun _ => ih
    rintro s ⟨hs, hfit⟩
    have hu' : u.toNat ≤ 128 := by simpa [BitVec.lt_def] using hu
    have hfit' := hfit.append_unit hu'
    exact ⟨hser s _ ⟨by have := hfit'.1; omega, hfit'.2⟩ hs, hfit'⟩

/-- SRC.RSTR leaves units that fit, whatever the stream holds. -/
theorem Contract.keeps_srcRstr : C.Keeps srcRstr := by
  refine keeps_bind keeps_srcByteLevel fun _ => keeps_bind keeps_nextByte fun hi =>
    keeps_bind keeps_nextByte fun lo => ?_
  refine triple_guard (fun _ s => C.raised_of_inv nofun) fun hlen => ?_
  refine triple_bind (Q := fun _ => (C.describing (prefixLength hi lo)).inv) (triple_modify fun s hs => ?_)
    fun _ => keeps_readUnits hser _
  have hnil : ∀ v ∈ ([] : List Byte), v.toNat ≤ 128 := by simp
  exact ⟨hser s [] ⟨by simp, hnil⟩ hs, by simpa using hlen, hnil⟩

end

/-! ## PriorityQueue -/

theorem Contract.keeps_pqInsert (hC : C.IgnoresQueue) (key : Word) (n : NodeRef) : C.Keeps (pqInsert key n) :=
  keeps_get fun _ => keeps_guard nofun (keeps_modify fun _ => hC _ _)

theorem Contract.keeps_pqDelmin (hC : C.IgnoresQueue) : C.Keeps pqDelmin := by
  refine keeps_get fun s => ?_
  cases s.heap with
  | nil => exact keeps_raise nofun
  | cons top rest => exact keeps_bind (keeps_modify fun _ => hC _ _) fun _ => keeps_pure

theorem Contract.keeps_pqPeek : C.Keeps pqPeek := by
  refine keeps_get fun s => ?_
  cases s.heap with
  | nil => exact keeps_raise nofun
  | cons top rest => exact keeps_pure

theorem Contract.keeps_pqIsempty : C.Keeps pqIsempty := keeps_get fun _ => keeps_pure

theorem Contract.keeps_pqIsfull : C.Keeps pqIsfull := keeps_get fun _ => keeps_pure

theorem Contract.keeps_pqSize : C.Keeps pqSize := keeps_get fun _ => keeps_pure

/-! ## HuffmanTree -/

section
variable (hset : ∀ s sym (p : Bits), p.length ≤ Config.codeMax → C.inv s → C.inv (s.setCode sym p))
include hset

/-- The walk assigns codes no longer than its levels allow (spec/43_huffman_tree.md R187). -/
theorem Contract.keeps_genWalk {levels : Nat} {n : NodeRef} {p : Bits} (hp : p.length + levels ≤ Config.codeMax + 1) :
    C.Keeps (genWalk levels n p) := by
  induction levels generalizing n p with
  | zero => exact triple_stop
  | succ levels ih =>
    refine keeps_bind (keeps_nodeAt n) fun node => ?_
    cases node with
    | leaf sym => exact keeps_modify fun s => hset s sym p (by omega)
    | branch left right =>
      exact keeps_bind (ih (by simp; omega)) fun _ => ih (by simp; omega)

theorem Contract.keeps_htGencodes (hclear : ∀ s, C.inv s → C.inv { s with code := Vector.replicate 128 [] }) :
    C.Keeps htGencodes := by
  refine keeps_bind (keeps_modify hclear) fun _ => keeps_get fun s => keeps_ite keeps_pure ?_
  refine keeps_bind (keeps_nodeAt _) fun node => ?_
  cases node with
  | leaf sym => exact keeps_modify fun s => hset s sym [false] (by simp)
  | branch left right => exact keeps_genWalk hset (by simp)

end

section
variable (hC : C.IgnoresTree)
include hC

theorem Contract.keeps_alloc (node : Node) : C.Keeps (alloc node) :=
  keeps_get fun _ => keeps_bind (keeps_modify fun _ => hC _ _ _ _ _) fun _ => keeps_pure

theorem Contract.keeps_pushNode (n : NodeRef) : C.Keeps (pushNode n) := keeps_modify fun _ => hC _ _ _ _ _

theorem Contract.keeps_emitUnit (v : Byte) : C.Keeps (emitUnit v) := keeps_modify fun _ => hC _ _ _ _ _

theorem Contract.keeps_emitTree (levels : Nat) (n : NodeRef) : C.Keeps (emitTree levels n) := by
  induction levels generalizing n with
  | zero => exact triple_stop
  | succ levels ih =>
    refine keeps_bind (keeps_nodeAt n) fun node => ?_
    cases node with
    | leaf sym => exact keeps_emitUnit hC _
    | branch left right =>
      exact keeps_bind (ih left) fun _ => keeps_bind (ih right) fun _ => keeps_emitUnit hC _

theorem Contract.keeps_htSer : C.Keeps htSer :=
  keeps_bind (keeps_modify fun _ => hC _ _ _ _ _) fun _ => keeps_get fun _ =>
    keeps_ite keeps_pure (keeps_emitTree hC _ _)

theorem Contract.keeps_deserScan (units : List Byte) : C.Keeps (deserScan units) := by
  induction units with
  | nil => exact keeps_pure
  | cons v rest ih =>
    refine keeps_get fun s => keeps_ite (keeps_guard nofun ?_) ?_
    · exact keeps_bind (keeps_alloc hC _) fun n => keeps_bind (keeps_pushNode hC n) fun _ => ih
    · match s.stk with
      | b :: a :: below =>
        exact keeps_bind (keeps_modify fun _ => hC _ _ _ _ _) fun _ =>
          keeps_bind (keeps_alloc hC _) fun n => keeps_bind (keeps_pushNode hC n) fun _ => ih
      | [] => exact keeps_bind (keeps_raise nofun) fun _ => ih
      | [_] => exact keeps_bind (keeps_raise nofun) fun _ => ih

theorem Contract.keeps_htDeser : C.Keeps htDeser := by
  refine keeps_bind (keeps_modify fun _ => hC _ _ _ _ _) fun _ => keeps_get fun s =>
    keeps_bind (keeps_deserScan hC _) fun _ => keeps_ite keeps_pure (keeps_get fun t => ?_)
  match t.stk with
  | [n] => exact keeps_modify fun _ => hC _ _ _ _ _
  | [] => exact keeps_raise nofun
  | _ :: _ :: _ => exact keeps_raise nofun

variable (hQ : C.IgnoresQueue)
include hQ

theorem Contract.keeps_seedLeaves (syms : List Symbol) : C.Keeps (seedLeaves syms) := by
  induction syms with
  | nil => exact keeps_pure
  | cons sym rest ih =>
    refine keeps_get fun s => keeps_ite ?_ ih
    exact keeps_bind (keeps_alloc hC _) fun n => keeps_bind (keeps_pqInsert hQ _ n) fun _ => ih

theorem Contract.keeps_mergeNodes (fuel : Nat) : C.Keeps (mergeNodes fuel) := by
  induction fuel with
  | zero => exact triple_stop
  | succ fuel ih =>
    refine keeps_bind keeps_pqSize fun size => keeps_ite ?_ keeps_pure
    exact keeps_bind keeps_pqPeek fun f1 => keeps_bind (keeps_pqDelmin hQ) fun n1 =>
      keeps_bind keeps_pqPeek fun f2 => keeps_bind (keeps_pqDelmin hQ) fun n2 =>
      keeps_bind (keeps_alloc hC _) fun n => keeps_bind (keeps_pqInsert hQ _ n) fun _ => ih

theorem Contract.keeps_htBuild : C.Keeps htBuild := by
  refine keeps_bind (keeps_modify fun s hs => hQ [] 0 (hC [] Config.nil s.stk s.ser s.code hs)) fun _ =>
    keeps_bind (keeps_seedLeaves hC hQ _) fun _ => keeps_bind keeps_pqIsempty fun empty => keeps_ite keeps_pure ?_
  exact keeps_bind (keeps_mergeNodes hC hQ _) fun _ => keeps_bind (keeps_pqDelmin hQ) fun n =>
    keeps_modify fun _ => hC _ _ _ _ _

end

end Sys2Proof.Machine
end

section
/-! PROOFS. From the units to a step: a contract that the units keep is kept by the Codec, by an invocation and by
every step, but where failure entry is taken. -/

namespace Sys2Proof.Machine

variable {α : Type} {C : Contract}

/-! ## The units -/

/-- What the operations of the Codec are made of keeps the contract. -/
structure Contract.KeptByUnits (C : Contract) : Prop where
  counts : C.IgnoresCounts
  writeBits : ∀ bits, C.Keeps (writeBits bits)
  snkClose : C.Keeps snkClose
  srcRbit : C.Keeps srcRbit
  srcRstr : C.Keeps srcRstr
  srcClose : C.Keeps srcClose
  pqInsert : ∀ key n, C.Keeps (pqInsert key n)
  pqDelmin : C.Keeps pqDelmin
  htBuild : C.Keeps htBuild
  htGencodes : C.Keeps htGencodes
  htSer : C.Keeps htSer
  htDeser : C.Keeps htDeser

/-- A contract that asks nothing of the tree and the queue is kept if the two streams' units keep it. -/
theorem Contract.keptByUnits_of_ignores (hcounts : C.IgnoresCounts) (hqueue : C.IgnoresQueue)
    (htree : C.IgnoresTree) (hwrite : ∀ bits, C.Keeps (Machine.writeBits bits)) (hsnkClose : C.Keeps Machine.snkClose)
    (hsrcRbit : C.Keeps Machine.srcRbit) (hsrcClose : C.Keeps Machine.srcClose) : C.KeptByUnits where
  counts := hcounts
  writeBits := hwrite
  snkClose := hsnkClose
  srcRbit := hsrcRbit
  srcRstr := keeps_srcRstr fun s ser _ => htree s.nodes s.root s.stk ser s.code
  srcClose := hsrcClose
  pqInsert := keeps_pqInsert hqueue
  pqDelmin := keeps_pqDelmin hqueue
  htBuild := keeps_htBuild htree hqueue
  htGencodes := keeps_htGencodes (fun s _ _ _ => htree s.nodes s.root s.stk s.ser _)
    fun s => htree s.nodes s.root s.stk s.ser _
  htSer := keeps_htSer htree
  htDeser := keeps_htDeser htree

theorem Contract.keptByUnits_of_ignores_all (hcounts : C.IgnoresCounts) (hqueue : C.IgnoresQueue)
    (htree : C.IgnoresTree) (hsink : C.IgnoresSink) (hsource : C.IgnoresSource) : C.KeptByUnits :=
  keptByUnits_of_ignores hcounts hqueue htree (keeps_writeBits hsink)
    (keeps_snkClose (fun s => hsink 0 0 s.sclosed) fun s => hsink s.wbuf s.wcnt true) (keeps_srcRbit hsource)
    (keeps_srcClose fun s => hsource s.rbuf s.rcnt true)

theorem Contract.KeptByUnits.or {C D : Contract} (hC : C.KeptByUnits) (hD : D.KeptByUnits) :
    (C.or D).KeptByUnits where
  counts total remain cursor freq := Or.imp (hC.counts total remain cursor freq) (hD.counts total remain cursor freq)
  writeBits bits := (hC.writeBits bits).or (hD.writeBits bits)
  snkClose := hC.snkClose.or hD.snkClose
  srcRbit := hC.srcRbit.or hD.srcRbit
  srcRstr := hC.srcRstr.or hD.srcRstr
  srcClose := hC.srcClose.or hD.srcClose
  pqInsert key n := (hC.pqInsert key n).or (hD.pqInsert key n)
  pqDelmin := hC.pqDelmin.or hD.pqDelmin
  htBuild := hC.htBuild.or hD.htBuild
  htGencodes := hC.htGencodes.or hD.htGencodes
  htSer := hC.htSer.or hD.htSer
  htDeser := hC.htDeser.or hD.htDeser

/-! ## The Codec -/

section
variable (h : C.KeptByUnits)
include h

theorem Contract.keeps_countLoop (fuel : Nat) : C.Keeps (countLoop fuel) := by
  induction fuel with
  | zero => exact triple_stop
  | succ fuel ih =>
    refine keeps_bind (keeps_lift srcNext_spec) fun r => ?_
    cases r with
    | fail => exact keeps_raise nofun
    | eof => exact keeps_pure
    | byte b =>
      refine keeps_guard nofun (keeps_get fun s => keeps_guard nofun ?_)
      exact keeps_bind (keeps_modify fun _ => h.counts _ _ _ _) fun _ =>
        keeps_bind (keeps_modify fun _ => h.counts _ _ _ _) fun _ => ih

theorem Contract.keeps_codecFcount : C.Keeps codecFcount := keeps_get fun _ => keeps_countLoop h _

theorem Contract.keeps_codecWheader : C.Keeps codecWheader :=
  keeps_get fun _ => keeps_bind (keeps_snkWint _) fun _ => keeps_bind h.htSer fun _ => keeps_snkWstr

theorem Contract.keeps_payloadLoop (fuel : Nat) (k : Word) : C.Keeps (payloadLoop fuel k) := by
  induction fuel generalizing k with
  | zero => exact triple_stop
  | succ fuel ih =>
    refine keeps_bind (keeps_lift srcNext_spec) fun r => ?_
    cases r with
    | fail => exact keeps_raise nofun
    | eof => exact keeps_pure
    | byte b =>
      refine keeps_get fun s => keeps_guard nofun (keeps_guard nofun (keeps_guard nofun ?_))
      exact keeps_bind (keeps_snkWbits (h.writeBits _)) fun _ => ih _

theorem Contract.keeps_codecWpayload : C.Keeps codecWpayload :=
  keeps_bind (keeps_orIOError srcRewind_spec) fun _ => keeps_get fun _ =>
    keeps_bind (keeps_payloadLoop h _ _) fun _ => keeps_get fun _ => keeps_ite (keeps_raise nofun) keeps_pure

theorem Contract.keeps_codecRheader : C.Keeps codecRheader := by
  refine keeps_bind keeps_srcRint fun v => keeps_bind (keeps_modify fun _ => h.counts _ _ _ _) fun _ => ?_
  refine keeps_guard nofun (keeps_bind h.srcRstr fun _ => keeps_bind h.htDeser fun _ => ?_)
  exact keeps_get fun _ => keeps_ite (keeps_raise nofun) keeps_pure

theorem Contract.keeps_descend (fuel : Nat) : C.Keeps (descend fuel) := by
  induction fuel with
  | zero => exact triple_stop
  | succ fuel ih =>
    refine keeps_get fun s => keeps_bind (keeps_nodeAt _) fun node => keeps_ite keeps_pure ?_
    exact keeps_bind h.srcRbit fun bit =>
      keeps_guard nofun (keeps_bind (keeps_modify fun _ => h.counts _ _ _ _) fun _ => ih)

theorem Contract.keeps_walkLoop (fuel : Nat) : C.Keeps (walkLoop fuel) := by
  induction fuel with
  | zero => exact triple_stop
  | succ fuel ih =>
    have hemit : C.Keeps (do
        let t ← get
        let leaf ← nodeAt t.cursor
        orIOError (snkPut leaf.nsym)
        modify fun s => { s with remain := s.remain - 1, cursor := s.root }
        walkLoop fuel) :=
      keeps_get fun t => keeps_bind (keeps_nodeAt _) fun leaf => keeps_bind (keeps_orIOError (snkPut_spec _)) fun _ =>
        keeps_bind (keeps_modify fun _ => h.counts _ _ _ _) fun _ => ih
    refine keeps_get fun s => keeps_ite keeps_pure (keeps_bind (keeps_nodeAt _) fun rootNode => keeps_ite ?_ ?_)
    · exact keeps_bind h.srcRbit fun _ => hemit
    · exact keeps_bind (keeps_descend h _) fun _ => hemit

theorem Contract.keeps_codecWalk : C.Keeps codecWalk :=
  keeps_get fun _ => keeps_guard nofun (keeps_bind (keeps_modify fun _ => h.counts _ _ _ _) fun _ =>
    keeps_walkLoop h _)

theorem Contract.keeps_closeEncode : C.Keeps closeEncode :=
  keeps_bind h.snkClose fun _ => keeps_orIOError srcRelease_spec

theorem Contract.keeps_closeDecode : C.Keeps closeDecode :=
  keeps_bind h.srcClose fun _ => keeps_orIOError snkClosePort_spec

end

/-! ## Unit operations and phases -/

/-- An operation that works on the units alone, without a word about `PHASE` and `ERR`: it keeps whatever the units
keep. -/
def UnitOp (op : Op α) : Prop := ∀ C : Contract, C.KeptByUnits → C.Keeps op

/-- The operation of an instruction. -/
def operation : Instr → Op Result
  | .encode => noResult encodeInvocation
  | .decode => noResult decodeInvocation
  | .codecFcount => noResult codecFcount
  | .codecWheader => noResult codecWheader
  | .codecWpayload => noResult codecWpayload
  | .codecRheader => noResult codecRheader
  | .codecWalk => noResult codecWalk
  | .snkWbits bits => noResult (snkWbits bits)
  | .snkWint v => noResult (snkWint v)
  | .snkWstr => noResult snkWstr
  | .snkClose => noResult snkClose
  | .srcRbit => do let b ← srcRbit; pure (.bit b)
  | .srcRint => do let v ← srcRint; pure (.word v)
  | .srcRstr => noResult srcRstr
  | .srcClose => noResult srcClose
  | .pqInsert key payload => noResult (pqInsert key payload)
  | .pqDelmin => do let n ← pqDelmin; pure (.node n)
  | .pqPeek => do let k ← pqPeek; pure (.key k)
  | .pqIsempty => do let b ← pqIsempty; pure (.flag b)
  | .pqIsfull => do let b ← pqIsfull; pure (.flag b)
  | .pqSize => do let n ← pqSize; pure (.size n)
  | .htBuild => noResult htBuild
  | .htGencodes => noResult htGencodes
  | .htSer => noResult htSer
  | .htDeser => noResult htDeser

/-- The two operations that start an invocation. -/
def startsInvocation : Instr → Bool
  | .encode | .decode => true
  | _ => false

/-- An issued operation runs to its end, but for an invocation while one is running (spec/70_reset_and_hazards.md
R288). -/
theorem exec_eq (i : Instr) (s : State) :
    exec i s = if startsInvocation i && s.busy then .next s else complete (operation i) s := by
  cases i <;> rfl

theorem UnitOp.noResult {op : Op Unit} (h : UnitOp op) : UnitOp (noResult op) := fun C hC =>
  Contract.keeps_bind (h C hC) fun _ => Contract.keeps_pure

theorem UnitOp.withResult {op : Op α} (h : UnitOp op) (f : α → Result) : UnitOp (do let a ← op; pure (f a)) :=
  fun C hC => Contract.keeps_bind (h C hC) fun _ => Contract.keeps_pure

theorem operation_unitOp {i : Instr} (h : startsInvocation i = false) : UnitOp (operation i) := by
  cases i with
  | encode => cases h
  | decode => cases h
  | codecFcount => exact UnitOp.noResult fun _ => Contract.keeps_codecFcount
  | codecWheader => exact UnitOp.noResult fun _ => Contract.keeps_codecWheader
  | codecWpayload => exact UnitOp.noResult fun _ => Contract.keeps_codecWpayload
  | codecRheader => exact UnitOp.noResult fun _ => Contract.keeps_codecRheader
  | codecWalk => exact UnitOp.noResult fun _ => Contract.keeps_codecWalk
  | snkWbits bits => exact UnitOp.noResult fun _ hC => Contract.keeps_snkWbits (hC.writeBits bits)
  | snkWint v => exact UnitOp.noResult fun _ _ => Contract.keeps_snkWint v
  | snkWstr => exact UnitOp.noResult fun _ _ => Contract.keeps_snkWstr
  | snkClose => exact UnitOp.noResult fun _ hC => hC.snkClose
  | srcRbit => exact UnitOp.withResult (fun _ hC => hC.srcRbit) .bit
  | srcRint => exact UnitOp.withResult (fun _ _ => Contract.keeps_srcRint) .word
  | srcRstr => exact UnitOp.noResult fun _ hC => hC.srcRstr
  | srcClose => exact UnitOp.noResult fun _ hC => hC.srcClose
  | pqInsert key payload => exact UnitOp.noResult fun _ hC => hC.pqInsert key payload
  | pqDelmin => exact UnitOp.withResult (fun _ hC => hC.pqDelmin) .node
  | pqPeek => exact UnitOp.withResult (fun _ _ => Contract.keeps_pqPeek) .key
  | pqIsempty => exact UnitOp.withResult (fun _ _ => Contract.keeps_pqIsempty) .flag
  | pqIsfull => exact UnitOp.withResult (fun _ _ => Contract.keeps_pqIsfull) .flag
  | pqSize => exact UnitOp.withResult (fun _ _ => Contract.keeps_pqSize) .size
  | htBuild => exact UnitOp.noResult fun _ hC => hC.htBuild
  | htGencodes => exact UnitOp.noResult fun _ hC => hC.htGencodes
  | htSer => exact UnitOp.noResult fun _ hC => hC.htSer
  | htDeser => exact UnitOp.noResult fun _ hC => hC.htDeser

/-- The step of a phase and the phase's successor (spec/10_state.md R22); none where the block waits. -/
def Phase.work : Phase → Option (Op Unit × Phase)
  | .eCount => some (codecFcount, .eBuild)
  | .eBuild => some (htBuild, .eCodes)
  | .eCodes => some (htGencodes, .eHeader)
  | .eHeader => some (codecWheader, .ePayload)
  | .ePayload => some (codecWpayload, .eClose)
  | .eClose => some (closeEncode, .done)
  | .dHeader => some (codecRheader, .dWalk)
  | .dWalk => some (codecWalk, .dClose)
  | .dClose => some (closeDecode, .done)
  | .idle | .done | .failed => none

theorem tick_of_work {s : State} {w : Op Unit} {n : Phase} (h : s.phase.work = some (w, n)) :
    tick s = complete (noResult (phaseStep w n)) s := by
  unfold tick
  cases hp : s.phase <;> rw [hp] at h <;> cases h <;> rfl

theorem tick_of_no_work {s : State} (h : s.phase.work = none) : tick s = .next s := by
  unfold tick
  cases hp : s.phase with
  | idle | done | failed => rfl
  | _ => rw [hp] at h; cases h

theorem Phase.work_unitOp {p n : Phase} {w : Op Unit} (h : p.work = some (w, n)) : UnitOp w := by
  cases p with
  | eCount => cases h; exact fun _ => Contract.keeps_codecFcount
  | eBuild => cases h; exact fun _ hC => hC.htBuild
  | eCodes => cases h; exact fun _ hC => hC.htGencodes
  | eHeader => cases h; exact fun _ => Contract.keeps_codecWheader
  | ePayload => cases h; exact fun _ => Contract.keeps_codecWpayload
  | eClose => cases h; exact fun _ => Contract.keeps_closeEncode
  | dHeader => cases h; exact fun _ => Contract.keeps_codecRheader
  | dWalk => cases h; exact fun _ => Contract.keeps_codecWalk
  | dClose => cases h; exact fun _ => Contract.keeps_closeDecode
  | idle => cases h
  | done => cases h
  | failed => cases h

theorem Phase.work_busy {p n : Phase} {w : Op Unit} (h : p.work = some (w, n)) :
    p ≠ .idle ∧ p ≠ .failed ∧ n ≠ .failed := by
  cases p <;> cases h <;> exact ⟨nofun, nofun, nofun⟩

/-- Phases one after the other. -/
def runPhases : List (Op Unit × Phase) → Op Unit
  | [] => pure ()
  | (w, n) :: rest => do
    phaseStep w n
    runPhases rest

/-- The phases of ENCODE (spec/44_codec.md R215). -/
def encodePhases : List (Op Unit × Phase) :=
  [(codecFcount, .eBuild), (htBuild, .eCodes), (htGencodes, .eHeader), (codecWheader, .ePayload),
    (codecWpayload, .eClose), (closeEncode, .done)]

/-- The phases of DECODE (spec/44_codec.md R219). -/
def decodePhases : List (Op Unit × Phase) :=
  [(codecRheader, .dWalk), (codecWalk, .dClose), (closeDecode, .done)]

theorem encodeInvocation_eq :
    encodeInvocation = modify (State.initialise .eCount) >>= fun _ => runPhases encodePhases := by
  simp [encodeInvocation, encodePhases, runPhases, phaseStep]

theorem decodeInvocation_eq :
    decodeInvocation = modify (State.initialise .dHeader) >>= fun _ => runPhases decodePhases := by
  simp [decodeInvocation, decodePhases, runPhases, phaseStep]

theorem encodePhases_work : ∀ e ∈ encodePhases, ∃ p : Phase, p.work = some e :=
  List.forall_mem_cons.mpr ⟨⟨.eCount, rfl⟩, List.forall_mem_cons.mpr ⟨⟨.eBuild, rfl⟩,
    List.forall_mem_cons.mpr ⟨⟨.eCodes, rfl⟩, List.forall_mem_cons.mpr ⟨⟨.eHeader, rfl⟩,
    List.forall_mem_cons.mpr ⟨⟨.ePayload, rfl⟩, List.forall_mem_singleton.mpr ⟨.eClose, rfl⟩⟩⟩⟩⟩⟩

theorem decodePhases_work : ∀ e ∈ decodePhases, ∃ p : Phase, p.work = some e :=
  List.forall_mem_cons.mpr ⟨⟨.dHeader, rfl⟩, List.forall_mem_cons.mpr ⟨⟨.dWalk, rfl⟩,
    List.forall_mem_singleton.mpr ⟨.dClose, rfl⟩⟩⟩

/-! ## Steps -/

/-- `u` is where failure entry with kind `k` leads from `t` (spec/60_exceptions.md R252, R253). -/
def FailedFrom (k : ErrKind) (t u : State) : Prop :=
  u = { t with
    err := k, phase := .failed, sclosed := u.sclosed, rclosed := u.rclosed, env := u.env, result := u.result }

theorem failureEntry_failedFrom {k : ErrKind} {t u : State} (h : failureEntry k t = .ok () u) : FailedFrom k t u := by
  have hu := failureEntry_ok h
  unfold FailedFrom
  generalize u.sclosed = sc, u.rclosed = rc, u.env = e at hu
  subst hu
  rfl

theorem FailedFrom.phase {k : ErrKind} {t u : State} (h : FailedFrom k t u) : u.phase = .failed :=
  congrArg State.phase h

theorem FailedFrom.err {k : ErrKind} {t u : State} (h : FailedFrom k t u) : u.err = k :=
  congrArg State.err h

theorem cutOff_next {c : Cut} {t u : State} (h : cutOff c t = .next u) : u = t.powerReset := by
  cases c with
  | stop f => cases h
  | resetApplied => cases h; rfl

/-- A raise leads to `FAILED`, or to the reset state when a reset overtakes a closing call. -/
theorem enterFailure_next {k : ErrKind} {t u : State} (h : enterFailure k t = .next u) :
    FailedFrom k t u ∨ ∃ v : State, u = v.powerReset := by
  unfold enterFailure at h
  cases he : failureEntry k t with
  | ok a v =>
    rw [he] at h
    cases h
    have hv := failureEntry_failedFrom he
    unfold FailedFrom at *
    exact .inl (by rw [hv])
  | error c v =>
    rw [he] at h
    exact .inr ⟨v, cutOff_next h⟩

/-- What the sequencer and the outside do to a state keeps the contract (spec/70_reset_and_hazards.md R270 to
R273). -/
structure Contract.KeptBySequencer (C : Contract) : Prop where
  reset : C.inv State.reset
  outside : ∀ {s} result env stim, C.inv s → C.inv { s with result := result, env := env, stim := stim }
  advance : ∀ {s p}, s.phase ≠ .failed → p ≠ .failed → C.inv s → C.inv { s with phase := p }

/-- A next state with the contract, or one that failure entry has led to. -/
def Contract.Answers (C : Contract) (u : State) : Prop :=
  C.inv u ∨ ∃ k t, C.raised k t ∧ FailedFrom k t u

/-- A contract about `PHASE` alone. -/
def phaseContract (ok : Phase → Prop) : Contract where
  inv s := ok s.phase
  raised _ s := ok s.phase
  inv_call _ h := h
  raised_of_inv _ h := h

/-- No unit writes `PHASE`. -/
theorem phaseContract_keptByUnits (ok : Phase → Prop) : (phaseContract ok).KeptByUnits :=
  Contract.keptByUnits_of_ignores_all (fun _ _ _ _ h => h) (fun _ _ h => h) (fun _ _ _ _ _ h => h)
    (fun _ _ _ h => h) (fun _ _ _ h => h)

theorem UnitOp.phase_ok {op : Op α} (h : UnitOp op) {s t : State} {a : α} (ht : op s = .ok a t) :
    t.phase = s.phase :=
  (h _ (phaseContract_keptByUnits (· = s.phase)) s rfl).1 a t ht

section
variable (hq : C.KeptBySequencer)
include hq

theorem Contract.KeptBySequencer.powerReset (s : State) : C.inv s.powerReset :=
  hq.outside .none s.env s.stim hq.reset

theorem Contract.KeptBySequencer.initialise {p : Phase} (hp : p ≠ .failed) (s : State) : C.inv (s.initialise p) :=
  hq.outside .none s.env s.stim (hq.advance (s := State.reset) nofun hp hq.reset)

theorem Contract.KeptBySequencer.enterFailure {k : ErrKind} {t u : State} (hr : C.raised k t)
    (h : enterFailure k t = .next u) : C.Answers u := by
  obtain hu | ⟨v, rfl⟩ := enterFailure_next h
  · exact .inr ⟨k, t, hr, hu⟩
  · exact .inl (hq.powerReset v)

theorem Contract.KeptBySequencer.complete {op : Op Result} {P : State → Prop}
    (hop : Triple P op (fun _ => C.inv) C.raised) {s u : State} (hs : P s) (h : complete op s = .next u) :
    C.Answers u := by
  obtain ⟨hok, herr⟩ := hop s hs
  obtain ⟨r, t, ht, rfl⟩ | ⟨k, t, ht, hu⟩ | ⟨t, ht, rfl⟩ := complete_next h
  · exact .inl (hq.outside r t.env t.stim (hok r t ht))
  · exact hq.enterFailure (herr k t ht) hu
  · exact .inl (hq.powerReset t)

/-- A phase keeps the contract, in a block that has not failed. -/
theorem Contract.KeptBySequencer.phaseStep (hu : C.KeptByUnits) {w : Op Unit} (hw : UnitOp w) {n : Phase}
    (hn : n ≠ .failed) :
    Triple (fun s => C.inv s ∧ s.phase ≠ .failed) (phaseStep w n) (fun _ s => C.inv s ∧ s.phase ≠ .failed)
      C.raised := by
  refine triple_bind (Q := fun _ s => C.inv s ∧ s.phase ≠ .failed) ?_ fun _ =>
    triple_modify fun s hs => ⟨hq.advance hs.2 hn hs.1, hn⟩
  rintro s ⟨hs, hp⟩
  obtain ⟨hok, herr⟩ := hw C hu s hs
  exact ⟨fun a t ht => ⟨hok a t ht, hw.phase_ok ht ▸ hp⟩, herr⟩

theorem Contract.KeptBySequencer.runPhases (hu : C.KeptByUnits) {phases : List (Op Unit × Phase)}
    (h : ∀ e ∈ phases, ∃ p : Phase, p.work = some e) :
    Triple (fun s => C.inv s ∧ s.phase ≠ .failed) (runPhases phases) (fun _ s => C.inv s ∧ s.phase ≠ .failed)
      C.raised := by
  induction phases with
  | nil => exact triple_pure fun _ => id
  | cons e rest ih =>
    obtain ⟨p, hp⟩ := h e (List.mem_cons_self ..)
    exact triple_bind (hq.phaseStep hu (Phase.work_unitOp hp) (Phase.work_busy hp).2.2) fun _ =>
      ih fun e he => h e (List.mem_cons_of_mem _ he)

/-- An invocation keeps the contract from any state, because it begins with the start values. -/
theorem Contract.KeptBySequencer.invocation (hu : C.KeptByUnits) {i : Instr} (hi : startsInvocation i = true) :
    Triple (fun _ => True) (operation i) (fun _ => C.inv) C.raised := by
  have hrun (p : Phase) (hp : p ≠ .failed) (phases : List (Op Unit × Phase))
      (hphases : ∀ e ∈ phases, ∃ p : Phase, p.work = some e) :
      Triple (fun _ => True) (modify (State.initialise p) >>= fun _ => Machine.runPhases phases)
        (fun _ s => C.inv s ∧ s.phase ≠ .failed) C.raised :=
    triple_bind (triple_modify fun s _ => ⟨hq.initialise hp s, hp⟩) fun _ => hq.runPhases hu hphases
  have hend {op : Op Unit} (h : Triple (fun _ => True) op (fun _ s => C.inv s ∧ s.phase ≠ .failed) C.raised) :
      Triple (fun _ => True) (noResult op) (fun _ => C.inv) C.raised :=
    triple_bind h fun _ => triple_pure fun s hs => hs.1
  cases i with
  | encode => exact hend (encodeInvocation_eq ▸ hrun .eCount nofun _ encodePhases_work)
  | decode => exact hend (decodeInvocation_eq ▸ hrun .dHeader nofun _ decodePhases_work)
  | _ => cases hi

variable {s u : State} (hs : C.inv s)
include hs

theorem Contract.KeptBySequencer.command {op : BitVec 8} (h : command op s = .next u) : C.Answers u := by
  unfold Machine.command at h
  split at h
  · cases h
    exact .inl hs
  split at h
  · cases h
    exact .inl (hq.initialise (p := .eCount) nofun s)
  split at h
  · cases h
    exact .inl (hq.initialise (p := .dHeader) nofun s)
  split at h
  · next hv =>
    cases h
    exact .inr ⟨.illegalCommand, s, C.raised_of_inv nofun hs, failureEntry_failedFrom hv⟩
  · exact .inl (cutOff_next h ▸ hq.powerReset _)

theorem Contract.KeptBySequencer.attachStreams {src replay : List Byte} {answers : List PortAnswer}
    (h : attachStreams src replay answers s = .next u) : C.Answers u := by
  unfold Machine.attachStreams at h
  split at h
  · cases h
  · cases h
    exact .inl (hq.outside s.result _ s.stim hs)

variable (hu : C.KeptByUnits)
include hu

theorem Contract.KeptBySequencer.exec {i : Instr} (h : exec i s = .next u) : C.Answers u := by
  rw [exec_eq] at h
  split at h
  · cases h
    exact .inl hs
  · cases hi : startsInvocation i with
    | true => exact hq.complete (hq.invocation hu hi) trivial h
    | false => exact hq.complete (operation_unitOp hi C hu) hs h

theorem Contract.KeptBySequencer.tick (h : tick s = .next u) : C.Answers u := by
  cases hw : s.phase.work with
  | none =>
    rw [tick_of_no_work hw] at h
    cases h
    exact .inl hs
  | some e =>
    obtain ⟨w, n⟩ := e
    obtain ⟨-, hp, hn⟩ := Phase.work_busy hw
    rw [tick_of_work hw] at h
    refine hq.complete (triple_bind (hq.phaseStep hu (Phase.work_unitOp hw) hn) fun _ => triple_pure fun _ h => h.1)
      ⟨hs, hp⟩ h

theorem Contract.KeptBySequencer.issue {t : Transfer} (h : issue t s = .next u) : C.Answers u := by
  unfold Machine.issue at h
  split at h
  · exact hq.exec hs hu h
  · cases h

/-- Every step keeps the contract, but where it ends in `FAILED` after a raise. -/
theorem Contract.KeptBySequencer.step (h : step s = .next u) : C.Answers u := by
  have hs' (rest : List Stimulus) : C.inv { s with stim := rest } := hq.outside s.result s.env rest hs
  unfold Machine.step at h
  split at h
  · exact hq.tick hs hu h
  · exact hq.tick (hs' _) hu h
  · exact hq.command (hs' _) h
  · exact hq.issue (hs' _) hu h
  · cases h
    exact .inl (hq.powerReset _)
  · exact hq.attachStreams (hs' _) h

end

end Sys2Proof.Machine
end

section
/-! PROOFS. The reset state, `STATUS`, `ERR` and the sequencer. -/

namespace Sys2Proof.Machine

/-! ## The reset state -/

@[simp] theorem State.freqAt_reset (sym : Symbol) : State.reset.freqAt sym = 0 := by
  simp [State.freqAt, State.reset]

@[simp] theorem State.codeAt_reset (sym : Symbol) : State.reset.codeAt sym = [] := by
  simp [State.codeAt, State.reset]

/-- Settles O9: the tables by their lemmas, every other piece by the definition of the reset state. -/
theorem resetStateValues : Obligations.ResetStateValues := by
  unfold Obligations.ResetStateValues
  refine ⟨rfl, rfl, rfl, rfl, rfl, rfl, rfl, rfl, rfl, rfl, rfl, rfl, rfl, rfl, rfl, rfl, rfl,
    State.freqAt_reset, fun sym => ?_, rfl, rfl, rfl, rfl, State.status_powerReset State.reset⟩
  simp [State.clen]

theorem reset_queueInv : State.reset.QueueInv where
  size := Nat.zero_le _
  ordered := fun _ h2 hlen => absurd (Nat.le_trans h2 hlen) (by decide)
  stamped := nofun
  distinct := List.nodup_nil

theorem reset_treeInv : State.reset.TreeInv where
  store := Nat.zero_le _
  stack := Nat.zero_le _
  description := Nat.zero_le _
  units := nofun
  codes := fun sym => by simp
  shape := .inl rfl

theorem reset_sinkInv : State.reset.SinkInv := by
  unfold State.SinkInv
  decide

theorem reset_sourceInv : State.reset.SourceInv := Nat.zero_le _

theorem reset_errInv : State.reset.ErrInv := ⟨nofun, fun _ => rfl⟩

/-- Settles O59: at reset the arrays are empty and the buffers hold no bit. -/
theorem resetMeetsInvariants : Obligations.ResetMeetsInvariants :=
  ⟨reset_queueInv, reset_treeInv, reset_sinkInv, reset_sourceInv, reset_errInv⟩

/-! ## STATUS -/

theorem State.status_phase (s : State) : s.status.extractLsb' 0 4 = s.phase.code := by
  rw [State.status, BitVec.extractLsb'_append_eq_right]

theorem State.status_err (s : State) : s.status.extractLsb' 4 4 = s.err.code := by
  rw [State.status, BitVec.extractLsb'_append_eq_of_le (by decide), BitVec.extractLsb'_append_eq_right]

theorem State.status_busy (s : State) : s.status.getLsbD 8 = s.busy := by
  simp only [State.status, BitVec.getLsbD_append, BitVec.getLsbD_ofBool]
  simp

theorem State.status_done (s : State) : s.status.getLsbD 9 = s.done := by
  simp only [State.status, BitVec.getLsbD_append, BitVec.getLsbD_ofBool]
  simp

theorem State.status_failed (s : State) : s.status.getLsbD 10 = s.failed := by
  simp only [State.status, BitVec.getLsbD_append, BitVec.getLsbD_ofBool]
  simp

theorem State.status_above (s : State) : s.status.extractLsb' 11 5 = 0 := by
  simp only [State.status]
  rw [BitVec.extractLsb'_append_eq_of_le (by decide), BitVec.extractLsb'_append_eq_of_le (by decide),
    BitVec.extractLsb'_append_eq_of_le (by decide), BitVec.extractLsb'_append_eq_of_le (by decide),
    BitVec.extractLsb'_append_eq_left]
  rfl

/-- The phases of the two invocations by their codes (spec/10_state.md R22, R23). -/
theorem Phase.busy_iff_code (p : Phase) :
    (p.encoding || p.decoding) =
      decide (1 ≤ p.code.toNat ∧ p.code.toNat ≤ 6 ∨ 8 ≤ p.code.toNat ∧ p.code.toNat ≤ 10) := by
  cases p <;> rfl

theorem Phase.done_iff_code (p : Phase) : decide (p = .done) = decide (p.code = 14) := by cases p <;> rfl

theorem Phase.failed_iff_code (p : Phase) : decide (p = .failed) = decide (p.code = 15) := by cases p <;> rfl

/-- Settles O10: the fields stand where `STATUS` is put together, and the flags are read off the phase's code. -/
theorem statusFields : Obligations.StatusFields := by
  intro s
  refine ⟨s.status_phase, s.status_err, fun herr hp => ?_, ?_, ?_, ?_, s.status_above, rfl, rfl⟩
  · rw [s.status_err, herr.mpr hp]
    rfl
  · exact s.status_busy.trans s.phase.busy_iff_code
  · exact s.status_done.trans s.phase.done_iff_code
  · exact s.status_failed.trans s.phase.failed_iff_code

/-! ## ERR -/

/-- `ERR` agrees with `PHASE`, and no operation raises the kind that says there is no error. -/
def errContract : Contract where
  inv := State.ErrInv
  raised k _ := k ≠ .none
  inv_call _ h := h
  raised_of_inv hk _ := hk

/-- No unit writes `ERR` or `PHASE`. -/
theorem errContract_keptByUnits : errContract.KeptByUnits :=
  Contract.keptByUnits_of_ignores_all (fun _ _ _ _ h => h) (fun _ _ h => h) (fun _ _ _ _ _ h => h)
    (fun _ _ _ h => h) (fun _ _ _ h => h)

theorem errContract_keptBySequencer : errContract.KeptBySequencer where
  reset := reset_errInv
  outside _ _ _ h := h
  advance hs hp h := iff_of_true (h.mpr hs) hp

/-- Settles O58: only failure entry writes `ERR`, with the kind of a raise, and it writes `PHASE` too. -/
theorem stepKeepsErrInv : Obligations.StepKeepsErrInv := by
  intro s u hs h
  obtain hu | ⟨k, t, hk, hu⟩ := errContract_keptBySequencer.step hs errContract_keptByUnits h
  · exact hu
  · exact iff_of_false (hu.err ▸ hk) (· hu.phase)

/-! ## The sequencer -/

/-- Failure entry ends in `FAILED`, or in `IDLE` when a reset overtakes it, and so in no phase with work. -/
theorem enterFailure_leaves {k : ErrKind} {v t : State} (h : enterFailure k v = .next t) {p : Phase}
    (hidle : p ≠ .idle) (hfailed : p ≠ .failed) : t.phase ≠ p := by
  obtain ht | ⟨v, rfl⟩ := enterFailure_next h
  · exact ht.phase ▸ hfailed.symm
  · exact hidle.symm

/-- The step of a phase ends as its operation does, and goes to the successor when the operation has left `PHASE`
alone (spec/10_state.md R22). -/
theorem complete_phaseStep {w : Op Unit} (hw : UnitOp w) {p n : Phase} {s t : State} (hs : s.phase = p)
    (hidle : p ≠ .idle) (hfailed : p ≠ .failed) (h : complete (noResult w) s = .next t) :
    complete (noResult (phaseStep w n)) s = .next (advancePhase p n t) := by
  cases hws : w s with
  | ok a v =>
    rw [complete_of_ok (noResult_ok hws)] at h
    cases h
    have hv : v.phase = p := hw.phase_ok hws ▸ hs
    have hrun : phaseStep w n s = .ok () { v with phase := n } := by simp [phaseStep, hws]
    rw [complete_of_ok (noResult_ok hrun), advancePhase, if_pos hv]
  | error e v =>
    have hrun : phaseStep w n s = .error e v := by simp [phaseStep, hws]
    have ht : t.phase ≠ p := by
      cases e with
      | raised k =>
        rw [complete_of_raised (noResult_error hws)] at h
        exact enterFailure_leaves h hidle hfailed
      | cut c =>
        rw [complete_of_cut (noResult_error hws)] at h
        exact cutOff_next h ▸ hidle.symm
    rw [advancePhase, if_neg ht, ← h]
    cases e with
    | raised k => rw [complete_of_raised (noResult_error hrun), complete_of_raised (noResult_error hws)]
    | cut c => rw [complete_of_cut (noResult_error hrun), complete_of_cut (noResult_error hws)]

/-- A step with nothing presented, in a phase with work. -/
theorem step_of_phase {s t : State} (hstim : s.stim = []) {w : Op Unit} {p n : Phase} (hp : s.phase = p)
    (hwork : p.work = some (w, n)) (h : complete (noResult w) s = .next t) :
    step s = .next (advancePhase p n t) := by
  obtain ⟨hidle, hfailed, -⟩ := Phase.work_busy hwork
  have htick : step s = tick s := by simp only [step, hstim]
  rw [htick, tick_of_work (hp ▸ hwork)]
  exact complete_phaseStep (Phase.work_unitOp hwork) hp hidle hfailed h

/-- The host goes on failing no call. -/
def obligingContract : Contract where
  inv s := s.env.obliging
  raised _ s := s.env.obliging
  inv_call event h := h.after [event]
  raised_of_inv _ h := h

/-- A closing phase: when its first close has succeeded, the other stream is closed or released too. -/
theorem step_of_closing_phase {close w : Op Unit} {call : Port Bool} {event : PortEvent}
    (hkeeps : obligingContract.Keeps close)
    (hcall : ∀ v : State, v.env.obliging → call v = .ok true (v.withEnv (v.env.after [event])))
    (hw : w = do close; orIOError call) {s t : State} (hstim : s.stim = []) {p n : Phase} (hp : s.phase = p)
    (hwork : p.work = some (w, n)) (hs : s.env.obliging) (h : complete (noResult close) s = .next t)
    (ht : t.phase = p) : step s = .next { t with phase := n, env := t.env.after [event] } := by
  obtain ⟨hidle, hfailed, -⟩ := Phase.work_busy hwork
  cases hc : close s with
  | ok a v =>
    rw [complete_of_ok (noResult_ok hc)] at h
    cases h
    have hv : v.env.obliging := (hkeeps s hs).1 a v hc
    have hrun : w s = .ok () (v.withEnv (v.env.after [event])) := by
      simp [hw, hc, orIOError, lift, hcall v hv]
    exact (step_of_phase hstim hp hwork (complete_of_ok (noResult_ok hrun))).trans (congrArg _ (if_pos ht))
  | error e v =>
    cases e with
    | raised k =>
      rw [complete_of_raised (noResult_error hc)] at h
      exact absurd ht (enterFailure_leaves h hidle hfailed)
    | cut c =>
      rw [complete_of_cut (noResult_error hc)] at h
      rw [cutOff_next h] at ht
      exact absurd ht.symm hidle

/-- Settles O11: the seven phases of one operation are `step_of_phase`, the two closing ones
`step_of_closing_phase`. -/
theorem sequencerFollowsPhases : Obligations.SequencerFollowsPhases := by
  intro s t hstim
  refine ⟨fun hp h => step_of_phase hstim hp rfl h, fun hp h => step_of_phase hstim hp rfl h,
    fun hp h => step_of_phase hstim hp rfl h, fun hp h => step_of_phase hstim hp rfl h,
    fun hp h => step_of_phase hstim hp rfl h, fun hp h => step_of_phase hstim hp rfl h,
    fun hp h => step_of_phase hstim hp rfl h, fun hp hs h ht => ?_, fun hp hs h ht => ?_⟩
  · exact step_of_closing_phase (Contract.keeps_snkClose (fun _ hv => hv) fun _ hv => hv)
      (fun v => srcRelease_of_obliging) rfl hstim hp rfl hs h ht
  · exact step_of_closing_phase (Contract.keeps_srcClose fun _ hv => hv) (fun v => snkClosePort_of_obliging)
      rfl hstim hp rfl hs h ht

end Sys2Proof.Machine
end

section
/-! PROOFS. The two bit buffers between operations (spec/10_state.md R34, R35). -/

namespace Sys2Proof.Machine

/-! ## The BitSource -/

/-- At most 7 buffered bits between operations, at a raise too (spec/41_bitsource.md R144). -/
def sourceContract : Contract where
  inv := State.SourceInv
  raised _ := State.SourceInv
  inv_call _ h := h
  raised_of_inv _ h := h

/-- A bit is taken from 1 to 8 buffered ones, so that at most 7 are left (spec/41_bitsource.md R140). -/
theorem sourceContract_keeps_srcRbit : sourceContract.Keeps srcRbit := by
  have htake : Triple (fun s => 1 ≤ s.rcnt.toNat ∧ s.rcnt.toNat ≤ 8)
      (do
        let s ← get
        let bit := s.rbuf.msb
        modify fun s => { s with rbuf := s.rbuf <<< 1, rcnt := s.rcnt - 1 }
        pure bit)
      (fun _ => State.SourceInv) (fun _ => State.SourceInv) := by
    refine triple_get_bind fun s hs => triple_bind (Q := fun _ => State.SourceInv) (triple_modify ?_) fun _ =>
      triple_pure fun _ h => h
    rintro _ rfl
    simp only [State.SourceInv, BitVec.toNat_sub]
    have h1 : (1 : BitVec 4).toNat = 1 := rfl
    omega
  refine triple_get_bind fun s hs => triple_guard (fun _ t ht => ht ▸ hs) fun _ =>
    triple_ite (fun _ => ?_) fun hne => ?_
  · refine triple_bind (Q := fun _ => State.SourceInv)
      (triple_pre sourceContract.keeps_nextByte fun t ht => ht ▸ hs) fun b => ?_
    have hbyte : 1 ≤ (8 : BitVec 4).toNat ∧ (8 : BitVec 4).toNat ≤ 8 := by decide
    exact triple_bind (triple_modify fun _ _ => hbyte) fun _ => htake
  · refine triple_pre htake fun t ht => ?_
    subst ht
    have hpos : t.rcnt.toNat ≠ 0 := fun h => hne (BitVec.eq_of_toNat_eq h)
    have hle : t.rcnt.toNat ≤ 7 := hs
    omega

theorem sourceContract_keptByUnits : sourceContract.KeptByUnits :=
  have hsink : sourceContract.IgnoresSink := fun _ _ _ h => h
  Contract.keptByUnits_of_ignores (fun _ _ _ _ h => h) (fun _ _ h => h) (fun _ _ _ _ _ h => h)
    (Contract.keeps_writeBits hsink) (Contract.keeps_snkClose (fun _ h => h) fun _ h => h)
    sourceContract_keeps_srcRbit (Contract.keeps_srcClose fun _ h => h)

theorem sourceContract_keptBySequencer : sourceContract.KeptBySequencer where
  reset := reset_sourceInv
  outside _ _ _ h := h
  advance _ _ h := h

/-! ## The BitSink -/

/-- The one raise at which the buffer is full is that of the failed put in the loop of SNK.WBITS
(spec/60_exceptions.md R253). -/
def sinkContract : Contract where
  inv := State.SinkInv
  raised k s := s.SinkInv ∨ (k = .ioError ∧ s.wcnt = 8)
  inv_call _ h := h
  raised_of_inv _ h := .inl h

theorem State.SinkInv.clear (s : State) : State.SinkInv { s with wbuf := 0, wcnt := 0 } :=
  (by decide : (0 : BitVec 4).toNat ≤ 7 ∧ (0 : BitVec 8).toNat < 2 ^ (0 : BitVec 4).toNat)

/-- A bit shifted into a buffer with room is one more pending bit (spec/40_bitsink.md R120). -/
theorem shiftInBit_lt {buf : BitVec 8} {n : Nat} (h : buf.toNat < 2 ^ n) (b : Bool) :
    (shiftInBit buf b).toNat < 2 ^ (n + 1) := by
  have hb : ((BitVec.ofBool b).setWidth 8).toNat < 2 ^ (n + 1) := by
    have : ((BitVec.ofBool b).setWidth 8).toNat ≤ 1 := by cases b <;> decide
    have := Nat.one_lt_two_pow (Nat.succ_ne_zero n)
    omega
  have hbuf : (buf <<< 1).toNat < 2 ^ (n + 1) := by
    rw [BitVec.toNat_shiftLeft, Nat.shiftLeft_eq, Nat.pow_succ]
    have := Nat.mod_le (buf.toNat * 2 ^ 1) (2 ^ 8)
    omega
  rw [shiftInBit, BitVec.toNat_or]
  exact Nat.or_lt_two_pow hbuf hb

/-- The buffer when a bit has been taken and not yet put: up to 8 pending bits. -/
def State.SinkTaken (s : State) : Prop :=
  s.wcnt.toNat ≤ 8 ∧ s.wbuf.toNat < 2 ^ s.wcnt.toNat

theorem State.SinkInv.takeBit {s : State} (h : s.SinkInv) (b : Bool) :
    State.SinkTaken { s with wbuf := shiftInBit s.wbuf b, wcnt := s.wcnt + 1 } := by
  obtain ⟨hcnt, hbuf⟩ := h
  have hadd : (s.wcnt + 1).toNat = s.wcnt.toNat + 1 := by
    have h1 : (1 : BitVec 4).toNat = 1 := rfl
    rw [BitVec.toNat_add]
    omega
  simp only [State.SinkTaken, hadd]
  exact ⟨by omega, shiftInBit_lt hbuf b⟩

/-- The loop of SNK.WBITS goes on with an emptied buffer after its 8th bit, and raises IOError with the full one
when the put fails (spec/40_bitsink.md R120). -/
theorem sinkContract_keeps_writeBits (bits : Bits) : sinkContract.Keeps (writeBits bits) := by
  induction bits with
  | nil => exact Contract.keeps_pure
  | cons b rest ih =>
    refine triple_bind (Q := fun _ => State.SinkTaken) (triple_modify fun s hs => hs.takeBit b) fun _ =>
      triple_get_bind fun s hs => triple_ite (fun hfull => ?_) fun hfull => ?_
    · refine triple_bind (Q := fun _ _ => True) (triple_orIOError (snkPut_spec _) (fun _ _ => trivial) ?_) fun _ =>
        triple_bind (Q := fun _ => State.SinkInv) (triple_modify fun t _ => State.SinkInv.clear t) fun _ => ih
      rintro _ rfl
      exact .inr ⟨rfl, hfull⟩
    · refine triple_pre ih fun t ht => ?_
      subst ht
      obtain ⟨hle, hbuf⟩ := hs
      have hne : t.wcnt.toNat ≠ 8 := fun h => hfull (BitVec.eq_of_toNat_eq h)
      exact ⟨by omega, hbuf⟩

theorem sinkContract_keptByUnits : sinkContract.KeptByUnits :=
  have hsource : sinkContract.IgnoresSource := fun _ _ _ h => h
  Contract.keptByUnits_of_ignores (fun _ _ _ _ h => h) (fun _ _ h => h) (fun _ _ _ _ _ h => h)
    sinkContract_keeps_writeBits (Contract.keeps_snkClose (fun s _ => State.SinkInv.clear s) fun _ h => h)
    (Contract.keeps_srcRbit hsource) (Contract.keeps_srcClose fun _ h => h)

theorem sinkContract_keptBySequencer : sinkContract.KeptBySequencer where
  reset := reset_sinkInv
  outside _ _ _ h := h
  advance _ _ h := h

/-- The buffer is intact, or the block has failed (and no unit takes it out of `FAILED`). -/
def sinkUnlessFailed : Contract := sinkContract.or (phaseContract (· = .failed))

theorem sinkUnlessFailed_keptByUnits : sinkUnlessFailed.KeptByUnits :=
  sinkContract_keptByUnits.or (phaseContract_keptByUnits _)

theorem sinkUnlessFailed_keptBySequencer : sinkUnlessFailed.KeptBySequencer where
  reset := .inl reset_sinkInv
  outside _ _ _ h := h
  advance hs _ h := h.imp id fun hf => absurd hf hs

/-! ## The step -/

/-- Failure entry leaves the buffers as the raise found them (spec/60_exceptions.md R253). -/
theorem FailedFrom.sinkInv {k : ErrKind} {t u : State} (h : FailedFrom k t u) (ht : t.SinkInv) : u.SinkInv := by
  unfold FailedFrom at h
  rw [h]
  exact ht

theorem FailedFrom.sourceInv {k : ErrKind} {t u : State} (h : FailedFrom k t u) (ht : t.SourceInv) :
    u.SourceInv := by
  unfold FailedFrom at h
  rw [h]
  exact ht

theorem step_keeps_sinkInv_outside_failed {s u : State} (h : step s = .next u) (hs : s.phase ≠ .failed → s.SinkInv)
    (hu : u.phase ≠ .failed) : u.SinkInv := by
  have hs' : s.SinkInv ∨ s.phase = .failed := Decidable.or_iff_not_imp_right.mpr hs
  obtain (hinv | hf) | ⟨k, t, -, hk⟩ := sinkUnlessFailed_keptBySequencer.step hs' sinkUnlessFailed_keptByUnits h
  · exact hinv
  · exact absurd hf hu
  · exact absurd hk.phase hu

theorem step_keeps_sinkInv {s u : State} (h : step s = .next u) (hs : s.SinkInv) :
    u.SinkInv ∨ (u.phase = .failed ∧ u.err = .ioError ∧ u.wcnt = 8) := by
  obtain hinv | ⟨k, t, ht | ⟨rfl, ht⟩, hk⟩ := sinkContract_keptBySequencer.step hs sinkContract_keptByUnits h
  · exact .inl hinv
  · exact .inl (hk.sinkInv ht)
  · exact .inr ⟨hk.phase, hk.err, (congrArg State.wcnt hk).trans ht⟩

theorem step_keeps_sourceInv {s u : State} (h : step s = .next u) (hs : s.SourceInv) : u.SourceInv := by
  obtain hinv | ⟨k, t, ht, hk⟩ := sourceContract_keptBySequencer.step hs sourceContract_keptByUnits h
  · exact hinv
  · exact hk.sourceInv ht

/-- Settles O57: one contract for each of the three clauses. -/
theorem stepKeepsStreamBuffers : Obligations.StepKeepsStreamBuffers := fun _ _ h =>
  ⟨step_keeps_sinkInv_outside_failed h, step_keeps_sinkInv h, step_keeps_sourceInv h⟩

end Sys2Proof.Machine
end

section
/-! PROOFS. Trees in the node store: several of them side by side without sharing, and how `alloc` lets them grow
(spec/10_state.md R29, R30). -/

namespace Sys2Proof.Machine

variable {nodes : List Node} {roots used : List NodeRef}

/-! ## One tree -/

theorem Tree.postorder_length (t : Tree) : t.postorder.length + 1 = 2 * t.symbols.length := by
  induction t with
  | leaf sym => rfl
  | node l r ihl ihr =>
    simp only [Tree.postorder, Tree.symbols, List.length_append, List.length_singleton]
    omega

/-- A description has Symbols and sentinels only (spec/10_state.md R32). -/
theorem Tree.postorder_units (t : Tree) : ∀ v ∈ t.postorder, v.toNat ≤ 128 := by
  induction t with
  | leaf sym =>
    have := sym.isLt
    simp [Tree.postorder]
    omega
  | node l r ihl ihr =>
    intro v hv
    simp only [Tree.postorder, List.mem_append, List.mem_singleton] at hv
    obtain (hv | hv) | rfl := hv
    · exact ihl v hv
    · exact ihr v hv
    · decide

theorem Tree.refs_node {l r : Tree} {n a b : NodeRef} (h : nodes[n.toNat]? = some (.branch a b)) :
    (Tree.node l r).refs nodes n = n :: (l.refs nodes a ++ r.refs nodes b) := by
  simp [Tree.refs, h]

theorem Tree.refs_length {t : Tree} {n : NodeRef} (h : t.storedAt nodes n) :
    (t.refs nodes n).length + 1 = 2 * t.symbols.length := by
  induction t generalizing n with
  | leaf sym => rfl
  | node l r ihl ihr =>
    obtain ⟨a, b, hn, hl, hr⟩ := h
    have := ihl hl
    have := ihr hr
    simp only [Tree.refs_node hn, Tree.symbols, List.length_cons, List.length_append]
    omega

/-- A stored tree lies in the part of the store that is in use. -/
theorem Tree.refs_lt {t : Tree} {n : NodeRef} (h : t.storedAt nodes n) :
    ∀ m ∈ t.refs nodes n, m.toNat < nodes.length := by
  induction t generalizing n with
  | leaf sym =>
    intro m hm
    obtain rfl := List.mem_singleton.mp hm
    exact (List.getElem?_eq_some_iff.mp h).1
  | node l r ihl ihr =>
    obtain ⟨a, b, hn, hl, hr⟩ := h
    intro m hm
    rw [Tree.refs_node hn, List.mem_cons, List.mem_append] at hm
    obtain rfl | hm | hm := hm
    · exact (List.getElem?_eq_some_iff.mp hn).1
    · exact ihl hl m hm
    · exact ihr hr m hm

theorem getElem?_append_of_some {α : Type} {l l' : List α} {i : Nat} {a : α} (h : l[i]? = some a) :
    (l ++ l')[i]? = some a := by
  rw [List.getElem?_append_left (List.getElem?_eq_some_iff.mp h).1, h]

theorem Tree.storedAt.append {t : Tree} {n : NodeRef} (h : t.storedAt nodes n) (more : List Node) :
    t.storedAt (nodes ++ more) n := by
  induction t generalizing n with
  | leaf sym => exact getElem?_append_of_some h
  | node l r ihl ihr =>
    obtain ⟨a, b, hn, hl, hr⟩ := h
    exact ⟨a, b, getElem?_append_of_some hn, ihl hl, ihr hr⟩

theorem Tree.refs_append {t : Tree} {n : NodeRef} (h : t.storedAt nodes n) (more : List Node) :
    t.refs (nodes ++ more) n = t.refs nodes n := by
  induction t generalizing n with
  | leaf sym => rfl
  | node l r ihl ihr =>
    obtain ⟨a, b, hn, hl, hr⟩ := h
    rw [Tree.refs_node hn, Tree.refs_node (getElem?_append_of_some hn), ihl hl, ihr hr]

/-- Without sharing a store of 255 nodes has room for 128 leaves. -/
theorem Tree.symbols_length_le {t : Tree} {n : NodeRef} (h : t.storedAt nodes n) (hnodup : (t.refs nodes n).Nodup)
    (hcap : nodes.length ≤ Config.nodeCap) : t.symbols.length ≤ Config.alphabetSize := by
  have hsub : (t.refs nodes n).map BitVec.toNat ⊆ List.range nodes.length := by
    intro m hm
    obtain ⟨r, hr, rfl⟩ := List.mem_map.mp hm
    exact List.mem_range.mpr (Tree.refs_lt h r hr)
  have hinj : ((t.refs nodes n).map BitVec.toNat).Nodup := hnodup.map fun _ _ => BitVec.eq_of_toNat_eq
  have hle := (hinj.subperm hsub).length_le
  have hlen := Tree.refs_length h
  have h255 : nodes.length ≤ 255 := hcap
  rw [List.length_map, List.length_range] at hle
  change t.symbols.length ≤ 128
  omega

/-! ## Several trees -/

/-- The nodes `roots` are roots of stored trees, whose node references are together `used`. -/
inductive Forest (nodes : List Node) : (roots used : List NodeRef) → Prop where
  | nil : Forest nodes [] []
  | cons {n : NodeRef} {roots used : List NodeRef} (t : Tree) (stored : t.storedAt nodes n)
      (rest : Forest nodes roots used) : Forest nodes (n :: roots) (t.refs nodes n ++ used)

/-- The nodes `roots` are roots of stored trees, and no node is reached twice (spec/10_state.md R30). -/
def Owned (nodes : List Node) (roots : List NodeRef) : Prop := ∃ used, Forest nodes roots used ∧ used.Nodup

theorem Forest.lt (h : Forest nodes roots used) : ∀ m ∈ used, m.toNat < nodes.length := by
  induction h with
  | nil => simp
  | cons t stored rest ih =>
    intro m hm
    rcases List.mem_append.mp hm with hm | hm
    · exact Tree.refs_lt stored m hm
    · exact ih m hm

theorem Forest.append (h : Forest nodes roots used) (more : List Node) : Forest (nodes ++ more) roots used := by
  induction h with
  | nil => exact .nil
  | cons t stored rest ih => exact Tree.refs_append stored more ▸ .cons t (stored.append more) ih

theorem Forest.perm {roots' : List NodeRef} (hp : roots.Perm roots') (h : Forest nodes roots used) :
    ∃ used', Forest nodes roots' used' ∧ used'.Perm used := by
  induction hp generalizing used with
  | nil => exact ⟨used, h, .refl _⟩
  | cons n _ ih =>
    cases h with
    | cons t stored rest =>
      obtain ⟨used', h', hperm⟩ := ih rest
      exact ⟨_, .cons t stored h', hperm.append_left _⟩
  | swap n m roots =>
    cases h with
    | cons t stored rest =>
      cases rest with
      | cons t' stored' rest =>
        exact ⟨_, .cons t' stored' (.cons t stored rest), List.perm_append_comm_assoc ..⟩
  | trans _ _ ih ih' =>
    obtain ⟨used', h', hperm⟩ := ih h
    obtain ⟨used'', h'', hperm'⟩ := ih' h'
    exact ⟨used'', h'', hperm'.trans hperm⟩

theorem Owned.nil : Owned nodes [] := ⟨[], .nil, List.nodup_nil⟩

theorem Owned.perm {roots' : List NodeRef} (h : Owned nodes roots) (hp : roots.Perm roots') :
    Owned nodes roots' := by
  obtain ⟨used, hf, hnodup⟩ := h
  obtain ⟨used', hf', hperm⟩ := hf.perm hp
  exact ⟨used', hf', hperm.nodup_iff.mpr hnodup⟩

theorem Owned.tree {n : NodeRef} (h : Owned nodes (n :: roots)) :
    ∃ t : Tree, t.storedAt nodes n ∧ (t.refs nodes n).Nodup := by
  obtain ⟨used, hf, hnodup⟩ := h
  cases hf with
  | cons t stored rest => exact ⟨t, stored, (List.nodup_append.mp hnodup).1⟩

/-- The next free index, as `alloc` answers it, is that of the node it adds (spec/43_huffman_tree.md R180). -/
theorem getElem?_append_alloc (hlen : nodes.length < 256) (node : Node) :
    (nodes ++ [node])[(BitVec.ofNat 8 nodes.length).toNat]? = some node := by
  rw [BitVec.toNat_ofNat, Nat.mod_eq_of_lt hlen]
  simp

theorem Forest.alloc_not_mem (h : Forest nodes roots used) (hlen : nodes.length < 256) :
    BitVec.ofNat 8 nodes.length ∉ used := by
  intro hm
  have := h.lt _ hm
  rw [BitVec.toNat_ofNat, Nat.mod_eq_of_lt hlen] at this
  omega

theorem Owned.alloc_leaf (h : Owned nodes roots) (hlen : nodes.length < 256) (sym : Symbol) :
    Owned (nodes ++ [.leaf sym]) (BitVec.ofNat 8 nodes.length :: roots) := by
  obtain ⟨used, hf, hnodup⟩ := h
  exact ⟨_, .cons (.leaf sym) (getElem?_append_alloc hlen _) (hf.append _),
    List.nodup_cons.mpr ⟨hf.alloc_not_mem hlen, hnodup⟩⟩

theorem Owned.alloc_branch {a b : NodeRef} (h : Owned nodes (a :: b :: roots)) (hlen : nodes.length < 256) :
    Owned (nodes ++ [.branch a b]) (BitVec.ofNat 8 nodes.length :: roots) := by
  obtain ⟨used, hf, hnodup⟩ := h
  have hfree := hf.alloc_not_mem hlen
  cases hf with
  | cons l hl rest =>
    cases rest with
    | cons r hr rest =>
      have hn := getElem?_append_alloc hlen (.branch a b)
      refine ⟨_, .cons (.node l r) ⟨a, b, hn, hl.append _, hr.append _⟩ (rest.append _), ?_⟩
      rw [Tree.refs_node hn, Tree.refs_append hl, Tree.refs_append hr, List.cons_append, List.append_assoc]
      exact List.nodup_cons.mpr ⟨hfree, hnodup⟩

end Sys2Proof.Machine
end

section
/-! PROOFS. Every step keeps the tree, its description and the codes within their capacities and shape. -/

namespace Sys2Proof.Machine

variable {s : State} {roots : List NodeRef}

/-! ## What `TreeInv` depends on -/

theorem State.TreeInv.of_eq {t : State} (h : s.TreeInv) (hnodes : t.nodes = s.nodes) (hroot : t.root = s.root)
    (hstk : t.stk = s.stk) (hser : t.ser = s.ser) (hcode : t.code = s.code) : t.TreeInv where
  store := hnodes ▸ h.store
  stack := hstk ▸ h.stack
  description := hser ▸ h.description
  units := hser ▸ h.units
  codes := by
    simp only [State.codeAt, hcode]
    exact h.codes
  shape := by
    simp only [State.ownsTree, State.holdsTree, hroot, hnodes]
    exact h.shape

theorem FailedFrom.treeInv {k : ErrKind} {t u : State} (h : FailedFrom k t u) (ht : t.TreeInv) : u.TreeInv := by
  unfold FailedFrom at h
  rw [h]
  exact ht.of_eq rfl rfl rfl rfl rfl

theorem State.TreeInv.setCode (h : s.TreeInv) (sym : Symbol) {p : Bits} (hp : p.length ≤ Config.codeMax) :
    (s.setCode sym p).TreeInv where
  store := h.store
  stack := h.stack
  description := h.description
  units := h.units
  codes other := by
    by_cases he : sym = other
    · rw [← he, State.codeAt_setCode_self]
      exact hp
    · rw [State.codeAt_setCode_ne s p he]
      exact h.codes other
  shape := h.shape

theorem State.TreeInv.clearCodes (h : s.TreeInv) : State.TreeInv { s with code := Vector.replicate 128 [] } where
  store := h.store
  stack := h.stack
  description := h.description
  units := h.units
  codes sym := by simp [State.codeAt]
  shape := h.shape

theorem State.TreeInv.setSer (h : s.TreeInv) {ser : List Byte} (hser : DescriptionFits ser 0) :
    State.TreeInv { s with ser := ser } where
  store := h.store
  stack := h.stack
  description := hser.1
  units := hser.2
  codes := h.codes
  shape := h.shape

theorem State.TreeInv.setStk (h : s.TreeInv) {stk : List NodeRef} (hstk : stk.length ≤ Config.stackCap) :
    State.TreeInv { s with stk := stk } where
  store := h.store
  stack := hstk
  description := h.description
  units := h.units
  codes := h.codes
  shape := h.shape

/-- Port calls and the other units leave the tree alone, and a raise leaves it as it was. -/
def treeContract : Contract where
  inv := State.TreeInv
  raised _ := State.TreeInv
  inv_call _ h := h.of_eq rfl rfl rfl rfl rfl
  raised_of_inv _ h := h

theorem treeContract_keptBySequencer : treeContract.KeptBySequencer where
  reset := reset_treeInv
  outside _ _ _ h := h.of_eq rfl rfl rfl rfl rfl
  advance _ _ h := h.of_eq rfl rfl rfl rfl rfl

/-! ## HT.SER -/

theorem nodeAt_of_some {n : NodeRef} {node : Node} (h : s.nodes[n.toNat]? = some node) :
    nodeAt n s = .ok node s := by
  simp [nodeAt, h]

/-- The walk over a stored tree emits its post-order description (spec/43_huffman_tree.md R184). -/
theorem emitTree_of_stored {t : Tree} {n : NodeRef} (h : t.storedAt s.nodes n) (levels : Nat) :
    Triple (fun u => u = s) (emitTree levels n) (fun _ u => u = { s with ser := s.ser ++ t.postorder })
      (fun _ _ => False) := by
  induction t generalizing s n levels with
  | leaf sym =>
    cases levels with
    | zero => exact triple_stop
    | succ levels =>
      refine triple_bind_of_ok (nodeAt_of_some h) (triple_modify ?_)
      rintro _ rfl
      rfl
  | node l r ihl ihr =>
    obtain ⟨a, b, hn, hl, hr⟩ := h
    cases levels with
    | zero => exact triple_stop
    | succ levels =>
      refine triple_bind_of_ok (nodeAt_of_some hn) (triple_bind (ihl hl levels) fun _ =>
        triple_bind (ihr (s := { s with ser := s.ser ++ l.postorder }) hr levels) fun _ => triple_modify ?_)
      rintro _ rfl
      simp [Tree.postorder]

theorem Tree.postorder_fits {t : Tree} (h : t.symbols.length ≤ Config.alphabetSize) :
    DescriptionFits t.postorder 0 := by
  have hlen := t.postorder_length
  have h128 : t.symbols.length ≤ 128 := h
  exact ⟨(by omega : t.postorder.length + 0 ≤ 255), t.postorder_units⟩

theorem treeContract_keeps_htSer : treeContract.Keeps htSer := by
  have hempty : DescriptionFits [] 0 := ⟨Nat.zero_le _, by simp⟩
  refine triple_bind (Q := fun _ s => s.TreeInv ∧ s.ser = []) (triple_modify fun s hs => ⟨hs.setSer hempty, rfl⟩)
    fun _ => triple_get_bind fun s hs => ?_
  obtain ⟨hs, hser⟩ := hs
  refine triple_ite (fun _ => triple_pure fun _ h => h ▸ hs) fun hroot => ?_
  obtain ⟨t, ⟨⟨-, hstored⟩, -⟩, hleaves⟩ := hs.shape.resolve_left hroot
  refine triple_conseq (emitTree_of_stored hstored _) (fun _ h => h) (fun _ u hu => ?_) fun _ _ => False.elim
  rw [hu, hser]
  exact hs.setSer (Tree.postorder_fits hleaves)

/-! ## A growing store -/

/-- `ROOT` = NIL while the store holds the trees under `roots`: what HT.BUILD and HT.DESER keep in between. -/
structure State.Growing (s : State) (roots : List NodeRef) : Prop where
  tree : s.TreeInv
  rootless : s.root = Config.nil
  owned : Owned s.nodes roots

theorem State.Growing.perm {roots' : List NodeRef} (h : s.Growing roots) (hp : roots.Perm roots') :
    s.Growing roots' :=
  ⟨h.tree, h.rootless, h.owned.perm hp⟩

theorem State.Growing.setQueue (h : s.Growing roots) (heap : List HeapEntry) (seq : BitVec 8) :
    State.Growing { s with heap := heap, seq := seq } roots :=
  ⟨h.tree.of_eq rfl rfl rfl rfl rfl, h.rootless, h.owned⟩

theorem State.Growing.setStk (h : s.Growing roots) {stk : List NodeRef} (hstk : stk.length ≤ Config.stackCap) :
    State.Growing { s with stk := stk } roots :=
  ⟨h.tree.setStk hstk, h.rootless, h.owned⟩

theorem State.TreeInv.appendNode (h : s.TreeInv) (hroot : s.root = Config.nil) (hlen : s.nodes.length < 255)
    (node : Node) : State.TreeInv { s with nodes := s.nodes ++ [node] } where
  store := by
    have : (s.nodes ++ [node]).length ≤ 255 := by simp; omega
    exact this
  stack := h.stack
  description := h.description
  units := h.units
  codes := h.codes
  shape := .inl hroot

theorem State.Growing.alloc_leaf (h : s.Growing roots) (hlen : s.nodes.length < 255) (sym : Symbol) :
    State.Growing { s with nodes := s.nodes ++ [.leaf sym] } (s.nnodes :: roots) :=
  ⟨h.tree.appendNode h.rootless hlen _, h.rootless, h.owned.alloc_leaf (by omega) sym⟩

theorem State.Growing.alloc_branch {a b : NodeRef} (h : s.Growing (a :: b :: roots)) (hlen : s.nodes.length < 255) :
    State.Growing { s with nodes := s.nodes ++ [.branch a b] } (s.nnodes :: roots) :=
  ⟨h.tree.appendNode h.rootless hlen _, h.rootless, h.owned.alloc_branch (by omega)⟩

/-- The last tree becomes the block's tree. -/
theorem State.Growing.setRoot {n : NodeRef} (h : s.Growing (n :: roots)) : State.TreeInv { s with root := n } where
  store := h.tree.store
  stack := h.tree.stack
  description := h.tree.description
  units := h.tree.units
  codes := h.tree.codes
  shape := by
    obtain ⟨t, hstored, hnodup⟩ := h.owned.tree
    by_cases hn : n = Config.nil
    · exact .inl hn
    · exact .inr ⟨t, ⟨⟨hn, hstored⟩, hnodup⟩, Tree.symbols_length_le hstored hnodup h.tree.store⟩

/-- An operation that begins anew has an empty store. -/
theorem State.TreeInv.restart (h : s.TreeInv) {stk : List NodeRef} (hstk : stk.length ≤ Config.stackCap) :
    State.Growing { s with nodes := [], root := Config.nil, stk := stk } [] :=
  ⟨⟨Nat.zero_le _, hstk, h.description, h.units, h.codes, .inl rfl⟩, rfl, Owned.nil⟩

theorem triple_alloc {P : State → Prop} {Q : NodeRef → State → Prop} {E : ErrKind → State → Prop}
    {node : Node} (h : ∀ s, P s → Q s.nnodes { s with nodes := s.nodes ++ [node] }) : Triple P (alloc node) Q E := by
  refine triple_get_bind fun s hs => triple_bind (Q := fun _ t => t = { s with nodes := s.nodes ++ [node] })
    (triple_modify fun t ht => ht ▸ rfl) fun _ => triple_pure ?_
  rintro _ rfl
  exact h s hs

/-! ## HT.DESER -/

/-- The scan with `held` taken off the stack and `room` units still to come, each of which adds one node. -/
structure State.Scanning (s : State) (held : List NodeRef) (room : Nat) : Prop where
  growing : s.Growing (held ++ s.stk)
  store : s.nodes.length + room ≤ 255
  stack : held.length + s.stk.length ≤ 128

theorem pushNode_scanning {n : NodeRef} {room : Nat} :
    Triple (fun s => s.Scanning [n] room) (pushNode n) (fun _ s => s.Scanning [] room) (fun _ => State.TreeInv) := by
  refine triple_modify fun s hs => ⟨hs.growing.setStk ?_, hs.store, ?_⟩
  · simpa [Nat.add_comm] using hs.stack
  · simpa [Nat.add_comm] using hs.stack

theorem deserScan_scanning (units : List Byte) :
    Triple (fun s => s.Scanning [] units.length) (deserScan units) (fun _ s => s.Scanning [] 0)
      (fun _ => State.TreeInv) := by
  induction units with
  | nil => exact triple_pure fun _ => id
  | cons v rest ih =>
    refine triple_get_bind fun s hs => ?_
    have hstore : s.nodes.length + (rest.length + 1) ≤ 255 := hs.store
    refine triple_ite (fun _ => ?_) fun _ => ?_
    · refine triple_guard (fun _ t ht => ht ▸ hs.growing.tree) fun hfull => ?_
      refine triple_bind (Q := fun n t => t.Scanning [n] rest.length) (triple_alloc ?_) fun n =>
        triple_bind pushNode_scanning fun _ => ih
      rintro s rfl
      have hstack : s.stk.length ≤ 128 := hs.growing.tree.stack
      have hroom : s.stk.length ≠ 128 := hfull
      exact ⟨hs.growing.alloc_leaf (by omega) _, by simp; omega, by simp; omega⟩
    · have hraise (f : Unit → Op Unit) : Triple (fun t => t = s) (raise .malformedTree >>= f)
          (fun _ s => s.Scanning [] 0) (fun _ => State.TreeInv) :=
        triple_bind (Q := fun _ _ => False) (triple_raise fun t ht => ht ▸ hs.growing.tree) fun _ _ => False.elim
      match hstk : s.stk with
      | [] => exact hraise _
      | [_] => exact hraise _
      | b :: a :: below =>
        have hpop : State.Scanning { s with stk := below } [b, a] (rest.length + 1) := by
          have hstack : (b :: a :: below).length ≤ 128 := hstk ▸ hs.growing.tree.stack
          have hgrow : s.Growing (b :: a :: below) := hstk ▸ hs.growing
          simp only [List.length_cons] at hstack
          exact ⟨hgrow.setStk (show below.length ≤ 128 by omega), hstore, by simp; omega⟩
        refine triple_bind (Q := fun _ t => t.Scanning [b, a] (rest.length + 1))
          (triple_modify fun t ht => ht ▸ hpop) fun _ => ?_
        refine triple_bind (Q := fun n t => t.Scanning [n] rest.length) (triple_alloc fun t ht => ?_) fun n =>
          triple_bind pushNode_scanning fun _ => ih
        have hstore : t.nodes.length + (rest.length + 1) ≤ 255 := ht.store
        have hstack : 2 + t.stk.length ≤ 128 := ht.stack
        exact ⟨(ht.growing.perm (.swap ..)).alloc_branch (by omega), by simp; omega, by simp; omega⟩

theorem treeContract_keeps_htDeser : treeContract.Keeps htDeser := by
  have hstart (s : State) (hs : s.TreeInv) :
      State.Scanning { s with stk := [], nodes := [], root := Config.nil } [] s.ser.length :=
    ⟨hs.restart (Nat.zero_le _), by simpa using hs.description, Nat.zero_le _⟩
  refine triple_bind (Q := fun _ s => s.Scanning [] s.ser.length) (triple_modify hstart) fun _ =>
    triple_get_bind fun s hs => ?_
  refine triple_bind (Q := fun _ s => s.Scanning [] 0)
    (triple_pre (deserScan_scanning s.ser) fun t ht => ht ▸ hs) fun _ => ?_
  refine triple_ite (fun _ => triple_pure fun t ht => ht.growing.tree) fun _ => triple_get_bind fun t ht => ?_
  have htree := ht.growing.tree
  match hstk : t.stk with
  | [n] =>
    refine triple_modify ?_
    rintro t rfl
    have hgrow : t.Growing [n] := hstk ▸ ht.growing
    exact hgrow.setRoot.setStk (Nat.zero_le _)
  | [] => exact triple_raise fun _ h => h ▸ htree
  | _ :: _ :: _ => exact triple_raise fun _ h => h ▸ htree

/-! ## HT.BUILD -/

/-- The construction with the nodes `held` in hand, the others in the queue, and room for `room` more entries or
nodes: a leaf takes two places and a merge gives back as many as it takes, so that 128 leaves end in at most 255
nodes. -/
structure State.Building (s : State) (held : List NodeRef) (room : Nat) : Prop where
  growing : s.Growing (held ++ s.heap.map HeapEntry.pay)
  budget : s.nodes.length + held.length + s.heap.length + room ≤ 256

/-- What HT.BUILD keeps while it holds `held`. -/
def buildContract (held : List NodeRef) (room : Nat) : Contract where
  inv s := s.Building held room
  raised _ := State.TreeInv
  inv_call _ h := ⟨⟨h.growing.tree.of_eq rfl rfl rfl rfl rfl, h.growing.rootless, h.growing.owned⟩, h.budget⟩
  raised_of_inv _ h := h.growing.tree

theorem alloc_leaf_building (sym : Symbol) {room : Nat} :
    Triple (fun s => s.Building [] (room + 2)) (alloc (.leaf sym)) (fun n s => s.Building [n] room)
      (fun _ => State.TreeInv) := by
  refine triple_alloc fun s hs => ?_
  have hbudget : s.nodes.length + 0 + s.heap.length + (room + 2) ≤ 256 := hs.budget
  exact ⟨hs.growing.alloc_leaf (by omega) sym, by simp; omega⟩

theorem alloc_branch_building {n1 n2 : NodeRef} {room : Nat} :
    Triple (fun s => s.Building [n2, n1] room) (alloc (.branch n1 n2)) (fun n s => s.Building [n] room)
      (fun _ => State.TreeInv) := by
  refine triple_alloc fun s hs => ?_
  have hbudget : s.nodes.length + 2 + s.heap.length + room ≤ 256 := hs.budget
  exact ⟨(hs.growing.perm (.swap ..)).alloc_branch (by omega), by simp; omega⟩

theorem pqInsert_building (key : Word) {n : NodeRef} {room : Nat} :
    Triple (fun s => s.Building [n] room) (pqInsert key n) (fun _ s => s.Building [] room)
      (fun _ => State.TreeInv) := by
  refine triple_get fun s => triple_guard (fun _ t ht => ht.growing.tree) fun _ => triple_modify fun t ht => ?_
  have hperm := heapInsert_perm t.heap { key := key, seq := t.seq, pay := n }
  have hbudget : t.nodes.length + 1 + t.heap.length + room ≤ 256 := ht.budget
  refine ⟨(ht.growing.perm (hperm.map HeapEntry.pay).symm).setQueue _ _, ?_⟩
  simp only [heapInsert_length, List.length_nil]
  omega

theorem pqDelmin_building {held : List NodeRef} {room : Nat} :
    Triple (fun s => s.Building held room) pqDelmin (fun n s => s.Building (n :: held) room)
      (fun _ => State.TreeInv) := by
  refine triple_get_bind fun s hs => ?_
  match hheap : s.heap with
  | [] => exact triple_raise fun _ h => h ▸ hs.growing.tree
  | top :: rest =>
    have hpop : State.Building { s with heap := heapRemoveTop top rest } (top.pay :: held) room := by
      have hgrow : s.Growing (held ++ top.pay :: rest.map HeapEntry.pay) := by simpa [hheap] using hs.growing
      have hperm := ((heapRemoveTop_perm top rest).map HeapEntry.pay).symm
      have hbudget := hs.budget
      rw [hheap, List.length_cons] at hbudget
      refine ⟨(hgrow.perm (List.perm_middle.trans ((hperm.append_left held).cons top.pay))).setQueue _ s.seq, ?_⟩
      simp only [heapRemoveTop_length, List.length_cons]
      omega
    refine triple_bind (Q := fun _ t => t.Building (top.pay :: held) room) (triple_modify fun t ht => ht ▸ hpop)
      fun _ => triple_pure fun _ h => h

theorem seedLeaves_building (syms : List Symbol) :
    Triple (fun s => s.Building [] (2 * syms.length)) (seedLeaves syms) (fun _ s => s.Building [] 0)
      (fun _ => State.TreeInv) := by
  induction syms with
  | nil => exact triple_pure fun _ => id
  | cons sym rest ih =>
    refine triple_get fun s => triple_ite (fun _ => ?_) fun _ => ?_
    · exact triple_bind (alloc_leaf_building sym) fun n => triple_bind (pqInsert_building _) fun _ => ih
    · refine triple_pre ih fun t ht => ⟨ht.growing, ?_⟩
      have hbudget := ht.budget
      rw [List.length_cons] at hbudget
      omega

theorem mergeNodes_building (fuel : Nat) :
    Triple (fun s => s.Building [] 0) (mergeNodes fuel) (fun _ s => s.Building [] 0) (fun _ => State.TreeInv) := by
  induction fuel with
  | zero => exact triple_stop
  | succ fuel ih =>
    refine triple_bind (Contract.keeps_pqSize (C := buildContract [] 0)) fun size =>
      triple_ite (fun _ => ?_) fun _ => triple_pure fun _ h => h
    exact triple_bind (Contract.keeps_pqPeek (C := buildContract [] 0)) fun f1 =>
      triple_bind pqDelmin_building fun n1 =>
      triple_bind (Contract.keeps_pqPeek (C := buildContract [n1] 0)) fun f2 =>
      triple_bind pqDelmin_building fun n2 =>
      triple_bind alloc_branch_building fun n => triple_bind (pqInsert_building _) fun _ => ih

theorem treeContract_keeps_htBuild : treeContract.Keeps htBuild := by
  have hstart (s : State) (hs : s.TreeInv) :
      State.Building { s with heap := [], seq := 0, nodes := [], root := Config.nil } [] (2 * allSymbols.length) :=
    ⟨(hs.restart hs.stack).setQueue [] 0, by simp [allSymbols, Config.alphabetSize]⟩
  refine triple_bind (Q := fun _ s => s.Building [] (2 * allSymbols.length)) (triple_modify hstart) fun _ =>
    triple_bind (seedLeaves_building allSymbols) fun _ =>
    triple_bind (Contract.keeps_pqIsempty (C := buildContract [] 0)) fun empty =>
    triple_ite (fun _ => triple_pure fun t ht => ht.growing.tree) fun _ => ?_
  exact triple_bind (mergeNodes_building _) fun _ => triple_bind pqDelmin_building fun n =>
    triple_modify fun t ht => ht.growing.setRoot

/-! ## The step -/

theorem treeContract_keptByUnits : treeContract.KeptByUnits where
  counts _ _ _ _ h := h.of_eq rfl rfl rfl rfl rfl
  writeBits := Contract.keeps_writeBits fun _ _ _ h => h.of_eq rfl rfl rfl rfl rfl
  snkClose := Contract.keeps_snkClose (fun _ h => h.of_eq rfl rfl rfl rfl rfl) fun _ h => h.of_eq rfl rfl rfl rfl rfl
  srcRbit := Contract.keeps_srcRbit fun _ _ _ h => h.of_eq rfl rfl rfl rfl rfl
  srcRstr := Contract.keeps_srcRstr fun _ _ hser h => h.setSer hser
  srcClose := Contract.keeps_srcClose fun _ h => h.of_eq rfl rfl rfl rfl rfl
  pqInsert := Contract.keeps_pqInsert fun _ _ h => h.of_eq rfl rfl rfl rfl rfl
  pqDelmin := Contract.keeps_pqDelmin fun _ _ h => h.of_eq rfl rfl rfl rfl rfl
  htBuild := treeContract_keeps_htBuild
  htGencodes := Contract.keeps_htGencodes (fun _ sym _ hp h => h.setCode sym hp) fun _ h => h.clearCodes
  htSer := treeContract_keeps_htSer
  htDeser := treeContract_keeps_htDeser

/-- Settles O56: the units keep the tree's contract, and failure entry writes nothing of the tree. -/
theorem stepKeepsTreeInv : Obligations.StepKeepsTreeInv := by
  intro s u hs h
  obtain hinv | ⟨k, t, ht, hk⟩ := treeContract_keptBySequencer.step hs treeContract_keptByUnits h
  · exact hinv
  · exact hk.treeInv ht

end Sys2Proof.Machine
end

section
/-! PROOFS. The mixed-width view of the sink (spec/20_memory.md R64): whole bytes written bit by bit into an empty
buffer make the port calls of a byte-level write. -/

namespace Sys2Proof.Machine

variable {s : State}

/-! ## A bit sequence as bytes -/

/-- Shifting in the bits of a byte, first bit first, rebuilds it (spec/20_memory.md R63). -/
theorem foldl_shiftInBit_bitsOfByte (b : Byte) : (bitsOfByte b).foldl shiftInBit 0 = b := by
  revert b
  decide

theorem bitsOfByte_byteOf (v : Word) {k : Nat} (hk : k ≤ 3) :
    bitsOfByte (byteOf v k) = (List.range 8).map fun i => v.getMsbD (8 * (3 - k) + i) := by
  refine List.map_congr_left fun i hmem => ?_
  have hi : i < 8 := List.mem_range.mp hmem
  have hlsb : 8 * k + (7 - i) = 31 - (8 * (3 - k) + i) := by omega
  have hlt : 8 * (3 - k) + i < 32 := by omega
  have hbit : 7 - i < 8 := by omega
  simp [byteOf, BitVec.getMsbD, hi, hlsb, hlt, hbit]

/-- `v[31], v[30], .., v[0]` are the bits of the word's bytes, most significant byte first. -/
theorem msbFirst_eq_flatMap_bitsOfByte (v : Word) :
    ((List.range 32).map fun i => v.getMsbD i) = (bigEndianBytes v).flatMap bitsOfByte := by
  simp [bigEndianBytes, bitsOfByte_byteOf, List.range_succ]

/-! ## The loop of SNK.WBITS -/

/-- A bit that leaves the buffer short of a byte is only buffered. -/
theorem writeBits_cons_of_room (h : s.wcnt.toNat < 7) (b : Bool) (rest : Bits) :
    writeBits (b :: rest) s = writeBits rest { s with wbuf := shiftInBit s.wbuf b, wcnt := s.wcnt + 1 } := by
  have hne : s.wcnt + 1 ≠ 8 := by bv_omega
  simp only [writeBits, run_bind, run_modify, run_get, run_ite, if_neg hne]

theorem orIOError_snkPut_of_obliging (h : s.env.obliging) (b : Byte) :
    orIOError (snkPut b) s = .ok () (s.withEnv (s.env.after [.snkPut b true])) := by
  simp [orIOError, lift, snkPut_of_obliging h]

/-- The bit that completes a byte puts it and empties the buffer, when the put succeeds. -/
theorem writeBits_cons_of_last (h : s.wcnt = 7) (hobl : s.env.obliging) (b : Bool) (rest : Bits) :
    writeBits (b :: rest) s = writeBits rest { s with
      wbuf := 0, wcnt := 0, env := s.env.after [.snkPut (shiftInBit s.wbuf b) true] } := by
  have hput := orIOError_snkPut_of_obliging (s := { s with wbuf := shiftInBit s.wbuf b, wcnt := 7 + 1 }) hobl
    (shiftInBit s.wbuf b)
  simp only [writeBits, h, run_bind, run_modify, run_get, run_ite, hput, if_pos (show (7 + 1 : BitVec 4) = 8 from rfl),
    State.withEnv]

/-- Bits that leave the buffer short of a byte are only buffered. -/
theorem writeBits_append_of_room (bits rest : Bits) (h : s.wcnt.toNat + bits.length < 8) :
    writeBits (bits ++ rest) s = writeBits rest { s with
      wbuf := bits.foldl shiftInBit s.wbuf, wcnt := s.wcnt + BitVec.ofNat 4 bits.length } := by
  induction bits generalizing s with
  | nil => simp
  | cons b bits ih =>
    rw [List.length_cons] at h
    have hcnt : (s.wcnt + 1).toNat = s.wcnt.toNat + 1 := by bv_omega
    rw [List.cons_append, writeBits_cons_of_room (by omega), ih (by simp only [hcnt]; omega)]
    have hsum : s.wcnt + BitVec.ofNat 4 (bits.length + 1) = s.wcnt + 1 + BitVec.ofNat 4 bits.length := by bv_omega
    rw [List.length_cons, hsum, List.foldl_cons]

/-- The bits of a byte, written from an empty buffer, make one put of it and leave the buffer empty. -/
theorem writeBits_bitsOfByte_append (hcnt : s.wcnt = 0) (hbuf : s.wbuf = 0) (hobl : s.env.obliging) (b : Byte)
    (rest : Bits) :
    writeBits (bitsOfByte b ++ rest) s = writeBits rest (s.withEnv (s.env.after [.snkPut b true])) := by
  obtain ⟨bits, last, hlen, hbits⟩ : ∃ bits last, bits.length = 7 ∧ bitsOfByte b = bits ++ [last] :=
    ⟨(List.range 7).map fun i => b.getMsbD i, b.getMsbD 7, rfl, rfl⟩
  have hbyte : shiftInBit (bits.foldl shiftInBit 0) last = b := by
    simpa [hbits] using foldl_shiftInBit_bitsOfByte b
  calc writeBits (bitsOfByte b ++ rest) s
    _ = writeBits (last :: rest) { s with wbuf := bits.foldl shiftInBit 0, wcnt := 7 } := by
      rw [hbits, List.append_assoc, List.singleton_append, writeBits_append_of_room _ _ (by simp [hcnt, hlen]), hbuf,
        hcnt, hlen]
      rfl
    _ = writeBits rest { s with wbuf := 0, wcnt := 0, env := s.env.after [.snkPut b true] } :=
      hbyte ▸ writeBits_cons_of_last (s := { s with wbuf := bits.foldl shiftInBit 0, wcnt := 7 }) rfl hobl last rest
    _ = writeBits rest (s.withEnv (s.env.after [.snkPut b true])) := by rw [State.withEnv, ← hcnt, ← hbuf]

/-- Whole bytes written bit by bit from an empty buffer are put as SNK.WINT and SNK.WSTR put theirs. -/
theorem writeBits_flatMap_bitsOfByte (bytes : List Byte) (hcnt : s.wcnt = 0) (hbuf : s.wbuf = 0)
    (hobl : s.env.obliging) : writeBits (bytes.flatMap bitsOfByte) s = putBytes bytes s := by
  rw [putBytes_of_obliging _ hobl]
  induction bytes generalizing s with
  | nil => rfl
  | cons b bytes ih =>
    rw [List.flatMap_cons, writeBits_bitsOfByte_append hcnt hbuf hobl,
      ih (s := s.withEnv (s.env.after [.snkPut b true])) hcnt hbuf (hobl.after _)]
    simp [State.withEnv, puts, ← Env.after_append]

/-! ## The two operations -/

theorem snkWbits_of_open (h : s.sclosed = false) (bits : Bits) : snkWbits bits s = writeBits bits s := by
  simp [snkWbits, h]

theorem snkWint_of_open (h : s.sclosed = false) (hcnt : s.wcnt = 0) (v : Word) :
    snkWint v s = putBytes (bigEndianBytes v) s := by
  simp [snkWint, snkByteLevel, h, hcnt]

theorem snkWint_of_obliging (h : s.sclosed = false) (hcnt : s.wcnt = 0) (hobl : s.env.obliging) (v : Word) :
    snkWint v s = .ok () (s.withEnv (s.env.after (puts (bigEndianBytes v)))) :=
  (snkWint_of_open h hcnt v).trans (putBytes_of_obliging _ hobl)

/-- Settles O23: the word's bits are its bytes' bits, and the loop of SNK.WBITS puts those bytes. -/
theorem wbitsOfWordIsWint : Obligations.WbitsOfWordIsWint := by
  intro s v h hcnt hbuf hobl
  have hsame : snkWbits ((List.range 32).map fun i => v.getMsbD i) s = snkWint v s :=
    calc snkWbits ((List.range 32).map fun i => v.getMsbD i) s
      _ = writeBits ((bigEndianBytes v).flatMap bitsOfByte) s := by
        rw [snkWbits_of_open h, msbFirst_eq_flatMap_bitsOfByte]
      _ = putBytes (bigEndianBytes v) s := writeBits_flatMap_bitsOfByte _ hcnt hbuf hobl
      _ = snkWint v s := (snkWint_of_open h hcnt v).symm
  have hwint := snkWint_of_obliging h hcnt hobl v
  have hexec := complete_of_ok (noResult_ok hwint)
  refine ⟨(complete_of_ok (noResult_ok (hsame.trans hwint))).trans hexec.symm, _, hexec, ?_⟩
  simp [sinkBytes_append, bigEndianBytes, byteOf]

end Sys2Proof.Machine
end

section
/-! PROOFS. The operation code map (spec/30_encoding.md R100 to R103): decoding what the encoder gives, decoding by the
code, and what a step answers to an unassigned code. -/

namespace Sys2Proof

/-! ## Decoding an encoded operation -/

/-- The port carries a sequence of up to 127 bits without loss (spec/30_encoding.md R103). -/
theorem portSequence_sequenceNat {bits : Bits} (h : bits.length ≤ 127) :
    portSequence (BitVec.ofNat 7 bits.length) (BitVec.ofNat 127 (sequenceNat bits)) = bits := by
  have hlen : (BitVec.ofNat 7 bits.length).toNat = bits.length := by
    rw [BitVec.toNat_ofNat, Nat.mod_eq_of_lt (by omega)]
  refine List.ext_getElem (by simp [portSequence, hlen]) fun i _ hi => ?_
  have hline : i < 127 := by omega
  simp [portSequence, BitVec.getLsbD_ofNat, sequenceNat_testBit, hline, hi]

/-- SNK.WBITS comes back with whatever sequence its ports carry. -/
theorem decode_encode_snkWbits (bits : Bits) :
    decode (encode (.snkWbits bits)) =
      .ok (.snkWbits (portSequence (BitVec.ofNat 7 bits.length) (BitVec.ofNat 127 (sequenceNat bits)))) := by
  unfold decode
  simp only [encode, codeOnly]
  rfl

/-- Settles O1: a code decodes to its operation, operands of a port's own width stand on the port as they are, and the
sequence of SNK.WBITS is read back bit by bit. -/
theorem decodeEncodeRoundTrip : Obligations.DecodeEncodeRoundTrip := by
  intro i hwf
  cases i with
  | snkWbits bits => rw [decode_encode_snkWbits, portSequence_sequenceNat (of_decide_eq_true hwf)]
  | _ =>
    unfold decode
    simp only [encode, codeOnly]
    rfl

/-! ## The code map -/

/-- Settles O2: with its code put in, the decoder computes to the operation of the row. -/
theorem operationCodeMap : Obligations.OperationCodeMap := by
  intro t
  refine ⟨?_, ?_, ?_, ?_, ?_, ?_, ?_, ?_, ?_, ?_, ?_, ?_, ?_, ?_, ?_, ?_, ?_, ?_, ?_, ?_, ?_, ?_, ?_, ?_, ?_⟩ <;>
    (intro hop; unfold decode; rw [hop]; rfl)

/-- The 25 codes of spec/30_encoding.md R101. -/
def assignedCodes : List Nat :=
  [0x01, 0x02, 0x03, 0x04, 0x05, 0x06, 0x07, 0x10, 0x11, 0x12, 0x13, 0x20, 0x21, 0x22, 0x23,
    0x30, 0x31, 0x32, 0x33, 0x34, 0x35, 0x40, 0x41, 0x42, 0x43]

/-- Of the 256 codes the decoder refuses those that the map does not have (spec/30_encoding.md R102). -/
theorem decode_codeOnly_eq_error_iff :
    ∀ op : BitVec 8, decode (codeOnly op) = .error (.unassignedCode op) ↔ op.toNat ∉ assignedCodes := by
  decide

/-- Whether a transfer is refused does not depend on its operand ports. -/
theorem decode_eq_error_iff_codeOnly (t : Transfer) (e : DecodeError) :
    decode t = .error e ↔ decode (codeOnly t.op) = .error e := by
  unfold decode
  rw [codeOnly]
  generalize (unitField t.op).toNat = u, (funcField t.op).toNat = f
  split <;> simp only [reduceCtorEq]

end Sys2Proof

namespace Sys2Proof.Machine

/-- No operation is refused once its transfer is decoded. -/
theorem exec_ne_refused (i : Instr) (s : State) (r : Refusal) : exec i s ≠ .refused r := by
  rw [exec_eq]
  split
  · exact nofun
  · exact complete_not_refused _ _ _

/-- A transfer is refused on a unit bus exactly when the decoder refuses it. -/
theorem issue_refused_iff (t : Transfer) (s : State) (op : BitVec 8) :
    issue t s = .refused (.unassignedCode op) ↔ decode t = .error (.unassignedCode op) := by
  unfold issue
  cases decode t with
  | ok i => exact iff_of_false (exec_ne_refused i s _) nofun
  | error e =>
    cases e
    simp

/-- Settles O3: the step issues the transfer, and what the decoder refuses depends on the code alone. -/
theorem unassignedCodesRefused : Obligations.UnassignedCodesRefused := by
  intro s t rest hstim
  calc step s = .refused (.unassignedCode t.op)
    _ ↔ decode t = .error (.unassignedCode t.op) := by rw [step_of_issue hstim, issue_refused_iff]
    _ ↔ decode (codeOnly t.op) = .error (.unassignedCode t.op) := decode_eq_error_iff_codeOnly t _
    _ ↔ t.op.toNat ∉ assignedCodes := decode_codeOnly_eq_error_iff t.op

end Sys2Proof.Machine
end

section
/-! PROOFS. Running pseudocode whose lines have known ends. -/

namespace Sys2Proof.Machine

variable {s : State}

/-- A line whose end is known, before the rest of the pseudocode. -/
theorem bind_of_ok {ε α β : Type} {x : EStateM ε State α} {f : α → EStateM ε State β} {s t : State} {a : α}
    (h : x s = .ok a t) : (x >>= f) s = f a t := by
  rw [run_bind, h]

theorem lift_of_ok {α : Type} {p : Port α} {t : State} {a : α} (h : p s = .ok a t) : lift p s = .ok a t := by
  simp [lift, h]

theorem orIOError_of_ok {p : Port Bool} {t : State} (h : p s = .ok true t) : orIOError p s = .ok () t := by
  rw [orIOError, bind_of_ok (lift_of_ok h)]
  rfl

theorem srcRewind_of_obliging (h : s.env.obliging) :
    srcRewind s = .ok true (s.withEnv (s.env.after [.srcRewind true])) := by
  simp [srcRewind, answered_of_obliging h, State.withEnv, State.record, Env.used, Env.after, Env.afterCall,
    Env.srcAfter]

theorem run_if_pos {ε α : Type} {c : Prop} [Decidable c] {x y : EStateM ε State α} (h : c) :
    (if c then x else y) s = x s := by
  rw [if_pos h]

theorem run_if_neg {ε α : Type} {c : Prop} [Decidable c] {x y : EStateM ε State α} (h : ¬c) :
    (if c then x else y) s = y s := by
  rw [if_neg h]

end Sys2Proof.Machine
end

section
/-! PROOFS. HT.BUILD (spec/43_huffman_tree.md R181) runs to its end from every state and leaves a tree of the occurring
Symbols. -/

namespace Sys2Proof.Machine

variable {s : State} {nodes : List Node} {heap : List HeapEntry} {syms : List Symbol}

/-! ## The operations on a queue of known entries -/

theorem pqPeek_of_cons {top : HeapEntry} {rest : List HeapEntry} (h : s.heap = top :: rest) :
    pqPeek s = .ok top.key s := by
  simp [pqPeek, h]

theorem pqDelmin_of_cons {top : HeapEntry} {rest : List HeapEntry} (h : s.heap = top :: rest) :
    pqDelmin s = .ok top.pay { s with heap := heapRemoveTop top rest } := by
  simp [pqDelmin, h]

theorem pqInsert_of_room (hroom : s.heap.length < 128) (hseq : s.seq.toNat < 255) (key : Word) (n : NodeRef) :
    pqInsert key n s =
      .ok () { s with heap := heapInsert s.heap { key := key, seq := s.seq, pay := n }, seq := s.seq + 1 } := by
  have hfull : ¬(s.pqFull = true ∨ s.seq = Config.seqMax) := by
    rintro (h | h)
    · have : s.heap.length = 128 := of_decide_eq_true h
      omega
    · rw [h] at hseq
      exact absurd hseq (by decide)
  simp [pqInsert, hfull]

/-- What the loops of HT.BUILD write: the node store, the heap and `SEQ`. -/
def State.withQueue (s : State) (nodes : List Node) (heap : List HeapEntry) (seq : BitVec 8) : State :=
  { s with nodes := nodes, heap := heap, seq := seq }

/-- `s` with a node allocated and put in the queue. -/
def State.queueNode (s : State) (node : Node) (key : Word) : State :=
  s.withQueue (s.nodes ++ [node]) (heapInsert s.heap { key := key, seq := s.seq, pay := s.nnodes }) (s.seq + 1)

/-- `alloc` and PQ.INSERT one after the other, as both loops of HT.BUILD use them. -/
theorem alloc_then_pqInsert (hroom : s.heap.length < 128) (hseq : s.seq.toNat < 255) (node : Node) (key : Word)
    {β : Type} (f : Unit → Op β) :
    (alloc node >>= fun n => pqInsert key n >>= f) s = f () (s.queueNode node key) :=
  (bind_of_ok (show alloc node s = .ok s.nnodes { s with nodes := s.nodes ++ [node] } from rfl)).trans <|
    bind_of_ok (pqInsert_of_room (s := { s with nodes := s.nodes ++ [node] }) hroom hseq key s.nnodes)

theorem State.hsize_toNat (h : s.heap.length ≤ 128) : s.hsize.toNat = s.heap.length := by
  rw [State.hsize, BitVec.toNat_ofNat, Nat.mod_eq_of_lt (by omega)]

/-- A round of the merging loop takes two entries and queues their branch. -/
theorem mergeNodes_of_two {a b : HeapEntry} {rest rest' : List HeapEntry} (ha : s.heap = a :: rest)
    (hb : heapRemoveTop a rest = b :: rest') (hlen : s.heap.length ≤ 128) (hseq : s.seq.toNat < 255) (fuel : Nat) :
    mergeNodes (fuel + 1) s = mergeNodes fuel
      (State.queueNode { s with heap := heapRemoveTop b rest' } (.branch a.pay b.pay) (a.key + b.key)) := by
  have hrest : s.heap.length = rest'.length + 2 := by
    rw [ha, List.length_cons, ← heapRemoveTop_length a rest, hb, List.length_cons]
  have hsize : 1#8 < s.hsize := by
    rw [BitVec.lt_def, State.hsize_toNat hlen, hrest]
    exact Nat.lt_add_left _ (by decide)
  have hroom : (heapRemoveTop b rest').length < 128 := by rw [heapRemoveTop_length]; omega
  rw [mergeNodes, bind_of_ok (x := pqSize) rfl, run_ite, if_pos hsize]
  exact (bind_of_ok (pqPeek_of_cons ha)).trans <| (bind_of_ok (pqDelmin_of_cons ha)).trans <|
    (bind_of_ok (pqPeek_of_cons hb)).trans <| (bind_of_ok (pqDelmin_of_cons hb)).trans <|
    alloc_then_pqInsert (s := { s with heap := heapRemoveTop b rest' }) hroom hseq _ _ _

/-- The merging loop ends with one entry. -/
theorem mergeNodes_of_one (h : s.heap.length = 1) (fuel : Nat) : mergeNodes (fuel + 1) s = .ok () s := by
  have hsize : ¬1#8 < s.hsize := by
    rw [BitVec.lt_def, State.hsize_toNat (by omega), h]
    decide
  rw [mergeNodes, bind_of_ok (x := pqSize) rfl, run_ite, if_neg hsize]
  rfl

/-- A Symbol that occurs gets a leaf in the queue. -/
theorem seedLeaves_cons_of_occurring {sym : Symbol} (hocc : s.freqAt sym ≠ 0) (hroom : s.heap.length < 128)
    (hseq : s.seq.toNat < 255) (rest : List Symbol) :
    seedLeaves (sym :: rest) s = seedLeaves rest (s.queueNode (.leaf sym) (s.freqAt sym)) := by
  rw [seedLeaves, bind_of_ok (run_get s), run_ite, if_pos hocc]
  exact alloc_then_pqInsert hroom hseq _ _ _

theorem seedLeaves_cons_of_not_occurring {sym : Symbol} (hocc : ¬s.freqAt sym ≠ 0) (rest : List Symbol) :
    seedLeaves (sym :: rest) s = seedLeaves rest s := by
  rw [seedLeaves, bind_of_ok (run_get s), run_ite, if_neg hocc]

/-! ## Stored trees in the queue -/

/-- The entries are of stored trees, whose leaves are together `syms`. -/
def QueuedTrees (nodes : List Node) (heap : List HeapEntry) (syms : List Symbol) : Prop :=
  ∃ trees : List Tree, List.Forall₂ (fun e t => t.storedAt nodes e.pay) heap trees ∧
    (trees.flatMap Tree.symbols).Perm syms

theorem QueuedTrees.nil : QueuedTrees nodes [] [] := ⟨[], .nil, .refl _⟩

theorem QueuedTrees.perm {heap' : List HeapEntry} (h : QueuedTrees nodes heap syms) (hp : heap'.Perm heap) :
    QueuedTrees nodes heap' syms := by
  obtain ⟨trees, hstored, hleaves⟩ := h
  obtain ⟨trees', hstored', hp'⟩ := List.perm_comp_forall₂ hp hstored
  exact ⟨trees', hstored', (hp'.flatMap_right _).trans hleaves⟩

/-- `alloc` of a leaf, and its entry (spec/43_huffman_tree.md R180, R181). -/
theorem QueuedTrees.alloc_leaf (h : QueuedTrees nodes heap syms) (hlen : nodes.length < 256) (sym : Symbol)
    (key : Word) (seq : BitVec 8) :
    QueuedTrees (nodes ++ [.leaf sym]) ({ key := key, seq := seq, pay := BitVec.ofNat 8 nodes.length } :: heap)
      (sym :: syms) := by
  obtain ⟨trees, hstored, hleaves⟩ := h
  exact ⟨.leaf sym :: trees,
    .cons (getElem?_append_alloc hlen _) (hstored.imp fun _ _ ht => ht.append _), hleaves.cons sym⟩

/-- `alloc` of a branch over two entries, and its entry. -/
theorem QueuedTrees.alloc_branch {a b : HeapEntry} (h : QueuedTrees nodes (a :: b :: heap) syms)
    (hlen : nodes.length < 256) (key : Word) (seq : BitVec 8) :
    QueuedTrees (nodes ++ [.branch a.pay b.pay])
      ({ key := key, seq := seq, pay := BitVec.ofNat 8 nodes.length } :: heap) syms := by
  obtain ⟨trees, hstored, hleaves⟩ := h
  match hstored with
  | .cons (b := l) hl (.cons (b := r) (l₂ := trees) hr hrest) =>
    refine ⟨.node l r :: trees, .cons ?_ (hrest.imp fun _ _ ht => ht.append _), ?_⟩
    · exact ⟨a.pay, b.pay, getElem?_append_alloc hlen _, hl.append _, hr.append _⟩
    · simpa [Tree.symbols] using hleaves

/-- Every queued tree has a leaf. -/
theorem QueuedTrees.length_le (h : QueuedTrees nodes heap syms) : heap.length ≤ syms.length := by
  obtain ⟨trees, hstored, hleaves⟩ := h
  rw [hstored.length_eq, ← hleaves.length_eq, List.length_flatMap, ← List.length_map (f := fun t => t.symbols.length)]
  refine List.length_le_sum_of_one_le _ fun n hn => ?_
  obtain ⟨t, -, rfl⟩ := List.mem_map.mp hn
  have := t.postorder_length
  omega

theorem QueuedTrees.eq_nil (h : QueuedTrees nodes [] syms) : syms = [] := by
  obtain ⟨trees, hstored, hleaves⟩ := h
  cases hstored
  exact hleaves.nil_eq.symm

/-! ## The two loops -/

/-- HT.BUILD between two rounds: the leaves of `syms` are allocated, every node was queued once, and a merge takes
away one entry for one node. -/
structure State.Merging (s : State) (syms : List Symbol) : Prop where
  queued : QueuedTrees s.nodes s.heap syms
  budget : s.nodes.length + s.heap.length = 2 * syms.length
  stamped : s.seq.toNat = s.nodes.length

/-- A node whose entry stands for the missing one keeps the account. -/
theorem State.Merging.queueNode {node : Node} {key : Word}
    (hq : QueuedTrees (s.nodes ++ [node]) ({ key := key, seq := s.seq, pay := s.nnodes } :: s.heap) syms)
    (hbudget : s.nodes.length + s.heap.length + 2 = 2 * syms.length) (hseq : s.seq.toNat = s.nodes.length)
    (hlen : s.nodes.length < 255) : (s.queueNode node key).Merging syms where
  queued := hq.perm (heapInsert_perm _ _)
  budget := by
    simp only [State.queueNode, State.withQueue, List.length_append, List.length_singleton, heapInsert_length]
    omega
  stamped := by
    have h1 : (1 : BitVec 8).toNat = 1 := rfl
    simp only [State.queueNode, State.withQueue, List.length_append, List.length_singleton, BitVec.toNat_add]
    omega

theorem State.Merging.leaf (h : s.Merging syms) (hlen : syms.length < 128) (sym : Symbol) (key : Word) :
    (s.queueNode (.leaf sym) key).Merging (sym :: syms) := by
  have hbudget := h.budget
  exact .queueNode (h.queued.alloc_leaf (by omega) sym key s.seq) (by rw [List.length_cons]; omega) h.stamped
    (by omega)

theorem State.Merging.merge {a b : HeapEntry} {rest rest' : List HeapEntry} (h : s.Merging syms)
    (ha : s.heap = a :: rest) (hb : heapRemoveTop a rest = b :: rest') (hlen : syms.length ≤ 128) (key : Word) :
    (State.queueNode { s with heap := heapRemoveTop b rest' } (.branch a.pay b.pay) key).Merging syms := by
  have hperm : (a :: b :: heapRemoveTop b rest').Perm s.heap :=
    calc (a :: b :: heapRemoveTop b rest').Perm (a :: b :: rest') := ((heapRemoveTop_perm b rest').cons b).cons a
      _ = a :: heapRemoveTop a rest := by rw [hb]
      (a :: heapRemoveTop a rest).Perm s.heap := ha ▸ (heapRemoveTop_perm a rest).cons a
  have hbudget := h.budget
  rw [← hperm.length_eq] at hbudget
  simp only [List.length_cons] at hbudget
  exact .queueNode (s := { s with heap := heapRemoveTop b rest' })
    ((h.queued.perm hperm).alloc_branch (by omega) key s.seq) (by omega) h.stamped
    (show s.nodes.length < 255 by omega)

/-- The seeding loop queues a leaf for each Symbol that occurs. -/
theorem seedLeaves_of_merging (todo : List Symbol) (h : s.Merging syms) (hlen : syms.length + todo.length ≤ 128) :
    ∃ nodes heap seq syms', seedLeaves todo s = .ok () (s.withQueue nodes heap seq) ∧
      (s.withQueue nodes heap seq).Merging syms' ∧
      syms'.Perm ((todo.filter fun sym => s.freqAt sym ≠ 0) ++ syms) := by
  induction todo generalizing s syms with
  | nil => exact ⟨s.nodes, s.heap, s.seq, syms, rfl, h, .refl _⟩
  | cons sym rest ih =>
    rw [List.length_cons] at hlen
    by_cases hocc : s.freqAt sym ≠ 0
    · have hbudget := h.budget
      have hstamped := h.stamped
      have hheap := h.queued.length_le
      obtain ⟨nodes, heap, seq, syms', hrun, hend, hp⟩ := ih (h.leaf (by omega) sym (s.freqAt sym))
        (by rw [List.length_cons]; omega)
      refine ⟨nodes, heap, seq, syms', ?_, hend, ?_⟩
      · rw [seedLeaves_cons_of_occurring hocc (by omega) (by omega)]
        exact hrun
      · rw [List.filter_cons_of_pos (by simpa using hocc)]
        exact hp.trans List.perm_middle
    · rw [seedLeaves_cons_of_not_occurring hocc, List.filter_cons_of_neg (by simpa using hocc)]
      exact ih h (by omega)

/-- The merging loop joins the queued trees to one, with enough rounds allowed. -/
theorem mergeNodes_of_merging (fuel : Nat) (h : s.Merging syms) (hlen : syms.length ≤ 128) (hne : s.heap ≠ [])
    (hfuel : s.heap.length ≤ fuel) :
    ∃ nodes entry seq, mergeNodes fuel s = .ok () (s.withQueue nodes [entry] seq) ∧
      (s.withQueue nodes [entry] seq).Merging syms := by
  induction fuel generalizing s with
  | zero => exact absurd (List.length_eq_zero_iff.mp (Nat.le_zero.mp hfuel)) hne
  | succ fuel ih =>
    obtain ⟨a, rest, ha⟩ := List.exists_cons_of_ne_nil hne
    cases hb : heapRemoveTop a rest with
    | nil =>
      have hrest : rest = [] := List.length_eq_zero_iff.mp (by rw [← heapRemoveTop_length a rest, hb]; rfl)
      have hone : s.heap = [a] := by rw [ha, hrest]
      refine ⟨s.nodes, a, s.seq, ?_, ?_⟩
      · rw [mergeNodes_of_one (by rw [hone]; rfl) fuel, State.withQueue, ← hone]
      · rw [State.withQueue, ← hone]
        exact h
    | cons b rest' =>
      have hbudget := h.budget
      have hstamped := h.stamped
      have hheap := h.queued.length_le
      have hrest : s.heap.length = rest'.length + 2 := by
        rw [ha, List.length_cons, ← heapRemoveTop_length a rest, hb, List.length_cons]
      have hnext : (heapInsert (heapRemoveTop b rest')
          { key := a.key + b.key, seq := s.seq, pay := s.nnodes }).length = rest'.length + 1 := by
        rw [heapInsert_length, heapRemoveTop_length]
      rw [mergeNodes_of_two ha hb (by omega) (by omega)]
      exact ih (h.merge ha hb hlen _) (List.ne_nil_of_length_eq_add_one hnext)
        (hnext.trans_le (by omega))

/-! ## HT.BUILD -/

theorem allSymbols_length : allSymbols.length = 128 := by simp [allSymbols]

theorem occurring_length_le (s : State) : s.occurring.length ≤ 128 :=
  (List.length_filter_le _ _).trans_eq allSymbols_length

theorem Tree.storedAt.lt {t : Tree} {n : NodeRef} (h : t.storedAt nodes n) : n.toNat < nodes.length := by
  cases t with
  | leaf sym => exact (List.getElem?_eq_some_iff.mp h).1
  | node l r =>
    obtain ⟨a, b, hn, -, -⟩ := h
    exact (List.getElem?_eq_some_iff.mp hn).1

/-- The last entry is of a tree of all the Symbols; its index is not NIL, because the store has at most 255 nodes. -/
theorem State.Merging.tree {entry : HeapEntry} (h : s.Merging syms) (hone : s.heap = [entry])
    (hlen : syms.length ≤ 128) :
    ∃ t : Tree, entry.pay ≠ Config.nil ∧ t.storedAt s.nodes entry.pay ∧ t.symbols.Perm syms := by
  obtain ⟨trees, hstored, hleaves⟩ := h.queued
  have hbudget := h.budget
  rw [hone] at hstored hbudget
  rw [List.length_singleton] at hbudget
  match hstored with
  | .cons (b := t) ht .nil =>
    refine ⟨t, fun hnil => ?_, ht, by simpa using hleaves⟩
    have hlt := ht.lt
    rw [hnil] at hlt
    have h255 : Config.nil.toNat = 255 := rfl
    omega

/-- HT.BUILD once the leaves are queued, when there are any: they are merged, and the last entry is taken. -/
theorem htBuild_of_seeded {t u : State} {entry : HeapEntry}
    (hseed : seedLeaves allSymbols { s with heap := [], seq := 0, nodes := [], root := Config.nil } = .ok () t)
    (hne : t.heap ≠ []) (hmerge : mergeNodes (Config.heapCap + 1) t = .ok () u) (hone : u.heap = [entry]) :
    htBuild s = .ok () { u with heap := [], root := entry.pay } := by
  have hempty : t.pqEmpty = false := by simpa [State.pqEmpty] using hne
  rw [htBuild, bind_of_ok (run_modify ..), bind_of_ok hseed, bind_of_ok (x := pqIsempty) (a := false) (t := t)
    (congrArg (EStateM.Result.ok · t) hempty)]
  exact (bind_of_ok hmerge).trans <| bind_of_ok (pqDelmin_of_cons hone)

/-- What HT.BUILD leaves for the Symbols `syms`: no tree for none, else a tree of them. -/
def State.HoldsTreeOf (s : State) (syms : List Symbol) : Prop :=
  (s.root = Config.nil ∧ syms = []) ∨ ∃ t : Tree, s.holdsTree t ∧ t.symbols.Perm syms

/-- HT.BUILD ends from every state (spec/43_huffman_tree.md R181) and leaves a tree of the occurring Symbols. -/
theorem htBuild_ok (s : State) :
    ∃ nodes seq root, htBuild s = .ok () { s with nodes := nodes, heap := [], seq := seq, root := root } ∧
      State.HoldsTreeOf { s with nodes := nodes, heap := [], seq := seq, root := root } s.occurring := by
  have hstart : State.Merging { s with heap := [], seq := 0, nodes := [], root := Config.nil } [] :=
    ⟨.nil, rfl, rfl⟩
  obtain ⟨nodes, heap, seq, syms, hseed, hseeded, hperm⟩ :=
    seedLeaves_of_merging allSymbols hstart (by simp [allSymbols_length])
  have hsyms : syms.Perm s.occurring := by rwa [List.append_nil] at hperm
  have hlen : syms.length ≤ 128 := hsyms.length_eq.trans_le (occurring_length_le s)
  cases heap with
  | nil =>
    have hocc : s.occurring = [] := (hseeded.queued.eq_nil ▸ hsyms).nil_eq.symm
    refine ⟨nodes, seq, Config.nil, ?_, .inl ⟨rfl, hocc⟩⟩
    rw [htBuild, bind_of_ok (run_modify ..), bind_of_ok hseed, bind_of_ok (x := pqIsempty) rfl]
    rfl
  | cons top rest =>
    have hheap : (top :: rest).length ≤ 128 := hseeded.queued.length_le.trans hlen
    obtain ⟨nodes', entry, seq', hmerge, hmerged⟩ := mergeNodes_of_merging (Config.heapCap + 1) hseeded hlen
      (List.cons_ne_nil top rest) (hheap.trans (Nat.le_succ 128))
    obtain ⟨t, hroot, hstored, hleaves⟩ := hmerged.tree rfl hlen
    exact ⟨nodes', seq', entry.pay, htBuild_of_seeded hseed (List.cons_ne_nil top rest) hmerge rfl,
      .inr ⟨t, ⟨hroot, hstored⟩, hleaves.trans hsyms⟩⟩

end Sys2Proof.Machine
end

section
/-! PROOFS. HT.GENCODES and HT.SER (spec/43_huffman_tree.md R182, R184) run to their ends on a stored tree of at most
128 leaves, and every leaf gets a code. -/

namespace Sys2Proof.Machine

variable {s : State}

/-! ## The walks -/

theorem Tree.symbols_length_pos (t : Tree) : 0 < t.symbols.length := by
  have := t.postorder_length
  omega

/-- An entry of the code table is written. -/
def assignCode (table : Vector Bits 128) (e : Symbol × Bits) : Vector Bits 128 :=
  table.set e.1.toNat e.2 (by have := e.1.isLt; omega)

/-- The walk over a stored tree assigns the path to each leaf, left to right; as many levels as there are leaves are
enough (spec/43_huffman_tree.md R182, R187). -/
theorem genWalk_of_stored {t : Tree} {n : NodeRef} {levels : Nat} (h : t.storedAt s.nodes n)
    (hlevels : t.symbols.length ≤ levels) (p : Bits) :
    genWalk levels n p s = .ok () { s with code := (t.paths p).foldl assignCode s.code } := by
  induction t generalizing s n levels p with
  | leaf sym =>
    obtain ⟨levels, rfl⟩ := Nat.exists_eq_succ_of_ne_zero (Nat.ne_of_gt hlevels)
    rw [genWalk, bind_of_ok (nodeAt_of_some h)]
    rfl
  | node l r ihl ihr =>
    obtain ⟨a, b, hn, hl, hr⟩ := h
    have hlpos := l.symbols_length_pos
    have hrpos := r.symbols_length_pos
    rw [Tree.symbols, List.length_append] at hlevels
    obtain ⟨levels, rfl⟩ := Nat.exists_eq_succ_of_ne_zero (n := levels) (by omega)
    rw [genWalk, bind_of_ok (nodeAt_of_some hn)]
    refine (bind_of_ok (ihl hl (by omega) (p ++ [false]))).trans <|
      (ihr (s := { s with code := (l.paths (p ++ [false])).foldl assignCode s.code }) hr (by omega)
        (p ++ [true])).trans ?_
    rw [Tree.paths, List.foldl_append]

/-- The walk over a stored tree emits its post-order description (spec/43_huffman_tree.md R184). -/
theorem emitTree_ok {t : Tree} {n : NodeRef} {levels : Nat} (h : t.storedAt s.nodes n)
    (hlevels : t.symbols.length ≤ levels) :
    emitTree levels n s = .ok () { s with ser := s.ser ++ t.postorder } := by
  induction t generalizing s n levels with
  | leaf sym =>
    obtain ⟨levels, rfl⟩ := Nat.exists_eq_succ_of_ne_zero (Nat.ne_of_gt hlevels)
    rw [emitTree, bind_of_ok (nodeAt_of_some h)]
    rfl
  | node l r ihl ihr =>
    obtain ⟨a, b, hn, hl, hr⟩ := h
    have hlpos := l.symbols_length_pos
    have hrpos := r.symbols_length_pos
    rw [Tree.symbols, List.length_append] at hlevels
    obtain ⟨levels, rfl⟩ := Nat.exists_eq_succ_of_ne_zero (n := levels) (by omega)
    rw [emitTree, bind_of_ok (nodeAt_of_some hn)]
    refine (bind_of_ok (ihl hl (by omega))).trans <|
      (bind_of_ok (ihr (s := { s with ser := s.ser ++ l.postorder }) hr (by omega))).trans ?_
    rw [emitUnit, run_modify, Tree.postorder, List.append_assoc, List.append_assoc, List.append_assoc]

/-! ## The operations -/

/-- HT.GENCODES on a tree makes its code table, a lone leaf being an exception of its own. -/
theorem htGencodes_of_tree {t : Tree} (h : s.holdsTree t) (hlen : t.symbols.length ≤ 128) :
    htGencodes s = .ok () { s with code := t.codeTable } := by
  obtain ⟨hroot, hstored⟩ := h
  rw [htGencodes, bind_of_ok (run_modify ..), bind_of_ok (run_get _), run_ite, if_neg hroot]
  cases t with
  | leaf sym => exact bind_of_ok (nodeAt_of_some (s := { s with code := Vector.replicate 128 [] }) hstored)
  | node l r =>
    have hwalk := genWalk_of_stored (s := { s with code := Vector.replicate 128 [] }) hstored hlen []
    obtain ⟨a, b, hn, -, -⟩ := hstored
    exact (bind_of_ok (nodeAt_of_some (s := { s with code := Vector.replicate 128 [] }) hn)).trans hwalk

theorem htGencodes_of_nil (h : s.root = Config.nil) :
    htGencodes s = .ok () { s with code := Vector.replicate 128 [] } := by
  rw [htGencodes, bind_of_ok (run_modify ..), bind_of_ok (run_get _), run_ite, if_pos h]
  rfl

theorem htSer_of_tree {t : Tree} (h : s.holdsTree t) (hlen : t.symbols.length ≤ 128) :
    htSer s = .ok () { s with ser := t.postorder } := by
  obtain ⟨hroot, hstored⟩ := h
  rw [htSer, bind_of_ok (run_modify ..), bind_of_ok (run_get _), run_ite, if_neg hroot]
  exact emitTree_ok (s := { s with ser := [] }) hstored hlen

theorem htSer_of_nil (h : s.root = Config.nil) : htSer s = .ok () { s with ser := [] } := by
  rw [htSer, bind_of_ok (run_modify ..), bind_of_ok (run_get _), run_ite, if_pos h]
  rfl

/-! ## The code table -/

theorem Tree.paths_symbols (t : Tree) (p : Bits) : (t.paths p).map Prod.fst = t.symbols := by
  induction t generalizing p with
  | leaf sym => rfl
  | node l r ihl ihr => rw [Tree.paths, List.map_append, ihl, ihr, Tree.symbols]

theorem Tree.codes_symbols (t : Tree) : t.codes.map Prod.fst = t.symbols := by
  cases t with
  | leaf sym => rfl
  | node l r => exact Tree.paths_symbols _ []

/-- A path only grows on the way down. -/
theorem Tree.length_le_of_mem_paths {t : Tree} {p : Bits} {e : Symbol × Bits} (h : e ∈ t.paths p) :
    p.length ≤ e.2.length := by
  induction t generalizing p with
  | leaf sym =>
    obtain rfl := List.mem_singleton.mp h
    exact Nat.le_refl _
  | node l r ihl ihr =>
    rw [Tree.paths, List.mem_append] at h
    obtain h | h := h
    · exact Nat.le_trans (by simp) (ihl h)
    · exact Nat.le_trans (by simp) (ihr h)

/-- No leaf has the empty code, a lone leaf neither (spec/43_huffman_tree.md R182). -/
theorem Tree.codes_ne_nil {t : Tree} {e : Symbol × Bits} (h : e ∈ t.codes) : e.2 ≠ [] := by
  cases t with
  | leaf sym =>
    obtain rfl := List.mem_singleton.mp h
    exact List.cons_ne_nil _ _
  | node l r =>
    rw [Tree.codes, Tree.paths, List.mem_append] at h
    obtain h | h := h
    · exact List.ne_nil_of_length_pos (Tree.length_le_of_mem_paths h)
    · exact List.ne_nil_of_length_pos (Tree.length_le_of_mem_paths h)

/-- Assigned entries come from the list, or the list has none for the Symbol. -/
theorem foldl_assignCode_getElem (es : List (Symbol × Bits)) (table : Vector Bits 128) (sym : Symbol)
    (h : sym.toNat < 128) :
    (sym, (es.foldl assignCode table)[sym.toNat]) ∈ es ∨
      (sym ∉ es.map Prod.fst ∧ (es.foldl assignCode table)[sym.toNat] = table[sym.toNat]) := by
  induction es generalizing table with
  | nil => exact .inr ⟨List.not_mem_nil, rfl⟩
  | cons e es ih =>
    obtain hin | ⟨hout, heq⟩ := ih (assignCode table e)
    · exact .inl (List.mem_cons_of_mem _ hin)
    · rw [List.foldl_cons, heq]
      by_cases he : e.1 = sym
      · subst he
        simp [assignCode]
      · have hne : e.1.toNat ≠ sym.toNat := fun hn => he (BitVec.eq_of_toNat_eq hn)
        exact .inr ⟨by simp_all [eq_comm], by simp [assignCode, hne]⟩

/-- Every leaf's Symbol has a code in the tree's table. -/
theorem Tree.codeTable_ne_nil {t : Tree} {sym : Symbol} (h : sym ∈ t.symbols) :
    State.codeAt { s with code := t.codeTable } sym ≠ [] := by
  obtain hin | ⟨hout, -⟩ := foldl_assignCode_getElem t.codes (Vector.replicate 128 []) sym sym.isLt
  · exact Tree.codes_ne_nil hin
  · exact absurd (t.codes_symbols ▸ h) hout

/-! ## After HT.BUILD -/

/-- HT.GENCODES after HT.BUILD: every occurring Symbol gets a code. -/
theorem htGencodes_ok {syms : List Symbol} (h : s.HoldsTreeOf syms) (hlen : syms.length ≤ 128) :
    ∃ code, htGencodes s = .ok () { s with code := code } ∧
      ∀ sym ∈ syms, State.codeAt { s with code := code } sym ≠ [] := by
  obtain ⟨hroot, rfl⟩ | ⟨t, ht, hperm⟩ := h
  · exact ⟨_, htGencodes_of_nil hroot, by simp⟩
  · exact ⟨_, htGencodes_of_tree ht (hperm.length_eq.trans_le hlen), fun sym hsym =>
      Tree.codeTable_ne_nil (hperm.mem_iff.mpr hsym)⟩

theorem htSer_ok {syms : List Symbol} (h : s.HoldsTreeOf syms) (hlen : syms.length ≤ 128) :
    ∃ ser, htSer s = .ok () { s with ser := ser } := by
  obtain ⟨hroot, -⟩ | ⟨t, ht, hperm⟩ := h
  · exact ⟨_, htSer_of_nil hroot⟩
  · exact ⟨_, htSer_of_tree ht (hperm.length_eq.trans_le hlen)⟩

end Sys2Proof.Machine
end

section
/-! PROOFS. The streams of ENCODE: counting the source, and writing header, payload and padding to a sink that fails no
call (spec/44_codec.md R210, R211, R214, spec/40_bitsink.md R120 to R123). -/

namespace Sys2Proof.Machine

variable {s : State}

/-! ## CODEC.FCOUNT -/

theorem sinkBytes_reads (bytes : List Byte) : sinkBytes (reads bytes) = [] := by
  induction bytes with
  | nil => rfl
  | cons b bytes ih => simpa [reads, sinkBytes] using ih

theorem symbolOf_byte {b : Byte} (h : b.toNat ≤ 127) : (symbolOf b).byte = b := by
  apply BitVec.eq_of_toNat_eq
  simp only [Symbol.byte, symbolOf, BitVec.toNat_setWidth]
  omega

theorem symbolOf_symbol_byte (sym : Symbol) : symbolOf sym.byte = sym := by simp [symbolOf, Symbol.byte]

theorem not_lt_of_le_127 {b : Byte} (h : b.toNat ≤ 127) : ¬127#8 < b := by
  simpa [BitVec.lt_def] using h

/-- `s` after a byte of the source has been counted. -/
def State.countByte (s : State) (b : Byte) : State :=
  { s.setFreq (symbolOf b) (s.freqAt (symbolOf b) + 1) with
    total := s.total + 1, env := s.env.after [.srcNext (.byte b)] }

/-- A byte below 128 is counted when the count has room. -/
theorem countLoop_of_byte {b : Byte} {rest : List Byte} (hsrc : s.env.src = b :: rest) (hobl : s.env.obliging)
    (hb : b.toNat ≤ 127) (hroom : s.total ≠ Config.countMax) (fuel : Nat) :
    countLoop (fuel + 1) s = countLoop fuel (s.countByte b) := by
  rw [countLoop]
  exact (bind_of_ok (lift_of_ok (srcNext_of_obliging_cons hobl hsrc))).trans <|
    (run_if_neg (not_lt_of_le_127 hb)).trans <| (bind_of_ok (run_get _)).trans <| (run_if_neg hroom).trans <|
    (bind_of_ok (run_modify ..)).trans <| bind_of_ok (run_modify ..)

theorem countLoop_of_eof (hsrc : s.env.src = []) (hobl : s.env.obliging) (fuel : Nat) :
    countLoop (fuel + 1) s = .ok () (s.withEnv (s.env.after [.srcNext .eof])) := by
  rw [countLoop, bind_of_ok (lift_of_ok (srcNext_of_obliging_nil hobl hsrc))]
  rfl

theorem src_after_srcNext {e : Env} {b : Byte} {rest : List Byte} (h : e.src = b :: rest) :
    (e.after [.srcNext (.byte b)]).src = rest :=
  congrArg List.tail h

theorem src_after_puts (e : Env) (bytes : List Byte) : (e.after (puts bytes)).src = e.src := by
  rw [Env.after_src _ _ (by simp [puts]), sourceBytes_puts]
  rfl

theorem freqAt_countByte_add {b : Byte} (hb : b.toNat ≤ 127) (sym : Symbol) (rest : List Byte) :
    (s.countByte b).freqAt sym + BitVec.ofNat 32 (rest.count sym.byte) =
      s.freqAt sym + BitVec.ofNat 32 ((b :: rest).count sym.byte) := by
  change (s.setFreq (symbolOf b) (s.freqAt (symbolOf b) + 1)).freqAt sym + _ = _
  by_cases h : symbolOf b = sym
  · have hbyte : b = sym.byte := h ▸ (symbolOf_byte hb).symm
    have hcount : (b :: rest).count sym.byte = rest.count sym.byte + 1 := by rw [hbyte, List.count_cons_self]
    rw [h, State.freqAt_setFreq_self, hcount]
    bv_omega
  · have hbyte : b ≠ sym.byte := fun he => h (he ▸ symbolOf_symbol_byte sym)
    rw [State.freqAt_setFreq_ne _ _ h, List.count_cons_of_ne hbyte]

/-- The loop counts bytes below 128 to the source's end (spec/44_codec.md R210). -/
theorem countLoop_ok (src : List Byte) (fuel : Nat) (hsrc : s.env.src = src) (hobl : s.env.obliging)
    (hbytes : ∀ b ∈ src, b.toNat ≤ 127) (hroom : s.total.toNat + src.length ≤ 2147483647) (hfuel : src.length < fuel) :
    ∃ freq, countLoop fuel s = .ok () { s with
        freq := freq, total := s.total + BitVec.ofNat 32 src.length
        env := s.env.after (reads src ++ [.srcNext .eof]) } ∧
      ∀ sym, State.freqAt { s with freq := freq } sym = s.freqAt sym + BitVec.ofNat 32 (src.count sym.byte) := by
  induction src generalizing s fuel with
  | nil =>
    obtain ⟨fuel, rfl⟩ := Nat.exists_eq_succ_of_ne_zero (Nat.ne_of_gt hfuel)
    refine ⟨s.freq, ?_, fun sym => by simp⟩
    rw [countLoop_of_eof hsrc hobl]
    simp [reads, State.withEnv]
  | cons b rest ih =>
    obtain ⟨fuel, rfl⟩ := Nat.exists_eq_succ_of_ne_zero (Nat.ne_of_gt (Nat.zero_lt_of_lt hfuel))
    obtain ⟨hb, hrest⟩ := List.forall_mem_cons.mp hbytes
    rw [List.length_cons] at hroom hfuel
    have hmax : s.total ≠ Config.countMax := by
      intro h
      have hval : s.total.toNat = 2147483647 := congrArg BitVec.toNat h
      omega
    have htotal : (s.total + 1).toNat = s.total.toNat + 1 := by bv_omega
    have hsum : s.total + BitVec.ofNat 32 (b :: rest).length = s.total + 1 + BitVec.ofNat 32 rest.length := by
      rw [List.length_cons]
      bv_omega
    obtain ⟨freq, hrun, hfreq⟩ := ih (s := s.countByte b) fuel (src_after_srcNext hsrc) (hobl.after _) hrest
      (show (s.total + 1).toNat + _ ≤ _ by omega) (by omega)
    refine ⟨freq, ?_, fun sym => (hfreq sym).trans (freqAt_countByte_add hb sym rest)⟩
    rw [countLoop_of_byte hsrc hobl hb hmax, hsum]
    exact hrun

/-! ## SNK.WBITS -/

/-- The loop of SNK.WBITS puts as many whole bytes as there are, and the rest of the bits stays pending
(spec/40_bitsink.md R120). -/
theorem writeBits_ok (bits : Bits) (hcnt : s.wcnt.toNat ≤ 7) (hobl : s.env.obliging) :
    ∃ buf cnt bytes, writeBits bits s = .ok () { s with
        wbuf := buf, wcnt := cnt, env := s.env.after (puts bytes) } ∧
      cnt.toNat ≤ 7 ∧ 8 * bytes.length + cnt.toNat = s.wcnt.toNat + bits.length := by
  induction bits generalizing s with
  | nil => exact ⟨s.wbuf, s.wcnt, [], rfl, hcnt, by simp⟩
  | cons b rest ih =>
    by_cases hlast : s.wcnt = 7
    · rw [writeBits_cons_of_last hlast hobl]
      obtain ⟨buf, cnt, bytes, hrun, hle, hcount⟩ := ih (s := { s with
        wbuf := 0, wcnt := 0, env := s.env.after [.snkPut (shiftInBit s.wbuf b) true] }) (Nat.zero_le 7) (hobl.after _)
      refine ⟨buf, cnt, shiftInBit s.wbuf b :: bytes, hrun, hle, ?_⟩
      simp only [hlast, List.length_cons] at *
      have h7 : (7 : BitVec 4).toNat = 7 := rfl
      have h0 : (0 : BitVec 4).toNat = 0 := rfl
      omega
    · have hroom : s.wcnt.toNat < 7 := by bv_omega
      have hnext : (s.wcnt + 1).toNat = s.wcnt.toNat + 1 := by bv_omega
      rw [writeBits_cons_of_room hroom]
      obtain ⟨buf, cnt, bytes, hrun, hle, hcount⟩ := ih (s := { s with
        wbuf := shiftInBit s.wbuf b, wcnt := s.wcnt + 1 }) (hnext.trans_le hroom) hobl
      refine ⟨buf, cnt, bytes, hrun, hle, ?_⟩
      simp only [hnext, List.length_cons] at *
      omega

/-! ## CODEC.WPAYLOAD -/

/-- A byte below 128 with a code is encoded while there are bytes to come. -/
theorem payloadLoop_of_byte {b : Byte} {rest : List Byte} {k : Word} {t : State} (hsrc : s.env.src = b :: rest)
    (hobl : s.env.obliging) (hopen : s.sclosed = false) (hb : b.toNat ≤ 127) (hcode : s.codeAt (symbolOf b) ≠ [])
    (hk : k ≠ s.total)
    (hwrite : writeBits (s.codeAt (symbolOf b)) (s.withEnv (s.env.after [.srcNext (.byte b)])) = .ok () t)
    (fuel : Nat) : payloadLoop (fuel + 1) k s = payloadLoop fuel (k + 1) t := by
  rw [payloadLoop]
  exact (bind_of_ok (lift_of_ok (srcNext_of_obliging_cons hobl hsrc))).trans <| (bind_of_ok (run_get _)).trans <|
    (run_if_neg (not_lt_of_le_127 hb)).trans <| (run_if_neg hcode).trans <| (run_if_neg hk).trans <|
    bind_of_ok ((snkWbits_of_open (s := s.withEnv (s.env.after [.srcNext (.byte b)])) hopen _).trans hwrite)

theorem payloadLoop_of_eof (hsrc : s.env.src = []) (hobl : s.env.obliging) (fuel : Nat) (k : Word) :
    payloadLoop (fuel + 1) k s = .ok k (s.withEnv (s.env.after [.srcNext .eof])) := by
  rw [payloadLoop, bind_of_ok (lift_of_ok (srcNext_of_obliging_nil hobl hsrc))]
  rfl

/-- The loop encodes `TOTAL` bytes that have codes, to the source's end (spec/44_codec.md R214). -/
theorem payloadLoop_ok (src : List Byte) (fuel : Nat) (k : Word) (hsrc : s.env.src = src) (hobl : s.env.obliging)
    (hopen : s.sclosed = false) (hcnt : s.wcnt.toNat ≤ 7)
    (hbytes : ∀ b ∈ src, b.toNat ≤ 127 ∧ s.codeAt (symbolOf b) ≠ []) (htotal : k.toNat + src.length = s.total.toNat)
    (hfuel : src.length < fuel) :
    ∃ buf cnt events, payloadLoop fuel k s = .ok s.total { s with
        wbuf := buf, wcnt := cnt, env := s.env.after events } ∧
      cnt.toNat ≤ 7 ∧ 8 * (sinkBytes events).length + cnt.toNat = s.wcnt.toNat + (s.payloadBits src).length := by
  induction src generalizing s fuel k with
  | nil =>
    obtain ⟨fuel, rfl⟩ := Nat.exists_eq_succ_of_ne_zero (Nat.ne_of_gt hfuel)
    have hk : k = s.total := BitVec.eq_of_toNat_eq htotal
    refine ⟨s.wbuf, s.wcnt, [.srcNext .eof], ?_, hcnt, by simp [sinkBytes, State.payloadBits]⟩
    rw [payloadLoop_of_eof hsrc hobl, hk]
    rfl
  | cons b rest ih =>
    obtain ⟨fuel, rfl⟩ := Nat.exists_eq_succ_of_ne_zero (Nat.ne_of_gt (Nat.zero_lt_of_lt hfuel))
    obtain ⟨⟨hb, hcode⟩, hrest⟩ := List.forall_mem_cons.mp hbytes
    rw [List.length_cons] at htotal hfuel
    have hk : k ≠ s.total := by
      rintro rfl
      omega
    have hnext : (k + 1).toNat = k.toNat + 1 := by
      have := s.total.isLt
      bv_omega
    obtain ⟨buf, cnt, bytes, hwrite, hle, hcount⟩ := writeBits_ok (s.codeAt (symbolOf b))
      (s := s.withEnv (s.env.after [.srcNext (.byte b)])) hcnt (hobl.after _)
    obtain ⟨buf', cnt', events, hrun, hle', hcount'⟩ := ih (s := { s with
      wbuf := buf, wcnt := cnt, env := (s.env.after [.srcNext (.byte b)]).after (puts bytes) }) fuel (k + 1)
      ((src_after_puts _ bytes).trans (src_after_srcNext hsrc))
      ((hobl.after _).after _) hopen hle hrest (show (k + 1).toNat + rest.length = s.total.toNat by omega) (by omega)
    refine ⟨buf', cnt', .srcNext (.byte b) :: (puts bytes ++ events), ?_, hle', ?_⟩
    · rw [payloadLoop_of_byte hsrc hobl hopen hb hcode hk hwrite]
      refine hrun.trans ?_
      simp [← Env.after_append]
    · simp only [sinkBytes, sinkBytes_append, sinkBytes_puts, List.length_append]
      change 8 * (sinkBytes events).length + cnt'.toNat = cnt.toNat + (s.payloadBits rest).length at hcount'
      change 8 * bytes.length + cnt.toNat = s.wcnt.toNat + _ at hcount
      rw [State.payloadBits, List.flatMap_cons, List.length_append]
      change _ = s.wcnt.toNat + (_ + (s.payloadBits rest).length)
      omega

/-- CODEC.WPAYLOAD on a replay of `TOTAL` bytes that have codes. -/
theorem codecWpayload_ok (hobl : s.env.obliging) (hopen : s.sclosed = false) (hcnt : s.wcnt.toNat ≤ 7)
    (hbytes : ∀ b ∈ s.env.replay, b.toNat ≤ 127 ∧ s.codeAt (symbolOf b) ≠ [])
    (htotal : s.env.replay.length = s.total.toNat) :
    ∃ buf cnt events, codecWpayload s = .ok () { s with wbuf := buf, wcnt := cnt, env := s.env.after events } ∧
      cnt.toNat ≤ 7 ∧
      8 * (sinkBytes events).length + cnt.toNat = s.wcnt.toNat + (s.payloadBits s.env.replay).length := by
  obtain ⟨buf, cnt, events, hrun, hle, hcount⟩ := payloadLoop_ok (s := s.withEnv (s.env.after [.srcRewind true]))
    s.env.replay (s.env.replay.length + 1) 0 rfl (hobl.after _) hopen hcnt hbytes
    (htotal ▸ Nat.zero_add _) (Nat.lt_succ_self _)
  refine ⟨buf, cnt, .srcRewind true :: events, ?_, hle, hcount⟩
  rw [codecWpayload]
  exact (bind_of_ok (orIOError_of_ok (srcRewind_of_obliging hobl))).trans <| (bind_of_ok (run_get _)).trans <|
    (bind_of_ok hrun).trans <| (bind_of_ok (run_get _)).trans (by rw [run_ite, if_neg (not_not_intro rfl)]; rfl)

/-! ## CODEC.WHEADER and E_CLOSE -/

theorem snkWstr_of_obliging (hopen : s.sclosed = false) (hcnt : s.wcnt = 0) (hobl : s.env.obliging) :
    snkWstr s = .ok () (s.withEnv (s.env.after (puts (0x00#8 :: s.serlen :: s.ser)))) := by
  have hlevel : snkByteLevel s = .ok () s := by simp [snkByteLevel, hopen, hcnt]
  rw [snkWstr, bind_of_ok hlevel, bind_of_ok (run_get s)]
  exact putBytes_of_obliging _ hobl

/-- CODEC.WHEADER puts the count and the length-prefixed description. -/
theorem codecWheader_ok {syms : List Symbol} (hobl : s.env.obliging) (hopen : s.sclosed = false) (hcnt : s.wcnt = 0)
    (htree : s.HoldsTreeOf syms) (hlen : syms.length ≤ 128) :
    ∃ ser bytes, codecWheader s = .ok () { s with ser := ser, env := s.env.after (puts bytes) } ∧
      bytes.length = 4 + 2 + ser.length := by
  obtain ⟨ser, hser⟩ := htSer_ok (s := s.withEnv (s.env.after (puts (bigEndianBytes s.total)))) htree hlen
  have hwstr := snkWstr_of_obliging
    (s := { s with ser := ser, env := s.env.after (puts (bigEndianBytes s.total)) }) hopen hcnt (hobl.after _)
  refine ⟨ser, bigEndianBytes s.total ++ 0x00#8 :: BitVec.ofNat 8 ser.length :: ser, ?_, ?_⟩
  · rw [codecWheader]
    refine (bind_of_ok (run_get s)).trans <| (bind_of_ok (snkWint_of_obliging hopen hcnt hobl s.total)).trans <|
      (bind_of_ok hser).trans <| hwstr.trans ?_
    simp [State.withEnv, State.serlen, puts, Env.after_append]
  · simp [bigEndianBytes]
    omega

/-- SNK.CLOSE puts one padded byte when bits are pending (spec/40_bitsink.md R123). -/
theorem snkClose_ok (hobl : s.env.obliging) (hopen : s.sclosed = false) :
    ∃ buf events, snkClose s = .ok () { s with
        wbuf := buf, wcnt := 0, sclosed := true, env := s.env.after events } ∧
      (sinkBytes events).length = if s.wcnt = 0 then 0 else 1 := by
  have hguard : ¬s.sclosed = true := by simp [hopen]
  by_cases hcnt : s.wcnt = 0
  · refine ⟨s.wbuf, [.snkClose true], ?_, (if_pos hcnt).symm⟩
    rw [← hcnt]
    exact (bind_of_ok (run_get s)).trans <| (run_if_neg hguard).trans <| (run_if_neg (by simp [hcnt])).trans <|
      bind_of_ok (orIOError_of_ok (snkClosePort_of_obliging hobl))
  · refine ⟨0, [.snkPut (paddedByte s.wbuf s.wcnt) true, .snkClose true], ?_, (if_neg hcnt).symm⟩
    exact (bind_of_ok (run_get s)).trans <| (run_if_neg hguard).trans <| (run_if_pos (bne_iff_ne.mpr hcnt)).trans <|
      (bind_of_ok (orIOError_snkPut_of_obliging hobl _)).trans <| (bind_of_ok (run_modify ..)).trans <|
      bind_of_ok (orIOError_of_ok (snkClosePort_of_obliging
        (s := { s with wbuf := 0, wcnt := 0, env := s.env.after [.snkPut (paddedByte s.wbuf s.wcnt) true] })
        (hobl.after _)))

/-- E_CLOSE releases the source after it. -/
theorem closeEncode_ok (hobl : s.env.obliging) (hopen : s.sclosed = false) :
    ∃ buf events, closeEncode s = .ok () { s with
        wbuf := buf, wcnt := 0, sclosed := true, env := s.env.after events } ∧
      (sinkBytes events).length = if s.wcnt = 0 then 0 else 1 := by
  obtain ⟨buf, events, hclose, hcount⟩ := snkClose_ok hobl hopen
  refine ⟨buf, events ++ [.srcRelease true], ?_, ?_⟩
  · rw [closeEncode, bind_of_ok hclose]
    exact (orIOError_of_ok (srcRelease_of_obliging (hobl.after events))).trans (by rw [Env.after_append]; rfl)
  · rw [sinkBytes_append, ← hcount]
    simp [sinkBytes]

end Sys2Proof.Machine
end

section
/-! PROOFS. The length of the container (spec/30_encoding.md R94): ENCODE phase by phase, by the number of bits
written. -/

namespace Sys2Proof.Machine

variable {s : State} {x : List Byte} {n : Nat}

/-! ## The payload's length -/

theorem allSymbols_nodup : allSymbols.Nodup := by
  refine List.nodup_range.map_on fun i hi j hj h => ?_
  rw [List.mem_range] at hi hj
  have := congrArg BitVec.toNat h
  simpa [BitVec.toNat_ofNat, Nat.mod_eq_of_lt hi, Nat.mod_eq_of_lt hj] using this

theorem mem_allSymbols (sym : Symbol) : sym ∈ allSymbols :=
  List.mem_map.mpr ⟨sym.toNat, List.mem_range.mpr sym.isLt, by simp⟩

/-- A sum over the bytes of an input, gathered by Symbol. -/
theorem sum_map_symbolOf (hx : ∀ b ∈ x, b.toNat ≤ 127) (f : Symbol → Nat) :
    (x.map fun b => f (symbolOf b)).sum = (allSymbols.map fun sym => x.count sym.byte * f sym).sum := by
  induction x with
  | nil => simp
  | cons b rest ih =>
    obtain ⟨hb, hrest⟩ := List.forall_mem_cons.mp hx
    have hone : (allSymbols.map fun sym => (if b = sym.byte then 1 else 0) * f sym).sum = f (symbolOf b) := by
      rw [List.sum_map_eq_nsmul_single (symbolOf b) _ fun sym hne _ => ?_,
        List.count_eq_one_of_mem allSymbols_nodup (mem_allSymbols _), symbolOf_byte hb, if_pos rfl, one_mul, one_smul]
      have hbyte : b ≠ sym.byte := fun he => hne (he ▸ (symbolOf_symbol_byte sym).symm)
      rw [if_neg hbyte, Nat.zero_mul]
    have hcount (sym : Symbol) : (b :: rest).count sym.byte * f sym =
        rest.count sym.byte * f sym + (if b = sym.byte then 1 else 0) * f sym := by
      rw [List.count_cons, Nat.add_mul]
      simp
    simp only [hcount, List.sum_map_add, hone, ← ih hrest, List.map_cons, List.sum_cons]
    omega

/-- With exact counts, the payload has the sum of `FREQ[s]` times `CLEN[s]` bits (spec/30_encoding.md R94). -/
theorem payloadBits_length (hx : ∀ b ∈ x, b.toNat ≤ 127) (hfreq : ∀ sym, (s.freqAt sym).toNat = x.count sym.byte) :
    (s.payloadBits x).length = (allSymbols.map fun sym => (s.freqAt sym).toNat * (s.codeAt sym).length).sum := by
  simp only [hfreq]
  rw [State.payloadBits, List.length_flatMap]
  exact sum_map_symbolOf hx fun sym => (s.codeAt sym).length

/-! ## The phases -/

/-- From a state with `P` the operation ends, without a raise, in one with `Q`. -/
def Completes (P : State → Prop) (op : Op Unit) (Q : State → Prop) : Prop :=
  ∀ s, P s → ∃ t, op s = .ok () t ∧ Q t

/-- A phase that completes, before the phases that follow; what it leaves says nothing about `PHASE`. -/
theorem Completes.runPhases_cons {P Q R : State → Prop} {w : Op Unit} {p : Phase} {rest : List (Op Unit × Phase)}
    (hw : Completes P w Q) (hp : ∀ s, Q s → Q { s with phase := p }) (hrest : Completes Q (runPhases rest) R) :
    Completes P (runPhases ((w, p) :: rest)) R := by
  intro s hs
  obtain ⟨t, hrun, ht⟩ := hw s hs
  obtain ⟨u, hend, hu⟩ := hrest _ (hp t ht)
  exact ⟨u, (bind_of_ok ((bind_of_ok hrun).trans (run_setPhase p t))).trans hend, hu⟩

theorem Completes.runPhases_nil {P : State → Prop} : Completes P (runPhases []) P :=
  fun s hs => ⟨s, rfl, hs⟩

/-- An invocation about to encode `x`, `n` bytes having been put before it. -/
def State.Starting (s : State) (x : List Byte) (n : Nat) : Prop :=
  s.env.obliging ∧ s.env.src = x ∧ s.env.replay = x ∧ (sinkBytes s.env.log).length = n ∧
    s.sclosed = false ∧ s.wcnt = 0 ∧ s.total = 0 ∧ ∀ sym, s.freqAt sym = 0

/-- The counts of `x` are taken and `bits` bits have been written, the pending ones among them. -/
def State.Encoding (s : State) (x : List Byte) (bits : Nat) : Prop :=
  s.env.obliging ∧ s.env.replay = x ∧ s.sclosed = false ∧ s.wcnt.toNat ≤ 7 ∧
    8 * (sinkBytes s.env.log).length + s.wcnt.toNat = bits ∧ s.total.toNat = x.length ∧
    ∀ sym, (s.freqAt sym).toNat = x.count sym.byte

/-- Every byte of `x` has a code. -/
def State.Coded (s : State) (x : List Byte) : Prop := ∀ b ∈ x, s.codeAt (symbolOf b) ≠ []

/-- The sink has received `n` bytes and a container of the length of spec/30_encoding.md R94. -/
def State.Encoded (s : State) (x : List Byte) (n : Nat) : Prop :=
  (sinkBytes s.env.log).length = n + (4 + 2 + s.ser.length + ((s.payloadBits x).length + 7) / 8) ∧
    ∀ sym, (s.freqAt sym).toNat = x.count sym.byte

/-- Counting cannot wrap, because `x` is short enough for its count. -/
theorem codecFcount_completes (hx : ∀ b ∈ x, b.toNat ≤ 127) (hlen : x.length ≤ 2147483647) :
    Completes (·.Starting x n) codecFcount (·.Encoding x (8 * n)) := by
  rintro s ⟨hobl, hsrc, hreplay, hn, hopen, hcnt, htotal, hfreq⟩
  obtain ⟨freq, hrun, hcount⟩ := countLoop_ok x (s.env.src.length + 1) hsrc hobl hx
    (by rw [htotal]; exact (Nat.zero_add _).trans_le hlen) (by rw [hsrc]; exact Nat.lt_succ_self _)
  have hsmall (m : Nat) (hm : m ≤ x.length) : ((0 : Word) + BitVec.ofNat 32 m).toNat = m := by bv_omega
  refine ⟨_, (bind_of_ok (run_get s)).trans hrun, hobl.after _, ?_, hopen, ?_, ?_, ?_, fun sym => ?_⟩
  · exact (Env.after_replay ..).trans hreplay
  · exact hcnt ▸ Nat.zero_le 7
  · simp [sinkBytes_append, sinkBytes_reads, sinkBytes, hn, hcnt]
  · simpa only [htotal] using hsmall x.length (Nat.le_refl _)
  · refine (congrArg BitVec.toNat (hcount sym)).trans ?_
    rw [hfreq, hsmall _ List.count_le_length]

theorem htBuild_completes {bits : Nat} :
    Completes (·.Encoding x bits) htBuild (fun s => s.Encoding x bits ∧ s.HoldsTreeOf s.occurring) := by
  intro s hs
  obtain ⟨nodes, seq, root, hrun, htree⟩ := htBuild_ok s
  exact ⟨_, hrun, hs, htree⟩

/-- A byte of `x` is counted, so its Symbol is in the tree. -/
theorem htGencodes_completes {bits : Nat} (hx : ∀ b ∈ x, b.toNat ≤ 127) :
    Completes (fun s => s.Encoding x bits ∧ s.HoldsTreeOf s.occurring) htGencodes
      (fun s => s.Encoding x bits ∧ s.HoldsTreeOf s.occurring ∧ s.Coded x) := by
  rintro s ⟨hs, htree⟩
  obtain ⟨code, hrun, hcodes⟩ := htGencodes_ok htree (occurring_length_le s)
  refine ⟨_, hrun, hs, htree, fun b hb => hcodes _ ?_⟩
  obtain ⟨-, -, -, -, -, -, hfreq⟩ := hs
  have hpos : (s.freqAt (symbolOf b)).toNat ≠ 0 := by
    rw [hfreq, symbolOf_byte (hx b hb)]
    exact (List.count_pos_iff.mpr hb).ne'
  refine List.mem_filter.mpr ⟨mem_allSymbols _, decide_eq_true fun h => hpos ?_⟩
  rw [h]
  rfl

/-- A whole number of bytes has been put, so no bit waits and byte-level writes are allowed. -/
theorem codecWheader_completes :
    Completes (fun s => s.Encoding x (8 * n) ∧ s.HoldsTreeOf s.occurring ∧ s.Coded x) codecWheader
      (fun s => s.Encoding x (8 * (n + (4 + 2 + s.ser.length))) ∧ s.Coded x) := by
  rintro s ⟨⟨hobl, hreplay, hopen, hle, hbits, htotal, hfreq⟩, htree, hcoded⟩
  have hcnt : s.wcnt = 0 := BitVec.eq_of_toNat_eq (show s.wcnt.toNat = 0 by omega)
  obtain ⟨ser, bytes, hrun, hlen⟩ := codecWheader_ok hobl hopen hcnt htree (occurring_length_le s)
  refine ⟨_, hrun, ⟨hobl.after _, ?_, hopen, hle, ?_, htotal, hfreq⟩, hcoded⟩
  · exact (Env.after_replay ..).trans hreplay
  · simp only [Env.after_log, sinkBytes_append, sinkBytes_puts, List.length_append, hlen]
    omega

theorem codecWpayload_completes (hx : ∀ b ∈ x, b.toNat ≤ 127) :
    Completes (fun s => s.Encoding x (8 * (n + (4 + 2 + s.ser.length))) ∧ s.Coded x) codecWpayload
      (fun s => s.Encoding x (8 * (n + (4 + 2 + s.ser.length)) + (s.payloadBits x).length)) := by
  rintro s ⟨⟨hobl, hreplay, hopen, hle, hbits, htotal, hfreq⟩, hcoded⟩
  subst hreplay
  obtain ⟨buf, cnt, events, hrun, hle', hcount⟩ := codecWpayload_ok hobl hopen hle
    (fun b hb => ⟨hx b hb, hcoded b hb⟩) htotal.symm
  refine ⟨_, hrun, hobl.after _, Env.after_replay .., hopen, hle', ?_, htotal, hfreq⟩
  simp only [Env.after_log, sinkBytes_append, List.length_append]
  change _ = _ + (s.payloadBits s.env.replay).length
  omega

/-- The pending bits become one more byte: the bits written are rounded up. -/
theorem closeEncode_completes :
    Completes (fun s => s.Encoding x (8 * (n + (4 + 2 + s.ser.length)) + (s.payloadBits x).length)) closeEncode
      (·.Encoded x n) := by
  rintro s ⟨hobl, -, hopen, hle, hbits, -, hfreq⟩
  obtain ⟨buf, events, hrun, hcount⟩ := closeEncode_ok hobl hopen
  refine ⟨_, hrun, ?_, hfreq⟩
  simp only [Env.after_log, sinkBytes_append, List.length_append, hcount]
  change _ = n + (4 + 2 + s.ser.length + ((s.payloadBits x).length + 7) / 8)
  split
  · next hcnt =>
    have hzero : s.wcnt.toNat = 0 := congrArg BitVec.toNat hcnt
    omega
  · next hcnt =>
    have : s.wcnt.toNat ≠ 0 := fun h => hcnt (BitVec.eq_of_toNat_eq h)
    omega

/-- ENCODE from its acceptance to its end. -/
theorem encodeInvocation_completes (hx : ∀ b ∈ x, b.toNat ≤ 127) (hlen : x.length ≤ 2147483647) :
    Completes (fun s => s.env.obliging ∧ s.env.src = x ∧ s.env.replay = x ∧ (sinkBytes s.env.log).length = n)
      encodeInvocation (·.Encoded x n) := by
  have hphases : Completes (·.Starting x n) (runPhases encodePhases) (·.Encoded x n) :=
    (codecFcount_completes hx hlen).runPhases_cons (fun _ h => h) <|
    htBuild_completes.runPhases_cons (fun _ h => h) <|
    (htGencodes_completes hx).runPhases_cons (fun _ h => h) <|
    codecWheader_completes.runPhases_cons (fun _ h => h) <|
    (codecWpayload_completes hx).runPhases_cons (fun _ h => h) <|
    closeEncode_completes.runPhases_cons (fun _ h => h) Completes.runPhases_nil
  rintro s ⟨hobl, hsrc, hreplay, hn⟩
  obtain ⟨t, hrun, ht⟩ := hphases (s.initialise .eCount)
    ⟨hobl, hsrc, hreplay, hn, rfl, rfl, rfl, State.freqAt_initialise s .eCount⟩
  exact ⟨t, by rw [encodeInvocation_eq, bind_of_ok (run_modify ..), hrun], ht⟩

/-- Settles O52: ENCODE completes with the header's bytes and the payload's bits rounded up, and the payload has as many
bits as its Symbols' codes together. -/
theorem containerLength : Obligations.ContainerLength := by
  intro s x hbusy hsrc hreplay hx hlen hobl
  obtain ⟨t, hrun, hcontainer, hfreq⟩ := encodeInvocation_completes hx hlen s ⟨hobl, hsrc, hreplay, rfl⟩
  refine ⟨{ t with result := .none }, ?_, ?_⟩
  · rw [exec_eq, hbusy, Bool.and_false, if_neg Bool.false_ne_true]
    exact complete_of_ok (noResult_ok hrun)
  · rw [payloadBits_length hx hfreq] at hcontainer
    exact hcontainer

end Sys2Proof.Machine
end

section
/-! PROOFS. The BitSink with a host that fails no call (spec/40_bitsink.md R120 to R124): the pending bits as a
sequence, the bytes that the four operations put, and what they leave. -/

namespace Sys2Proof.Machine

variable {s : State} {bits : Bits}

/-! ## Bits in bytes -/

/-- The byte whose bits, most significant first, are those of the sequence (spec/20_memory.md R63). -/
theorem byteOfBits_eq_of_getMsbD {b : Byte} (h : ∀ i < 8, bits.getD i false = b.getMsbD i) : byteOfBits bits = b :=
  calc byteOfBits bits
    _ = ((List.range 8).map fun i => bits.getD i false).foldl shiftInBit 0 := List.foldl_map.symm
    _ = (bitsOfByte b).foldl shiftInBit 0 := by
      rw [bitsOfByte, List.map_congr_left fun i hi => h i (List.mem_range.mp hi)]
    _ = b := foldl_shiftInBit_bitsOfByte b

theorem fullBytes_of_short (h : bits.length < 8) : fullBytes bits = [] := by
  unfold fullBytes
  split
  · simp only [List.length_cons] at h
    omega
  · rfl

theorem fullBytes_append_of_length_eq (h : bits.length = 8) (rest : Bits) :
    fullBytes (bits ++ rest) = byteOfBits bits :: fullBytes rest :=
  match bits, h with
  | [_, _, _, _, _, _, _, _], _ => rfl

theorem leftoverBits_of_short (h : bits.length < 8) : leftoverBits bits = bits := by
  rw [leftoverBits, Nat.div_eq_of_lt h, Nat.mul_zero, List.drop_zero]

theorem leftoverBits_append_of_length_eq (h : bits.length = 8) (rest : Bits) :
    leftoverBits (bits ++ rest) = leftoverBits rest := by
  have hdrop : 8 * ((bits ++ rest).length / 8) = bits.length + 8 * (rest.length / 8) := by
    rw [List.length_append]
    omega
  rw [leftoverBits, hdrop, List.drop_length_add_append, leftoverBits]

theorem leftoverBits_length (bits : Bits) : (leftoverBits bits).length = bits.length % 8 := by
  rw [leftoverBits, List.length_drop]
  omega

/-- Up to 8 bits, and at least one, are padded to one byte (spec/30_encoding.md R93). -/
theorem paddedBytes_eq_singleton (hne : bits ≠ []) (hle : bits.length ≤ 8) :
    paddedBytes bits = [byteOfBits bits] := by
  rcases Nat.lt_or_eq_of_le hle with hlt | heq
  · rw [paddedBytes, fullBytes_of_short hlt, leftoverBits_of_short hlt, if_neg hne, List.nil_append]
  · have hfull := fullBytes_append_of_length_eq heq []
    have hleft := leftoverBits_append_of_length_eq heq []
    rw [List.append_nil] at hfull hleft
    rw [paddedBytes, hfull, hleft]
    rfl

/-! ## The pending bits -/

@[simp] theorem State.pendingBits_length (s : State) : s.pendingBits.length = s.wcnt.toNat := by
  simp [State.pendingBits]

theorem State.pendingBits_eq_nil_iff : s.pendingBits = [] ↔ s.wcnt = 0 := by
  rw [← List.length_eq_zero_iff, State.pendingBits_length]
  exact BitVec.toNat_inj (y := 0)

/-- A bit shifted into the buffer is the youngest pending bit (spec/10_state.md R34). -/
theorem State.pendingBits_takeBit (h : s.wcnt.toNat ≤ 7) (b : Bool) :
    State.pendingBits { s with wbuf := shiftInBit s.wbuf b, wcnt := s.wcnt + 1 } = s.pendingBits ++ [b] := by
  have hcnt : (s.wcnt + 1).toNat = s.wcnt.toNat + 1 := by bv_omega
  have hlast : (shiftInBit s.wbuf b).getLsbD 0 = b := by simp [shiftInBit]
  have hshift (j : Nat) (hj : j < 7) : (shiftInBit s.wbuf b).getLsbD (j + 1) = s.wbuf.getLsbD j := by
    have hbit : j + 1 < 8 := by omega
    simp [shiftInBit, hbit, BitVec.getLsbD_eq_getElem (Nat.lt_succ_of_lt hj)]
  simp only [State.pendingBits, hcnt, Nat.add_sub_cancel, List.range_succ, List.map_append, List.map_singleton,
    Nat.sub_self, hlast]
  congr 1
  refine List.map_congr_left fun i hmem => ?_
  have hi : i < s.wcnt.toNat := List.mem_range.mp hmem
  rw [← hshift _ (by omega)]
  congr 1
  omega

/-- The pending bits at the top of a byte, zeros below (spec/40_bitsink.md R123). -/
theorem byteOfBits_pendingBits (h : s.wcnt.toNat ≤ 8) : byteOfBits s.pendingBits = paddedByte s.wbuf s.wcnt := by
  refine byteOfBits_eq_of_getMsbD fun i hi => ?_
  by_cases hpending : i < s.wcnt.toNat
  · have hpos : 7 - (i + (8 - s.wcnt.toNat)) = s.wcnt.toNat - 1 - i := by omega
    have hin : i + (8 - s.wcnt.toNat) < 8 := by omega
    rw [paddedByte, BitVec.getMsbD_shiftLeft]
    simp [State.pendingBits, BitVec.getMsbD, hpending, hpos, hin]
  · have hout : ¬i + (8 - s.wcnt.toNat) < 8 := by omega
    rw [paddedByte, BitVec.getMsbD_shiftLeft]
    simp [State.pendingBits, BitVec.getMsbD, hpending, hout]

/-- With 7 bits pending, the byte that one more bit completes. -/
theorem byteOfBits_pendingBits_append (h : s.wcnt = 7) (b : Bool) :
    byteOfBits (s.pendingBits ++ [b]) = shiftInBit s.wbuf b := by
  have hle : s.wcnt.toNat ≤ 7 := by rw [h]; decide
  have hfull : (s.wcnt + 1).toNat = 8 := by rw [h]; rfl
  rw [← State.pendingBits_takeBit hle, byteOfBits_pendingBits hfull.le, paddedByte, hfull]
  exact BitVec.shiftLeft_zero _

/-! ## SNK.WBITS -/

/-- The loop of SNK.WBITS puts the complete groups of 8 and keeps the rest pending (spec/40_bitsink.md R120). -/
theorem writeBits_packs (bits : Bits) (hcnt : s.wcnt.toNat ≤ 7) (hobl : s.env.obliging) :
    ∃ buf cnt, writeBits bits s = .ok () { s with
        wbuf := buf, wcnt := cnt, env := s.env.after (puts (fullBytes (s.pendingBits ++ bits))) } ∧
      State.pendingBits { s with wbuf := buf, wcnt := cnt } = leftoverBits (s.pendingBits ++ bits) := by
  induction bits generalizing s with
  | nil =>
    have hshort : s.pendingBits.length < 8 := by rw [State.pendingBits_length]; omega
    rw [List.append_nil, fullBytes_of_short hshort, leftoverBits_of_short hshort]
    exact ⟨s.wbuf, s.wcnt, rfl, rfl⟩
  | cons b rest ih =>
    have hsplit : s.pendingBits ++ b :: rest = (s.pendingBits ++ [b]) ++ rest := by simp
    rw [hsplit]
    by_cases hlast : s.wcnt = 7
    · have hlen : (s.pendingBits ++ [b]).length = 8 := by simp [hlast]
      rw [writeBits_cons_of_last hlast hobl, fullBytes_append_of_length_eq hlen,
        leftoverBits_append_of_length_eq hlen, byteOfBits_pendingBits_append hlast]
      exact ih (s := { s with
        wbuf := 0, wcnt := 0, env := s.env.after [.snkPut (shiftInBit s.wbuf b) true] }) (Nat.zero_le 7) (hobl.after _)
    · have hroom : s.wcnt.toNat < 7 := by bv_omega
      have hnext : (s.wcnt + 1).toNat ≤ 7 := by bv_omega
      rw [writeBits_cons_of_room hroom, ← State.pendingBits_takeBit hcnt]
      exact ih hnext hobl

/-- Settles O20: the loop packs the pending and the new bits, the bits left over are counted by `WCNT`, and the
invariant is the sink's contract. -/
theorem wbitsPacks : Obligations.WbitsPacks := by
  intro s bits hopen hinv hobl
  obtain ⟨buf, cnt, hrun, hpending⟩ := writeBits_packs bits hinv.1 hobl
  have hkept := (sinkContract_keeps_writeBits bits s hinv).1 () _ hrun
  refine ⟨_, complete_of_ok (noResult_ok ((snkWbits_of_open hopen bits).trans hrun)), rfl, hpending, ?_, hkept⟩
  simpa [leftoverBits_length] using congrArg List.length hpending

/-! ## The split into calls -/

theorem writeBits_append (xs ys : Bits) (s : State) :
    writeBits (xs ++ ys) s = (do writeBits xs; writeBits ys : Op Unit) s := by
  induction xs generalizing s with
  | nil => rfl
  | cons b rest ih =>
    simp only [List.cons_append, writeBits, run_bind, run_modify, run_get, run_ite, ih]
    split
    · split
      · simp
      · rfl
    · rfl

/-- The loop does not close the sink. -/
theorem writeBits_keeps_open (bits : Bits) :
    Triple (·.sclosed = false) (writeBits bits) (fun _ t => t.sclosed = false) (fun _ _ => True) := by
  induction bits with
  | nil => exact triple_pure fun _ h => h
  | cons b rest ih =>
    refine triple_bind (triple_modify fun _ h => h) fun _ => triple_get fun s => triple_ite (fun _ => ?_) fun _ => ih
    exact triple_bind (triple_orIOError (snkPut_spec _) (fun _ h => h) fun _ _ => trivial) fun _ =>
      triple_bind (triple_modify fun _ h => h) fun _ => ih

/-- Settles O21: a closed sink refuses the first part as it refuses the whole; in an open one the loop over the
whole is the loops over its parts, and the sink is still open when the second call looks. -/
theorem wbitsConcatenation : Obligations.WbitsConcatenation := by
  intro xs ys s
  cases hclosed : s.sclosed with
  | true => simp [snkWbits, hclosed]
  | false =>
    rw [snkWbits_of_open hclosed, writeBits_append, run_bind, run_bind, snkWbits_of_open hclosed]
    cases hrun : writeBits xs s with
    | error e t => rfl
    | ok a t => exact (snkWbits_of_open ((writeBits_keeps_open xs s hclosed).1 a t hrun) ys).symm

/-! ## SNK.WINT and SNK.WSTR -/

/-- Settles O22: both put their bytes once the sink is open and holds no pending bit. -/
theorem byteLevelWrites : Obligations.ByteLevelWrites := fun _ v hopen hcnt hobl =>
  ⟨complete_of_ok (noResult_ok (snkWint_of_obliging hopen hcnt hobl v)),
    complete_of_ok (noResult_ok (snkWstr_of_obliging hopen hcnt hobl))⟩

/-! ## SNK.CLOSE -/

theorem snkClose_of_empty (hopen : s.sclosed = false) (hcnt : s.wcnt = 0) (hobl : s.env.obliging) :
    snkClose s = .ok () { s with sclosed := true, env := s.env.after [.snkClose true] } := by
  have hguard : ¬s.sclosed = true := by simp [hopen]
  exact (bind_of_ok (run_get s)).trans <| (run_if_neg hguard).trans <| (run_if_neg (by simp [hcnt])).trans <|
    bind_of_ok (orIOError_of_ok (snkClosePort_of_obliging hobl))

/-- Pending bits are put first, and then the buffer is empty. -/
theorem snkClose_of_pending (hopen : s.sclosed = false) (hcnt : s.wcnt ≠ 0) (hobl : s.env.obliging) :
    snkClose s = .ok () { s with
      wbuf := 0, wcnt := 0, sclosed := true
      env := s.env.after [.snkPut (paddedByte s.wbuf s.wcnt) true, .snkClose true] } := by
  have hguard : ¬s.sclosed = true := by simp [hopen]
  exact (bind_of_ok (run_get s)).trans <| (run_if_neg hguard).trans <| (run_if_pos (bne_iff_ne.mpr hcnt)).trans <|
    (bind_of_ok (orIOError_snkPut_of_obliging hobl _)).trans <| (bind_of_ok (run_modify ..)).trans <|
    bind_of_ok (orIOError_of_ok (snkClosePort_of_obliging
      (s := { s with wbuf := 0, wcnt := 0, env := s.env.after [.snkPut (paddedByte s.wbuf s.wcnt) true] })
      (hobl.after _)))

theorem State.SinkInv.wbuf_of_empty (h : s.SinkInv) (hcnt : s.wcnt = 0) : s.wbuf = 0 := by
  obtain ⟨-, hbuf⟩ := h
  rw [hcnt] at hbuf
  exact BitVec.eq_of_toNat_eq (Nat.lt_one_iff.mp hbuf)

/-- Settles O24: without pending bits the buffer is clear already; else the padded byte is that of the pending
bits. -/
theorem snkCloseFlushes : Obligations.SnkCloseFlushes := by
  intro s hopen hsink hobl
  by_cases hcnt : s.wcnt = 0
  · have hinv : s.SinkInv := hsink.resolve_right (by rw [hcnt]; decide)
    have hnone : puts (paddedBytes s.pendingBits) = [] := by rw [State.pendingBits_eq_nil_iff.mpr hcnt]; rfl
    rw [hnone, ← hinv.wbuf_of_empty hcnt, ← hcnt]
    exact complete_of_ok (noResult_ok (snkClose_of_empty hopen hcnt hobl))
  · have hle : s.wcnt.toNat ≤ 8 := by
      rcases hsink with hinv | hfull
      · exact hinv.1.trans (by decide)
      · exact (congrArg BitVec.toNat hfull).le
    rw [paddedBytes_eq_singleton (mt State.pendingBits_eq_nil_iff.mp hcnt) (State.pendingBits_length s ▸ hle),
      byteOfBits_pendingBits hle]
    exact complete_of_ok (noResult_ok (snkClose_of_pending hopen hcnt hobl))

end Sys2Proof.Machine
end

section
/-! PROOFS. The BitSource with a host that fails no call (spec/41_bitsource.md R140 to R144): the bits ahead as a
sequence, the bytes that the four operations read, and what they leave. -/

namespace Sys2Proof.Machine

variable {s : State} {rest : List Byte}

/-! ## Reading bytes -/

theorem src_after_reads {e : Env} {bytes : List Byte} (h : e.src = bytes ++ rest) :
    (e.after (reads bytes)).src = rest := by
  rw [Env.after_src _ _ (by simp [reads]), sourceBytes_reads, h, List.drop_left]

theorem after_reads_append (e : Env) (xs ys : List Byte) :
    e.after (reads (xs ++ ys)) = (e.after (reads xs)).after (reads ys) := by
  simp only [reads, List.map_append, Env.after_append]

/-- When the bytes `read` have been read, the byte behind them is, before the rest of the pseudocode. -/
theorem nextByte_bind {α : Type} {read : List Byte} {b : Byte} (hobl : s.env.obliging)
    (hsrc : s.env.src = read ++ b :: rest) (f : Byte → Op α) :
    (nextByte >>= f) (s.withEnv (s.env.after (reads read))) =
      f b (s.withEnv (s.env.after (reads (read ++ [b])))) := by
  rw [after_reads_append]
  exact bind_of_ok (nextByte_of_obliging (hobl.after _) (src_after_reads hsrc))

/-- An operation whose result is put on the result port. -/
theorem withResult_ok {α : Type} {op : Op α} {t : State} {a : α} (h : op s = .ok a t) (f : α → Result) :
    (do let a ← op; pure (f a) : Op Result) s = .ok (f a) t :=
  bind_of_ok h

theorem srcByteLevel_of_open (hopen : s.rclosed = false) (hcnt : s.rcnt = 0) : srcByteLevel s = .ok () s := by
  simp [srcByteLevel, hopen, hcnt]

/-! ## The bits ahead -/

/-- `s` with its oldest buffered bit removed. -/
def State.dropBit (s : State) : State := { s with rbuf := s.rbuf <<< 1, rcnt := s.rcnt - 1 }

/-- `s` with a byte pulled from the source into its empty buffer. -/
def State.pullByte (s : State) (b : Byte) : State :=
  { s with rbuf := b, rcnt := 8, env := s.env.after (reads [b]) }

theorem State.rcnt_dropBit (h : s.rcnt ≠ 0) : s.dropBit.rcnt.toNat + 1 = s.rcnt.toNat := by
  change (s.rcnt - 1).toNat + 1 = s.rcnt.toNat
  bv_omega

/-- The oldest buffered bit stands at bit 7 (spec/10_state.md R35). -/
theorem State.bufferedBits_dropBit (h : s.rcnt ≠ 0) :
    s.bufferedBits = s.rbuf.msb :: s.dropBit.bufferedBits := by
  rw [State.bufferedBits, ← State.rcnt_dropBit h, List.range_succ_eq_map, List.map_cons, List.map_map]
  refine congrArg₂ List.cons rfl (List.map_congr_left fun i _ => ?_)
  rw [State.dropBit, BitVec.getMsbD_shiftLeft]
  rfl

theorem State.bitsAhead_dropBit (h : s.rcnt ≠ 0) : s.bitsAhead = s.rbuf.msb :: s.dropBit.bitsAhead := by
  rw [State.bitsAhead, State.bufferedBits_dropBit h]
  rfl

theorem State.bitsAhead_of_empty (h : s.rcnt = 0) : s.bitsAhead = s.env.src.flatMap bitsOfByte := by
  rw [State.bitsAhead, State.bufferedBits, h]
  rfl

/-- A pulled byte moves from the source to the buffer: the same bits are ahead. -/
theorem State.bitsAhead_pullByte {b : Byte} (hcnt : s.rcnt = 0) (hsrc : s.env.src = b :: rest) :
    (s.pullByte b).bitsAhead = s.bitsAhead := by
  have hrest : (s.env.after (reads [b])).src = rest := src_after_reads hsrc
  rw [State.bitsAhead_of_empty hcnt, hsrc, List.flatMap_cons, ← hrest]
  rfl

/-! ## SRC.RBIT -/

theorem srcRbit_of_buffered (hopen : s.rclosed = false) (hcnt : s.rcnt ≠ 0) :
    srcRbit s = .ok s.rbuf.msb s.dropBit := by
  have hguard : ¬s.rclosed = true := by simp [hopen]
  exact (bind_of_ok (run_get s)).trans <| (run_if_neg hguard).trans <| run_if_neg hcnt

theorem srcRbit_of_empty {b : Byte} (hopen : s.rclosed = false) (hcnt : s.rcnt = 0) (hobl : s.env.obliging)
    (hsrc : s.env.src = b :: rest) : srcRbit s = .ok b.msb (s.pullByte b).dropBit := by
  have hguard : ¬s.rclosed = true := by simp [hopen]
  exact (bind_of_ok (run_get s)).trans <| (run_if_neg hguard).trans <| (run_if_pos hcnt).trans <|
    nextByte_bind (read := []) hobl hsrc _

/-- SRC.RBIT takes the first bit ahead, out of the buffer or out of the byte that it pulls. -/
theorem srcRbit_ok {b : Bool} {bits : Bits} (hopen : s.rclosed = false) (hobl : s.env.obliging)
    (hahead : s.bitsAhead = b :: bits) :
    ∃ t, srcRbit s = .ok b t ∧
      t = { s with
        rbuf := t.rbuf, rcnt := t.rcnt
        env := s.env.after (if s.rcnt = 0 then reads (s.env.src.take 1) else []) } ∧
      t.bitsAhead = bits := by
  by_cases hcnt : s.rcnt = 0
  · cases hsrc : s.env.src with
    | nil => simp [State.bitsAhead_of_empty hcnt, hsrc] at hahead
    | cons byte rest =>
      have hpulled : (s.pullByte byte).bitsAhead = _ :: _ := (State.bitsAhead_pullByte hcnt hsrc).trans hahead
      rw [State.bitsAhead_dropBit (show (8 : BitVec 4) ≠ 0 by decide)] at hpulled
      obtain ⟨rfl, hbits⟩ := List.cons.inj hpulled
      rw [if_pos hcnt]
      exact ⟨(s.pullByte byte).dropBit, srcRbit_of_empty hopen hcnt hobl hsrc, rfl, hbits⟩
  · rw [State.bitsAhead_dropBit hcnt] at hahead
    obtain ⟨rfl, hbits⟩ := List.cons.inj hahead
    rw [if_neg hcnt]
    exact ⟨s.dropBit, srcRbit_of_buffered hopen hcnt, rfl, hbits⟩

/-- Settles O25: the bit goes to the result port, and the invariant is the source's contract. -/
theorem rbitReturnsOldest : Obligations.RbitReturnsOldest := by
  intro s b bits hopen hinv hobl hahead
  obtain ⟨t, hrun, ht, hrest⟩ := srcRbit_ok hopen hobl hahead
  have hinv' : t.SourceInv := (sourceContract_keeps_srcRbit s hinv).1 b t hrun
  refine ⟨{ t with result := .bit b }, complete_of_ok (withResult_ok hrun .bit), ?_, hrest, hinv'⟩
  exact congrArg (fun t : State => { t with result := .bit b }) ht

/-! ## SRC.RINT -/

theorem srcRint_of_bytes {b3 b2 b1 b0 : Byte} (hopen : s.rclosed = false) (hcnt : s.rcnt = 0)
    (hobl : s.env.obliging) (hsrc : s.env.src = [b3, b2, b1, b0] ++ rest) :
    srcRint s = .ok (bigEndianWord b3 b2 b1 b0) (s.withEnv (s.env.after (reads [b3, b2, b1, b0]))) :=
  (bind_of_ok (srcByteLevel_of_open hopen hcnt)).trans <| (nextByte_bind (read := []) hobl hsrc _).trans <|
    (nextByte_bind (read := [b3]) hobl hsrc _).trans <| (nextByte_bind (read := [b3, b2]) hobl hsrc _).trans <|
    nextByte_bind (read := [b3, b2, b1]) hobl hsrc _

theorem bigEndianWord_extractLsb' (v : Word) :
    bigEndianWord (v.extractLsb' 24 8) (v.extractLsb' 16 8) (v.extractLsb' 8 8) (v.extractLsb' 0 8) = v := by
  rw [bigEndianWord, BitVec.extractLsb'_append_extractLsb'_eq_extractLsb' (rfl : 24 = 16 + 8),
    BitVec.extractLsb'_append_extractLsb'_eq_extractLsb' (rfl : 16 = 8 + 8),
    BitVec.extractLsb'_append_extractLsb'_eq_extractLsb' (rfl : 8 = 0 + 8)]
  exact BitVec.extractLsb'_eq_self

/-- Settles O26: the four bytes of a word give the word again. -/
theorem rintReadsBigEndian : Obligations.RintReadsBigEndian := by
  intro s v rest hopen hcnt hobl hsrc
  have hrun := srcRint_of_bytes hopen hcnt hobl hsrc
  rw [bigEndianWord_extractLsb'] at hrun
  exact complete_of_ok (withResult_ok hrun .word)

/-! ## SRC.RSTR -/

/-- The loop takes in a unit of at most 128. -/
theorem readUnits_of_unit {u : Byte} (hobl : s.env.obliging) (hsrc : s.env.src = u :: rest) (hu : u.toNat ≤ 128)
    (n : Nat) :
    readUnits (n + 1) s = readUnits n { s with ser := s.ser ++ [u], env := s.env.after (reads [u]) } := by
  have hguard : ¬Config.sentinel < u := by simpa [BitVec.lt_def] using hu
  exact (nextByte_bind (read := []) hobl hsrc _).trans (run_if_neg hguard)

/-- The loop refuses a unit above 128, which is read and not taken in. -/
theorem readUnits_of_bad_unit {bad : Byte} (hobl : s.env.obliging) (hsrc : s.env.src = bad :: rest)
    (hbad : 128 < bad.toNat) (n : Nat) :
    readUnits (n + 1) s = .error (.raised .malformedTree) (s.withEnv (s.env.after (reads [bad]))) := by
  have hguard : Config.sentinel < bad := by simpa [BitVec.lt_def] using hbad
  exact (nextByte_bind (read := []) hobl hsrc _).trans (run_if_pos hguard)

/-- The loop takes in all units before the first above 128 and goes on behind them. -/
theorem readUnits_of_units (units : List Byte) (hobl : s.env.obliging) (hsrc : s.env.src = units ++ rest)
    (hunits : ∀ u ∈ units, u.toNat ≤ 128) (n : Nat) :
    readUnits (units.length + n) s =
      readUnits n { s with ser := s.ser ++ units, env := s.env.after (reads units) } := by
  induction units generalizing s with
  | nil => simp [reads]
  | cons u units ih =>
    obtain ⟨hu, hunits⟩ := List.forall_mem_cons.mp hunits
    rw [List.length_cons, Nat.add_right_comm, readUnits_of_unit hobl hsrc hu]
    refine (ih (hobl.after _) (src_after_reads (bytes := [u]) hsrc) hunits).trans ?_
    simp [← after_reads_append]

section
variable {hi lo : Byte} (hopen : s.rclosed = false) (hcnt : s.rcnt = 0) (hobl : s.env.obliging)
  (hsrc : s.env.src = [hi, lo] ++ rest)
include hopen hcnt hobl hsrc

theorem srcRstr_of_long (hlong : 255 < prefixLength hi lo) :
    srcRstr s = .error (.raised .malformedTree) (s.withEnv (s.env.after (reads [hi, lo]))) :=
  (bind_of_ok (srcByteLevel_of_open hopen hcnt)).trans <| (nextByte_bind (read := []) hobl hsrc _).trans <|
    (nextByte_bind (read := [hi]) hobl hsrc _).trans <| run_if_pos hlong

theorem srcRstr_of_short (hshort : prefixLength hi lo ≤ 255) :
    srcRstr s = readUnits (prefixLength hi lo) { s with ser := [], env := s.env.after (reads [hi, lo]) } :=
  (bind_of_ok (srcByteLevel_of_open hopen hcnt)).trans <| (nextByte_bind (read := []) hobl hsrc _).trans <|
    (nextByte_bind (read := [hi]) hobl hsrc _).trans <| run_if_neg hshort.not_gt

end

/-- SRC.RSTR behind the units before the first above 128, with `n` more to read. -/
theorem srcRstr_of_units {hi lo : Byte} {units : List Byte} (hopen : s.rclosed = false) (hcnt : s.rcnt = 0)
    (hobl : s.env.obliging) (hsrc : s.env.src = (hi :: lo :: units) ++ rest) (hshort : prefixLength hi lo ≤ 255)
    (hunits : ∀ u ∈ units, u.toNat ≤ 128) {n : Nat} (hlen : prefixLength hi lo = units.length + n) :
    srcRstr s = readUnits n { s with ser := units, env := s.env.after (reads (hi :: lo :: units)) } := by
  rw [srcRstr_of_short hopen hcnt hobl hsrc hshort, hlen]
  exact readUnits_of_units units (hobl.after _) (src_after_reads (bytes := [hi, lo]) hsrc) hunits n

/-- Settles O27: no unit is left to read behind the last. -/
theorem rstrReadsUnits : Obligations.RstrReadsUnits := by
  intro s hi lo units rest hopen hcnt hobl hsrc hlen hshort hunits
  have hrun := srcRstr_of_units hopen hcnt hobl hsrc (hlen.trans_le hshort) hunits (n := 0) hlen
  exact complete_of_ok (noResult_ok hrun)

/-- Settles O28: a long prefix is refused before the loop, a unit above 128 by the loop behind the units before
it. -/
theorem rstrRejects : Obligations.RstrRejects := by
  intro s hi lo bad units rest hopen hcnt hobl
  refine ⟨fun hsrc hlong => ?_, fun hsrc hshort hmore hunits hbad => ?_⟩
  · exact complete_of_raised (noResult_error (srcRstr_of_long hopen hcnt hobl hsrc hlong))
  · obtain ⟨n, hlen⟩ := Nat.exists_eq_add_of_lt hmore
    have hrun := (srcRstr_of_units hopen hcnt hobl hsrc hshort hunits (n := n + 1) hlen).trans
      (readUnits_of_bad_unit (hobl.after _) (src_after_reads hsrc) hbad n)
    rw [after_reads_append]
    exact complete_of_raised (noResult_error hrun)

/-! ## SRC.CLOSE -/

theorem srcClose_of_obliging (hopen : s.rclosed = false) (hobl : s.env.obliging) :
    srcClose s = .ok () { s with rclosed := true, env := s.env.after [.srcRelease true] } := by
  have hguard : ¬s.rclosed = true := by simp [hopen]
  exact (bind_of_ok (run_get s)).trans <| (run_if_neg hguard).trans <|
    bind_of_ok (orIOError_of_ok (srcRelease_of_obliging hobl))

/-- Settles O29: the buffer is not looked at. -/
theorem srcCloseReleases : Obligations.SrcCloseReleases := fun _ hopen hobl =>
  complete_of_ok (noResult_ok (srcClose_of_obliging hopen hobl))

end Sys2Proof.Machine
end

section
/-! PROOFS. The heap order (spec/42_priority_queue.md R168): bubbling up and sifting down restore it. -/

namespace Sys2Proof.Machine

variable {h : List HeapEntry} {i j k : Nat}

/-! ## Entries as numbers -/

/-- Key and sequence number as one number, whose order is that of spec/42_priority_queue.md R161. -/
def HeapEntry.rank (e : HeapEntry) : Nat := e.key.toNat * 256 + e.seq.toNat

theorem HeapEntry.rank_lt_iff {a b : HeapEntry} :
    a.rank < b.rank ↔ a.key.toNat < b.key.toNat ∨ a.key = b.key ∧ a.seq.toNat < b.seq.toNat := by
  have ha := a.seq.isLt
  have hb := b.seq.isLt
  rw [BitVec.toNat_eq, HeapEntry.rank, HeapEntry.rank]
  omega

theorem HeapEntry.less_iff_rank_lt {a b : HeapEntry} : a.less b = true ↔ a.rank < b.rank := by
  rw [HeapEntry.rank_lt_iff]
  simp [HeapEntry.less, BitVec.ult]

theorem HeapEntry.seq_eq_of_rank_eq {a b : HeapEntry} (hab : a.rank = b.rank) : a.seq = b.seq := by
  have ha := a.seq.isLt
  have hb := b.seq.isLt
  unfold HeapEntry.rank at hab
  exact BitVec.eq_of_toNat_eq (by omega)

/-- Slot `i` is one of `1..HSIZE`. -/
def InUse (h : List HeapEntry) (i : Nat) : Prop := 1 ≤ i ∧ i ≤ h.length

theorem InUse.slot (hi : InUse h i) : ∃ e, slot h i = some e := by
  obtain ⟨h1, hlen⟩ := hi
  exact ⟨_, List.getElem?_eq_getElem (show i - 1 < h.length by omega)⟩

theorem InUse.parent (h2 : 2 ≤ i) (hlen : i ≤ h.length) : InUse h (i / 2) := by
  unfold InUse
  omega

/-- The rank of the entry in slot `i`. -/
def rankAt (h : List HeapEntry) (i : Nat) : Nat := (slot h i).elim 0 HeapEntry.rank

theorem rankAt_of_slot {e : HeapEntry} (he : slot h i = some e) : rankAt h i = e.rank := by
  rw [rankAt, he, Option.elim_some]

theorem slotLess_iff_rankAt_lt (hi : InUse h i) (hj : InUse h j) :
    slotLess h i j = true ↔ rankAt h i < rankAt h j := by
  obtain ⟨a, ha⟩ := hi.slot
  obtain ⟨b, hb⟩ := hj.slot
  rw [rankAt_of_slot ha, rankAt_of_slot hb, ← HeapEntry.less_iff_rank_lt, slotLess, ha, hb]

/-! ## A swap -/

@[simp] theorem swapSlots_length (h : List HeapEntry) (i j : Nat) : (swapSlots h i j).length = h.length :=
  (swapSlots_perm h i j).length_eq

/-- A swap exchanges the ranks of its two slots. -/
theorem rankAt_swapSlots (hi : InUse h i) (hj : InUse h j) (hk : 1 ≤ k) :
    rankAt (swapSlots h i j) k = rankAt h (Equiv.swap i j k) := by
  obtain ⟨a, ha⟩ := hi.slot
  obtain ⟨b, hb⟩ := hj.slot
  have hswap : swapSlots h i j = (h.set (i - 1) b).set (j - 1) a := by rw [swapSlots, ha, hb]
  obtain ⟨hi1, hilen⟩ := hi
  obtain ⟨hj1, hjlen⟩ := hj
  by_cases hkj : k = j
  · subst hkj
    rw [Equiv.swap_apply_right, hswap, rankAt_of_slot ha]
    exact rankAt_of_slot (List.getElem?_set_self (by simp; omega))
  rw [rankAt, hswap, slot, List.getElem?_set_ne (by omega)]
  by_cases hki : k = i
  · subst hki
    rw [Equiv.swap_apply_left, rankAt_of_slot hb, List.getElem?_set_self (by omega), Option.elim_some]
  · rw [Equiv.swap_apply_of_ne_of_ne hki hkj, List.getElem?_set_ne (by omega)]
    rfl

theorem rankAt_swapSlots_left (hi : InUse h i) (hj : InUse h j) : rankAt (swapSlots h i j) i = rankAt h j := by
  rw [rankAt_swapSlots hi hj hi.1, Equiv.swap_apply_left]

theorem rankAt_swapSlots_right (hi : InUse h i) (hj : InUse h j) : rankAt (swapSlots h i j) j = rankAt h i := by
  rw [rankAt_swapSlots hi hj hj.1, Equiv.swap_apply_right]

theorem rankAt_swapSlots_of_ne (hi : InUse h i) (hj : InUse h j) (hk : 1 ≤ k) (hki : k ≠ i) (hkj : k ≠ j) :
    rankAt (swapSlots h i j) k = rankAt h k := by
  rw [rankAt_swapSlots hi hj hk, Equiv.swap_apply_of_ne_of_ne hki hkj]

/-! ## Heaps with one place out of order -/

/-- No parent is above its child, but perhaps where the child is `exempt`. -/
def RankedBut (exempt : Nat → Prop) (h : List HeapEntry) : Prop :=
  ∀ k, 2 ≤ k → k ≤ h.length → ¬exempt k → rankAt h (k / 2) ≤ rankAt h k

/-- The children of slot `i` are not below the parent of slot `i`, so that the entry of slot `i` can move either way. -/
def Bridged (i : Nat) (h : List HeapEntry) : Prop :=
  ∀ k, k / 2 = i → 2 ≤ i → k ≤ h.length → rankAt h (i / 2) ≤ rankAt h k

/-- No parent is above its child. -/
abbrev Ranked : List HeapEntry → Prop := RankedBut fun _ => False

/-- The loop of PQ.INSERT at slot `i`: only that slot's entry may be below its parent. -/
structure Rising (i : Nat) (h : List HeapEntry) : Prop where
  inUse : InUse h i
  ranked : RankedBut (fun k => k = i) h
  bridged : Bridged i h

/-- The loop of PQ.DELMIN at slot `i`: only that slot's entry may be above its children. -/
structure Sinking (i : Nat) (h : List HeapEntry) : Prop where
  pos : 1 ≤ i
  ranked : RankedBut (fun k => k / 2 = i) h
  bridged : Bridged i h

/-! ## PQ.INSERT -/

theorem Rising.ranked_of_not_less (hr : Rising i h) (hstop : ¬(1 < i ∧ slotLess h i (i / 2) = true)) : Ranked h := by
  intro k h2 hlen _
  by_cases hk : k = i
  · subst hk
    rw [slotLess_iff_rankAt_lt hr.inUse (.parent h2 hlen)] at hstop
    omega
  · exact hr.ranked k h2 hlen hk

/-- The entry has changed places with its parent. -/
theorem Rising.swap (hr : Rising i h) (hi : 1 < i) (hless : slotLess h i (i / 2) = true) :
    Rising (i / 2) (swapSlots h i (i / 2)) := by
  obtain ⟨hinUse, hranked, hbridged⟩ := hr
  have hparent : InUse h (i / 2) := .parent hi hinUse.2
  rw [slotLess_iff_rankAt_lt hinUse hparent] at hless
  have hleft := rankAt_swapSlots_left hinUse hparent
  have hright := rankAt_swapSlots_right hinUse hparent
  have hother {k : Nat} := rankAt_swapSlots_of_ne (k := k) hinUse hparent
  refine ⟨by simpa [InUse] using hparent, fun k h2 hlen hk => ?_, fun k hk h2 hlen => ?_⟩
  · rw [swapSlots_length] at hlen
    by_cases hki : k = i
    · subst hki
      omega
    have hle := hranked k h2 hlen hki
    rw [hother (by omega) hki hk]
    by_cases hup : k / 2 = i
    · rw [hup, hleft]
      exact hbridged k hup hi hlen
    by_cases hsib : k / 2 = i / 2
    · rw [hsib] at hle ⊢
      omega
    · rwa [hother (by omega) hup hsib]
  · rw [swapSlots_length] at hlen
    have hgrand := hranked (i / 2) h2 hparent.2 (by omega)
    rw [hother (by omega) (by omega) (by omega)]
    by_cases hki : k = i
    · rwa [hki, hleft]
    · have hle := hranked k (by omega) hlen hki
      rw [hk] at hle
      rw [hother (by omega) hki (by omega)]
      exact hgrand.trans hle

theorem bubbleUp_ranked (fuel : Nat) (hr : Rising i h) (hfuel : i ≤ fuel) : Ranked (bubbleUp fuel i h) := by
  induction fuel generalizing i h with
  | zero => exact absurd (hr.inUse.1.trans hfuel) (by decide)
  | succ fuel ih =>
    unfold bubbleUp
    split
    · next hgo =>
      obtain ⟨hi, hless⟩ : 1 < i ∧ slotLess h i (i / 2) = true := by simpa using hgo
      exact ih (hr.swap hi hless) (by omega)
    · next hstop => exact hr.ranked_of_not_less (by simpa using hstop)

/-- The new entry starts behind all others. -/
theorem Ranked.append (hh : Ranked h) (e : HeapEntry) : Rising (h.length + 1) (h ++ [e]) where
  inUse := by simp [InUse]
  ranked := by
    intro k h2 hlen hk
    rw [List.length_append, List.length_singleton] at hlen
    have hold {m : Nat} (h1 : 1 ≤ m) (hm : m ≤ h.length) : rankAt (h ++ [e]) m = rankAt h m := by
      rw [rankAt, slot, List.getElem?_append_left (by omega)]
      rfl
    rw [hold (by omega) (by omega), hold (by omega) (by omega)]
    exact hh k h2 (by omega) not_false
  bridged := by
    intro k hk _ hlen
    rw [List.length_append, List.length_singleton] at hlen
    omega

theorem heapInsert_ranked (hh : Ranked h) (e : HeapEntry) : Ranked (heapInsert h e) :=
  bubbleUp_ranked _ (hh.append e) le_rfl

/-! ## PQ.DELMIN -/

theorem smallerChild_eq_none (hc : smallerChild h i = none) : h.length < 2 * i := by
  dsimp only [smallerChild] at hc
  split at hc
  · assumption
  · split at hc <;> cases hc

/-- The smaller child is a child, and no child is below it. -/
theorem smallerChild_eq_some {c : Nat} (hi : 1 ≤ i) (hc : smallerChild h i = some c) :
    c / 2 = i ∧ InUse h c ∧ ∀ k, k / 2 = i → k ≤ h.length → rankAt h c ≤ rankAt h k := by
  dsimp only [smallerChild] at hc
  split at hc
  · cases hc
  next hfirst =>
  have hleft : InUse h (2 * i) := ⟨by omega, by omega⟩
  have hchild {k : Nat} (hk : k / 2 = i) : k = 2 * i ∨ k = 2 * i + 1 := by omega
  split at hc
  · next hsecond =>
    obtain ⟨hlen, hless⟩ : 2 * i + 1 ≤ h.length ∧ slotLess h (2 * i + 1) (2 * i) = true := by simpa using hsecond
    have hright : InUse h (2 * i + 1) := ⟨by omega, hlen⟩
    rw [slotLess_iff_rankAt_lt hright hleft] at hless
    cases hc
    refine ⟨by omega, hright, fun k hk _ => ?_⟩
    obtain rfl | rfl := hchild hk
    · exact hless.le
    · exact le_rfl
  · next hsecond =>
    cases hc
    refine ⟨by omega, hleft, fun k hk hlen => ?_⟩
    obtain rfl | rfl := hchild hk
    · exact le_rfl
    · have hright : InUse h (2 * i + 1) := ⟨by omega, hlen⟩
      rw [← not_lt, ← slotLess_iff_rankAt_lt hright hleft]
      simpa [hlen] using hsecond

theorem Sinking.ranked_of_childless (hs : Sinking i h) (hc : h.length < 2 * i) : Ranked h :=
  fun k h2 hlen _ => hs.ranked k h2 hlen (by omega)

section
variable {c : Nat} (hs : Sinking i h) (hci : c / 2 = i) (hc : InUse h c)
  (hleast : ∀ k, k / 2 = i → k ≤ h.length → rankAt h c ≤ rankAt h k)
include hs hci hc hleast

theorem Sinking.ranked_of_not_less (hstop : ¬slotLess h c i = true) : Ranked h := by
  have hi : InUse h i := hci ▸ .parent (by have := hs.pos; omega) hc.2
  rw [slotLess_iff_rankAt_lt hc hi, not_lt] at hstop
  intro k h2 hlen _
  by_cases hk : k / 2 = i
  · rw [hk]
    exact hstop.trans (hleast k hk hlen)
  · exact hs.ranked k h2 hlen hk

/-- The entry has changed places with its smaller child. -/
theorem Sinking.swap (hless : slotLess h c i = true) : Sinking c (swapSlots h c i) := by
  obtain ⟨hpos, hranked, hbridged⟩ := hs
  have hi : InUse h i := hci ▸ .parent (by omega) hc.2
  rw [slotLess_iff_rankAt_lt hc hi] at hless
  have hleft := rankAt_swapSlots_left hc hi
  have hright := rankAt_swapSlots_right hc hi
  have hother {k : Nat} := rankAt_swapSlots_of_ne (k := k) hc hi
  refine ⟨hc.1, fun k h2 hlen hk => ?_, fun k hk _ hlen => ?_⟩
  · rw [swapSlots_length] at hlen
    by_cases hki : k = i
    · rw [hki, hright, hother (by omega) (by omega) (by omega)]
      exact hbridged c hci (hki ▸ h2) hc.2
    by_cases hup : k / 2 = i
    · rw [hup, hright]
      by_cases hkc : k = c
      · rw [hkc, hleft]
        exact hless.le
      · rw [hother (by omega) hkc hki]
        exact hleast k hup hlen
    · rw [hother (by omega) hk hup, hother (by omega) (by rintro rfl; exact hup hci) hki]
      exact hranked k h2 hlen hup
  · rw [swapSlots_length] at hlen
    have hle := hranked k (by omega) hlen (by omega)
    rw [hk] at hle
    rwa [hci, hright, hother (by omega) (by omega) (by omega)]

end

theorem siftDown_ranked (fuel : Nat) (hs : Sinking i h) (hfuel : h.length < fuel + i) :
    Ranked (siftDown fuel i h) := by
  induction fuel generalizing i h with
  | zero => exact hs.ranked_of_childless (by omega)
  | succ fuel ih =>
    unfold siftDown
    split
    · next hc => exact hs.ranked_of_childless (smallerChild_eq_none hc)
    · next c hchild =>
      have hpos := hs.pos
      obtain ⟨hci, hc, hleast⟩ := smallerChild_eq_some hpos hchild
      split
      · next hless =>
        exact ih (hs.swap hci hc hleast hless) (by rw [swapSlots_length]; omega)
      · next hstop => exact hs.ranked_of_not_less hci hc hleast hstop

/-- What stands in slot 1 does not matter, nor that the last entry is gone. -/
theorem Ranked.set_dropLast (hh : Ranked h) (e : HeapEntry) : Sinking 1 (h.set 0 e).dropLast where
  pos := le_rfl
  ranked := by
    intro k h2 hlen hk
    rw [List.length_dropLast, List.length_set] at hlen
    have hold {m : Nat} (hm : 2 ≤ m) (hlast : m < h.length) : rankAt (h.set 0 e).dropLast m = rankAt h m := by
      rw [rankAt, slot, List.getElem?_dropLast, if_pos (by rw [List.length_set]; omega),
        List.getElem?_set_ne (by omega)]
      rfl
    rw [hold (by omega) (by omega), hold h2 (by omega)]
    exact hh k h2 (by omega) not_false
  bridged := fun _ _ h2 => absurd h2 (by decide)

theorem heapRemoveTop_ranked {top : HeapEntry} {rest : List HeapEntry} (hh : Ranked (top :: rest)) :
    Ranked (heapRemoveTop top rest) :=
  siftDown_ranked _ (hh.set_dropLast _) (Nat.lt_succ_self _)

/-! ## The order of spec/42_priority_queue.md R168 -/

theorem heapOrdered.ranked (hh : heapOrdered h) : Ranked h := fun k h2 hlen _ =>
  ((slotLess_iff_rankAt_lt (.parent h2 hlen) ⟨by omega, hlen⟩).mp (hh k h2 hlen)).le

theorem seqs_getElem?_of_slot {e : HeapEntry} (he : slot h i = some e) : (h.map (·.seq))[i - 1]? = some e.seq := by
  rw [List.getElem?_map, show h[i - 1]? = some e from he, Option.map_some]

/-- With different sequence numbers no two ranks are equal. -/
theorem Ranked.heapOrdered (hh : Ranked h) (hseq : (h.map (·.seq)).Nodup) : heapOrdered h := by
  intro k h2 hlen
  have hk : InUse h k := ⟨by omega, hlen⟩
  have hp : InUse h (k / 2) := .parent h2 hlen
  obtain ⟨p, hslotp⟩ := hp.slot
  obtain ⟨c, hslotc⟩ := hk.slot
  rw [slotLess_iff_rankAt_lt hp hk]
  refine lt_of_le_of_ne (hh k h2 hlen not_false) fun heq => ?_
  rw [rankAt_of_slot hslotp, rankAt_of_slot hslotc] at heq
  have hsame : (h.map (·.seq))[k / 2 - 1]? = (h.map (·.seq))[k - 1]? :=
    calc (h.map (·.seq))[k / 2 - 1]? = some p.seq := seqs_getElem?_of_slot hslotp
      _ = some c.seq := congrArg some (HeapEntry.seq_eq_of_rank_eq heq)
      _ = (h.map (·.seq))[k - 1]? := (seqs_getElem?_of_slot hslotc).symm
  have hidx : k / 2 - 1 = k - 1 := (List.getElem?_inj (by rw [List.length_map]; omega) hseq).mp hsame
  omega

/-- Slot 1 is below every other slot. -/
theorem heapOrdered.rankAt_one_lt (hh : heapOrdered h) (h2 : 2 ≤ k) (hlen : k ≤ h.length) :
    rankAt h 1 < rankAt h k := by
  induction k using Nat.strong_induction_on with
  | _ k ih =>
    have hp : InUse h (k / 2) := .parent h2 hlen
    have hstep := (slotLess_iff_rankAt_lt hp ⟨by omega, hlen⟩).mp (hh k h2 hlen)
    by_cases hroot : k / 2 = 1
    · rwa [hroot] at hstep
    · exact (ih (k / 2) (by omega) (by omega) hp.2).trans hstep

theorem heapOrdered.top_rank_lt {top e : HeapEntry} {rest : List HeapEntry} (hh : heapOrdered (top :: rest))
    (he : e ∈ rest) : top.rank < e.rank := by
  obtain ⟨n, hn⟩ := List.mem_iff_getElem?.mp he
  have hlen := (List.getElem?_eq_some_iff.mp hn).1
  have hslot : slot (top :: rest) (n + 2) = some e := by simpa [slot] using hn
  rw [← rankAt_of_slot hslot]
  exact hh.rankAt_one_lt (by omega) (by rw [List.length_cons]; omega)

/-- The keys alone: "parent key ≤ child key" (spec/42_priority_queue.md R168). -/
theorem heapOrdered.key_le (hh : heapOrdered h) (h2 : 2 ≤ i) (hlen : i ≤ h.length) :
    ∃ p c, h[i / 2 - 1]? = some p ∧ h[i - 1]? = some c ∧ p.key.toNat ≤ c.key.toNat := by
  have hp : InUse h (i / 2) := .parent h2 hlen
  have hc : InUse h i := ⟨by omega, hlen⟩
  obtain ⟨p, hslotp⟩ := hp.slot
  obtain ⟨c, hslotc⟩ := hc.slot
  have hlt := (slotLess_iff_rankAt_lt hp hc).mp (hh i h2 hlen)
  rw [rankAt_of_slot hslotp, rankAt_of_slot hslotc, HeapEntry.rank_lt_iff] at hlt
  refine ⟨p, c, hslotp, hslotc, ?_⟩
  obtain hkey | ⟨hkey, -⟩ := hlt
  · exact hkey.le
  · exact hkey ▸ le_rfl

end Sys2Proof.Machine
end

section
/-! PROOFS. The PriorityQueue (spec/42_priority_queue.md R161 to R168): its invariant, and what its operations
answer. -/

namespace Sys2Proof.Machine

variable {s : State} {top : HeapEntry} {rest : List HeapEntry}

/-! ## What the operations make of the queue -/

theorem heapInsert_ordered {h : List HeapEntry} {e : HeapEntry} (hh : heapOrdered h)
    (hseq : ((e :: h).map (·.seq)).Nodup) : heapOrdered (heapInsert h e) :=
  (heapInsert_ranked hh.ranked e).heapOrdered (((heapInsert_perm h e).map _).nodup_iff.mpr hseq)

theorem heapRemoveTop_ordered (hh : heapOrdered (top :: rest)) (hseq : (rest.map (·.seq)).Nodup) :
    heapOrdered (heapRemoveTop top rest) :=
  (heapRemoveTop_ranked hh.ranked).heapOrdered (((heapRemoveTop_perm top rest).map _).nodup_iff.mpr hseq)

theorem State.QueueInv.of_eq {t : State} (h : s.QueueInv) (hheap : t.heap = s.heap) (hseq : t.seq = s.seq) :
    t.QueueInv where
  size := hheap ▸ h.size
  ordered := hheap ▸ h.ordered
  stamped := by
    rw [hheap, hseq]
    exact h.stamped
  distinct := hheap ▸ h.distinct

theorem State.QueueInv.of_empty (h : s.heap = []) : s.QueueInv where
  size := h ▸ Nat.zero_le _
  ordered := h ▸ fun _ h2 hlen => absurd (h2.trans hlen) (by decide)
  stamped := h ▸ nofun
  distinct := h ▸ List.nodup_nil

/-- `SEQ` stamps no entry yet. -/
theorem State.QueueInv.seq_fresh (h : s.QueueInv) (key : Word) (n : NodeRef) :
    ((({ key := key, seq := s.seq, pay := n } : HeapEntry) :: s.heap).map (·.seq)).Nodup := by
  refine List.nodup_cons.mpr ⟨fun hm => ?_, h.distinct⟩
  obtain ⟨e, he, hseq⟩ := List.mem_map.mp hm
  exact absurd (h.stamped e he) (hseq ▸ lt_irrefl _)

theorem State.QueueInv.insert (h : s.QueueInv) (hroom : s.heap.length < 128) (hseq : s.seq.toNat < 255) (key : Word)
    (n : NodeRef) :
    State.QueueInv
      { s with heap := heapInsert s.heap { key := key, seq := s.seq, pay := n }, seq := s.seq + 1 } where
  size := (heapInsert_length _ _).trans_le hroom
  ordered := heapInsert_ordered h.ordered (h.seq_fresh key n)
  stamped := by
    have hnext : (s.seq + 1).toNat = s.seq.toNat + 1 := BitVec.toNat_add_of_lt (by simp; omega)
    intro e he
    rw [hnext]
    obtain rfl | he := List.mem_cons.mp ((heapInsert_perm _ _).mem_iff.mp he)
    · exact Nat.lt_succ_self _
    · exact (h.stamped e he).trans (Nat.lt_succ_self _)
  distinct := ((heapInsert_perm _ _).map _).nodup_iff.mpr (h.seq_fresh key n)

theorem State.QueueInv.removeTop (h : s.QueueInv) (hs : s.heap = top :: rest) :
    State.QueueInv { s with heap := heapRemoveTop top rest } := by
  obtain ⟨hsize, hordered, hstamped, hdistinct⟩ := h
  rw [hs] at hsize hordered hstamped hdistinct
  have hrest : (rest.map (·.seq)).Nodup := (List.nodup_cons.mp hdistinct).2
  exact
    { size := (heapRemoveTop_length top rest).trans_le (Nat.le_of_succ_le hsize)
      ordered := heapRemoveTop_ordered hordered hrest
      stamped := fun e he => hstamped e (List.mem_cons_of_mem _ ((heapRemoveTop_perm top rest).mem_iff.mp he))
      distinct := ((heapRemoveTop_perm top rest).map _).nodup_iff.mpr hrest }

/-! ## Every step -/

/-- The queue is untouched by port calls, and a raise leaves it as it was. -/
def queueContract : Contract where
  inv := State.QueueInv
  raised _ := State.QueueInv
  inv_call _ h := h.of_eq rfl rfl
  raised_of_inv _ h := h

theorem queueContract_keeps_pqInsert (key : Word) (n : NodeRef) : queueContract.Keeps (pqInsert key n) := by
  refine triple_get_bind fun s hs => triple_guard (fun _ _ ht => ht ▸ hs) fun hgo => triple_modify ?_
  rintro t rfl
  have hfull : t.heap.length ≠ 128 := fun he => hgo (by simp [State.pqFull, he])
  have hlast : t.seq.toNat ≠ 255 := fun he => hgo (by simp [BitVec.eq_of_toNat_eq (y := Config.seqMax) he])
  have hsize : t.heap.length ≤ 128 := hs.size
  exact hs.insert (by omega) (by omega) key n

theorem queueContract_keeps_pqDelmin : queueContract.Keeps pqDelmin := by
  refine triple_get_bind fun s hs => ?_
  cases hheap : s.heap with
  | nil => exact triple_raise fun _ ht => ht ▸ hs
  | cons top rest =>
    refine triple_bind (Q := fun _ => State.QueueInv) (triple_modify ?_) fun _ => triple_pure fun _ ht => ht
    rintro _ rfl
    exact hs.removeTop hheap

/-- An operation that ends normally from every state with the precondition. -/
theorem triple_of_ok {α : Type} {P : State → Prop} {Q : α → State → Prop} {E : ErrKind → State → Prop} {op : Op α}
    (h : ∀ s, P s → ∃ a t, op s = .ok a t ∧ Q a t) : Triple P op Q E := by
  intro s hs
  obtain ⟨a, t, hrun, ht⟩ := h s hs
  rw [hrun]
  refine ⟨fun _ _ he => ?_, fun _ _ he => by cases he⟩
  cases he
  exact ht

/-- HT.BUILD leaves the queue empty. -/
theorem queueContract_keeps_htBuild : queueContract.Keeps htBuild := triple_of_ok fun s _ => by
  obtain ⟨nodes, seq, root, hrun, -⟩ := htBuild_ok s
  exact ⟨(), _, hrun, .of_empty rfl⟩

theorem queueContract_ignoresTree : queueContract.IgnoresTree := fun _ _ _ _ _ h => h.of_eq rfl rfl

theorem queueContract_keptByUnits : queueContract.KeptByUnits where
  counts _ _ _ _ h := h.of_eq rfl rfl
  writeBits := Contract.keeps_writeBits fun _ _ _ h => h.of_eq rfl rfl
  snkClose := Contract.keeps_snkClose (fun _ h => h.of_eq rfl rfl) fun _ h => h.of_eq rfl rfl
  srcRbit := Contract.keeps_srcRbit fun _ _ _ h => h.of_eq rfl rfl
  srcRstr := Contract.keeps_srcRstr fun _ _ _ h => h.of_eq rfl rfl
  srcClose := Contract.keeps_srcClose fun _ h => h.of_eq rfl rfl
  pqInsert := queueContract_keeps_pqInsert
  pqDelmin := queueContract_keeps_pqDelmin
  htBuild := queueContract_keeps_htBuild
  htGencodes := Contract.keeps_htGencodes (fun _ _ _ _ h => h.of_eq rfl rfl) fun _ h => h.of_eq rfl rfl
  htSer := Contract.keeps_htSer queueContract_ignoresTree
  htDeser := Contract.keeps_htDeser queueContract_ignoresTree

theorem queueContract_keptBySequencer : queueContract.KeptBySequencer where
  reset := reset_queueInv
  outside _ _ _ h := h.of_eq rfl rfl
  advance _ _ h := h.of_eq rfl rfl

theorem FailedFrom.queueInv {k : ErrKind} {t u : State} (h : FailedFrom k t u) (ht : t.QueueInv) : u.QueueInv := by
  unfold FailedFrom at h
  rw [h]
  exact ht.of_eq rfl rfl

theorem step_keeps_queueInv {s u : State} (h : step s = .next u) (hs : s.QueueInv) : u.QueueInv := by
  obtain hu | ⟨k, t, ht, hk⟩ := queueContract_keptBySequencer.step hs queueContract_keptByUnits h
  · exact hu
  · exact hk.queueInv ht

/-- Settles O34: the queue's contract, and the heap order read for the keys alone. -/
theorem stepKeepsQueueInv : Obligations.StepKeepsQueueInv := fun _ _ hs h =>
  have hu := step_keeps_queueInv h hs
  ⟨hu, fun _ => hu.ordered.key_le⟩

/-! ## PQ.INSERT and PQ.DELMIN -/

/-- Settles O31: with room and a sequence number left the entry is inserted. -/
theorem insertAddsEntry : Obligations.InsertAddsEntry := by
  intro s key payload hroom hseq
  have hlt : s.seq.toNat < 255 := by
    have h255 : s.seq.toNat ≠ 255 := fun he => hseq (BitVec.eq_of_toNat_eq he)
    omega
  exact ⟨_, complete_of_ok (noResult_ok (pqInsert_of_room hroom hlt key payload)), heapInsert_perm _ _,
    fun h => (h.insert hroom hlt key payload).ordered⟩

/-- Settles O32: the entry in slot 1 is below all others by the heap order, and sifting down restores it. -/
theorem delminTakesLeast : Obligations.DelminTakesLeast := by
  intro s top rest h hs
  have hordered : heapOrdered (top :: rest) := hs ▸ h.ordered
  exact ⟨heapRemoveTop top rest, complete_of_ok (withResult_ok (pqDelmin_of_cons hs) .node),
    heapRemoveTop_perm top rest, (h.removeTop hs).ordered,
    fun e he => HeapEntry.rank_lt_iff.mp (hordered.top_rank_lt he)⟩

end Sys2Proof.Machine
end

section
/-! PROOFS. The queries of the PriorityQueue and their codes (spec/42_priority_queue.md R164 to R167,
spec/30_encoding.md R101). -/

namespace Sys2Proof

open Laws.OperationCode (unitFunc)

/-! ## Codes -/

theorem op_toNat_eq_fields : ∀ op : BitVec 8, op.toNat = (unitField op).toNat * 16 + (funcField op).toNat := by
  decide

/-- What decodes to an operation has the operation's `UNIT` and `FUNC`. -/
theorem unitFunc_of_decode {t : Transfer} {i : Instr} (h : decode t = .ok i) :
    unitFunc i = ((unitField t.op).toNat, (funcField t.op).toNat) := by
  unfold decode at h
  split at h <;> cases h <;> simp only [unitFunc, *]

/-- An operation whose code every transfer decodes to it has no other code. -/
theorem decode_eq_ok_iff_op {t : Transfer} {i : Instr} {op : BitVec 8}
    (hop : op.toNat = (unitFunc i).1 * 16 + (unitFunc i).2) (h : t.op = op → decode t = .ok i) :
    decode t = .ok i ↔ t.op = op := by
  refine ⟨fun hdecode => BitVec.eq_of_toNat_eq ?_, h⟩
  rw [op_toNat_eq_fields, hop, unitFunc_of_decode hdecode]

end Sys2Proof

namespace Sys2Proof.Machine

theorem pqPeek_of_nil {s : State} (h : s.heap = []) : pqPeek s = .error (.raised .precondition) s := by
  simp [pqPeek, h]

/-- An operation that raises puts nothing on the result port. -/
theorem withResult_error {α : Type} {op : Op α} {s t : State} {e : Halt} (h : op s = .error e t) (f : α → Result) :
    (do let a ← op; pure (f a) : Op Result) s = .error e t := by
  rw [run_bind, h]

/-- Settles O33: the four run without writing, PQ.PEEK on a non-empty queue only, and each has the code of its row. -/
theorem queueQueriesAnswer : Obligations.QueueQueriesAnswer := by
  intro s t
  obtain ⟨-, -, -, -, -, -, -, -, -, -, -, -, -, -, -, -, -, hpeek, hisempty, hisfull, hsize, -⟩ := operationCodeMap t
  exact ⟨fun _ _ hs => complete_of_ok (withResult_ok (pqPeek_of_cons hs) .key),
    fun hs => complete_of_raised (withResult_error (pqPeek_of_nil hs) .key),
    rfl, rfl, rfl,
    decode_eq_ok_iff_op rfl hpeek, decode_eq_ok_iff_op rfl hisempty, decode_eq_ok_iff_op rfl hisfull,
    decode_eq_ok_iff_op rfl hsize⟩

end Sys2Proof.Machine
end

section
/-! PROOFS. The Huffman construction on an ordered list (spec/43_huffman_tree.md R181): the list stays ascending, and
nothing but the new tree comes into it. -/

namespace Sys2Proof.Machine

variable {s : State} {ws : List Weighted} {v w : Weighted}

/-- The queue entry of a weighted tree whose root is node `n`. -/
def Weighted.entry (w : Weighted) (n : NodeRef) : HeapEntry := { key := w.key, seq := w.seq, pay := n }

/-- The rank of the tree's queue entry, wherever the tree is stored. -/
def Weighted.rank (w : Weighted) : Nat := (w.entry 0).rank

theorem Weighted.rank_entry (w : Weighted) (n : NodeRef) : (w.entry n).rank = w.rank := rfl

theorem Weighted.less_iff_rank_lt : w.less v = true ↔ w.rank < v.rank :=
  HeapEntry.less_iff_rank_lt (a := w.entry 0) (b := v.entry 0)

theorem Weighted.key_le_of_rank_le (h : w.rank ≤ v.rank) : w.key.toNat ≤ v.key.toNat := by
  have hw := w.seq.isLt
  have hv := v.seq.isLt
  simp only [Weighted.rank, HeapEntry.rank, Weighted.entry] at h
  omega

/-- In the order of spec/42_priority_queue.md R161. -/
def Ascending (ws : List Weighted) : Prop := ws.Pairwise fun v w => v.rank ≤ w.rank

theorem insertWeighted_perm (w : Weighted) (ws : List Weighted) : (insertWeighted w ws).Perm (w :: ws) := by
  induction ws with
  | nil => exact .refl _
  | cons v rest ih =>
    rw [insertWeighted]
    split
    · exact .refl _
    · exact (ih.cons v).trans (.swap ..)

theorem Ascending.insertWeighted (h : Ascending ws) (w : Weighted) : Ascending (insertWeighted w ws) := by
  induction ws with
  | nil => exact List.pairwise_singleton _ _
  | cons v rest ih =>
    obtain ⟨hv, hrest⟩ := List.pairwise_cons.mp h
    rw [Machine.insertWeighted]
    split
    · next hless =>
      have hwv := Weighted.less_iff_rank_lt.mp hless
      exact List.pairwise_cons.mpr ⟨List.forall_mem_cons.mpr ⟨hwv.le, fun x hx => hwv.le.trans (hv x hx)⟩, h⟩
    · next hless =>
      have hvw : v.rank ≤ w.rank := not_lt.mp (mt Weighted.less_iff_rank_lt.mpr hless)
      refine List.pairwise_cons.mpr ⟨fun x hx => ?_, ih hrest⟩
      obtain rfl | hx := List.mem_cons.mp ((insertWeighted_perm w rest).mem_iff.mp hx)
      · exact hvw
      · exact hv x hx

theorem seedWeighted_ascending (s : State) (seq : BitVec 8) (syms : List Symbol) :
    Ascending (seedWeighted s seq syms) := by
  induction syms generalizing seq with
  | nil => exact .nil
  | cons sym rest ih => exact (ih (seq + 1)).insertWeighted _

theorem seedWeighted_length (s : State) (seq : BitVec 8) (syms : List Symbol) :
    (seedWeighted s seq syms).length = syms.length := by
  induction syms generalizing seq with
  | nil => rfl
  | cons sym rest ih => rw [seedWeighted, (insertWeighted_perm _ _).length_eq, List.length_cons, ih, List.length_cons]

end Sys2Proof.Machine
end

section
/-! PROOFS. HT.BUILD (spec/43_huffman_tree.md R181) follows the construction on an ordered list: the entries of the
queue are at all times those of the list, in the order of a heap. -/

namespace Sys2Proof.Machine

variable {s : State} {nodes : List Node} {heap : List HeapEntry} {ws : List Weighted} {leaves : Nat}

/-! ## Stored trees are determined -/

theorem Tree.storedAt.unique {t t' : Tree} {n : NodeRef} (h : t.storedAt nodes n) (h' : t'.storedAt nodes n) :
    t = t' := by
  induction t generalizing t' n with
  | leaf sym =>
    cases t' with
    | leaf sym' => simpa using Option.some.inj (h.symm.trans h')
    | node l' r' =>
      obtain ⟨a, b, hn, -, -⟩ := h'
      exact nomatch Option.some.inj (h.symm.trans hn)
  | node l r ihl ihr =>
    obtain ⟨a, b, hn, hl, hr⟩ := h
    cases t' with
    | leaf sym' => exact nomatch Option.some.inj (hn.symm.trans h')
    | node l' r' =>
      obtain ⟨a', b', hn', hl', hr'⟩ := h'
      obtain ⟨rfl, rfl⟩ := Node.branch.inj (Option.some.inj (hn.symm.trans hn'))
      rw [ihl hl hl', ihr hr hr']

theorem State.holdsTree.unique {t t' : Tree} (h : s.holdsTree t) (h' : s.holdsTree t') : t = t' :=
  h.2.unique h'.2

/-- A tree among stored trees without sharing is itself stored without sharing. -/
theorem Owned.refs_nodup {roots : List NodeRef} {t : Tree} {n : NodeRef} (h : Owned nodes (n :: roots))
    (ht : t.storedAt nodes n) : (t.refs nodes n).Nodup := by
  obtain ⟨t', ht', hnodup⟩ := h.tree
  exact ht.unique ht' ▸ hnodup

/-- In a store of at most 255 nodes no stored tree has its root at NIL. -/
theorem Tree.storedAt.ne_nil {t : Tree} {n : NodeRef} (h : t.storedAt nodes n) (hlen : nodes.length ≤ 255) :
    n ≠ Config.nil := by
  rintro rfl
  exact absurd h.lt (Nat.not_lt.mpr hlen)

/-! ## The queue and the list -/

/-- The entry is that of the weighted tree, which is stored at its node. -/
def EntryOf (nodes : List Node) (e : HeapEntry) (w : Weighted) : Prop :=
  e = w.entry e.pay ∧ w.tree.storedAt nodes e.pay

theorem EntryOf.rank {e : HeapEntry} {w : Weighted} (h : EntryOf nodes e w) : e.rank = w.rank := by
  rw [h.1, Weighted.rank_entry]

theorem EntryOf.append {e : HeapEntry} {w : Weighted} (h : EntryOf nodes e w) (more : List Node) :
    EntryOf (nodes ++ more) e w :=
  ⟨h.1, h.2.append more⟩

/-- The entries are those of the weighted trees, in any order. -/
def QueuedAs (nodes : List Node) (heap : List HeapEntry) (ws : List Weighted) : Prop :=
  ∃ es, es.Perm heap ∧ List.Forall₂ (EntryOf nodes) es ws

theorem QueuedAs.nil : QueuedAs nodes [] [] := ⟨[], .nil, .nil⟩

theorem QueuedAs.length_eq (h : QueuedAs nodes heap ws) : heap.length = ws.length := by
  obtain ⟨es, hperm, hes⟩ := h
  rw [← hperm.length_eq, hes.length_eq]

theorem QueuedAs.perm {heap' : List HeapEntry} (h : QueuedAs nodes heap ws) (hp : heap.Perm heap') :
    QueuedAs nodes heap' ws := by
  obtain ⟨es, hperm, hes⟩ := h
  exact ⟨es, hperm.trans hp, hes⟩

theorem QueuedAs.perm_right {ws' : List Weighted} (h : QueuedAs nodes heap ws) (hp : ws.Perm ws') :
    QueuedAs nodes heap ws' := by
  obtain ⟨es, hperm, hes⟩ := h
  have hcomp : Relation.Comp (List.Forall₂ (EntryOf nodes)) List.Perm es ws' := ⟨ws, hes, hp⟩
  obtain ⟨es', hp', hes'⟩ := List.forall₂_comp_perm_eq_perm_comp_forall₂ ▸ hcomp
  exact ⟨es', hp'.symm.trans hperm, hes'⟩

/-- A new node and its entry beside the others. -/
theorem QueuedAs.alloc {node : Node} {w : Weighted} (h : QueuedAs nodes heap ws)
    (hw : w.tree.storedAt (nodes ++ [node]) (BitVec.ofNat 8 nodes.length)) :
    QueuedAs (nodes ++ [node]) (w.entry (BitVec.ofNat 8 nodes.length) :: heap) (w :: ws) := by
  obtain ⟨es, hperm, hes⟩ := h
  exact ⟨_ :: es, hperm.cons _, .cons ⟨rfl, hw⟩ (hes.imp fun _ _ he => he.append _)⟩

/-- Entries in the order of the list have its ranks. -/
theorem map_rank_eq {es : List HeapEntry} (h : List.Forall₂ (EntryOf nodes) es ws) :
    es.map HeapEntry.rank = ws.map Weighted.rank := by
  induction h with
  | nil => rfl
  | cons he _ ih => rw [List.map_cons, List.map_cons, he.rank, ih]

/-- The top of the heap is the first of the ascending list. -/
theorem QueuedAs.pop {top : HeapEntry} {rest : List HeapEntry} {w : Weighted}
    (h : QueuedAs nodes (top :: rest) (w :: ws)) (hheap : heapOrdered (top :: rest)) (hws : Ascending (w :: ws)) :
    EntryOf nodes top w ∧ QueuedAs nodes (heapRemoveTop top rest) ws := by
  obtain ⟨es, hperm, hes⟩ := h
  match hes with
  | .cons (a := e) (l₁ := es) he hes =>
    have hleast : ∀ x ∈ es, e.rank ≤ x.rank := by
      intro x hx
      have hmem : x.rank ∈ ws.map Weighted.rank := map_rank_eq hes ▸ List.mem_map_of_mem hx
      obtain ⟨v, hv, hvx⟩ := List.mem_map.mp hmem
      rw [he.rank, ← hvx]
      exact (List.pairwise_cons.mp hws).1 v hv
    obtain rfl | htop := List.mem_cons.mp (hperm.mem_iff.mpr List.mem_cons_self)
    · exact ⟨he, es, hperm.cons_inv.trans (heapRemoveTop_perm _ _).symm, hes⟩
    · obtain rfl | hrest := List.mem_cons.mp (hperm.mem_iff.mp List.mem_cons_self)
      · exact ⟨he, es, hperm.cons_inv.trans (heapRemoveTop_perm _ _).symm, hes⟩
      · exact absurd (hheap.top_rank_lt hrest) (not_lt.mpr (hleast top htop))

/-! ## The loops -/

/-- HT.BUILD between two rounds, with `leaves` leaves allocated: the queue holds the trees of the list, every node
was queued once, and a merge takes away one entry for one node. -/
structure State.Tracks (s : State) (ws : List Weighted) (leaves : Nat) : Prop where
  queue : s.QueueInv
  entries : QueuedAs s.nodes s.heap ws
  owned : Owned s.nodes (s.heap.map HeapEntry.pay)
  budget : s.nodes.length + ws.length = 2 * leaves
  room : ws.length ≤ leaves
  stamped : s.seq.toNat = s.nodes.length

theorem State.Tracks.perm {ws' : List Weighted} (h : s.Tracks ws leaves) (hp : ws.Perm ws') : s.Tracks ws' leaves where
  queue := h.queue
  entries := h.entries.perm_right hp
  owned := h.owned
  budget := hp.length_eq ▸ h.budget
  room := hp.length_eq ▸ h.room
  stamped := h.stamped

theorem State.Tracks.queueNode {node : Node} {w : Weighted} (hqueue : s.QueueInv) (hseq : w.seq = s.seq)
    (hentries : QueuedAs s.nodes s.heap ws) (hw : w.tree.storedAt (s.nodes ++ [node]) s.nnodes)
    (howned : Owned (s.nodes ++ [node]) (s.nnodes :: s.heap.map HeapEntry.pay))
    (hbudget : s.nodes.length + ws.length + 2 = 2 * leaves) (hroom : ws.length < leaves) (hleaves : leaves ≤ 128)
    (hstamped : s.seq.toNat = s.nodes.length) : (s.queueNode node w.key).Tracks (w :: ws) leaves := by
  have hheap := hentries.length_eq
  have hperm := heapInsert_perm s.heap (w.entry s.nnodes)
  rw [Weighted.entry, hseq] at hperm
  exact
    { queue := (hqueue.insert (by omega) (by omega) w.key s.nnodes).of_eq rfl rfl
      entries := by
        have := hentries.alloc hw
        rw [Weighted.entry, hseq] at this
        exact this.perm hperm.symm
      owned := howned.perm (hperm.map HeapEntry.pay).symm
      budget := by
        simp only [State.queueNode, State.withQueue, List.length_append, List.length_cons, List.length_nil]
        omega
      room := hroom
      stamped := by
        have h1 : (1 : BitVec 8).toNat = 1 := rfl
        simp only [State.queueNode, State.withQueue, List.length_append, List.length_singleton, BitVec.toNat_add]
        omega }

theorem State.Tracks.leaf (h : s.Tracks ws leaves) (hleaves : leaves < 128) (sym : Symbol) (key : Word) :
    (s.queueNode (.leaf sym) key).Tracks (⟨key, s.seq, .leaf sym⟩ :: ws) (leaves + 1) := by
  obtain ⟨hqueue, hentries, howned, hbudget, hroom, hstamped⟩ := h
  have hlen : s.nodes.length < 256 := by omega
  exact .queueNode (w := ⟨key, s.seq, .leaf sym⟩) hqueue rfl hentries (getElem?_append_alloc hlen _)
    (howned.alloc_leaf hlen sym) (by omega) (by omega) hleaves hstamped

/-- A round of the merging loop is a round of the construction. -/
theorem State.Tracks.merge {v w : Weighted} (h : s.Tracks (v :: w :: ws) leaves) (hleaves : leaves ≤ 128)
    (hws : Ascending (v :: w :: ws)) (fuel : Nat) :
    ∃ nodes heap, mergeNodes (fuel + 1) s = mergeNodes fuel (s.withQueue nodes heap (s.seq + 1)) ∧
      (s.withQueue nodes heap (s.seq + 1)).Tracks (⟨v.key + w.key, s.seq, .node v.tree w.tree⟩ :: ws) leaves := by
  obtain ⟨hqueue, hentries, howned, hbudget, hroom, hstamped⟩ := h
  have hheap := hentries.length_eq
  simp only [List.length_cons] at hbudget hroom hheap
  obtain ⟨a, rest, ha⟩ := List.exists_cons_of_length_eq_add_one hheap
  have hqueue' := hqueue.removeTop ha
  obtain ⟨hv, hentries'⟩ := (ha ▸ hentries).pop (ha ▸ hqueue.ordered) hws
  obtain ⟨b, rest', hb⟩ := List.exists_cons_of_length_eq_add_one hentries'.length_eq
  obtain ⟨hw, hentries''⟩ := (hb ▸ hentries').pop (hb ▸ hqueue'.ordered) (List.pairwise_cons.mp hws).2
  have hperm : s.heap.Perm (a :: b :: heapRemoveTop b rest') :=
    calc s.heap = a :: rest := ha
      (a :: rest).Perm (a :: heapRemoveTop a rest) := (heapRemoveTop_perm a rest).symm.cons a
      _ = a :: b :: rest' := by rw [hb]
      (a :: b :: rest').Perm (a :: b :: heapRemoveTop b rest') := ((heapRemoveTop_perm b rest').symm.cons b).cons a
  have hlen : s.nodes.length < 256 := by omega
  have hkey : a.key + b.key = v.key + w.key := by rw [hv.1, hw.1]; rfl
  refine ⟨_, _, mergeNodes_of_two ha hb (by omega) (by omega) fuel, ?_⟩
  rw [hkey]
  exact .queueNode (s := { s with heap := heapRemoveTop b rest' }) (w := ⟨v.key + w.key, s.seq, .node v.tree w.tree⟩)
    ((hqueue'.removeTop hb).of_eq rfl rfl) rfl hentries''
    ⟨a.pay, b.pay, getElem?_append_alloc hlen _, hv.2.append _, hw.2.append _⟩
    ((howned.perm (hperm.map HeapEntry.pay)).alloc_branch hlen) (by omega) (by omega) hleaves hstamped

/-- The merging loop ends with the tree of the construction, when both have rounds enough. -/
theorem mergeNodes_tracks (fuel : Nat) (h : s.Tracks ws leaves) (hleaves : leaves ≤ 128) (hws : Ascending ws)
    (hne : ws ≠ []) (hfuel : ws.length ≤ fuel) :
    ∃ nodes entry seq w, mergeNodes (fuel + 1) s = .ok () (s.withQueue nodes [entry] seq) ∧
      mergeWeighted fuel s.seq ws = some w.tree ∧ (s.withQueue nodes [entry] seq).Tracks [w] leaves := by
  induction fuel generalizing s ws with
  | zero => exact absurd (List.length_eq_zero_iff.mp (Nat.le_zero.mp hfuel)) hne
  | succ fuel ih =>
    match ws with
    | [w] =>
      have hone := h.entries.length_eq
      obtain ⟨entry, hentry⟩ := List.length_eq_one_iff.mp hone
      refine ⟨s.nodes, entry, s.seq, w, ?_, rfl, ?_⟩
      · rw [mergeNodes_of_one hone, State.withQueue, ← hentry]
      · rw [State.withQueue, ← hentry]
        exact h
    | v :: w :: rest =>
      obtain ⟨nodes, heap, hrun, hnext⟩ := h.merge hleaves hws (fuel + 1)
      have hrest : Ascending rest := (List.pairwise_cons.mp (List.pairwise_cons.mp hws).2).2
      have hperm := insertWeighted_perm ⟨v.key + w.key, s.seq, .node v.tree w.tree⟩ rest
      have hlen := hperm.length_eq
      rw [List.length_cons] at hlen
      simp only [List.length_cons] at hfuel
      rw [hrun, mergeWeighted]
      exact ih (hnext.perm hperm.symm) (hrest.insertWeighted _) (List.ne_nil_of_length_eq_add_one hlen) (by omega)

/-- The seeding loop queues the leaves of the construction for the same frequency table. -/
theorem seedLeaves_tracks {table : State} (todo : List Symbol) (hfreq : ∀ sym, s.freqAt sym = table.freqAt sym)
    (h : s.Tracks ws leaves) (hleaves : leaves + todo.length ≤ 128) (hws : ws.length = leaves) :
    ∃ nodes heap seq, seedLeaves todo s = .ok () (s.withQueue nodes heap seq) ∧
      (s.withQueue nodes heap seq).Tracks
        (seedWeighted table s.seq (todo.filter fun sym => table.freqAt sym ≠ 0) ++ ws)
        (leaves + (todo.filter fun sym => table.freqAt sym ≠ 0).length) := by
  induction todo generalizing s ws leaves with
  | nil => exact ⟨s.nodes, s.heap, s.seq, rfl, h⟩
  | cons sym rest ih =>
    rw [List.length_cons] at hleaves
    by_cases hocc : table.freqAt sym ≠ 0
    · have hheap := h.entries.length_eq
      have hbudget := h.budget
      have hstamped := h.stamped
      obtain ⟨nodes, heap, seq, hrun, hend⟩ := ih (s := s.queueNode (.leaf sym) (s.freqAt sym)) hfreq
        (h.leaf (by omega) sym (s.freqAt sym)) (by omega) (congrArg Nat.succ hws)
      refine ⟨nodes, heap, seq, ?_, ?_⟩
      · rw [seedLeaves_cons_of_occurring (hfreq sym ▸ hocc) (by omega) (by omega)]
        exact hrun
      · rw [List.filter_cons_of_pos (by simpa using hocc), List.length_cons, Nat.add_comm _ 1, ← Nat.add_assoc]
        rw [hfreq] at hend
        exact hend.perm (List.perm_middle.trans ((insertWeighted_perm _ _).symm.append_right ws))
    · rw [seedLeaves_cons_of_not_occurring (hfreq sym ▸ hocc), List.filter_cons_of_neg (by simpa using hocc)]
      exact ih hfreq h (by omega) hws

/-! ## HT.BUILD -/

/-- `s` as HT.BUILD's first line leaves it. -/
def State.cleared (s : State) : State := { s with heap := [], seq := 0, nodes := [], root := Config.nil }

/-- The seeding loop of HT.BUILD queues the leaves that the construction begins with. -/
theorem seedLeaves_allSymbols (s : State) :
    ∃ nodes heap seq, seedLeaves allSymbols s.cleared = .ok () (s.cleared.withQueue nodes heap seq) ∧
      (s.cleared.withQueue nodes heap seq).Tracks (seedWeighted s 0 s.occurring) s.occurring.length := by
  have hstart : s.cleared.Tracks [] 0 := ⟨.of_empty rfl, .nil, .nil, rfl, le_rfl, rfl⟩
  obtain ⟨nodes, heap, seq, hrun, hend⟩ := seedLeaves_tracks (s := s.cleared) (table := s) allSymbols (fun _ => rfl)
    hstart (by simp [allSymbols_length]) rfl
  rw [List.append_nil, Nat.zero_add] at hend
  exact ⟨nodes, heap, seq, hrun, hend⟩

/-- With no Symbol occurring HT.BUILD leaves everything empty. -/
theorem htBuild_of_none (hocc : s.occurring = []) : htBuild s = .ok () s.cleared := by
  obtain ⟨nodes, heap, seq, hseed, h⟩ := seedLeaves_allSymbols s
  rw [hocc] at h
  have hheap : heap = [] := List.length_eq_zero_iff.mp h.entries.length_eq
  have hnodes : nodes = [] := List.length_eq_zero_iff.mp (Nat.eq_zero_of_add_eq_zero_right h.budget)
  have hseq : seq = 0 := BitVec.eq_of_toNat_eq (h.stamped.trans (congrArg List.length hnodes))
  rw [htBuild, bind_of_ok (run_modify ..)]
  refine (bind_of_ok hseed).trans ((bind_of_ok (x := pqIsempty) rfl).trans ?_)
  rw [hheap, hnodes, hseq]
  rfl

/-- With some Symbol occurring HT.BUILD leaves the tree of the construction, without sharing. -/
theorem htBuild_of_some (hocc : s.occurring ≠ []) :
    ∃ nodes seq root t, htBuild s = .ok () { s with nodes := nodes, heap := [], seq := seq, root := root } ∧
      s.huffman = some t ∧ State.ownsTree { s with nodes := nodes, heap := [], seq := seq, root := root } t ∧
      nodes.length = 2 * s.occurring.length - 1 ∧ seq.toNat = 2 * s.occurring.length - 1 := by
  obtain ⟨nodes, heap, seq, hseed, h⟩ := seedLeaves_allSymbols s
  have hle := occurring_length_le s
  have hlen := seedWeighted_length s 0 s.occurring
  have hheap : heap.length = s.occurring.length := h.entries.length_eq.trans hlen
  have hpos := List.length_pos_of_ne_nil hocc
  have hseq : seq = BitVec.ofNat 8 s.occurring.length := by
    have hbudget : nodes.length + _ = _ := h.budget
    have hstamped : seq.toNat = nodes.length := h.stamped
    rw [hlen] at hbudget
    refine BitVec.eq_of_toNat_eq ?_
    rw [BitVec.toNat_ofNat, Nat.mod_eq_of_lt (by omega)]
    omega
  obtain ⟨nodes', entry, seq', w, hmerge, hhuffman, hend⟩ := mergeNodes_tracks Config.heapCap h hle
    (seedWeighted_ascending _ _ _) (List.ne_nil_of_length_pos (hlen ▸ hpos)) (hlen ▸ hle)
  have hbudget : nodes'.length + 1 = 2 * s.occurring.length := hend.budget
  have hstamped : seq'.toNat = nodes'.length := hend.stamped
  have hw : w.tree.storedAt nodes' entry.pay := by
    obtain ⟨es, hperm, hes⟩ := hend.entries
    obtain rfl := List.perm_singleton.mp hperm
    cases hes with
    | cons he _ => exact he.2
  refine ⟨nodes', seq', entry.pay, w.tree, htBuild_of_seeded hseed ?_ hmerge rfl, ?_,
    ⟨⟨hw.ne_nil (by omega), hw⟩, hend.owned.refs_nodup hw⟩, by omega, by omega⟩
  · exact List.ne_nil_of_length_pos (hheap ▸ hpos)
  · rw [State.huffman, ← hseq]
    exact hhuffman

/-- The tree that HT.BUILD leaves is one of the occurring Symbols. -/
theorem htBuild_holdsTreeOf {u : State} (h : htBuild s = .ok () u) : u.HoldsTreeOf s.occurring := by
  obtain ⟨nodes, seq, root, hrun, hholds⟩ := htBuild_ok s
  rw [h] at hrun
  cases hrun
  exact hholds

theorem State.HoldsTreeOf.symbols_perm {t : Tree} {syms : List Symbol} (h : s.HoldsTreeOf syms) (ht : s.holdsTree t) :
    t.symbols.Perm syms := by
  obtain ⟨hroot, -⟩ | ⟨t', ht', hperm⟩ := h
  · exact absurd hroot ht.1
  · exact ht.unique ht' ▸ hperm

/-- Settles O35: the machine follows the construction on the list, and its leaves are those that `htBuild_ok` says. -/
theorem buildIsHuffman : Obligations.BuildIsHuffman := by
  intro s
  by_cases hocc : s.occurring = []
  · exact ⟨_, complete_of_ok (noResult_ok (htBuild_of_none hocc)), rfl, fun _ => ⟨rfl, rfl, rfl⟩, absurd hocc⟩
  · obtain ⟨nodes, seq, root, t, hrun, hhuffman, howns, hnodes, hseq⟩ := htBuild_of_some hocc
    have hleaves := (htBuild_holdsTreeOf hrun).symbols_perm howns.1
    exact ⟨_, complete_of_ok (noResult_ok hrun), rfl, fun hnone => absurd hnone hocc,
      fun _ => ⟨t, hhuffman, howns, hleaves, hnodes, hseq⟩⟩

end Sys2Proof.Machine
end

section
/-! PROOFS. HT.GENCODES and HT.SER as steps (spec/43_huffman_tree.md R182, R184). -/

namespace Sys2Proof.Machine

/-- Settles O36: the walks over a stored tree, and nothing to walk over without one. -/
theorem traversalsOfTree : Obligations.TraversalsOfTree := fun _ =>
  ⟨fun _ ht hlen =>
    ⟨complete_of_ok (noResult_ok (htGencodes_of_tree ht hlen)), complete_of_ok (noResult_ok (htSer_of_tree ht hlen))⟩,
   fun hroot =>
    ⟨complete_of_ok (noResult_ok (htGencodes_of_nil hroot)), complete_of_ok (noResult_ok (htSer_of_nil hroot))⟩⟩

end Sys2Proof.Machine
end

section
/-! PROOFS. Reading a description back (spec/43_huffman_tree.md R185): a stack of trees says what HT.DESER makes of it,
unit by unit. -/

namespace Sys2Proof.Machine

variable {trees trees' : List Tree} {v : Byte} {units : List Byte}

/-- What a unit does to the stack of trees, the last pushed first; none for an underflow or a full stack. -/
def readUnit (trees : List Tree) (v : Byte) : Option (List Tree) :=
  if v < Config.sentinel then
    if trees.length = Config.stackCap then none else some (.leaf (symbolOf v) :: trees)
  else
    match trees with
    | b :: a :: below => some (.node a b :: below)
    | _ => none

/-- The stack of trees after the units. -/
def readTrees (trees : List Tree) (units : List Byte) : Option (List Tree) := units.foldlM readUnit trees

@[simp] theorem readTrees_nil : readTrees trees [] = some trees := rfl

theorem readTrees_cons : readTrees trees (v :: units) = (readUnit trees v).bind fun ts => readTrees ts units :=
  List.foldlM_cons ..

theorem symbol_byte_lt_sentinel (sym : Symbol) : sym.byte < Config.sentinel := by
  have := sym.isLt
  rw [BitVec.lt_def, BitVec.toNat_setWidth]
  exact (Nat.mod_le _ _).trans_lt this

theorem readUnit_symbol (sym : Symbol) (hroom : trees.length < 128) :
    readUnit trees sym.byte = some (.leaf sym :: trees) := by
  have hfull : trees.length ≠ Config.stackCap := hroom.ne
  unfold readUnit
  rw [if_pos (symbol_byte_lt_sentinel sym), if_neg hfull, symbolOf_symbol_byte]

theorem readUnit_sentinel (a b : Tree) : readUnit (b :: a :: trees) Config.sentinel = some (.node a b :: trees) := rfl

/-- With room on the stack a description pushes its tree. -/
theorem readTrees_postorder {t : Tree} (hroom : trees.length + t.symbols.length ≤ 128) (rest : List Byte) :
    readTrees trees (t.postorder ++ rest) = readTrees (t :: trees) rest := by
  induction t generalizing trees rest with
  | leaf sym =>
    have hroom : trees.length + 1 ≤ 128 := hroom
    rw [Tree.postorder, List.singleton_append, readTrees_cons, readUnit_symbol sym (by omega), Option.bind_some]
  | node l r ihl ihr =>
    have := l.symbols_length_pos
    rw [Tree.symbols, List.length_append] at hroom
    rw [Tree.postorder, List.append_assoc, List.append_assoc, ihl (by omega), ihr (by rw [List.length_cons]; omega),
      List.singleton_append, readTrees_cons, readUnit_sentinel, Option.bind_some]

/-- The descriptions of the trees on the stack, the first pushed first. -/
def describe (trees : List Tree) : List Byte := trees.reverse.flatMap Tree.postorder

theorem describe_cons (t : Tree) : describe (t :: trees) = describe trees ++ t.postorder := by
  simp [describe]

theorem describe_readUnit (hv : v.toNat ≤ 128) (h : readUnit trees v = some trees') :
    describe trees' = describe trees ++ [v] := by
  unfold readUnit at h
  split at h
  · next hlt =>
    split at h
    · exact nomatch h
    · cases h
      have h127 : v.toNat ≤ 127 := Nat.le_of_lt_succ hlt
      rw [describe_cons, Tree.postorder, symbolOf_byte h127]
  · next hge =>
    have hsent : v = Config.sentinel := BitVec.eq_of_toNat_eq (hv.antisymm (Nat.not_lt.mp hge))
    split at h
    · cases h
      simp only [describe_cons, Tree.postorder, hsent, List.append_assoc]
    · exact nomatch h

/-- The stack holds what the units described. -/
theorem describe_readTrees (hunits : ∀ v ∈ units, v.toNat ≤ 128) (h : readTrees trees units = some trees') :
    describe trees' = describe trees ++ units := by
  induction units generalizing trees with
  | nil =>
    cases h
    rw [List.append_nil]
  | cons v rest ih =>
    rw [readTrees_cons] at h
    obtain ⟨trees₁, hv, hrest⟩ := Option.bind_eq_some_iff.mp h
    obtain ⟨hunit, hunits⟩ := List.forall_mem_cons.mp hunits
    rw [ih hunits hrest, describe_readUnit hunit hv, List.append_assoc, List.singleton_append]

end Sys2Proof.Machine
end

section
/-! PROOFS. HT.DESER (spec/43_huffman_tree.md R185) rebuilds a tree from its description and refuses every other
description. -/

namespace Sys2Proof.Machine

variable {s : State} {trees : List Tree} {v : Byte} {units : List Byte}

/-- A line that raises, before the rest of the pseudocode. -/
theorem bind_of_error {α β : Type} {x : Op α} {f : α → Op β} {t : State} {e : Halt} (h : x s = .error e t) :
    (x >>= f) s = .error e t := by
  rw [run_bind, h]

/-! ## The scan -/

/-- What the scan writes: the node store and the stack. -/
def State.withStack (s : State) (nodes : List Node) (stk : List NodeRef) : State :=
  { s with nodes := nodes, stk := stk }

/-- The stack holds the roots of the trees, which are stored without sharing. -/
structure State.Stacks (s : State) (trees : List Tree) : Prop where
  stored : List.Forall₂ (fun n t => t.storedAt s.nodes n) s.stk trees
  owned : Owned s.nodes s.stk

/-- A unit that can be read is answered by a new node, whose tree is pushed. -/
theorem deserScan_of_readUnit {trees' : List Tree} (h : s.Stacks trees) (hlen : s.nodes.length < 256)
    (hv : readUnit trees v = some trees') :
    ∃ node stk, deserScan (v :: units) s = deserScan units (s.withStack (s.nodes ++ [node]) stk) ∧
      (s.withStack (s.nodes ++ [node]) stk).Stacks trees' := by
  obtain ⟨hstored, howned⟩ := h
  have hstk := hstored.length_eq
  unfold readUnit at hv
  split at hv
  · next hlt =>
    split at hv
    · exact nomatch hv
    · next hroom =>
      cases hv
      refine ⟨.leaf (symbolOf v), s.nnodes :: s.stk, ?_,
        .cons (getElem?_append_alloc hlen _) (hstored.imp fun _ _ ht => ht.append _), howned.alloc_leaf hlen _⟩
      rw [deserScan, bind_of_ok (run_get s), run_if_pos hlt, hstk, run_if_neg hroom]
      rfl
  · next hge =>
    split at hv
    · next b a below =>
      cases hv
      obtain ⟨mb, below', hb, hbelow', hstk⟩ := List.forall₂_cons_right_iff.mp hstored
      obtain ⟨ma, below'', ha, hbelow, rfl⟩ := List.forall₂_cons_right_iff.mp hbelow'
      refine ⟨.branch ma mb, s.nnodes :: below'', ?_, .cons ?_ (hbelow.imp fun _ _ ht => ht.append _), ?_⟩
      · rw [deserScan, bind_of_ok (run_get s), run_if_neg hge, hstk]
        rfl
      · exact ⟨ma, mb, getElem?_append_alloc hlen _, ha.append _, hb.append _⟩
      · rw [hstk] at howned
        exact (howned.perm (.swap ..)).alloc_branch hlen
    · exact nomatch hv

/-- A unit that cannot be read raises MalformedTree where the scan stands. -/
theorem deserScan_of_unreadable (h : s.Stacks trees) (hv : readUnit trees v = none) :
    deserScan (v :: units) s = .error (.raised .malformedTree) s := by
  have hstk := h.stored.length_eq
  unfold readUnit at hv
  split at hv
  · next hlt =>
    split at hv
    · next hfull =>
      rw [deserScan, bind_of_ok (run_get s), run_if_pos hlt, hstk, run_if_pos hfull]
      rfl
    · exact nomatch hv
  · next hge =>
    rw [deserScan, bind_of_ok (run_get s), run_if_neg hge]
    have hstored := h.stored
    generalize s.stk = stk at hstored ⊢
    match trees, hstored with
    | [], .nil => rfl
    | [_], .cons _ .nil => rfl
    | _ :: _ :: _, _ => exact nomatch hv

/-- The scan does what reading the trees says. -/
theorem deserScan_of_readTrees {trees' : List Tree} (h : s.Stacks trees) (hlen : s.nodes.length + units.length ≤ 255)
    (hunits : readTrees trees units = some trees') :
    ∃ nodes stk, deserScan units s = .ok () (s.withStack nodes stk) ∧ (s.withStack nodes stk).Stacks trees' ∧
      nodes.length = s.nodes.length + units.length := by
  induction units generalizing s trees with
  | nil =>
    cases hunits
    exact ⟨s.nodes, s.stk, rfl, h, rfl⟩
  | cons v rest ih =>
    rw [List.length_cons] at hlen
    rw [readTrees_cons] at hunits
    obtain ⟨trees₁, hv, hrest⟩ := Option.bind_eq_some_iff.mp hunits
    obtain ⟨node, stk, hrun, h₁⟩ := deserScan_of_readUnit h (by omega) hv
    obtain ⟨nodes, stk', hrun', hend, hcount⟩ := ih h₁ (by simp [State.withStack]; omega) hrest
    refine ⟨nodes, stk', hrun.trans hrun', hend, hcount.trans ?_⟩
    simp [State.withStack]
    omega

theorem deserScan_of_readTrees_none (h : s.Stacks trees) (hlen : s.nodes.length + units.length ≤ 255)
    (hunits : readTrees trees units = none) :
    ∃ nodes stk, deserScan units s = .error (.raised .malformedTree) (s.withStack nodes stk) := by
  induction units generalizing s trees with
  | nil => exact nomatch hunits
  | cons v rest ih =>
    rw [List.length_cons] at hlen
    rw [readTrees_cons] at hunits
    cases hv : readUnit trees v with
    | none => exact ⟨s.nodes, s.stk, deserScan_of_unreadable h hv⟩
    | some trees₁ =>
      rw [hv, Option.bind_some] at hunits
      obtain ⟨node, stk, hrun, h₁⟩ := deserScan_of_readUnit h (by omega) hv
      obtain ⟨nodes, stk', hrun'⟩ := ih h₁ (by simp [State.withStack]; omega) hunits
      exact ⟨nodes, stk', hrun.trans hrun'⟩

/-! ## The operation -/

/-- `s` as HT.DESER's first line leaves it. -/
def State.unread (s : State) : State := { s with stk := [], nodes := [], root := Config.nil }

theorem State.unread_stacks (s : State) : s.unread.Stacks [] := ⟨.nil, .nil⟩

theorem htDeser_of_empty (h : s.ser = []) : htDeser s = .ok () s.unread := by
  rw [htDeser, bind_of_ok (run_modify ..), bind_of_ok (run_get _)]
  refine (bind_of_ok (t := s.unread) (a := ()) ?_).trans (run_if_pos h)
  exact congrArg (fun units => deserScan units s.unread) h

/-- After the scan HT.DESER takes the one root that the stack then holds. -/
theorem htDeser_of_scan {t : State} {n : NodeRef} (hne : s.ser ≠ []) (hscan : deserScan s.ser s.unread = .ok () t)
    (hone : t.stk = [n]) : htDeser s = .ok () { t with root := n, stk := [] } := by
  rw [htDeser, bind_of_ok (run_modify ..), bind_of_ok (run_get _)]
  refine (bind_of_ok hscan).trans ((run_if_neg hne).trans ?_)
  rw [bind_of_ok (run_get t), hone]
  rfl

theorem htDeser_of_failed_scan {t : State} (hscan : deserScan s.ser s.unread = .error (.raised .malformedTree) t) :
    htDeser s = .error (.raised .malformedTree) t := by
  rw [htDeser, bind_of_ok (run_modify ..), bind_of_ok (run_get _)]
  exact bind_of_error hscan

/-- A stack that does not end with one root is a malformed description. -/
theorem htDeser_of_many {t : State} (hne : s.ser ≠ []) (hscan : deserScan s.ser s.unread = .ok () t)
    (hmany : t.stk.length ≠ 1) : htDeser s = .error (.raised .malformedTree) t := by
  rw [htDeser, bind_of_ok (run_modify ..), bind_of_ok (run_get _)]
  refine (bind_of_ok hscan).trans ((run_if_neg hne).trans ?_)
  rw [bind_of_ok (run_get t)]
  match hstk : t.stk with
  | [] => rfl
  | [_] => exact absurd (congrArg List.length hstk) hmany
  | _ :: _ :: _ => rfl

theorem Tree.postorder_ne_nil (t : Tree) : t.postorder ≠ [] := by
  have := t.postorder_length
  have := t.symbols_length_pos
  exact List.ne_nil_of_length_pos (by omega)

/-- HT.DESER rebuilds the tree of a description, one node per unit. -/
theorem htDeser_of_postorder {t : Tree} (hser : s.ser = t.postorder) (hlen : t.symbols.length ≤ 128) :
    ∃ nodes root, htDeser s = .ok () { s with nodes := nodes, root := root, stk := [] } ∧
      State.ownsTree { s with nodes := nodes, root := root, stk := [] } t ∧
      nodes.length = t.postorder.length := by
  have hcount := t.postorder_length
  have hread : readTrees [] s.ser = some [t] := by
    rw [hser, ← List.append_nil t.postorder, readTrees_postorder (by simpa using hlen), readTrees_nil]
  obtain ⟨nodes, stk, hscan, ⟨hstored, howned⟩, hnodes⟩ := deserScan_of_readTrees s.unread_stacks
    (show 0 + s.ser.length ≤ 255 by rw [hser]; omega) hread
  obtain ⟨n, _, hn, hnil, hstk⟩ := List.forall₂_cons_right_iff.mp hstored
  cases hnil
  have hnodes : nodes.length = t.postorder.length := by rw [hnodes, hser]; exact Nat.zero_add _
  refine ⟨nodes, n, htDeser_of_scan (hser ▸ t.postorder_ne_nil) hscan hstk, ⟨⟨hn.ne_nil ?_, hn⟩, ?_⟩, hnodes⟩
  · exact hnodes.trans_le (by omega)
  · exact (hstk ▸ howned).refs_nodup hn

/-- Settles O37: the scan pushes the tree of the description, the last left on the stack. -/
theorem deserRebuildsTree : Obligations.DeserRebuildsTree := by
  refine fun s => ⟨fun t hser hlen => ?_, fun hser => complete_of_ok (noResult_ok (htDeser_of_empty hser))⟩
  obtain ⟨nodes, root, hrun, howns, hcount⟩ := htDeser_of_postorder hser hlen
  exact ⟨_, complete_of_ok (noResult_ok hrun), rfl, howns, hcount⟩

/-- HT.DESER raises MalformedTree on a description of no tree. -/
theorem htDeser_of_not_postorder (hne : s.ser ≠ []) (hlen : s.ser.length ≤ 255) (hunits : ∀ v ∈ s.ser, v.toNat ≤ 128)
    (hnot : ¬∃ t : Tree, s.ser = t.postorder) :
    ∃ nodes stk, htDeser s = .error (.raised .malformedTree) (s.unread.withStack nodes stk) := by
  have hroom : s.unread.nodes.length + s.ser.length ≤ 255 := (Nat.zero_add _).trans_le hlen
  cases hread : readTrees [] s.ser with
  | none =>
    obtain ⟨nodes, stk, hscan⟩ := deserScan_of_readTrees_none s.unread_stacks hroom hread
    exact ⟨nodes, stk, htDeser_of_failed_scan hscan⟩
  | some trees =>
    obtain ⟨nodes, stk, hscan, hstacks, -⟩ := deserScan_of_readTrees s.unread_stacks hroom hread
    refine ⟨nodes, stk, htDeser_of_many hne hscan fun hone => hnot ?_⟩
    obtain ⟨t, rfl⟩ := List.length_eq_one_iff.mp (hstacks.stored.length_eq.symm.trans hone)
    exact ⟨t, (describe_readTrees hunits hread).symm.trans (by simp [describe])⟩

/-- Settles O38: what HT.DESER could read would be the description of the tree it leaves. -/
theorem deserRejectsNonTree : Obligations.DeserRejectsNonTree := by
  intro s hne hlen hunits hnot
  obtain ⟨nodes, stk, hrun⟩ := htDeser_of_not_postorder hne hlen hunits hnot
  exact ⟨_, complete_of_raised (noResult_error hrun), rfl⟩

/-! ## After HT.BUILD and HT.SER -/

theorem ser_then_deser_of_tree {t : Tree} (ht : s.holdsTree t) (hlen : t.symbols.length ≤ 128) :
    ∃ v w, exec .htSer s = .next v ∧ exec .htDeser v = .next w ∧ w.holdsTree t := by
  obtain ⟨nodes, root, hrun, howns, -⟩ :=
    htDeser_of_postorder (s := { s with ser := t.postorder, result := .none }) rfl hlen
  exact ⟨_, _, complete_of_ok (noResult_ok (htSer_of_tree ht hlen)), complete_of_ok (noResult_ok hrun), howns.1⟩

theorem ser_then_deser_of_nil (hroot : s.root = Config.nil) :
    ∃ v w, exec .htSer s = .next v ∧ exec .htDeser v = .next w ∧ w.root = Config.nil := by
  have hrun := htDeser_of_empty (s := { s with ser := [], result := .none }) rfl
  exact ⟨_, _, complete_of_ok (noResult_ok (htSer_of_nil hroot)), complete_of_ok (noResult_ok hrun), rfl⟩

/-- HT.BUILD as a step. -/
theorem exec_htBuild (s : State) : ∃ u, exec .htBuild s = .next u ∧ u.HoldsTreeOf s.occurring := by
  obtain ⟨nodes, seq, root, hrun, hholds⟩ := htBuild_ok s
  exact ⟨_, complete_of_ok (noResult_ok hrun), hholds⟩

/-- Settles O39: HT.SER describes the tree that HT.BUILD leaves, and HT.DESER rebuilds what is described. -/
theorem serializeDeserializeInverse : Obligations.SerializeDeserializeInverse := by
  intro s
  obtain ⟨u, hbuild, hholds⟩ := exec_htBuild s
  obtain ⟨hroot, -⟩ | ⟨t, ht, hperm⟩ := hholds
  · obtain ⟨v, w, hser, hdeser, hw⟩ := ser_then_deser_of_nil hroot
    exact ⟨u, v, w, hbuild, hser, hdeser, fun _ h => absurd hroot h.1, iff_of_true hroot hw, absurd hroot⟩
  · obtain ⟨v, w, hser, hdeser, hw⟩ := ser_then_deser_of_tree ht (hperm.length_eq.trans_le (occurring_length_le s))
    exact ⟨u, v, w, hbuild, hser, hdeser, fun _ h => h.unique ht ▸ hw, iff_of_false ht.1 hw.1, fun _ => ⟨t, ht⟩⟩

end Sys2Proof.Machine
end

section
/-! PROOFS. The code table of a tree (spec/43_huffman_tree.md R183): its codes are the paths of the leaves, none of
which leads through another. -/

namespace Sys2Proof.Machine

variable {s : State} {t : Tree} {e e' : Symbol × Bits} {p : Bits} {sym : Symbol}

/-! ## Paths -/

/-- A path begins with that of the node it comes through. -/
theorem Tree.prefix_of_mem_paths (h : e ∈ t.paths p) : p <+: e.2 := by
  induction t generalizing p with
  | leaf sym =>
    obtain rfl := List.mem_singleton.mp h
    exact List.prefix_rfl
  | node l r ihl ihr =>
    obtain h | h := List.mem_append.mp h
    · exact (List.prefix_append ..).trans (ihl h)
    · exact (List.prefix_append ..).trans (ihr h)

/-- Each level down has a leaf beside it. -/
theorem Tree.length_lt_of_mem_paths (h : e ∈ t.paths p) : e.2.length < p.length + t.symbols.length := by
  induction t generalizing p with
  | leaf sym =>
    obtain rfl := List.mem_singleton.mp h
    exact Nat.lt_succ_self _
  | node l r ihl ihr =>
    have hl := l.symbols_length_pos
    have hr := r.symbols_length_pos
    rw [Tree.symbols, List.length_append]
    obtain h | h := List.mem_append.mp h
    · have := ihl h
      rw [List.length_append, List.length_singleton] at this
      omega
    · have := ihr h
      rw [List.length_append, List.length_singleton] at this
      omega

/-- No bits lead through both branches of a node. -/
theorem branches_apart {q : Bits} {a b : Bool} (hab : a ≠ b) (ha : p ++ [a] <+: q) : ¬p ++ [b] <+: q := by
  intro hb
  have heq : p ++ [a] = p ++ [b] := (List.prefix_of_prefix_length_le ha hb (by simp)).eq_of_length (by simp)
  exact hab (by simpa using heq)

/-- No path leads through another leaf. -/
theorem Tree.paths_prefix_free (h : e ∈ t.paths p) (h' : e' ∈ t.paths p) (hpre : e.2 <+: e'.2) : e = e' := by
  induction t generalizing p with
  | leaf sym => rw [List.mem_singleton.mp h, List.mem_singleton.mp h']
  | node l r ihl ihr =>
    obtain h | h := List.mem_append.mp h <;> obtain h' | h' := List.mem_append.mp h'
    · exact ihl h h'
    · exact absurd (Tree.prefix_of_mem_paths h')
        (branches_apart Bool.false_ne_true ((Tree.prefix_of_mem_paths h).trans hpre))
    · exact absurd (Tree.prefix_of_mem_paths h')
        (branches_apart Bool.false_ne_true.symm ((Tree.prefix_of_mem_paths h).trans hpre))
    · exact ihr h h'

/-! ## Codes -/

theorem Tree.codes_prefix_free (h : e ∈ t.codes) (h' : e' ∈ t.codes) (hpre : e.2 <+: e'.2) : e = e' := by
  cases t with
  | leaf sym => rw [List.mem_singleton.mp h, List.mem_singleton.mp h']
  | node l r => exact Tree.paths_prefix_free h h' hpre

/-- `CODE_MAX` is enough for 128 leaves (spec/00_scope.md R7). -/
theorem Tree.length_le_of_mem_codes (h : e ∈ t.codes) (hlen : t.symbols.length ≤ 128) : e.2.length ≤ 127 := by
  cases t with
  | leaf sym =>
    obtain rfl := List.mem_singleton.mp h
    exact show 1 ≤ 127 by decide
  | node l r =>
    have := Tree.length_lt_of_mem_paths h
    rw [List.length_nil] at this
    omega

/-- What a tree's code table holds for a Symbol. -/
theorem State.codeAt_of_codeTable (h : s.code = t.codeTable) (sym : Symbol) :
    (sym, s.codeAt sym) ∈ t.codes ∨ sym ∉ t.symbols ∧ s.codeAt sym = [] := by
  have hlt : sym.toNat < 128 := sym.isLt
  have hcode : s.codeAt sym = (t.codes.foldl assignCode (Vector.replicate 128 []))[sym.toNat] :=
    congrArg (fun table : Vector Bits 128 => table[sym.toNat]) h
  obtain hin | ⟨hout, heq⟩ := foldl_assignCode_getElem t.codes (Vector.replicate 128 []) sym hlt
  · exact .inl (hcode ▸ hin)
  · exact .inr ⟨t.codes_symbols ▸ hout, hcode.trans (heq.trans (Vector.getElem_replicate ..))⟩

theorem State.codeAt_mem_codes (h : s.code = t.codeTable) (hsym : sym ∈ t.symbols) :
    (sym, s.codeAt sym) ∈ t.codes :=
  (s.codeAt_of_codeTable h sym).resolve_right fun hout => hout.1 hsym

theorem State.codeAt_ne_nil_iff (h : s.code = t.codeTable) : s.codeAt sym ≠ [] ↔ sym ∈ t.symbols := by
  refine ⟨fun hne => ?_, fun hsym => Tree.codes_ne_nil (s.codeAt_mem_codes h hsym)⟩
  by_contra hsym
  obtain hin | ⟨-, hnil⟩ := s.codeAt_of_codeTable h sym
  · exact hsym (t.codes_symbols ▸ List.mem_map_of_mem hin)
  · exact hne hnil

/-- With no Symbol twice the table holds the code of each leaf. -/
theorem State.codeAt_eq_of_mem_codes (h : s.code = t.codeTable) (hnodup : t.symbols.Nodup) (he : e ∈ t.codes) :
    s.codeAt e.1 = e.2 := by
  have hsym : e.1 ∈ t.symbols := t.codes_symbols ▸ List.mem_map_of_mem he
  have hkeys : (t.codes.map Prod.fst).Nodup := t.codes_symbols ▸ hnodup
  exact congrArg Prod.snd (List.inj_on_of_nodup_map hkeys (s.codeAt_mem_codes h hsym) he rfl)

/-! ## After HT.BUILD and HT.GENCODES -/

theorem mem_occurring : sym ∈ s.occurring ↔ s.freqAt sym ≠ 0 := by
  simp [State.occurring, mem_allSymbols]

/-- HT.GENCODES as a step, on a tree. -/
theorem exec_htGencodes_of_tree (ht : s.holdsTree t) (hlen : t.symbols.length ≤ 128) :
    ∃ v, exec .htGencodes s = .next v ∧ v.code = t.codeTable :=
  ⟨_, complete_of_ok (noResult_ok (htGencodes_of_tree ht hlen)), rfl⟩

theorem exec_htGencodes_of_nil (hroot : s.root = Config.nil) :
    ∃ v, exec .htGencodes s = .next v ∧ ∀ sym, v.codeAt sym = [] :=
  ⟨_, complete_of_ok (noResult_ok (htGencodes_of_nil hroot)), fun _ => Vector.getElem_replicate ..⟩

/-- Settles O40: the code table of the tree that HT.BUILD leaves, and the empty one when it leaves none. -/
theorem codeTablePrefixFree : Obligations.CodeTablePrefixFree := by
  intro s
  obtain ⟨u, hbuild, hholds⟩ := exec_htBuild s
  obtain ⟨hroot, hnone⟩ | ⟨t, ht, hperm⟩ := hholds
  · obtain ⟨v, hgen, hcode⟩ := exec_htGencodes_of_nil hroot
    refine ⟨u, v, hbuild, hgen, fun sym => ?_, fun a _ _ ha => absurd (hcode a) ha, fun sym => ?_⟩
    · exact iff_of_false (fun hne => hne (hcode sym)) fun hocc => List.not_mem_nil (hnone ▸ mem_occurring.mpr hocc)
    · rw [hcode]
      exact Nat.zero_le _
  · have hlen : t.symbols.length ≤ 128 := hperm.length_eq.trans_le (occurring_length_le s)
    obtain ⟨v, hgen, hcode⟩ := exec_htGencodes_of_tree ht hlen
    have hmem {sym : Symbol} (h : v.codeAt sym ≠ []) : (sym, v.codeAt sym) ∈ t.codes :=
      v.codeAt_mem_codes hcode ((v.codeAt_ne_nil_iff hcode).mp h)
    refine ⟨u, v, hbuild, hgen, fun sym => ?_, fun a b hab ha hb hpre => ?_, fun sym => ?_⟩
    · rw [v.codeAt_ne_nil_iff hcode, hperm.mem_iff, mem_occurring]
    · exact hab (congrArg Prod.fst (Tree.codes_prefix_free (hmem ha) (hmem hb) hpre))
    · by_cases hnil : v.codeAt sym = []
      · rw [hnil]
        exact Nat.zero_le _
      · exact Tree.length_le_of_mem_codes (hmem hnil) hlen

end Sys2Proof.Machine
end

section
/-! PROOFS. Weights at the depths of a tree's leaves: whatever the depths, the two least weights can be joined for no
more (for the optimality of spec/43_huffman_tree.md R183). -/

namespace Sys2Proof.Machine

/-- The sum of weight times depth. -/
def depthCost (q : List (Nat × Nat)) : Nat := (q.map fun x => x.1 * x.2).sum

theorem depthCost_cons (x : Nat × Nat) (q : List (Nat × Nat)) : depthCost (x :: q) = x.1 * x.2 + depthCost q := by
  simp [depthCost]

theorem depthCost_append (q q' : List (Nat × Nat)) : depthCost (q ++ q') = depthCost q + depthCost q' := by
  simp [depthCost]

theorem depthCost_perm {q q' : List (Nat × Nat)} (h : q.Perm q') : depthCost q = depthCost q' :=
  (h.map _).sum_eq

/-- Kraft's equation, which the depths of a tree's leaves satisfy, times `2 ^ n`; no depth is above `n`. -/
structure Kraft (n : Nat) (depths : List Nat) : Prop where
  le : ∀ d ∈ depths, d ≤ n
  sum_eq : (depths.map fun d => 2 ^ (n - d)).sum = 2 ^ n

variable {n m d a b : Nat} {depths ws : List Nat} {q : List (Nat × Nat)}

theorem Kraft.perm {depths' : List Nat} (h : Kraft n depths) (hp : depths.Perm depths') : Kraft n depths' where
  le d hd := h.le d (hp.mem_iff.mpr hd)
  sum_eq := (hp.map fun d => 2 ^ (n - d)).sum_eq ▸ h.sum_eq

/-- The two deepest leaves of a tree with two or more are equally deep. -/
theorem Kraft.deepest_eq (h : Kraft n (m :: d :: depths)) (hd : d ≤ m) (hdepths : ∀ x ∈ depths, x ≤ d) :
    m = d ∧ m ≠ 0 := by
  have hsum := h.sum_eq
  simp only [List.map_cons, List.sum_cons] at hsum
  have hm : m = d := by
    by_contra hne
    have hdvd (x : Nat) (hx : x ≤ d) : 2 ^ (n - m + 1) ∣ 2 ^ (n - x) := by
      have := h.le m List.mem_cons_self
      exact Nat.pow_dvd_pow 2 (by omega)
    have hrest : 2 ^ (n - m + 1) ∣ 2 ^ (n - d) + (depths.map fun x => 2 ^ (n - x)).sum := by
      refine Nat.dvd_add (hdvd d le_rfl) (List.dvd_sum fun y hy => ?_)
      obtain ⟨x, hx, rfl⟩ := List.mem_map.mp hy
      exact hdvd x (hdepths x hx)
    have hall : 2 ^ (n - m + 1) ∣ 2 ^ n := hdvd 0 (Nat.zero_le d)
    have hself : 2 ^ (n - m + 1) ∣ 2 ^ (n - m) := (Nat.dvd_add_left hrest).mp (hsum ▸ hall)
    exact absurd (Nat.pow_dvd_pow_iff_le_right'.mp hself) (by omega)
  refine ⟨hm, fun h0 => ?_⟩
  have hpos := Nat.two_pow_pos n
  rw [← hm, h0, Nat.sub_zero] at hsum
  omega

/-- A pair of the deepest leaves is taken away and their parent is a leaf. -/
theorem Kraft.join (h : Kraft n ((m + 1) :: (m + 1) :: depths)) : Kraft n (m :: depths) where
  le := by
    obtain ⟨hm, -, hdepths⟩ : m + 1 ≤ n ∧ m + 1 ≤ n ∧ ∀ d ∈ depths, d ≤ n := by simpa using h.le
    exact List.forall_mem_cons.mpr ⟨(Nat.le_succ m).trans hm, hdepths⟩
  sum_eq := by
    have hm := h.le (m + 1) List.mem_cons_self
    have hsum := h.sum_eq
    have hpow : 2 ^ (n - m) = 2 * 2 ^ (n - (m + 1)) := by rw [← Nat.pow_succ']; congr 1; omega
    simp only [List.map_cons, List.sum_cons] at hsum ⊢
    omega

/-- The least weight can be given the greatest depth. -/
theorem exists_least_deepest (ha : ∀ x ∈ q, a ≤ x.1) (d : Nat) :
    ∃ m q', q'.map Prod.fst = q.map Prod.fst ∧ (m :: q'.map Prod.snd).Perm (d :: q.map Prod.snd) ∧
      (∀ x ∈ q', x.2 ≤ m) ∧ depthCost ((a, m) :: q') ≤ depthCost ((a, d) :: q) := by
  induction q with
  | nil => exact ⟨d, [], rfl, .refl _, nofun, le_rfl⟩
  | cons x q ih =>
    obtain ⟨hx, hq⟩ := List.forall_mem_cons.mp ha
    obtain ⟨m, q', hfst, hsnd, hle, hcost⟩ := ih hq
    obtain ⟨w, e⟩ := x
    simp only [depthCost_cons] at hcost ⊢
    by_cases he : e ≤ m
    · refine ⟨m, (w, e) :: q', congrArg (w :: ·) hfst, ?_, List.forall_mem_cons.mpr ⟨he, hle⟩, ?_⟩
      · exact (List.Perm.swap ..).trans ((hsnd.cons e).trans (.swap ..))
      · simp only [depthCost_cons]
        omega
    · have hem : m ≤ e := (not_le.mp he).le
      refine ⟨e, (w, m) :: q', congrArg (w :: ·) hfst, (hsnd.cons e).trans (.swap ..),
        List.forall_mem_cons.mpr ⟨hem, fun x hx => (hle x hx).trans hem⟩, ?_⟩
      have hswap : a * e + w * m ≤ a * m + w * e := by
        obtain ⟨k, rfl⟩ := Nat.exists_eq_add_of_le hem
        have : a * k ≤ w * k := Nat.mul_le_mul_right k hx
        simp only [Nat.mul_add]
        omega
      simp only [depthCost_cons]
      omega

/-- The two least weights can be given the two greatest depths. -/
theorem exists_two_least_deepest (hab : a ≤ b) (hb : ∀ x ∈ q, b ≤ x.1) (da db : Nat) :
    ∃ m d q', q'.map Prod.fst = q.map Prod.fst ∧ (m :: d :: q'.map Prod.snd).Perm (da :: db :: q.map Prod.snd) ∧
      d ≤ m ∧ (∀ x ∈ q', x.2 ≤ d) ∧ depthCost ((a, m) :: (b, d) :: q') ≤ depthCost ((a, da) :: (b, db) :: q) := by
  obtain ⟨m, q₁, hfst₁, hsnd₁, hle₁, hcost₁⟩ := exists_least_deepest (a := a) (q := (b, db) :: q)
    (List.forall_mem_cons.mpr ⟨hab, fun x hx => hab.trans (hb x hx)⟩) da
  match q₁ with
  | (b', e) :: q₁ =>
    simp only [List.map_cons, List.cons.injEq] at hfst₁
    obtain ⟨rfl, hfst₁⟩ := hfst₁
    have hb₁ : ∀ x ∈ q₁, b' ≤ x.1 := by
      intro x hx
      obtain ⟨y, hy, hyx⟩ := List.mem_map.mp (hfst₁ ▸ List.mem_map_of_mem hx : x.1 ∈ q.map Prod.fst)
      exact hyx ▸ hb y hy
    obtain ⟨d, q₂, hfst₂, hsnd₂, hle₂, hcost₂⟩ := exists_least_deepest hb₁ e
    refine ⟨m, d, q₂, hfst₂.trans hfst₁, (hsnd₂.cons m).trans hsnd₁, ?_, hle₂, ?_⟩
    · have hmem : d ∈ ((b', e) :: q₁).map Prod.snd := hsnd₂.mem_iff.mp List.mem_cons_self
      obtain ⟨x, hx, rfl⟩ := List.mem_map.mp hmem
      exact hle₁ x hx
    · simp only [depthCost_cons] at hcost₁ hcost₂ ⊢
      omega

/-- Pairs can be put in an order given for their first parts. -/
theorem exists_perm_of_map_fst (h : (q.map Prod.fst).Perm ws) :
    ∃ q' : List (Nat × Nat), q'.Perm q ∧ q'.map Prod.fst = ws := by
  have hq : List.Forall₂ (fun x (y : Nat × Nat) => x = y.1) (q.map Prod.fst) q := by simp
  obtain ⟨q', hws, hperm⟩ := List.perm_comp_forall₂ h.symm hq
  have heq : List.Forall₂ Eq ws (q'.map Prod.fst) := List.forall₂_map_right_iff.mpr hws
  rw [List.forall₂_eq_eq_eq] at heq
  exact ⟨q', hperm, heq.symm⟩

/-- The two least weights can be joined for no more than what their join adds. -/
theorem exists_join (hab : a ≤ b) (hb : ∀ w ∈ ws, b ≤ w) (hws : (q.map Prod.fst).Perm (a :: b :: ws))
    (hkraft : Kraft n (q.map Prod.snd)) :
    ∃ q' : List (Nat × Nat), (q'.map Prod.fst).Perm ((a + b) :: ws) ∧ Kraft n (q'.map Prod.snd) ∧
      depthCost q' + (a + b) ≤ depthCost q := by
  obtain ⟨q₀, hperm, hfst⟩ := exists_perm_of_map_fst hws
  match q₀ with
  | (a', da) :: (b', db) :: q₀ =>
    simp only [List.map_cons, List.cons.injEq] at hfst
    obtain ⟨rfl, rfl, rfl⟩ := hfst
    obtain ⟨m, d, q', hfst', hsnd', hdm, hle, hcost⟩ :=
      exists_two_least_deepest hab (fun x hx => hb _ (List.mem_map_of_mem hx)) da db
    have hkraft' : Kraft n (m :: d :: q'.map Prod.snd) := hkraft.perm ((hperm.map Prod.snd).symm.trans hsnd'.symm)
    obtain ⟨rfl, hm⟩ := hkraft'.deepest_eq hdm (List.forall_mem_map.mpr hle)
    obtain ⟨k, rfl⟩ := Nat.exists_eq_succ_of_ne_zero hm
    refine ⟨(a' + b', k) :: q', ?_, hkraft'.join, ?_⟩
    · rw [List.map_cons, hfst']
    · rw [← depthCost_perm hperm]
      refine le_trans (le_of_eq ?_) hcost
      simp only [depthCost_cons, Nat.add_mul, Nat.mul_succ]
      omega

end Sys2Proof.Machine
end

section
/-! PROOFS. Optimality of the Huffman construction (spec/43_huffman_tree.md R183): its joins cost no more than any tree
on the same Symbols. -/

namespace Sys2Proof.Machine

variable {s : State} {n : Nat} {q : List (Nat × Nat)}

/-! ## The cost of a tree -/

/-- The sum of the counts of a tree's leaves. -/
def State.weight (s : State) (t : Tree) : Nat := (t.symbols.map fun sym => (s.freqAt sym).toNat).sum

theorem State.weight_node (s : State) (l r : Tree) : s.weight (.node l r) = s.weight l + s.weight r := by
  rw [State.weight, Tree.symbols, List.map_append, List.sum_append]
  rfl

/-- The sum of the weights of a tree's branches: what the joins that made it have cost. -/
def State.joinCost (s : State) : Tree → Nat
  | .leaf _ => 0
  | .node l r => s.joinCost l + s.joinCost r + s.weight (.node l r)

/-- The leaves' counts and depths, below a node of path `p`. -/
def State.countsAtDepths (s : State) (t : Tree) (p : Bits) : List (Nat × Nat) :=
  (t.paths p).map fun e => ((s.freqAt e.1).toNat, e.2.length)

theorem State.countsAtDepths_node (l r : Tree) (p : Bits) : s.countsAtDepths (.node l r) p =
    s.countsAtDepths l (p ++ [false]) ++ s.countsAtDepths r (p ++ [true]) :=
  List.map_append

theorem State.countsAtDepths_fst (t : Tree) (p : Bits) :
    (s.countsAtDepths t p).map Prod.fst = t.symbols.map fun sym => (s.freqAt sym).toNat := by
  rw [← t.paths_symbols p, State.countsAtDepths, List.map_map, List.map_map]
  rfl

/-- A leaf's count is part of the join at each branch above it, and is paid once more for each bit of `p`. -/
theorem depthCost_countsAtDepths (t : Tree) (p : Bits) :
    depthCost (s.countsAtDepths t p) = s.joinCost t + s.weight t * p.length := by
  induction t generalizing p with
  | leaf sym => simp [State.countsAtDepths, Tree.paths, depthCost, State.joinCost, State.weight, Tree.symbols]
  | node l r ihl ihr =>
    rw [State.countsAtDepths_node, depthCost_append, ihl, ihr, State.joinCost, State.weight_node]
    simp only [List.length_append, List.length_singleton, Nat.mul_add, Nat.add_mul]
    omega

/-- Kraft's equation of a tree: each leaf of a subtree has its share of the subtree's. -/
theorem sum_pow_countsAtDepths (t : Tree) {p : Bits} (hn : p.length + t.symbols.length ≤ n + 1) :
    ((s.countsAtDepths t p).map fun x => 2 ^ (n - x.2)).sum = 2 ^ (n - p.length) := by
  induction t generalizing p with
  | leaf sym => simp [State.countsAtDepths, Tree.paths]
  | node l r ihl ihr =>
    have hl := l.symbols_length_pos
    have hr := r.symbols_length_pos
    rw [Tree.symbols, List.length_append] at hn
    rw [State.countsAtDepths_node, List.map_append, List.sum_append, ihl (by simp; omega), ihr (by simp; omega)]
    simp only [List.length_append, List.length_singleton]
    rw [← Nat.two_mul, ← Nat.pow_succ']
    congr 1
    omega

theorem kraft_countsAtDepths (t : Tree) : Kraft t.symbols.length ((s.countsAtDepths t []).map Prod.snd) where
  le d hd := by
    obtain ⟨x, hx, rfl⟩ := List.mem_map.mp hd
    obtain ⟨e, he, rfl⟩ := List.mem_map.mp hx
    simpa using (Tree.length_lt_of_mem_paths he).le
  sum_eq := by
    rw [List.map_map]
    exact sum_pow_countsAtDepths t (by simp)

/-- The cost by code lengths is the cost by joins, when there is a join. -/
theorem treeCost_node (l r : Tree) : s.treeCost (.node l r) = s.joinCost (.node l r) := by
  have hcost := depthCost_countsAtDepths (s := s) (.node l r) []
  rw [State.countsAtDepths, depthCost, List.map_map] at hcost
  exact hcost

theorem joinCost_le_treeCost (t : Tree) : s.joinCost t ≤ s.treeCost t := by
  cases t with
  | leaf sym => exact Nat.zero_le _
  | node l r => exact (treeCost_node l r).ge

/-! ## The construction -/

/-- The keys are the weights of the trees, and no sum of them wraps. -/
structure Keyed (s : State) (ws : List Weighted) : Prop where
  key_eq : ∀ w ∈ ws, w.key.toNat = s.weight w.tree
  sum_lt : (ws.map fun w => s.weight w.tree).sum < 2 ^ 32

theorem Keyed.perm {ts ts' : List Weighted} (h : Keyed s ts) (hp : ts.Perm ts') : Keyed s ts' where
  key_eq w hw := h.key_eq w (hp.mem_iff.mpr hw)
  sum_lt := (hp.map fun w => s.weight w.tree).sum_eq ▸ h.sum_lt

theorem Keyed.join {v w : Weighted} {ts : List Weighted} (h : Keyed s (v :: w :: ts)) (seq : BitVec 8) :
    Keyed s (⟨v.key + w.key, seq, .node v.tree w.tree⟩ :: ts) := by
  obtain ⟨hkey, hsum⟩ := h
  obtain ⟨hv, hkey⟩ := List.forall_mem_cons.mp hkey
  obtain ⟨hw, hkey⟩ := List.forall_mem_cons.mp hkey
  simp only [List.map_cons, List.sum_cons] at hsum
  refine ⟨List.forall_mem_cons.mpr ⟨?_, hkey⟩, ?_⟩
  · rw [State.weight_node, BitVec.toNat_add_of_lt (by omega), hv, hw]
  · simp only [List.map_cons, List.sum_cons, State.weight_node]
    omega

/-- The construction ends with a tree that costs no more than any depths for the weights it began with. -/
theorem joinCost_mergeWeighted_le (fuel : Nat) {seq : BitVec 8} {ts : List Weighted} {t : Tree} (hts : Ascending ts)
    (hkeyed : Keyed s ts) (ht : mergeWeighted fuel seq ts = some t)
    (hws : (q.map Prod.fst).Perm (ts.map fun w => s.weight w.tree)) (hkraft : Kraft n (q.map Prod.snd)) :
    s.joinCost t ≤ (ts.map fun w => s.joinCost w.tree).sum + depthCost q := by
  induction fuel generalizing seq ts q with
  | zero => exact nomatch ht
  | succ fuel ih =>
    match ts with
    | [] => exact nomatch ht
    | [w] =>
      cases ht
      simp
    | v :: w :: ts =>
      have hperm := insertWeighted_perm ⟨v.key + w.key, seq, .node v.tree w.tree⟩ ts
      obtain ⟨hv, hrest⟩ := List.pairwise_cons.mp hts
      obtain ⟨hw, hrest⟩ := List.pairwise_cons.mp hrest
      have hweight {x y : Weighted} (hx : x ∈ v :: w :: ts) (hy : y ∈ v :: w :: ts) (hxy : x.rank ≤ y.rank) :
          s.weight x.tree ≤ s.weight y.tree := by
        rw [← hkeyed.key_eq x hx, ← hkeyed.key_eq y hy]
        exact Weighted.key_le_of_rank_le hxy
      obtain ⟨q', hws', hkraft', hcost⟩ := exists_join (hweight (by simp) (by simp) (hv w List.mem_cons_self))
        (List.forall_mem_map.mpr fun x hx => hweight (by simp) (by simp [hx]) (hw x hx)) hws hkraft
      have hle := ih (Ascending.insertWeighted hrest _) ((hkeyed.join seq).perm hperm.symm) ht
        (hws'.trans ?_) hkraft'
      · rw [(hperm.map _).sum_eq] at hle
        simp only [List.map_cons, List.sum_cons, State.joinCost, State.weight_node] at hle ⊢
        omega
      · refine List.Perm.trans ?_ (hperm.map fun w => s.weight w.tree).symm
        rw [List.map_cons, State.weight_node]

/-- Each tree that the construction begins with is the leaf of a Symbol, keyed by its count. -/
theorem seedWeighted_forall {P : Weighted → Prop} (h : ∀ sym seq, P ⟨s.freqAt sym, seq, .leaf sym⟩) (seq : BitVec 8)
    (syms : List Symbol) : ∀ w ∈ seedWeighted s seq syms, P w := by
  induction syms generalizing seq with
  | nil => nofun
  | cons sym rest ih =>
    intro w hw
    obtain rfl | hw := List.mem_cons.mp ((insertWeighted_perm _ _).mem_iff.mp hw)
    · exact h sym seq
    · exact ih (seq + 1) w hw

theorem seedWeighted_weights (seq : BitVec 8) (syms : List Symbol) :
    ((seedWeighted s seq syms).map fun w => s.weight w.tree).Perm (syms.map fun sym => (s.freqAt sym).toNat) := by
  induction syms generalizing seq with
  | nil => exact .nil
  | cons sym rest ih =>
    refine ((insertWeighted_perm _ _).map _).trans ?_
    rw [List.map_cons, List.map_cons]
    exact (ih (seq + 1)).cons _

/-- The construction's tree is the cheapest of all on the same Symbols. -/
theorem joinCost_huffman_le {t t' : Tree} (hsum : (s.occurring.map fun sym => (s.freqAt sym).toNat).sum < 2 ^ 32)
    (ht : s.huffman = some t) (ht' : t'.symbols.Perm s.occurring) : s.joinCost t ≤ s.treeCost t' := by
  have hweights := seedWeighted_weights (s := s) 0 s.occurring
  have hkeyed : Keyed s (seedWeighted s 0 s.occurring) :=
    ⟨seedWeighted_forall (fun sym seq => by simp [State.weight, Tree.symbols]) 0 _, hweights.sum_eq ▸ hsum⟩
  have hzero : ((seedWeighted s 0 s.occurring).map fun w => s.joinCost w.tree).sum = 0 :=
    List.sum_eq_zero (List.forall_mem_map.mpr (seedWeighted_forall (fun _ _ => rfl) 0 s.occurring))
  have hcounts : ((s.countsAtDepths t' []).map Prod.fst).Perm
      ((seedWeighted s 0 s.occurring).map fun w => s.weight w.tree) := by
    rw [State.countsAtDepths_fst]
    exact (ht'.map _).trans hweights.symm
  calc s.joinCost t ≤ _ + depthCost (s.countsAtDepths t' []) :=
        joinCost_mergeWeighted_le _ (seedWeighted_ascending ..) hkeyed ht hcounts (kraft_countsAtDepths t')
    _ = s.joinCost t' := by rw [hzero, depthCost_countsAtDepths]; simp
    _ ≤ s.treeCost t' := joinCost_le_treeCost t'

/-- The code table's cost is the tree's. -/
theorem codeTable_cost {v : State} {t : Tree} (hcode : v.code = t.codeTable) (hnodup : t.symbols.Nodup) :
    (t.symbols.map fun sym => (s.freqAt sym).toNat * (v.codeAt sym).length).sum = s.treeCost t := by
  rw [State.treeCost, ← t.codes_symbols, List.map_map]
  refine congrArg List.sum (List.map_congr_left fun e he => ?_)
  rw [Function.comp_apply, v.codeAt_eq_of_mem_codes hcode hnodup he]

/-- Settles O41: the code table has the cost of the construction's tree, which has a join. -/
theorem codeTableOptimal : Obligations.CodeTableOptimal := by
  intro s hocc hsum
  obtain ⟨u, hbuild, -, -, hsome⟩ := buildIsHuffman s
  obtain ⟨t, hhuffman, howns, hperm, -⟩ := hsome (List.ne_nil_of_length_pos (Nat.zero_lt_of_lt hocc))
  obtain ⟨v, hgen, hcode⟩ :=
    exec_htGencodes_of_tree howns.1 (hperm.length_eq.trans_le (occurring_length_le s))
  refine ⟨u, v, hbuild, hgen, fun t' ht' => ?_⟩
  have hnodup : t.symbols.Nodup := hperm.nodup_iff.mpr (allSymbols_nodup.filter _)
  have hjoined : s.treeCost t = s.joinCost t := by
    cases t with
    | leaf sym => exact absurd (hocc.trans_eq hperm.length_eq.symm) (by decide : ¬2 ≤ 1)
    | node l r => exact treeCost_node l r
  calc (s.occurring.map fun sym => (s.freqAt sym).toNat * (v.codeAt sym).length).sum
    _ = (t.symbols.map fun sym => (s.freqAt sym).toNat * (v.codeAt sym).length).sum := (hperm.map _).sum_eq.symm
    _ = s.joinCost t := (codeTable_cost hcode hnodup).trans hjoined
    _ ≤ s.treeCost t' := joinCost_huffman_le hsum hhuffman ht'

end Sys2Proof.Machine
end

section
/-! PROOFS. The port calls of an operation, whatever the host does: how they went and how the operation ended
(spec/60_exceptions.md R241, R252, spec/70_reset_and_hazards.md R271, R274). -/

namespace Sys2Proof.Machine

variable {α β : Type} {s t u : State} {calls more : List PortEvent} {e : Halt}

/-! ## Calls that are answered -/

/-- From `s` to `t` the calls `calls` were made, and the host answered each as it had it in store. -/
structure Called (s : State) (calls : List PortEvent) (t : State) : Prop where
  env : t.env = s.env.after calls
  gives : s.env.gives calls
  stim : t.stim = s.stim

theorem Called.of_eq (henv : t.env = s.env) (hstim : t.stim = s.stim) : Called s [] t :=
  ⟨henv, s.env.gives_nil, hstim⟩

theorem Called.refl (s : State) : Called s [] s := .of_eq rfl rfl

theorem Called.trans (h : Called s calls t) (h' : Called t more u) : Called s (calls ++ more) u where
  env := by rw [h'.env, h.env, Env.after_append]
  gives := (Env.gives_append ..).mpr ⟨h.gives, h.env ▸ h'.gives⟩
  stim := h'.stim.trans h.stim

theorem Called.log (h : Called s calls t) : t.env.log = s.env.log ++ calls := by
  rw [h.env, Env.after_log]

theorem Called.answers (h : Called s calls t) {a : PortAnswer} (ha : a ∈ t.env.answers) : a ∈ s.env.answers := by
  rw [h.env, Env.after_answers] at ha
  exact List.mem_of_mem_drop ha

/-- One answered call. -/
theorem CallSpec.called {p : Port α} {event : α → State → PortEvent} {a : α} (hp : CallSpec p event)
    (h : p s = .ok a t) : Called s [event a s] t := by
  obtain ⟨rfl, hgives⟩ := hp.1 s t a h
  exact ⟨rfl, hgives, rfl⟩

/-- From `s` to `t` calls were made that all succeeded. -/
def Unfailing (s t : State) : Prop := ∃ calls, Called s calls t ∧ ∀ e ∈ calls, e.failed = false

theorem Unfailing.of_eq (henv : t.env = s.env) (hstim : t.stim = s.stim) : Unfailing s t :=
  ⟨[], .of_eq henv hstim, by simp⟩

theorem Unfailing.trans (h : Unfailing s t) (h' : Unfailing t u) : Unfailing s u := by
  obtain ⟨calls, hcalls, hok⟩ := h
  obtain ⟨more, hmore, hok'⟩ := h'
  exact ⟨calls ++ more, hcalls.trans hmore, fun e he => (List.mem_append.mp he).elim (hok e) (hok' e)⟩

/-! ## How an operation ends before its last line -/

/-- How the line at `u` can end an operation: IOError is raised at a call that failed and no other kind at a call; a
call that is never answered stops the machine, and one that a reset overtakes leaves the streams as they are. -/
def EndsAt (u : State) : Halt → State → Prop
  | .raised k, t =>
    (k = .ioError ∧ ∃ event, event.failed = true ∧ Called u [event] t) ∨ (k ≠ .ioError ∧ Called u [] t)
  | .cut (.stop f), _ => f = .unanswered → ∃ rest, u.env.answers = .never :: rest
  | .cut .resetApplied, t =>
    ∃ rest, u.env.answers = .reset :: rest ∧ t.env = { u.env with answers := rest } ∧ t.stim = u.stim

/-- Calls that succeeded, and then a line that ended the operation. -/
def Halts (s : State) (e : Halt) (t : State) : Prop := ∃ u, Unfailing s u ∧ EndsAt u e t

/-- A call that is cut off. -/
theorem CallSpec.endsAt {p : Port α} {event : α → State → PortEvent} {c : Cut} (hp : CallSpec p event)
    (h : p s = .error c t) : EndsAt s (.cut c) t := by
  obtain ⟨rfl, rest, hrest⟩ | ⟨rfl, rest, hrest, rfl⟩ := hp.2 s t c h
  · exact fun _ => ⟨rest, hrest⟩
  · exact ⟨rest, hrest, rfl, rfl⟩

theorem EndsAt.stim (h : EndsAt u e t) (hstop : ∀ f, e ≠ .cut (.stop f)) : t.stim = u.stim := by
  match e with
  | .raised k =>
    obtain ⟨-, event, -, hcall⟩ | ⟨-, hcall⟩ := h
    · exact hcall.stim
    · exact hcall.stim
  | .cut (.stop f) => exact absurd rfl (hstop f)
  | .cut .resetApplied =>
    obtain ⟨rest, -, -, hstim⟩ := h
    exact hstim

theorem Halts.stim (h : Halts s e t) (hstop : ∀ f, e ≠ .cut (.stop f)) : t.stim = s.stim := by
  obtain ⟨u, ⟨calls, hcalls, -⟩, hend⟩ := h
  exact (hend.stim hstop).trans hcalls.stim

/-! ## Operations -/

/-- All calls of the operation but the last succeed, and the last decides how it ends. -/
def Traced (op : Op α) : Prop :=
  ∀ s, (∀ a t, op s = .ok a t → Unfailing s t) ∧ (∀ e t, op s = .error e t → Halts s e t)

theorem traced_pure {a : α} : Traced (pure a) :=
  fun s => ⟨fun b t h => by cases h; exact .of_eq rfl rfl, fun e t h => by cases h⟩

theorem traced_modify {f : State → State} (henv : ∀ s, (f s).env = s.env) (hstim : ∀ s, (f s).stim = s.stim) :
    Traced (modify f) :=
  fun s => ⟨fun b t h => by cases h; exact .of_eq (henv s) (hstim s), fun e t h => by cases h⟩

theorem traced_raise {k : ErrKind} (hk : k ≠ .ioError) : Traced (raise k : Op α) := by
  refine fun s => ⟨fun _ _ h => (by cases h), fun e t h => ?_⟩
  cases h
  exact ⟨s, .of_eq rfl rfl, .inr ⟨hk, .refl s⟩⟩

theorem traced_stop {f : Fault} (hf : f ≠ .unanswered) : Traced (stop f : Op α) := by
  refine fun s => ⟨fun _ _ h => (by cases h), fun e t h => ?_⟩
  cases h
  exact ⟨s, .of_eq rfl rfl, fun h => absurd h hf⟩

theorem traced_bind {x : Op α} {f : α → Op β} (hx : Traced x) (hf : ∀ a, Traced (f a)) : Traced (x >>= f) := by
  intro s
  obtain ⟨hok, herr⟩ := hx s
  rw [run_bind]
  cases hxs : x s with
  | ok a t =>
    have hfirst := hok a t hxs
    refine ⟨fun b u h => hfirst.trans ((hf a t).1 b u h), fun e u h => ?_⟩
    obtain ⟨v, hv, hend⟩ := (hf a t).2 e u h
    exact ⟨v, hfirst.trans hv, hend⟩
  | error e t => exact ⟨fun _ _ h => (by cases h), fun e' u h => by cases h; exact herr e t hxs⟩

theorem traced_get {f : State → Op α} (h : ∀ s, Traced (f s)) : Traced (get >>= f) := fun s => h s s

theorem traced_ite {c : Prop} [Decidable c] {x y : Op α} (hx : Traced x) (hy : Traced y) :
    Traced (if c then x else y) := by
  split
  · exact hx
  · exact hy

/-- `if c: raise k`, before the rest of the pseudocode. -/
theorem traced_guard {c : Prop} [Decidable c] {k : ErrKind} {g : β → Op α} {rest : Op α} (hk : k ≠ .ioError)
    (h : Traced rest) : Traced (if c then raise k >>= g else rest) := by
  refine traced_ite (fun s => ?_) h
  obtain ⟨-, herr⟩ := traced_raise (α := β) hk s
  exact ⟨fun _ _ h => (by cases h), fun e t h => herr e t (by cases h; rfl)⟩

/-- A call after which the pseudocode raises IOError if it failed, and goes on otherwise. -/
theorem traced_call {p : Port α} {event : α → State → PortEvent} {f : α → Op β} (hp : CallSpec p event)
    (hf : ∀ a, (∀ s, (event a s).failed = false) ∧ Traced (f a) ∨
      (∀ s, (event a s).failed = true) ∧ f a = raise .ioError) : Traced (lift p >>= f) := by
  intro s
  rw [run_bind, Machine.lift]
  cases hps : p s with
  | ok a t =>
    have hcall := hp.called hps
    obtain ⟨hok, hrest⟩ | ⟨hfailed, hrest⟩ := hf a
    · have hfirst : Unfailing s t := ⟨_, hcall, by simpa using hok s⟩
      refine ⟨fun b u h => hfirst.trans ((hrest t).1 b u h), fun e u h => ?_⟩
      obtain ⟨v, hv, hend⟩ := (hrest t).2 e u h
      exact ⟨v, hfirst.trans hv, hend⟩
    · dsimp only
      rw [hrest]
      refine ⟨fun _ _ h => (by cases h), fun e u h => ?_⟩
      cases h
      exact ⟨s, .of_eq rfl rfl, .inl ⟨rfl, _, hfailed s, hcall⟩⟩
  | error c t =>
    refine ⟨fun _ _ h => (by cases h), fun e u h => ?_⟩
    cases h
    exact ⟨s, .of_eq rfl rfl, hp.endsAt hps⟩

theorem traced_orIOError {p : Port Bool} {event : Bool → State → PortEvent} (hp : CallSpec p event)
    (hf : ∀ ok s, (event ok s).failed = !ok) : Traced (orIOError p) := by
  refine traced_call hp fun ok => ?_
  cases ok with
  | true => exact .inl ⟨hf true, traced_pure⟩
  | false => exact .inr ⟨hf false, rfl⟩

/-- `SrcNext` as the operations use it: IOError when it fails. -/
theorem traced_srcNext {f : SrcReply → Op α} (hfail : f .fail = raise .ioError) (heof : Traced (f .eof))
    (hbyte : ∀ b, Traced (f (.byte b))) : Traced (lift srcNext >>= f) := by
  refine traced_call srcNext_spec fun r => ?_
  cases r with
  | byte b => exact .inl ⟨fun _ => rfl, hbyte b⟩
  | eof => exact .inl ⟨fun _ => rfl, heof⟩
  | fail => exact .inr ⟨fun _ => rfl, hfail⟩

theorem traced_snkPut (b : Byte) : Traced (orIOError (snkPut b)) := traced_orIOError (snkPut_spec b) fun _ _ => rfl

theorem traced_snkClosePort : Traced (orIOError snkClosePort) := traced_orIOError snkClosePort_spec fun _ _ => rfl

theorem traced_srcRelease : Traced (orIOError srcRelease) := traced_orIOError srcRelease_spec fun _ _ => rfl

theorem traced_srcRewind : Traced (orIOError srcRewind) := traced_orIOError srcRewind_spec fun _ _ => rfl

theorem traced_nextByte : Traced nextByte := traced_srcNext rfl (traced_raise nofun) fun _ => traced_pure

theorem traced_nodeAt (n : NodeRef) : Traced (nodeAt n) := by
  refine traced_get fun s => ?_
  cases s.nodes[n.toNat]? with
  | some node => exact traced_pure
  | none => exact traced_stop nofun

/-! ## The units -/

theorem traced_putBytes (bytes : List Byte) : Traced (putBytes bytes) := by
  induction bytes with
  | nil => exact traced_pure
  | cons b rest ih => exact traced_bind (traced_snkPut b) fun _ => ih

theorem traced_writeBits (bits : Bits) : Traced (writeBits bits) := by
  induction bits with
  | nil => exact traced_pure
  | cons b rest ih =>
    refine traced_bind (traced_modify (fun _ => rfl) fun _ => rfl) fun _ => traced_get fun s => traced_ite ?_ ih
    exact traced_bind (traced_snkPut _) fun _ => traced_bind (traced_modify (fun _ => rfl) fun _ => rfl) fun _ => ih

theorem traced_snkWbits (bits : Bits) : Traced (snkWbits bits) :=
  traced_get fun _ => traced_guard nofun (traced_writeBits bits)

theorem traced_snkByteLevel : Traced snkByteLevel := traced_get fun _ => traced_ite (traced_raise nofun) traced_pure

theorem traced_snkWint (v : Word) : Traced (snkWint v) :=
  traced_bind traced_snkByteLevel fun _ => traced_putBytes _

theorem traced_snkWstr : Traced snkWstr :=
  traced_bind traced_snkByteLevel fun _ => traced_get fun _ => traced_putBytes _

theorem traced_snkClose : Traced snkClose := by
  have hlast : Traced (do orIOError snkClosePort; modify fun s => { s with sclosed := true }) :=
    traced_bind traced_snkClosePort fun _ => traced_modify (fun _ => rfl) fun _ => rfl
  refine traced_get fun s => traced_guard nofun (traced_ite ?_ hlast)
  exact traced_bind (traced_snkPut _) fun _ => traced_bind (traced_modify (fun _ => rfl) fun _ => rfl) fun _ => hlast

theorem traced_srcRbit : Traced srcRbit := by
  have htake : Traced (do
      let s ← get
      let bit := s.rbuf.msb
      modify fun s => { s with rbuf := s.rbuf <<< 1, rcnt := s.rcnt - 1 }
      pure bit) :=
    traced_get fun _ => traced_bind (traced_modify (fun _ => rfl) fun _ => rfl) fun _ => traced_pure
  refine traced_get fun s => traced_guard nofun (traced_ite ?_ htake)
  exact traced_bind traced_nextByte fun _ => traced_bind (traced_modify (fun _ => rfl) fun _ => rfl) fun _ => htake

theorem traced_srcByteLevel : Traced srcByteLevel := traced_get fun _ => traced_ite (traced_raise nofun) traced_pure

theorem traced_srcRint : Traced srcRint :=
  traced_bind traced_srcByteLevel fun _ => traced_bind traced_nextByte fun _ => traced_bind traced_nextByte fun _ =>
    traced_bind traced_nextByte fun _ => traced_bind traced_nextByte fun _ => traced_pure

theorem traced_readUnits (n : Nat) : Traced (readUnits n) := by
  induction n with
  | zero => exact traced_pure
  | succ n ih =>
    exact traced_bind traced_nextByte fun _ => traced_guard nofun <|
      traced_bind (traced_modify (fun _ => rfl) fun _ => rfl) fun _ => ih

theorem traced_srcRstr : Traced srcRstr :=
  traced_bind traced_srcByteLevel fun _ => traced_bind traced_nextByte fun _ => traced_bind traced_nextByte fun _ =>
    traced_guard nofun <| traced_bind (traced_modify (fun _ => rfl) fun _ => rfl) fun _ => traced_readUnits _

theorem traced_srcClose : Traced srcClose :=
  traced_get fun _ => traced_guard nofun <| traced_bind traced_srcRelease fun _ =>
    traced_modify (fun _ => rfl) fun _ => rfl

theorem traced_htBuild : Traced htBuild := by
  intro s
  obtain ⟨nodes, seq, root, hrun, -⟩ := htBuild_ok s
  rw [hrun]
  exact ⟨fun a t h => by cases h; exact .of_eq rfl rfl, fun e t h => by cases h⟩

theorem traced_genWalk (levels : Nat) (n : NodeRef) (p : Bits) : Traced (genWalk levels n p) := by
  induction levels generalizing n p with
  | zero => exact traced_stop nofun
  | succ levels ih =>
    refine traced_bind (traced_nodeAt n) fun node => ?_
    cases node with
    | leaf sym => exact traced_modify (fun _ => rfl) fun _ => rfl
    | branch left right => exact traced_bind (ih left _) fun _ => ih right _

theorem traced_htGencodes : Traced htGencodes := by
  refine traced_bind (traced_modify (fun _ => rfl) fun _ => rfl) fun _ => traced_get fun s =>
    traced_ite traced_pure (traced_bind (traced_nodeAt _) fun node => ?_)
  cases node with
  | leaf sym => exact traced_modify (fun _ => rfl) fun _ => rfl
  | branch left right => exact traced_genWalk _ _ _

theorem traced_emitTree (levels : Nat) (n : NodeRef) : Traced (emitTree levels n) := by
  induction levels generalizing n with
  | zero => exact traced_stop nofun
  | succ levels ih =>
    refine traced_bind (traced_nodeAt n) fun node => ?_
    cases node with
    | leaf sym => exact traced_modify (fun _ => rfl) fun _ => rfl
    | branch left right =>
      exact traced_bind (ih left) fun _ => traced_bind (ih right) fun _ => traced_modify (fun _ => rfl) fun _ => rfl

theorem traced_htSer : Traced htSer :=
  traced_bind (traced_modify (fun _ => rfl) fun _ => rfl) fun _ => traced_get fun _ =>
    traced_ite traced_pure (traced_emitTree _ _)

/-- A node is allocated and pushed, before the rest of the scan. -/
theorem traced_allocPush (node : Node) {rest : Op Unit} (h : Traced rest) :
    Traced (alloc node >>= fun n => pushNode n >>= fun _ => rest) :=
  traced_bind (traced_get fun _ => traced_bind (traced_modify (fun _ => rfl) fun _ => rfl) fun _ => traced_pure)
    fun _ => traced_bind (traced_modify (fun _ => rfl) fun _ => rfl) fun _ => h

theorem traced_deserScan (units : List Byte) : Traced (deserScan units) := by
  induction units with
  | nil => exact traced_pure
  | cons v rest ih =>
    refine traced_get fun s => traced_ite (traced_guard nofun (traced_allocPush _ ih)) ?_
    match s.stk with
    | b :: a :: below =>
      exact traced_bind (traced_modify (fun _ => rfl) fun _ => rfl) fun _ => traced_allocPush _ ih
    | [] => exact traced_bind (traced_raise nofun) fun _ => ih
    | [_] => exact traced_bind (traced_raise nofun) fun _ => ih

theorem traced_htDeser : Traced htDeser := by
  refine traced_bind (traced_modify (fun _ => rfl) fun _ => rfl) fun _ => traced_get fun s =>
    traced_bind (traced_deserScan _) fun _ => traced_ite traced_pure (traced_get fun t => ?_)
  match t.stk with
  | [n] => exact traced_modify (fun _ => rfl) fun _ => rfl
  | [] => exact traced_raise nofun
  | _ :: _ :: _ => exact traced_raise nofun

/-! ## The Codec -/

theorem traced_countLoop (fuel : Nat) : Traced (countLoop fuel) := by
  induction fuel with
  | zero => exact traced_stop nofun
  | succ fuel ih =>
    refine traced_srcNext rfl traced_pure fun b => traced_guard nofun (traced_get fun _ => traced_guard nofun ?_)
    exact traced_bind (traced_modify (fun _ => rfl) fun _ => rfl) fun _ =>
      traced_bind (traced_modify (fun _ => rfl) fun _ => rfl) fun _ => ih

theorem traced_codecFcount : Traced codecFcount := traced_get fun _ => traced_countLoop _

theorem traced_codecWheader : Traced codecWheader :=
  traced_get fun _ => traced_bind (traced_snkWint _) fun _ => traced_bind traced_htSer fun _ => traced_snkWstr

theorem traced_payloadLoop (fuel : Nat) (k : Word) : Traced (payloadLoop fuel k) := by
  induction fuel generalizing k with
  | zero => exact traced_stop nofun
  | succ fuel ih =>
    refine traced_srcNext rfl traced_pure fun b => traced_get fun _ =>
      traced_guard nofun (traced_guard nofun (traced_guard nofun ?_))
    exact traced_bind (traced_snkWbits _) fun _ => ih _

theorem traced_codecWpayload : Traced codecWpayload :=
  traced_bind traced_srcRewind fun _ => traced_get fun _ => traced_bind (traced_payloadLoop _ _) fun _ =>
    traced_get fun _ => traced_ite (traced_raise nofun) traced_pure

theorem traced_codecRheader : Traced codecRheader :=
  traced_bind traced_srcRint fun _ => traced_bind (traced_modify (fun _ => rfl) fun _ => rfl) fun _ =>
    traced_guard nofun <| traced_bind traced_srcRstr fun _ => traced_bind traced_htDeser fun _ =>
    traced_get fun _ => traced_ite (traced_raise nofun) traced_pure

theorem traced_descend (fuel : Nat) : Traced (descend fuel) := by
  induction fuel with
  | zero => exact traced_stop nofun
  | succ fuel ih =>
    refine traced_get fun s => traced_bind (traced_nodeAt _) fun node => traced_ite traced_pure ?_
    exact traced_bind traced_srcRbit fun _ => traced_guard nofun <|
      traced_bind (traced_modify (fun _ => rfl) fun _ => rfl) fun _ => ih

theorem traced_walkLoop (fuel : Nat) : Traced (walkLoop fuel) := by
  induction fuel with
  | zero => exact traced_stop nofun
  | succ fuel ih =>
    have hemit : Traced (do
        let t ← get
        let leaf ← nodeAt t.cursor
        orIOError (snkPut leaf.nsym)
        modify fun s => { s with remain := s.remain - 1, cursor := s.root }
        walkLoop fuel) :=
      traced_get fun _ => traced_bind (traced_nodeAt _) fun _ => traced_bind (traced_snkPut _) fun _ =>
        traced_bind (traced_modify (fun _ => rfl) fun _ => rfl) fun _ => ih
    exact traced_get fun _ => traced_ite traced_pure <| traced_bind (traced_nodeAt _) fun _ =>
      traced_ite (traced_bind traced_srcRbit fun _ => hemit) (traced_bind (traced_descend _) fun _ => hemit)

theorem traced_codecWalk : Traced codecWalk :=
  traced_get fun _ => traced_guard nofun <|
    traced_bind (traced_modify (fun _ => rfl) fun _ => rfl) fun _ => traced_walkLoop _

theorem traced_closeEncode : Traced closeEncode := traced_bind traced_snkClose fun _ => traced_srcRelease

theorem traced_closeDecode : Traced closeDecode := traced_bind traced_srcClose fun _ => traced_snkClosePort

/-! ## Phases -/

theorem Phase.work_traced {p n : Phase} {w : Op Unit} (h : p.work = some (w, n)) : Traced w := by
  cases p with
  | eCount => cases h; exact traced_codecFcount
  | eBuild => cases h; exact traced_htBuild
  | eCodes => cases h; exact traced_htGencodes
  | eHeader => cases h; exact traced_codecWheader
  | ePayload => cases h; exact traced_codecWpayload
  | eClose => cases h; exact traced_closeEncode
  | dHeader => cases h; exact traced_codecRheader
  | dWalk => cases h; exact traced_codecWalk
  | dClose => cases h; exact traced_closeDecode
  | idle => cases h
  | done => cases h
  | failed => cases h

theorem traced_runPhases {phases : List (Op Unit × Phase)} (h : ∀ e ∈ phases, ∃ p : Phase, p.work = some e) :
    Traced (runPhases phases) := by
  induction phases with
  | nil => exact traced_pure
  | cons e rest ih =>
    obtain ⟨p, hp⟩ := h e (List.mem_cons_self ..)
    exact traced_bind (traced_bind (Phase.work_traced hp) fun _ => traced_modify (fun _ => rfl) fun _ => rfl)
      fun _ => ih fun e he => h e (List.mem_cons_of_mem _ he)

/-! ## Failure entry -/

/-- What port calls of which a failure is not looked at come to. -/
def PortTraced (p : Port α) : Prop :=
  ∀ s, (∀ a t, p s = .ok a t → ∃ calls, Called s calls t) ∧
    (∀ c t, p s = .error c t → ∃ calls u, Called s calls u ∧ EndsAt u (.cut c) t)

theorem CallSpec.portTraced {p : Port α} {event : α → State → PortEvent} (hp : CallSpec p event) : PortTraced p :=
  fun s => ⟨fun _ _ h => ⟨_, hp.called h⟩, fun _ _ h => ⟨[], s, .refl s, hp.endsAt h⟩⟩

theorem portTraced_modify {f : State → State} (henv : ∀ s, (f s).env = s.env) (hstim : ∀ s, (f s).stim = s.stim) :
    PortTraced (modify f) :=
  fun s => ⟨fun a t h => by cases h; exact ⟨[], .of_eq (henv s) (hstim s)⟩, fun c t h => by cases h⟩

theorem portTraced_bind {x : Port α} {f : α → Port β} (hx : PortTraced x) (hf : ∀ a, PortTraced (f a)) :
    PortTraced (x >>= f) := by
  intro s
  obtain ⟨hok, herr⟩ := hx s
  rw [run_bind]
  cases hxs : x s with
  | ok a t =>
    obtain ⟨calls, hcalls⟩ := hok a t hxs
    refine ⟨fun b u h => ?_, fun c u h => ?_⟩
    · obtain ⟨more, hmore⟩ := (hf a t).1 b u h
      exact ⟨_, hcalls.trans hmore⟩
    · obtain ⟨more, v, hmore, hend⟩ := (hf a t).2 c u h
      exact ⟨_, v, hcalls.trans hmore, hend⟩
  | error c t => exact ⟨fun _ _ h => (by cases h), fun c' u h => by cases h; exact herr c t hxs⟩

theorem portTraced_get {f : State → Port α} (h : ∀ s, PortTraced (f s)) : PortTraced (get >>= f) := fun s => h s s

theorem portTraced_ite {c : Prop} [Decidable c] {x y : Port α} (hx : PortTraced x) (hy : PortTraced y) :
    PortTraced (if c then x else y) := by
  split
  · exact hx
  · exact hy

theorem portTraced_failureEntry (k : ErrKind) : PortTraced (failureEntry k) := by
  have hlast : PortTraced (modify fun s => { s with phase := .failed }) :=
    portTraced_modify (fun _ => rfl) fun _ => rfl
  have hdecoding (s : State) : PortTraced (if s.phase.decoding then do
      if s.rclosed = false then
        let _ ← srcRelease
        modify fun s => { s with rclosed := true }
      let _ ← snkClosePort
      modify fun s => { s with phase := .failed }
    else modify fun s => { s with phase := .failed }) := by
    refine portTraced_ite (portTraced_ite ?_ ?_) hlast
    · exact portTraced_bind srcRelease_spec.portTraced fun _ =>
        portTraced_bind (portTraced_modify (fun _ => rfl) fun _ => rfl) fun _ =>
        portTraced_bind snkClosePort_spec.portTraced fun _ => hlast
    · exact portTraced_bind snkClosePort_spec.portTraced fun _ => hlast
  refine portTraced_bind (portTraced_modify (fun _ => rfl) fun _ => rfl) fun _ => portTraced_get fun s =>
    portTraced_ite (portTraced_ite ?_ ?_) (hdecoding s)
  · exact portTraced_bind snkClosePort_spec.portTraced fun _ =>
      portTraced_bind (portTraced_modify (fun _ => rfl) fun _ => rfl) fun _ =>
      portTraced_bind srcRelease_spec.portTraced fun _ => hdecoding s
  · exact portTraced_bind srcRelease_spec.portTraced fun _ => hdecoding s

end Sys2Proof.Machine
end

section
/-! PROOFS. ENCODE and DECODE as one operation are the run of the sequencer from their command, however they end
(spec/44_codec.md R215, R219). -/

namespace Sys2Proof.Machine

variable {s u : State}

/-! ## How a traced operation answers a next state -/

/-- Failure entry ends in `FAILED` after its closing calls, or in the reset state when a reset overtakes one. -/
theorem enterFailure_called {k : ErrKind} {t : State} (h : enterFailure k t = .next u) :
    (FailedFrom k t u ∧ ∃ calls, Called t calls u) ∨
    (∃ v calls w, u = v.powerReset ∧ Called t calls w ∧ EndsAt w (.cut .resetApplied) v) := by
  obtain ⟨hok, herr⟩ := portTraced_failureEntry k t
  unfold enterFailure at h
  cases he : failureEntry k t with
  | ok a v =>
    rw [he] at h
    cases h
    have hfailed := failureEntry_failedFrom he
    obtain ⟨calls, hcalls⟩ := hok a v he
    unfold FailedFrom at hfailed
    refine .inl ⟨?_, calls, hcalls.env, hcalls.gives, hcalls.stim⟩
    unfold FailedFrom
    rw [hfailed]
  | error c v =>
    rw [he] at h
    cases c with
    | stop f => cases h
    | resetApplied =>
      cases h
      obtain ⟨calls, w, hcalls, hend⟩ := herr _ v he
      exact .inr ⟨v, calls, w, rfl, hcalls, hend⟩

/-- What a reset leaves of the host's side when it overtakes a call behind others. -/
structure ResetFrom (s u : State) : Prop where
  reset : ∃ v : State, u = v.powerReset
  answered : PortAnswer.reset ∈ s.env.answers
  stim : u.stim = s.stim
  log : ∃ calls, u.env.log = s.env.log ++ calls

theorem Called.resetFrom {calls : List PortEvent} {v w : State} (h : Called s calls w)
    (hend : EndsAt w (.cut .resetApplied) v) : ResetFrom s v.powerReset := by
  obtain ⟨rest, hrest, henv, hstim⟩ := hend
  refine ⟨⟨v, rfl⟩, h.answers (hrest ▸ List.mem_cons_self ..), hstim.trans h.stim, calls, ?_⟩
  rw [State.powerReset_env, henv]
  exact h.log

/-- A traced operation has run to its end, all its calls having succeeded, or failure entry has been taken, after a
failed call if the kind is IOError, or the block has been reset. -/
theorem Traced.complete_next {op : Op Result} (hop : Traced op) (h : complete op s = .next u) :
    (∃ r t, op s = .ok r t ∧ u = { t with result := r } ∧ Unfailing s t) ∨
    (∃ k t calls, op s = .error (.raised k) t ∧ FailedFrom k t u ∧ Called s calls u ∧
      (k = .ioError → ∃ e ∈ calls, e.failed = true)) ∨
    ResetFrom s u := by
  obtain ⟨hok, herr⟩ := hop s
  obtain ⟨r, t, ht, rfl⟩ | ⟨k, t, ht, hu⟩ | ⟨t, ht, rfl⟩ := Machine.complete_next h
  · exact .inl ⟨r, t, ht, rfl, hok r t ht⟩
  · obtain ⟨v, ⟨before, hbefore, -⟩, hend⟩ := herr _ t ht
    obtain ⟨calls, hcalls, hfailed⟩ :
        ∃ calls, Called s calls t ∧ (k = .ioError → ∃ e ∈ calls, e.failed = true) := by
      obtain ⟨-, event, hevent, hcall⟩ | ⟨hk, hcall⟩ := hend
      · exact ⟨_, hbefore.trans hcall, fun _ => ⟨event, by simp, hevent⟩⟩
      · exact ⟨_, hbefore.trans hcall, fun h => absurd h hk⟩
    obtain ⟨hfrom, more, hmore⟩ | ⟨v, more, w, rfl, hmore, hend⟩ := enterFailure_called hu
    · refine .inr (.inl ⟨k, t, _, ht, hfrom, hcalls.trans hmore, fun h => ?_⟩)
      obtain ⟨e, he, hfail⟩ := hfailed h
      exact ⟨e, List.mem_append_left _ he, hfail⟩
    · exact .inr (.inr ((hcalls.trans hmore).resetFrom hend))
  · obtain ⟨v, ⟨calls, hcalls, -⟩, hend⟩ := herr _ t ht
    exact .inr (.inr (hcalls.resetFrom hend))

/-! ## The run of the sequencer -/

section
variable {M : Host.Core} {x y : M.State}

theorem run_succ_of_next (h : M.step x = .next y) (n : Nat) : M.run (n + 1) x = M.run n y := by
  simp only [Host.Core.run, h]

theorem run_succ_of_fault {r : M.Fault} (h : M.step x = .fault r) (n : Nat) : M.run (n + 1) x = .fault r := by
  simp only [Host.Core.run, h]

theorem run_succ_of_refused {r : M.Refusal} (h : M.step x = .refused r) (n : Nat) : M.run (n + 1) x = .refused r := by
  simp only [Host.Core.run, h]

end

/-- With nothing presented and no phase to perform the block waits. -/
theorem run_of_waiting (hstim : s.stim = []) (hwork : s.phase.work = none) (n : Nat) :
    Sys2Proof.core.run n s = .next s := by
  have hstep : step s = .next s := by
    simp only [step, hstim]
    exact tick_of_no_work hwork
  induction n with
  | zero => rfl
  | succ n ih => exact (run_succ_of_next (M := Sys2Proof.core) hstep n).trans ih

/-- A run whose first step ends the invocation ends as that step does. -/
theorem run_succ_of_waiting (h : ∀ u, step s = .next u → u.stim = [] ∧ u.phase.work = none) (n : Nat) :
    Sys2Proof.core.run (n + 1) s = step s := by
  cases hs : step s with
  | next u =>
    obtain ⟨hstim, hwork⟩ := h u hs
    exact (run_succ_of_next (M := Sys2Proof.core) hs n).trans (run_of_waiting hstim hwork n)
  | fault r => exact run_succ_of_fault (M := Sys2Proof.core) hs n
  | refused r => exact run_succ_of_refused (M := Sys2Proof.core) hs n

/-- The phases in their order, from a phase to one in which the block waits. -/
def Follow : Phase → List (Op Unit × Phase) → Prop
  | p, [] => p.work = none
  | p, (w, n) :: rest => p.work = some (w, n) ∧ Follow n rest

/-- No unit writes the result port. -/
theorem UnitOp.result_ok {α : Type} {op : Op α} (h : UnitOp op) {t : State} {a : α} (ht : op s = .ok a t) :
    t.result = s.result := by
  let C : Contract :=
    { inv := fun t => t.result = s.result, raised := fun _ _ => True, inv_call := fun _ h => h,
      raised_of_inv := fun _ _ => trivial }
  have hC : C.KeptByUnits := Contract.keptByUnits_of_ignores_all (fun _ _ _ _ h => h) (fun _ _ h => h)
    (fun _ _ _ _ _ h => h) (fun _ _ _ h => h) (fun _ _ _ h => h)
  exact (h C hC s rfl).1 a t ht

theorem traced_phaseStep {w : Op Unit} (hw : Traced w) (n : Phase) : Traced (phaseStep w n) :=
  traced_bind hw fun _ => traced_modify (fun _ => rfl) fun _ => rfl

theorem Traced.noResult {op : Op Unit} (h : Traced op) : Traced (noResult op) := traced_bind h fun _ => traced_pure

/-- Operations that end alike become the same step. -/
theorem complete_congr {op op' : Op Unit} {t : State} (h : op s = op' t) :
    complete (noResult op) s = complete (noResult op') t := by
  have h' : noResult op s = noResult op' t := by rw [noResult, noResult, run_bind, run_bind, h]
  rw [complete, complete, h']

/-- The phases one after the other, as one operation and as steps of the sequencer. -/
theorem run_phases (phases : List (Op Unit × Phase)) (hphases : Follow s.phase phases) (hstim : s.stim = [])
    (hresult : s.result = .none) :
    complete (noResult (runPhases phases)) s = Sys2Proof.core.run phases.length s := by
  induction phases generalizing s with
  | nil =>
    rw [complete_of_ok (noResult_ok (show runPhases [] s = .ok () s from rfl)), ← hresult]
    exact (run_of_waiting hstim hphases 0).symm
  | cons phase rest ih =>
    obtain ⟨w, n⟩ := phase
    obtain ⟨hwork, hrest⟩ := hphases
    have hstep : step s = complete (noResult (phaseStep w n)) s := by
      simp only [step, hstim]
      exact tick_of_work hwork
    have htraced := (traced_phaseStep (Phase.work_traced hwork) n).noResult
    cases hw : w s with
    | ok a t =>
      have hrun : phaseStep w n s = .ok () { t with phase := n } := by simp [phaseStep, hw]
      have hresult' : t.result = .none := ((Phase.work_unitOp hwork).result_ok hw).trans hresult
      have hstim' : t.stim = [] := by
        obtain ⟨calls, hcalls, -⟩ := (Phase.work_traced hwork s).1 a t hw
        exact hcalls.stim.trans hstim
      have hnext : step s = .next { t with phase := n } := by
        rw [hstep, complete_of_ok (noResult_ok hrun), ← hresult']
      exact (complete_congr (bind_of_ok hrun)).trans <| (ih (s := { t with phase := n }) hrest hstim' hresult').trans
        (run_succ_of_next (M := Sys2Proof.core) hnext _).symm
    | error e t =>
      have hrun : phaseStep w n s = .error e t := bind_of_error hw
      have hsame : complete (noResult (runPhases ((w, n) :: rest))) s = step s :=
        (complete_congr ((bind_of_error hrun).trans hrun.symm)).trans hstep.symm
      rw [hsame]
      refine (run_succ_of_waiting (fun u hu => ?_) _).symm
      rw [hstep] at hu
      obtain ⟨r, v, hv, -⟩ | ⟨k, v, calls, -, hfrom, hcalls, -⟩ | hreset := htraced.complete_next hu
      · rw [noResult_error hrun] at hv
        cases hv
      · exact ⟨hcalls.stim.trans hstim, by rw [hfrom.phase]; rfl⟩
      · refine ⟨hreset.stim.trans hstim, ?_⟩
        obtain ⟨v, rfl⟩ := hreset.reset
        rfl

/-- An invocation is its phases from the start values on. -/
theorem run_invocation {op : Op Unit} {p : Phase} {phases : List (Op Unit × Phase)} {code : BitVec 8}
    (hop : op = modify (State.initialise p) >>= fun _ => runPhases phases) (hphases : Follow p phases)
    (hcommand : command code { s with stim := [] } = .next (State.initialise p { s with stim := [] })) :
    complete (noResult op) { s with stim := [] } =
      Sys2Proof.core.run (phases.length + 1) { s with stim := [.command code] } := by
  subst hop
  exact (complete_congr (bind_of_ok (run_modify ..))).trans <|
    (run_phases (s := State.initialise p { s with stim := [] }) phases hphases rfl rfl).trans
    (run_succ_of_next (M := Sys2Proof.core) (x := { s with stim := [.command code] }) hcommand _).symm

/-- Settles O12: the command gives the start values, and the sequencer performs the phases as the operation does. -/
theorem invocationIsSequencerRun : Obligations.InvocationIsSequencerRun := by
  intro s hbusy
  have hfree : State.busy { s with stim := [] } = false := hbusy
  refine ⟨?_, ?_⟩
  · rw [exec_eq, hfree, Bool.and_false, if_neg Bool.false_ne_true]
    exact run_invocation encodeInvocation_eq ⟨rfl, rfl, rfl, rfl, rfl, rfl, rfl⟩ (by simp [command, hfree])
  · rw [exec_eq, hfree, Bool.and_false, if_neg Bool.false_ne_true]
    exact run_invocation decodeInvocation_eq ⟨rfl, rfl, rfl, rfl⟩ (by simp [command, hfree])

end Sys2Proof.Machine
end

section
/-! PROOFS. The errors an invocation can end in (spec/44_codec.md R210 to R214, spec/60_exceptions.md R247): which kinds
each phase raises, given what the phases before it leave. -/

namespace Sys2Proof.Machine

variable {α β : Type} {s u : State} {ks : List ErrKind} {P : State → Prop}

/-- The kinds that an operation may raise. -/
def OneOf (ks : List ErrKind) : ErrKind → State → Prop := fun k _ => k ∈ ks

/-- Port calls do not touch it. -/
def EnvFree (P : State → Prop) : Prop := ∀ s e, P s → P (s.withEnv e)

/-- An operation that runs as another does from the states in question. -/
theorem triple_congr {op op' : Op α} {Q : α → State → Prop} {E : ErrKind → State → Prop} (h : Triple P op' Q E)
    (heq : ∀ s, P s → op s = op' s) : Triple P op Q E :=
  fun s hs => heq s hs ▸ h s hs

/-! ## Port calls -/

section
variable (hP : EnvFree P) (hio : ErrKind.ioError ∈ ks)
include hP hio

theorem raises_orIOError {p : Port Bool} {event : Bool → State → PortEvent} (hp : CallSpec p event) :
    Triple P (orIOError p) (fun _ => P) (OneOf ks) :=
  triple_orIOError hp (fun s => hP s _) fun _ _ => hio

theorem raises_putBytes (bytes : List Byte) : Triple P (putBytes bytes) (fun _ => P) (OneOf ks) := by
  induction bytes with
  | nil => exact triple_pure fun _ h => h
  | cons b rest ih => exact triple_bind (raises_orIOError hP hio (snkPut_spec b)) fun _ => ih

/-- `SrcNext` as the operations use it. -/
theorem raises_srcNext {f : SrcReply → Op α} {Q : α → State → Prop} (hfail : f .fail = raise .ioError)
    (heof : Triple P (f .eof) Q (OneOf ks)) (hbyte : ∀ b, Triple P (f (.byte b)) Q (OneOf ks)) :
    Triple P (lift srcNext >>= f) Q (OneOf ks) := by
  refine triple_bind (Q := fun _ => P) (triple_lift srcNext_spec fun s r hs _ => hP s _ hs) fun r => ?_
  cases r with
  | byte b => exact hbyte b
  | eof => exact heof
  | fail => exact hfail ▸ triple_raise fun _ _ => hio

theorem raises_nextByte (hend : ErrKind.endOfStream ∈ ks) : Triple P nextByte (fun _ => P) (OneOf ks) :=
  raises_srcNext hP hio rfl (triple_raise fun _ _ => hend) fun _ => triple_pure fun _ h => h

end

/-! ## ENCODE -/

/-- The kinds of ENCODE. -/
def encodeKinds : List ErrKind := [.ioError, .symbolRange, .countOverflow, .replayMismatch]

/-- The sink is open. -/
def State.SinkOpen (s : State) : Prop := s.sclosed = false

/-- The sink is open and at a byte boundary. -/
def State.SinkAtByte (s : State) : Prop := s.sclosed = false ∧ s.wcnt = 0

/-- The sink is open at a byte boundary, and the tree is HT.BUILD's. -/
def State.Built (s : State) : Prop := s.SinkAtByte ∧ s.HoldsTreeOf s.occurring

theorem raises_countLoop (fuel : Nat) :
    Triple State.SinkAtByte (countLoop fuel) (fun _ => State.SinkAtByte) (OneOf encodeKinds) := by
  induction fuel with
  | zero => exact triple_stop
  | succ fuel ih =>
    refine raises_srcNext (fun _ _ h => h) (by decide) rfl (triple_pure fun _ h => h) fun b =>
      triple_guard (fun _ _ _ => by simp [OneOf, encodeKinds]) fun _ => triple_get fun _ =>
      triple_guard (fun _ _ _ => by simp [OneOf, encodeKinds]) fun _ => ?_
    exact triple_bind (Q := fun _ => State.SinkAtByte) (triple_modify fun _ h => h) fun _ =>
      triple_bind (Q := fun _ => State.SinkAtByte) (triple_modify fun _ h => h) fun _ => ih

theorem raises_htBuild : Triple State.SinkAtByte htBuild (fun _ => State.Built) (OneOf encodeKinds) := by
  refine triple_of_ok fun s hs => ?_
  obtain ⟨nodes, seq, root, hrun, htree⟩ := htBuild_ok s
  exact ⟨(), _, hrun, hs, htree⟩

theorem raises_htGencodes : Triple State.Built htGencodes (fun _ => State.Built) (OneOf encodeKinds) := by
  refine triple_of_ok fun s hs => ?_
  obtain ⟨code, hrun, -⟩ := htGencodes_ok hs.2 (occurring_length_le s)
  exact ⟨(), _, hrun, hs⟩

theorem raises_codecWheader :
    Triple State.Built codecWheader (fun _ => State.SinkOpen) (OneOf encodeKinds) := by
  have hwint (v : Word) : Triple State.Built (snkWint v) (fun _ => State.Built) (OneOf encodeKinds) :=
    triple_congr (raises_putBytes (fun _ _ h => h) (by decide) _) fun s hs => snkWint_of_open hs.1.1 hs.1.2 v
  have hser : Triple State.Built htSer (fun _ => State.SinkAtByte) (OneOf encodeKinds) := by
    refine triple_of_ok fun s hs => ?_
    obtain ⟨ser, hrun⟩ := htSer_ok hs.2 (occurring_length_le s)
    exact ⟨(), _, hrun, hs.1⟩
  have hwstr : Triple State.SinkAtByte snkWstr (fun _ => State.SinkAtByte) (OneOf encodeKinds) := by
    refine triple_congr (op' := do let s ← get; putBytes (0x00#8 :: s.serlen :: s.ser)) (triple_get fun s => ?_) ?_
    · exact raises_putBytes (fun _ _ h => h) (by decide) _
    · rintro s ⟨hopen, hcnt⟩
      exact bind_of_ok (a := ()) (by simp [snkByteLevel, hopen, hcnt])
  exact triple_get fun s => triple_bind (hwint _) fun _ => triple_bind hser fun _ =>
    triple_conseq hwstr (fun _ h => h) (fun _ _ h => h.1) fun _ _ h => h

theorem raises_writeBits (bits : Bits) :
    Triple State.SinkOpen (writeBits bits) (fun _ => State.SinkOpen) (OneOf encodeKinds) := by
  induction bits with
  | nil => exact triple_pure fun _ h => h
  | cons b rest ih =>
    refine triple_bind (Q := fun _ => State.SinkOpen) (triple_modify fun _ h => h) fun _ => triple_get fun _ =>
      triple_ite (fun _ => ?_) fun _ => ih
    exact triple_bind (raises_orIOError (fun _ _ h => h) (by decide) (snkPut_spec _)) fun _ =>
      triple_bind (Q := fun _ => State.SinkOpen) (triple_modify fun _ h => h) fun _ => ih

theorem raises_payloadLoop (fuel : Nat) (k : Word) :
    Triple State.SinkOpen (payloadLoop fuel k) (fun _ => State.SinkOpen) (OneOf encodeKinds) := by
  induction fuel generalizing k with
  | zero => exact triple_stop
  | succ fuel ih =>
    have hmismatch (s : State) : OneOf encodeKinds .replayMismatch s := by simp [OneOf, encodeKinds]
    refine raises_srcNext (fun _ _ h => h) (by decide) rfl (triple_pure fun _ h => h) fun b => triple_get fun s =>
      triple_guard (fun _ t _ => hmismatch t) fun _ => triple_guard (fun _ t _ => hmismatch t) fun _ =>
      triple_guard (fun _ t _ => hmismatch t) fun _ => triple_bind (Q := fun _ => State.SinkOpen) ?_ fun _ => ih _
    exact triple_congr (raises_writeBits _) fun t ht => snkWbits_of_open ht _

theorem raises_codecWpayload :
    Triple State.SinkOpen codecWpayload (fun _ => State.SinkOpen) (OneOf encodeKinds) := by
  refine triple_bind (raises_orIOError (fun _ _ h => h) (by decide) srcRewind_spec) fun _ => triple_get fun _ =>
    triple_bind (raises_payloadLoop _ _) fun _ => triple_get fun _ => triple_ite (fun _ => ?_) fun _ => ?_
  · exact triple_raise fun _ _ => by simp [OneOf, encodeKinds]
  · exact triple_pure fun _ h => h

theorem raises_closeEncode :
    Triple State.SinkOpen closeEncode (fun _ _ => True) (OneOf encodeKinds) := by
  have hlast : Triple State.SinkOpen (do orIOError snkClosePort; modify fun s => { s with sclosed := true })
      (fun _ _ => True) (OneOf encodeKinds) :=
    triple_bind (raises_orIOError (fun _ _ h => h) (by decide) snkClosePort_spec) fun _ =>
      triple_modify fun _ _ => trivial
  refine triple_bind (triple_get_bind fun s hs => triple_guard (fun hclosed => ?_) fun _ => triple_pre
    (triple_ite (fun _ => ?_) fun _ => hlast) ?_) fun _ =>
    raises_orIOError (fun _ _ h => h) (by decide) srcRelease_spec
  · rw [hs] at hclosed
    cases hclosed
  · exact triple_bind (raises_orIOError (fun _ _ h => h) (by decide) (snkPut_spec _)) fun _ =>
      triple_bind (Q := fun _ => State.SinkOpen) (triple_modify fun _ h => h) fun _ => hlast
  · rintro _ rfl
    exact hs

/-- ENCODE raises no kind but its own. -/
theorem raises_encodeInvocation :
    Triple (fun _ => True) encodeInvocation (fun _ s => s.phase = .done) (OneOf encodeKinds) :=
  triple_bind (Q := fun _ => State.SinkAtByte) (triple_modify fun _ _ => ⟨rfl, rfl⟩) fun _ =>
  triple_bind (triple_get fun _ => raises_countLoop _) fun _ =>
  triple_bind (Q := fun _ => State.SinkAtByte) (triple_modify fun _ h => h) fun _ =>
  triple_bind raises_htBuild fun _ =>
  triple_bind (Q := fun _ => State.Built) (triple_modify fun _ h => h) fun _ =>
  triple_bind raises_htGencodes fun _ =>
  triple_bind (Q := fun _ => State.Built) (triple_modify fun _ h => h) fun _ =>
  triple_bind raises_codecWheader fun _ =>
  triple_bind (Q := fun _ => State.SinkOpen) (triple_modify fun _ h => h) fun _ =>
  triple_bind raises_codecWpayload fun _ =>
  triple_bind (Q := fun _ => State.SinkOpen) (triple_modify fun _ h => h) fun _ =>
  triple_bind raises_closeEncode fun _ => triple_modify fun _ _ => rfl

/-! ## DECODE -/

/-- The kinds of DECODE. -/
def decodeKinds : List ErrKind := [.ioError, .malformedTree, .endOfStream, .badCount]

/-- The source is open. -/
def State.SourceOpen (s : State) : Prop := s.rclosed = false

/-- The source is open and at a byte boundary. -/
def State.SourceAtByte (s : State) : Prop := s.rclosed = false ∧ s.rcnt = 0

/-- The source is open at a byte boundary, and the count that has been read is not negative. -/
def State.CountRead (s : State) : Prop := s.SourceAtByte ∧ s.total.msb = false

/-- CODEC.WALK's precondition: the count is not negative, and there is a tree for a positive one. -/
def State.Walkable (s : State) : Prop :=
  s.rclosed = false ∧ (s.total.msb || (positive s.total && s.root = Config.nil)) = false

theorem raises_srcNextByte (hP : EnvFree P) : Triple P nextByte (fun _ => P) (OneOf decodeKinds) :=
  raises_nextByte hP (by decide) (by decide)

theorem raises_srcByteLevel (hP : ∀ s, P s → s.SourceAtByte) :
    Triple P srcByteLevel (fun _ => P) (OneOf decodeKinds) :=
  triple_of_ok fun s hs => ⟨(), s, srcByteLevel_of_open (hP s hs).1 (hP s hs).2, hs⟩

theorem raises_srcRint : Triple State.SourceAtByte srcRint (fun _ => State.SourceAtByte) (OneOf decodeKinds) :=
  have hbyte := raises_srcNextByte (P := State.SourceAtByte) fun _ _ h => h
  triple_bind (raises_srcByteLevel fun _ h => h) fun _ => triple_bind hbyte fun _ => triple_bind hbyte fun _ =>
    triple_bind hbyte fun _ => triple_bind hbyte fun _ => triple_pure fun _ h => h

theorem malformed_mem (s : State) : OneOf decodeKinds .malformedTree s := by simp [OneOf, decodeKinds]

theorem raises_readUnits (n : Nat) :
    Triple State.CountRead (readUnits n) (fun _ => State.CountRead) (OneOf decodeKinds) := by
  induction n with
  | zero => exact triple_pure fun _ h => h
  | succ n ih =>
    exact triple_bind (raises_srcNextByte fun _ _ h => h) fun _ => triple_guard (fun _ s _ => malformed_mem s) fun _ =>
      triple_bind (Q := fun _ => State.CountRead) (triple_modify fun _ h => h) fun _ => ih

theorem raises_srcRstr : Triple State.CountRead srcRstr (fun _ => State.CountRead) (OneOf decodeKinds) :=
  have hbyte := raises_srcNextByte (P := State.CountRead) fun _ _ h => h
  triple_bind (raises_srcByteLevel fun _ h => h.1) fun _ => triple_bind hbyte fun _ => triple_bind hbyte fun _ =>
    triple_guard (fun _ s _ => malformed_mem s) fun _ =>
    triple_bind (Q := fun _ => State.CountRead) (triple_modify fun _ h => h) fun _ => raises_readUnits _

theorem raises_deserScan (units : List Byte) :
    Triple State.CountRead (deserScan units) (fun _ => State.CountRead) (OneOf decodeKinds) := by
  have hpush (node : Node) {rest : Op Unit}
      (h : Triple State.CountRead rest (fun _ => State.CountRead) (OneOf decodeKinds)) :
      Triple State.CountRead (alloc node >>= fun n => pushNode n >>= fun _ => rest) (fun _ => State.CountRead)
        (OneOf decodeKinds) :=
    triple_bind (triple_alloc (Q := fun _ => State.CountRead) fun _ h => h) fun _ =>
      triple_bind (Q := fun _ => State.CountRead) (triple_modify fun _ h => h) fun _ => h
  induction units with
  | nil => exact triple_pure fun _ h => h
  | cons v rest ih =>
    refine triple_get fun s => triple_ite (fun _ => triple_guard (fun _ s _ => malformed_mem s) fun _ => hpush _ ih)
      fun _ => ?_
    match s.stk with
    | b :: a :: below =>
      exact triple_bind (Q := fun _ => State.CountRead) (triple_modify fun _ h => h) fun _ => hpush _ ih
    | [] => exact triple_bind (triple_raise fun s _ => malformed_mem s) fun _ => ih
    | [_] => exact triple_bind (triple_raise fun s _ => malformed_mem s) fun _ => ih

theorem raises_htDeser : Triple State.CountRead htDeser (fun _ => State.CountRead) (OneOf decodeKinds) := by
  refine triple_bind (Q := fun _ => State.CountRead) (triple_modify fun _ h => h) fun _ => triple_get fun s =>
    triple_bind (raises_deserScan _) fun _ => triple_ite (fun _ => triple_pure fun _ h => h) fun _ =>
    triple_get fun t => ?_
  match t.stk with
  | [n] => exact triple_modify fun _ h => h
  | [] => exact triple_raise fun s _ => malformed_mem s
  | _ :: _ :: _ => exact triple_raise fun s _ => malformed_mem s

theorem raises_codecRheader :
    Triple State.SourceAtByte codecRheader (fun _ => State.Walkable) (OneOf decodeKinds) := by
  refine triple_bind raises_srcRint fun v => triple_bind (Q := fun _ s => s.SourceAtByte ∧ s.total = v)
    (triple_modify fun _ h => ⟨h, rfl⟩) fun _ =>
    triple_guard (fun _ _ _ => by simp [OneOf, decodeKinds]) fun hsign => triple_pre (P' := State.CountRead) ?_ ?_
  · refine triple_bind raises_srcRstr fun _ => triple_bind raises_htDeser fun _ => triple_get_bind fun s hs =>
      triple_ite (fun _ => triple_raise fun t _ => malformed_mem t) fun htree => triple_pure ?_
    rintro _ rfl
    exact ⟨hs.1.1, by rw [hs.2]; simpa using htree⟩
  · rintro s ⟨hs, rfl⟩
    exact ⟨hs, by simpa using hsign⟩

theorem raises_srcRbit : Triple State.SourceOpen srcRbit (fun _ => State.SourceOpen) (OneOf decodeKinds) := by
  have htake : Triple State.SourceOpen (do
      let s ← get
      let bit := s.rbuf.msb
      modify fun s => { s with rbuf := s.rbuf <<< 1, rcnt := s.rcnt - 1 }
      pure bit) (fun _ => State.SourceOpen) (OneOf decodeKinds) :=
    triple_get fun _ => triple_bind (Q := fun _ => State.SourceOpen) (triple_modify fun _ h => h) fun _ =>
      triple_pure fun _ h => h
  refine triple_get_bind fun s hs => triple_guard (fun hclosed => ?_) fun _ => triple_pre
    (triple_ite (fun _ => ?_) fun _ => htake) ?_
  · rw [hs] at hclosed
    cases hclosed
  · exact triple_bind (raises_srcNextByte fun _ _ h => h) fun _ =>
      triple_bind (Q := fun _ => State.SourceOpen) (triple_modify fun _ h => h) fun _ => htake
  · rintro _ rfl
    exact hs

theorem raises_nodeAt (n : NodeRef) :
    Triple State.SourceOpen (nodeAt n) (fun _ => State.SourceOpen) (OneOf decodeKinds) := by
  refine triple_get fun s => ?_
  cases s.nodes[n.toNat]? with
  | some node => exact triple_pure fun _ h => h
  | none => exact triple_stop

theorem raises_descend (fuel : Nat) :
    Triple State.SourceOpen (descend fuel) (fun _ => State.SourceOpen) (OneOf decodeKinds) := by
  induction fuel with
  | zero => exact triple_stop
  | succ fuel ih =>
    refine triple_get fun s => triple_bind (raises_nodeAt _) fun node =>
      triple_ite (fun _ => triple_pure fun _ h => h) fun _ => triple_bind raises_srcRbit fun _ => ?_
    exact triple_guard (fun _ s _ => malformed_mem s) fun _ =>
      triple_bind (Q := fun _ => State.SourceOpen) (triple_modify fun _ h => h) fun _ => ih

theorem raises_walkLoop (fuel : Nat) :
    Triple State.SourceOpen (walkLoop fuel) (fun _ => State.SourceOpen) (OneOf decodeKinds) := by
  induction fuel with
  | zero => exact triple_stop
  | succ fuel ih =>
    have hemit : Triple State.SourceOpen (do
        let t ← get
        let leaf ← nodeAt t.cursor
        orIOError (snkPut leaf.nsym)
        modify fun s => { s with remain := s.remain - 1, cursor := s.root }
        walkLoop fuel) (fun _ => State.SourceOpen) (OneOf decodeKinds) :=
      triple_get fun _ => triple_bind (raises_nodeAt _) fun _ =>
        triple_bind (raises_orIOError (fun _ _ h => h) (by decide) (snkPut_spec _)) fun _ =>
        triple_bind (Q := fun _ => State.SourceOpen) (triple_modify fun _ h => h) fun _ => ih
    exact triple_get fun _ => triple_ite (fun _ => triple_pure fun _ h => h) fun _ =>
      triple_bind (raises_nodeAt _) fun _ => triple_ite (fun _ => triple_bind raises_srcRbit fun _ => hemit)
      fun _ => triple_bind (raises_descend _) fun _ => hemit

theorem raises_codecWalk : Triple State.Walkable codecWalk (fun _ => State.SourceOpen) (OneOf decodeKinds) := by
  refine triple_get_bind fun s hs => triple_guard (fun hguard => ?_) fun _ =>
    triple_bind (Q := fun _ => State.SourceOpen) (triple_modify ?_) fun _ => raises_walkLoop _
  · rw [hs.2] at hguard
    cases hguard
  · rintro _ rfl
    exact hs.1

theorem raises_closeDecode :
    Triple State.SourceOpen closeDecode (fun _ _ => True) (OneOf decodeKinds) := by
  refine triple_bind (Q := fun _ _ => True) (triple_get_bind fun s hs => triple_guard (fun hclosed => ?_) fun _ => ?_)
    fun _ => raises_orIOError (fun _ _ h => h) (by decide) snkClosePort_spec
  · rw [hs] at hclosed
    cases hclosed
  · exact triple_bind (Q := fun _ _ => True) (triple_pre
      (raises_orIOError (fun _ _ h => h) (by decide) srcRelease_spec) fun _ _ => trivial) fun _ =>
      triple_modify fun _ _ => trivial

/-- DECODE raises no kind but its own. -/
theorem raises_decodeInvocation :
    Triple (fun _ => True) decodeInvocation (fun _ s => s.phase = .done) (OneOf decodeKinds) :=
  triple_bind (Q := fun _ => State.SourceAtByte) (triple_modify fun _ _ => ⟨rfl, rfl⟩) fun _ =>
  triple_bind raises_codecRheader fun _ =>
  triple_bind (Q := fun _ => State.Walkable) (triple_modify fun _ h => h) fun _ =>
  triple_bind raises_codecWalk fun _ =>
  triple_bind (Q := fun _ => State.SourceOpen) (triple_modify fun _ h => h) fun _ =>
  triple_bind raises_closeDecode fun _ => triple_modify fun _ _ => rfl

/-! ## How an invocation ends -/

theorem traced_encodeInvocation : Traced encodeInvocation :=
  encodeInvocation_eq ▸ traced_bind (traced_modify (fun _ => rfl) fun _ => rfl) fun _ =>
    traced_runPhases encodePhases_work

theorem traced_decodeInvocation : Traced decodeInvocation :=
  decodeInvocation_eq ▸ traced_bind (traced_modify (fun _ => rfl) fun _ => rfl) fun _ =>
    traced_runPhases decodePhases_work

/-- The ends of an invocation that raises no kind but `ks`. -/
theorem invocation_ends {i : Instr} {op : Op Unit} (hi : startsInvocation i = true)
    (hop : operation i = noResult op) (htraced : Traced op)
    (hraises : Triple (fun _ => True) op (fun _ s => s.phase = .done) (OneOf ks)) (hbusy : s.busy = false)
    (h : exec i s = .next u) :
    ((u.phase = .done ∧ u.err = .none) ∨ (u.phase = .idle ∧ PortAnswer.reset ∈ s.env.answers) ∨
      (u.phase = .failed ∧ u.err ∈ ks)) ∧
    ∃ calls, u.env.log = s.env.log ++ calls ∧ (u.phase = .done → ∀ e ∈ calls, e.failed = false) ∧
      (u.err = .ioError → ∃ e ∈ calls, e.failed = true) := by
  have herr : Triple (fun _ => True) (noResult op) (fun _ => State.ErrInv) errContract.raised :=
    hop ▸ errContract_keptBySequencer.invocation errContract_keptByUnits hi
  rw [exec_eq, hbusy, Bool.and_false, if_neg Bool.false_ne_true, hop] at h
  have hends : Triple (fun _ => True) (noResult op) (fun _ s => s.phase = .done) (OneOf ks) :=
    triple_bind hraises fun _ => triple_pure fun _ h => h
  obtain ⟨r, t, ht, rfl, calls, hcalls, hok⟩ | ⟨k, t, calls, ht, hfrom, hcalls, hfailed⟩ | hreset :=
    htraced.noResult.complete_next h
  · have hdone : t.phase = .done := (hends s trivial).1 r t ht
    have hnone : t.err = .none := ((herr s trivial).1 r t ht).mpr (hdone ▸ nofun)
    exact ⟨.inl ⟨hdone, hnone⟩, calls, hcalls.log, fun _ => hok, fun hio => absurd (hnone.symm.trans hio) nofun⟩
  · refine ⟨.inr (.inr ⟨hfrom.phase, hfrom.err ▸ (hends s trivial).2 k t ht⟩), calls, hcalls.log, fun hdone => ?_,
      fun hio => hfailed (hfrom.err.symm.trans hio)⟩
    exact absurd (hfrom.phase.symm.trans hdone) nofun
  · obtain ⟨calls, hlog⟩ := hreset.log
    obtain ⟨v, rfl⟩ := hreset.reset
    exact ⟨.inr (.inl ⟨rfl, hreset.answered⟩), calls, hlog, nofun, nofun⟩

/-- Settles O19: the trace of the invocation says how it ends, and its phases which kinds it raises. -/
theorem invocationErrors : Obligations.InvocationErrors := by
  intro s u hbusy
  have hencode (h : exec .encode s = .next u) :=
    invocation_ends rfl rfl traced_encodeInvocation raises_encodeInvocation hbusy h
  have hdecode (h : exec .decode s = .next u) :=
    invocation_ends rfl rfl traced_decodeInvocation raises_decodeInvocation hbusy h
  exact ⟨fun h => (hencode h).1, fun h => h.elim (fun h => (hencode h).2) fun h => (hdecode h).2,
    fun h => (hdecode h).1⟩

end Sys2Proof.Machine
end

section
/-! PROOFS. CODEC.FCOUNT and CODEC.WHEADER as steps (spec/44_codec.md R210, R211). -/

namespace Sys2Proof.Machine

variable {s : State} {good rest : List Byte} {b : Byte}

/-! ## CODEC.FCOUNT -/

/-- The loop counts all bytes before the first that it may refuse, and goes on behind them. -/
theorem countLoop_of_good (good : List Byte) (hsrc : s.env.src = good ++ rest) (hobl : s.env.obliging)
    (hgood : ∀ x ∈ good, x.toNat ≤ 127) (hroom : s.total.toNat + good.length ≤ 2147483647) :
    ∃ freq, (∀ fuel, countLoop (good.length + fuel) s = countLoop fuel { s with
        freq := freq, total := s.total + BitVec.ofNat 32 good.length, env := s.env.after (reads good) }) ∧
      ∀ sym, State.freqAt { s with freq := freq } sym = s.freqAt sym + BitVec.ofNat 32 (good.count sym.byte) := by
  induction good generalizing s with
  | nil => exact ⟨s.freq, fun fuel => by simp [reads], fun sym => by simp⟩
  | cons b good ih =>
    obtain ⟨hb, hgood⟩ := List.forall_mem_cons.mp hgood
    rw [List.length_cons] at hroom
    have hmax : s.total ≠ Config.countMax := by
      intro h
      have hval : s.total.toNat = 2147483647 := congrArg BitVec.toNat h
      omega
    have htotal : (s.total + 1).toNat = s.total.toNat + 1 := by bv_omega
    have hsum : s.total + BitVec.ofNat 32 (b :: good).length = s.total + 1 + BitVec.ofNat 32 good.length := by
      rw [List.length_cons]
      bv_omega
    obtain ⟨freq, hrun, hfreq⟩ := ih (s := s.countByte b) (src_after_srcNext hsrc) (hobl.after _) hgood
      (show (s.total + 1).toNat + _ ≤ _ by omega)
    refine ⟨freq, fun fuel => ?_, fun sym => (hfreq sym).trans (freqAt_countByte_add hb sym good)⟩
    rw [hsum, List.length_cons, Nat.add_right_comm, countLoop_of_byte hsrc hobl hb hmax]
    exact hrun fuel

theorem countLoop_of_large (hsrc : s.env.src = b :: rest) (hobl : s.env.obliging) (hb : 127 < b.toNat) (fuel : Nat) :
    countLoop (fuel + 1) s = .error (.raised .symbolRange) (s.withEnv (s.env.after (reads [b]))) := by
  have hlarge : 127#8 < b := hb
  rw [countLoop, bind_of_ok (lift_of_ok (srcNext_of_obliging_cons hobl hsrc))]
  exact run_if_pos hlarge

theorem countLoop_of_full (hsrc : s.env.src = b :: rest) (hobl : s.env.obliging) (hb : b.toNat ≤ 127)
    (hfull : s.total = Config.countMax) (fuel : Nat) :
    countLoop (fuel + 1) s = .error (.raised .countOverflow) (s.withEnv (s.env.after (reads [b]))) := by
  rw [countLoop, bind_of_ok (lift_of_ok (srcNext_of_obliging_cons hobl hsrc))]
  exact (run_if_neg (not_lt_of_le_127 hb)).trans <| (bind_of_ok (run_get _)).trans <| run_if_pos hfull

/-- Settles O42: the loop counts to the source's end. -/
theorem fcountCounts : Obligations.FcountCounts := by
  intro s hbytes hroom hobl
  obtain ⟨freq, hrun, hfreq⟩ := countLoop_ok s.env.src (s.env.src.length + 1) rfl hobl hbytes hroom (Nat.lt_succ_self _)
  exact ⟨_, complete_of_ok (noResult_ok ((bind_of_ok (run_get s)).trans hrun)), rfl, hfreq⟩

/-- CODEC.FCOUNT raises what its loop raises. -/
theorem codecFcount_of_raised {k : ErrKind} {t : State} (hsrc : s.env.src = good ++ b :: rest)
    (h : ∀ fuel, countLoop (good.length + (fuel + 1)) s = .error (.raised k) t) :
    exec .codecFcount s = enterFailure k t := by
  have hrun := h (rest.length + 1)
  have hfuel : good.length + (rest.length + 1 + 1) = s.env.src.length + 1 := by
    rw [hsrc, List.length_append, List.length_cons]
    rfl
  rw [hfuel] at hrun
  exact complete_of_raised (noResult_error hrun)

/-- Settles O43: the good bytes are counted, and the loop refuses the byte behind them. -/
theorem fcountRejects : Obligations.FcountRejects := by
  intro s good rest b hsrc hgood hobl
  refine ⟨fun hb hroom => ?_, fun hb hfull => ?_⟩
  · obtain ⟨freq, hloop, hfreq⟩ := countLoop_of_good good hsrc hobl hgood hroom
    have hrun (fuel : Nat) := (hloop (fuel + 1)).trans
      (countLoop_of_large (src_after_reads hsrc) (hobl.after _) hb fuel)
    refine ⟨_, codecFcount_of_raised hsrc hrun, ?_, hfreq⟩
    rw [after_reads_append, State.withEnv]
  · obtain ⟨freq, hloop, hfreq⟩ := countLoop_of_good good hsrc hobl hgood hfull.le
    have htotal : s.total + BitVec.ofNat 32 good.length = Config.countMax := by
      refine BitVec.eq_of_toNat_eq ?_
      have hmax : Config.countMax.toNat = 2147483647 := rfl
      rw [BitVec.toNat_add, BitVec.toNat_ofNat]
      omega
    have hrun (fuel : Nat) := (hloop (fuel + 1)).trans
      (countLoop_of_full (src_after_reads hsrc) (hobl.after _) hb htotal fuel)
    refine ⟨_, codecFcount_of_raised hsrc hrun, ?_, hfreq⟩
    rw [after_reads_append, State.withEnv, htotal]
    rfl

/-! ## CODEC.WHEADER -/

/-- CODEC.WHEADER puts the count and the length-prefixed description that HT.SER leaves. -/
theorem codecWheader_of_htSer {ser : List Byte} (hopen : s.sclosed = false) (hcnt : s.wcnt = 0) (hobl : s.env.obliging)
    (hser : ∀ e, htSer (s.withEnv e) = .ok () { s with ser := ser, env := e }) :
    codecWheader s = .ok () { s with
      ser := ser
      env := s.env.after (puts (bigEndianBytes s.total ++ 0x00#8 :: BitVec.ofNat 8 ser.length :: ser)) } := by
  have hwstr := snkWstr_of_obliging
    (s := { s with ser := ser, env := s.env.after (puts (bigEndianBytes s.total)) }) hopen hcnt (hobl.after _)
  rw [codecWheader]
  refine (bind_of_ok (run_get s)).trans <| (bind_of_ok (snkWint_of_obliging hopen hcnt hobl s.total)).trans <|
    (bind_of_ok (hser _)).trans <| hwstr.trans ?_
  simp [State.withEnv, State.serlen, puts, Env.after_append]

/-- Settles O44: HT.SER leaves the description of the tree, and the empty one without a tree. -/
theorem wheaderWrites : Obligations.WheaderWrites := fun _ hopen hcnt hobl =>
  ⟨fun _ ht hlen => complete_of_ok (noResult_ok
      (codecWheader_of_htSer hopen hcnt hobl fun e => htSer_of_tree (s := State.withEnv _ e) ht hlen)),
    fun hroot => complete_of_ok (noResult_ok
      (codecWheader_of_htSer hopen hcnt hobl fun e => htSer_of_nil (s := State.withEnv _ e) hroot))⟩

end Sys2Proof.Machine
end

section
/-! PROOFS. CODEC.WPAYLOAD as a step (spec/44_codec.md R214): the calls that it makes, the bytes that it puts, and where
it finds the second reading to differ. -/

namespace Sys2Proof.Machine

variable {s : State} {bits : Bits} {good rest : List Byte} {b : Byte} {k : Word}

/-! ## Bits taken in one after the other -/

/-- A bit sequence has fewer than 8 bits, or 8 bits and a shorter sequence behind them. -/
theorem bits_induction {P : Bits → Prop} (short : ∀ bits, bits.length < 8 → P bits)
    (group : ∀ bits rest, bits.length = 8 → P rest → P (bits ++ rest)) (bits : Bits) : P bits := by
  by_cases h : bits.length < 8
  · exact short bits h
  · rw [← List.take_append_drop 8 bits]
    exact group _ _ (by rw [List.length_take]; omega) (bits_induction short group (bits.drop 8))
termination_by bits.length
decreasing_by rw [List.length_drop]; omega

/-- Only the bits left over matter to what follows. -/
theorem fullBytes_append (bits rest : Bits) :
    fullBytes (bits ++ rest) = fullBytes bits ++ fullBytes (leftoverBits bits ++ rest) := by
  induction bits using bits_induction with
  | short bits h => rw [fullBytes_of_short h, leftoverBits_of_short h, List.nil_append]
  | group group bits h ih =>
    rw [List.append_assoc, fullBytes_append_of_length_eq h, fullBytes_append_of_length_eq h,
      leftoverBits_append_of_length_eq h, ih, List.cons_append]

theorem leftoverBits_append (bits rest : Bits) :
    leftoverBits (bits ++ rest) = leftoverBits (leftoverBits bits ++ rest) := by
  induction bits using bits_induction with
  | short bits h => rw [leftoverBits_of_short h]
  | group group bits h ih =>
    rw [List.append_assoc, leftoverBits_append_of_length_eq h, leftoverBits_append_of_length_eq h, ih]

theorem leftoverBits_length_lt (bits : Bits) : (leftoverBits bits).length < 8 := by
  rw [leftoverBits_length]
  exact Nat.mod_lt _ (by decide)

/-! ## The calls of the payload -/

theorem State.payloadBits_cons (s : State) (b : Byte) (rest : List Byte) :
    s.payloadBits (b :: rest) = s.codeAt (symbolOf b) ++ s.payloadBits rest :=
  List.flatMap_cons

/-- The calls put the complete groups of 8 bits. -/
theorem sinkBytes_payloadCalls (s : State) (input : List Byte) {pending : Bits} (h : pending.length < 8) :
    sinkBytes (s.payloadCalls pending input) = fullBytes (pending ++ s.payloadBits input) := by
  induction input generalizing pending with
  | nil =>
    have hnone : s.payloadBits [] = [] := rfl
    rw [hnone, List.append_nil, fullBytes_of_short h]
    rfl
  | cons b rest ih =>
    have hread (calls : List PortEvent) : sinkBytes (.srcNext (.byte b) :: calls) = sinkBytes calls := rfl
    rw [State.payloadBits_cons, ← List.append_assoc, fullBytes_append, ← ih (leftoverBits_length_lt _),
      State.payloadCalls, List.cons_append, hread, sinkBytes_append, sinkBytes_puts]

theorem sourceBytes_payloadCalls (s : State) (pending : Bits) (input : List Byte) :
    sourceBytes (s.payloadCalls pending input) = input := by
  induction input generalizing pending with
  | nil => rfl
  | cons b rest ih =>
    rw [State.payloadCalls, List.cons_append, sourceBytes, sourceBytes_append, sourceBytes_puts, ih]
    rfl

theorem srcRewind_not_mem_payloadCalls (s : State) (pending : Bits) (input : List Byte) :
    PortEvent.srcRewind true ∉ s.payloadCalls pending input := by
  induction input generalizing pending with
  | nil => exact List.not_mem_nil
  | cons b rest ih =>
    rw [State.payloadCalls, List.cons_append, List.mem_cons, List.mem_append]
    rintro (h | h | h)
    · cases h
    · simp [puts] at h
    · exact ih _ h

theorem src_after_payloadCalls {e : Env} (pending : Bits) (h : e.src = good ++ rest) :
    (e.after (s.payloadCalls pending good)).src = rest := by
  rw [Env.after_src _ _ (srcRewind_not_mem_payloadCalls s pending good), sourceBytes_payloadCalls, h, List.drop_left]

/-! ## The loop -/

/-- What SNK.WBITS and the loop of CODEC.WPAYLOAD write: the sink's buffer, while calls are made. -/
def State.sinkAfter (s : State) (buf : BitVec 8) (cnt : BitVec 4) (calls : List PortEvent) : State :=
  { s with wbuf := buf, wcnt := cnt, env := s.env.after calls }

theorem State.sinkAfter_sinkAfter (s : State) (buf buf' : BitVec 8) (cnt cnt' : BitVec 4)
    (calls more : List PortEvent) :
    (s.sinkAfter buf cnt calls).sinkAfter buf' cnt' more = s.sinkAfter buf' cnt' (calls ++ more) := by
  rw [State.sinkAfter, State.sinkAfter, State.sinkAfter, Env.after_append]

theorem State.withEnv_sinkAfter (s : State) (buf : BitVec 8) (cnt : BitVec 4) (calls more : List PortEvent) :
    (s.sinkAfter buf cnt calls).withEnv ((s.env.after calls).after more) = s.sinkAfter buf cnt (calls ++ more) := by
  rw [State.sinkAfter, State.sinkAfter, Env.after_append, State.withEnv]

/-- `buf` and `cnt` are an intact buffer with the bits `bits` pending. -/
def Pending (bits : Bits) (buf : BitVec 8) (cnt : BitVec 4) : Prop :=
  ∀ (s : State) (calls : List PortEvent),
    (s.sinkAfter buf cnt calls).pendingBits = bits ∧ (s.sinkAfter buf cnt calls).SinkInv

/-- SNK.WBITS's loop behind other calls. -/
theorem writeBits_pending (bits : Bits) (calls : List PortEvent) (hinv : s.SinkInv) (hobl : s.env.obliging) :
    ∃ buf cnt, writeBits bits (s.withEnv (s.env.after calls)) =
        .ok () (s.sinkAfter buf cnt (calls ++ puts (fullBytes (s.pendingBits ++ bits)))) ∧
      Pending (leftoverBits (s.pendingBits ++ bits)) buf cnt := by
  obtain ⟨buf, cnt, hrun, hpending⟩ := writeBits_packs (s := s.withEnv (s.env.after calls)) bits hinv.1 (hobl.after _)
  have hkept := (sinkContract_keeps_writeBits bits (s.withEnv (s.env.after calls)) hinv).1 () _ hrun
  refine ⟨buf, cnt, hrun.trans ?_, fun _ _ => ⟨hpending, hkept⟩⟩
  rw [State.sinkAfter, Env.after_append]
  rfl

/-- A byte that may be encoded: below 128 and with a code. -/
def State.Encodable (s : State) (b : Byte) : Prop := b.toNat ≤ 127 ∧ s.codeAt (symbolOf b) ≠ []

/-- The loop encodes all bytes before the first that it may refuse, by the codes of `table`, and goes on behind
them. -/
theorem payloadLoop_of_good {table : State} (good : List Byte) (htable : s.code = table.code)
    (hsrc : s.env.src = good ++ rest) (hobl : s.env.obliging) (hopen : s.sclosed = false) (hinv : s.SinkInv)
    (hgood : ∀ x ∈ good, table.Encodable x) (hroom : k.toNat + good.length ≤ s.total.toNat) :
    ∃ buf cnt, (∀ fuel, payloadLoop (good.length + fuel) k s =
        payloadLoop fuel (k + BitVec.ofNat 32 good.length)
          (s.sinkAfter buf cnt (table.payloadCalls s.pendingBits good))) ∧
      Pending (leftoverBits (s.pendingBits ++ table.payloadBits good)) buf cnt := by
  induction good generalizing s k with
  | nil =>
    have hshort : s.pendingBits.length < 8 := by
      rw [State.pendingBits_length]
      exact Nat.lt_succ_of_le hinv.1
    have hnone : s.pendingBits ++ table.payloadBits [] = s.pendingBits := List.append_nil _
    refine ⟨s.wbuf, s.wcnt, fun fuel => by simp [State.payloadCalls, State.sinkAfter], ?_⟩
    rw [hnone, leftoverBits_of_short hshort]
    exact fun _ _ => ⟨rfl, hinv⟩
  | cons b good ih =>
    obtain ⟨⟨hb, hcode⟩, hgood⟩ := List.forall_mem_cons.mp hgood
    rw [List.length_cons] at hroom
    have hlt := s.total.isLt
    have hk : k ≠ s.total := by
      rintro rfl
      omega
    have hcodeAt : s.codeAt (symbolOf b) = table.codeAt (symbolOf b) := by simp only [State.codeAt, htable]
    have hnext : (k + 1).toNat = k.toNat + 1 := by bv_omega
    have hsum : k + BitVec.ofNat 32 (b :: good).length = k + 1 + BitVec.ofNat 32 good.length := by
      rw [List.length_cons]
      bv_omega
    obtain ⟨buf, cnt, hwrite, hpending⟩ := writeBits_pending (table.codeAt (symbolOf b)) [.srcNext (.byte b)] hinv hobl
    obtain ⟨hbits, hkept⟩ := hpending s
      ([.srcNext (.byte b)] ++ puts (fullBytes (s.pendingBits ++ table.codeAt (symbolOf b))))
    have hahead : (s.sinkAfter buf cnt ([.srcNext (.byte b)] ++
        puts (fullBytes (s.pendingBits ++ table.codeAt (symbolOf b))))).env.src = good ++ rest :=
      (congrArg Env.src (Env.after_append ..)).trans ((src_after_puts _ _).trans (src_after_srcNext hsrc))
    obtain ⟨buf', cnt', hrun, hpending'⟩ := ih (k := k + 1)
      (s := s.sinkAfter buf cnt ([.srcNext (.byte b)] ++ puts (fullBytes (s.pendingBits ++ table.codeAt (symbolOf b)))))
      htable hahead (hobl.after _) hopen hkept hgood (show (k + 1).toNat + good.length ≤ s.total.toNat by omega)
    rw [← hcodeAt] at hcode hwrite
    refine ⟨buf', cnt', fun fuel => ?_, ?_⟩
    · rw [hsum, List.length_cons, Nat.add_right_comm, payloadLoop_of_byte hsrc hobl hopen hb hcode hk hwrite, hcodeAt,
        hrun fuel, State.sinkAfter_sinkAfter, hbits]
      rfl
    · rw [State.payloadBits_cons, ← List.append_assoc, leftoverBits_append, ← hbits]
      exact hpending'

/-! ## The operation -/

theorem payloadLoop_of_refused (hsrc : s.env.src = b :: rest) (hobl : s.env.obliging)
    (hbad : 127 < b.toNat ∨ s.codeAt (symbolOf b) = [] ∨ k = s.total) (fuel : Nat) :
    payloadLoop (fuel + 1) k s =
      .error (.raised .replayMismatch) (s.withEnv (s.env.after [.srcNext (.byte b)])) := by
  rw [payloadLoop, bind_of_ok (lift_of_ok (srcNext_of_obliging_cons hobl hsrc))]
  refine (bind_of_ok (run_get _)).trans ?_
  by_cases hlarge : 127#8 < b
  · exact run_if_pos hlarge
  by_cases hcode : s.codeAt (symbolOf b) = []
  · exact (run_if_neg hlarge).trans (run_if_pos hcode)
  · have hfull : k = s.total := (hbad.resolve_left hlarge).resolve_left hcode
    exact (run_if_neg hlarge).trans <| (run_if_neg hcode).trans (run_if_pos hfull)

section
variable (hobl : s.env.obliging)
include hobl

/-- After the rewind CODEC.WPAYLOAD is its loop and the comparison of the two counts. -/
theorem codecWpayload_of_loop_ok {t : State}
    (h : payloadLoop (s.env.replay.length + 1) 0 (s.withEnv (s.env.after [.srcRewind true])) = .ok k t) :
    codecWpayload s = if k ≠ t.total then .error (.raised .replayMismatch) t else .ok () t := by
  rw [codecWpayload, bind_of_ok (orIOError_of_ok (srcRewind_of_obliging hobl))]
  exact (bind_of_ok (run_get _)).trans <| (bind_of_ok h).trans <| (bind_of_ok (run_get t)).trans (run_ite ..)

theorem codecWpayload_of_loop_raised {t : State} {e : Halt}
    (h : payloadLoop (s.env.replay.length + 1) 0 (s.withEnv (s.env.after [.srcRewind true])) = .error e t) :
    codecWpayload s = .error e t := by
  rw [codecWpayload, bind_of_ok (orIOError_of_ok (srcRewind_of_obliging hobl))]
  exact (bind_of_ok (run_get _)).trans <| bind_of_error h

variable (hopen : s.sclosed = false) (hinv : s.SinkInv) (hgood : ∀ x ∈ good, s.Encodable x)
  (hroom : good.length ≤ s.total.toNat)
include hopen hinv hgood hroom

/-- The first bytes of the replay, when they may be encoded. -/
theorem payloadLoop_of_replay (hreplay : s.env.replay = good ++ rest) :
    ∃ buf cnt, (∀ fuel, payloadLoop (good.length + fuel) 0 (s.withEnv (s.env.after [.srcRewind true])) =
        payloadLoop fuel (BitVec.ofNat 32 good.length)
          (s.sinkAfter buf cnt (.srcRewind true :: s.payloadCalls s.pendingBits good))) ∧
      Pending (leftoverBits (s.pendingBits ++ s.payloadBits good)) buf cnt := by
  have hzero : (0 : Word) + BitVec.ofNat 32 good.length = BitVec.ofNat 32 good.length := BitVec.zero_add _
  obtain ⟨buf, cnt, hrun, hpending⟩ := payloadLoop_of_good (k := 0) (s := s.withEnv (s.env.after [.srcRewind true]))
    (table := s) good rfl hreplay (hobl.after _) hopen hinv hgood ((Nat.zero_add _).trans_le hroom)
  rw [hzero] at hrun
  exact ⟨buf, cnt, hrun, hpending⟩

/-- The loop at the end of a replay that may be encoded. -/
theorem payloadLoop_of_whole_replay (hreplay : s.env.replay = good) :
    ∃ buf cnt, payloadLoop (s.env.replay.length + 1) 0 (s.withEnv (s.env.after [.srcRewind true])) =
        .ok (BitVec.ofNat 32 good.length)
          (s.sinkAfter buf cnt (.srcRewind true :: s.payloadCalls s.pendingBits good ++ [.srcNext .eof])) ∧
      Pending (leftoverBits (s.pendingBits ++ s.payloadBits good)) buf cnt := by
  obtain ⟨buf, cnt, hrun, hpending⟩ := payloadLoop_of_replay hobl hopen hinv hgood hroom (rest := [])
    (hreplay.trans (List.append_nil _).symm)
  refine ⟨buf, cnt, ?_, hpending⟩
  rw [hreplay, hrun 1, ← State.sinkAfter_sinkAfter (buf := buf) (cnt := cnt)]
  exact payloadLoop_of_eof (src_after_payloadCalls (rest := []) _ (hreplay.trans (List.append_nil _).symm))
    (hobl.after _) _ _

/-- CODEC.WPAYLOAD on a replay of `TOTAL` bytes that may be encoded. -/
theorem codecWpayload_encodes (hreplay : s.env.replay = good) (htotal : good.length = s.total.toNat) :
    ∃ buf cnt, codecWpayload s =
        .ok () (s.sinkAfter buf cnt (.srcRewind true :: s.payloadCalls s.pendingBits good ++ [.srcNext .eof])) ∧
      Pending (leftoverBits (s.pendingBits ++ s.payloadBits good)) buf cnt := by
  obtain ⟨buf, cnt, hrun, hpending⟩ := payloadLoop_of_whole_replay hobl hopen hinv hgood hroom hreplay
  have hsame : ¬BitVec.ofNat 32 good.length ≠ s.total := by
    rw [htotal, BitVec.ofNat_toNat, BitVec.setWidth_eq]
    exact not_not_intro rfl
  exact ⟨buf, cnt, (codecWpayload_of_loop_ok hobl hrun).trans (if_neg hsame), hpending⟩

end

/-- What the sink has received after the payload's calls. -/
theorem sinkBytes_after_payload (hinv : s.SinkInv) (input : List Byte) {last : PortEvent}
    (hlast : sinkBytes [last] = []) :
    sinkBytes (s.env.after (.srcRewind true :: s.payloadCalls s.pendingBits input ++ [last])).log =
      sinkBytes s.env.log ++ fullBytes (s.pendingBits ++ s.payloadBits input) := by
  have hshort : s.pendingBits.length < 8 := (State.pendingBits_length s).trans_lt (Nat.lt_succ_of_le hinv.1)
  have hrewind (calls : List PortEvent) : sinkBytes (.srcRewind true :: calls) = sinkBytes calls := rfl
  rw [Env.after_log, sinkBytes_append, List.cons_append, hrewind, sinkBytes_append, hlast, List.append_nil,
    sinkBytes_payloadCalls s input hshort]

theorem sourceBytes_after_payload (input : List Byte) {last : PortEvent} (hlast : sourceBytes [last] = []) :
    sourceBytes (s.env.after (.srcRewind true :: s.payloadCalls s.pendingBits input ++ [last])).log =
      sourceBytes s.env.log ++ input := by
  have hrewind (calls : List PortEvent) : sourceBytes (.srcRewind true :: calls) = sourceBytes calls := rfl
  rw [Env.after_log, sourceBytes_append, List.cons_append, hrewind, sourceBytes_append, hlast, List.append_nil,
    sourceBytes_payloadCalls]

/-- The second reading comes to its end. -/
theorem src_after_payload (s : State) :
    (s.env.after (.srcRewind true :: s.payloadCalls s.pendingBits s.env.replay ++ [.srcNext .eof])).src = [] := by
  have hall : s.env.replay = s.env.replay ++ [] := (List.append_nil _).symm
  rw [Env.after_append]
  exact src_after_payloadCalls (e := s.env.after [.srcRewind true]) _ hall

/-- Settles O45: the loop encodes the whole replay, and both counts are `TOTAL`. -/
theorem wpayloadWrites : Obligations.WpayloadWrites := by
  intro s hopen hinv hobl hgood htotal
  obtain ⟨buf, cnt, hrun, hpending⟩ := codecWpayload_encodes hobl hopen hinv hgood htotal.le rfl htotal
  exact ⟨_, complete_of_ok (noResult_ok hrun), rfl, src_after_payload s, Env.after_replay ..,
    sourceBytes_after_payload _ rfl, sinkBytes_after_payload hinv _ rfl, hpending s []⟩

/-- Settles O46: the loop refuses the byte behind the good ones, and at the end of too short a replay the counts
differ. -/
theorem wpayloadRejects : Obligations.WpayloadRejects := by
  intro s good rest b hopen hinv hobl hgood hroom
  refine ⟨fun hreplay hbad => ?_, fun hreplay hshort => ?_⟩
  · obtain ⟨buf, cnt, hloop, hpending⟩ := payloadLoop_of_replay hobl hopen hinv hgood hroom hreplay
    have hbad : 127 < b.toNat ∨ s.codeAt (symbolOf b) = [] ∨ BitVec.ofNat 32 good.length = s.total :=
      hbad.imp_right <| Or.imp_right fun h => by rw [h, BitVec.ofNat_toNat, BitVec.setWidth_eq]
    have hahead := src_after_payloadCalls (s := s) (e := s.env.after [.srcRewind true]) s.pendingBits hreplay
    have hrefused (fuel : Nat) := (hloop (fuel + 1)).trans <| (payloadLoop_of_refused
      (s := s.sinkAfter buf cnt (.srcRewind true :: s.payloadCalls s.pendingBits good))
      hahead (hobl.after _) hbad fuel).trans (congrArg (EStateM.Result.error _) (State.withEnv_sinkAfter ..))
    have hfuel : s.env.replay.length + 1 = good.length + (rest.length + 1 + 1) := by
      rw [hreplay, List.length_append, List.length_cons]
      rfl
    have hrun := codecWpayload_of_loop_raised hobl ((congrArg (payloadLoop · 0 _) hfuel).trans (hrefused _))
    exact ⟨_, complete_of_raised (noResult_error hrun), rfl, sinkBytes_after_payload hinv _ rfl, hpending s []⟩
  · obtain ⟨buf, cnt, hloop, hpending⟩ := payloadLoop_of_whole_replay hobl hopen hinv hgood hroom hreplay
    have hdiffer : BitVec.ofNat 32 good.length ≠ s.total := by
      intro h
      have hlt := s.total.isLt
      have := congrArg BitVec.toNat h
      rw [BitVec.toNat_ofNat, Nat.mod_eq_of_lt (by omega)] at this
      omega
    have hrun := (codecWpayload_of_loop_ok hobl hloop).trans (if_pos hdiffer)
    exact ⟨_, complete_of_raised (noResult_error hrun), rfl, sinkBytes_after_payload hinv _ rfl, hpending s []⟩

end Sys2Proof.Machine
end

section
/-! PROOFS. CODEC.RHEADER as a step (spec/44_codec.md R212): the header that it reads, and the first error of every
other. -/

namespace Sys2Proof.Machine

variable {s : State} {rest : List Byte} {v : Word}

/-! ## The end of the source -/

/-- `s` when its source has been read to the end and the end has been seen. -/
def State.ended (s : State) : State := s.withEnv (s.env.after (reads s.env.src ++ [.srcNext .eof]))

/-- When all bytes have been read, the next call brings the end. -/
theorem nextByte_at_end {α : Type} {read : List Byte} (hobl : s.env.obliging) (hsrc : s.env.src = read)
    (f : Byte → Op α) :
    (nextByte >>= f) (s.withEnv (s.env.after (reads read))) = .error (.raised .endOfStream) s.ended := by
  subst hsrc
  rw [State.ended, Env.after_append]
  exact bind_of_error (nextByte_of_obliging_nil (hobl.after _) (src_after_reads (List.append_nil _).symm))

/-- Bytes that were read before the rest of the source. -/
theorem State.ended_after_reads {read : List Byte} (u : State) (hsrc : s.env.src = read ++ rest) :
    State.ended { u with env := s.env.after (reads read) } = { u with env := s.ended.env } := by
  have hrest : (s.env.after (reads read)).src = rest := src_after_reads hsrc
  have hcalls : (s.env.after (reads read)).after (reads rest ++ [.srcNext .eof]) = s.ended.env := by
    rw [State.ended, hsrc, State.withEnv, Env.after_append, Env.after_append, after_reads_append]
  rw [State.ended, hrest, hcalls, State.withEnv]

section
variable (hopen : s.rclosed = false) (hcnt : s.rcnt = 0) (hobl : s.env.obliging)
include hopen hcnt hobl

theorem srcRint_of_short (hshort : s.env.src.length < 4) : srcRint s = .error (.raised .endOfStream) s.ended := by
  rw [srcRint, bind_of_ok (srcByteLevel_of_open hopen hcnt)]
  match hsrc : s.env.src, hshort with
  | [], _ => exact nextByte_at_end (read := []) hobl hsrc _
  | [b3], _ => exact (nextByte_bind (read := []) hobl hsrc _).trans (nextByte_at_end (read := [b3]) hobl hsrc _)
  | [b3, b2], _ =>
    exact (nextByte_bind (read := []) hobl hsrc _).trans <| (nextByte_bind (read := [b3]) hobl hsrc _).trans <|
      nextByte_at_end (read := [b3, b2]) hobl hsrc _
  | [b3, b2, b1], _ =>
    exact (nextByte_bind (read := []) hobl hsrc _).trans <| (nextByte_bind (read := [b3]) hobl hsrc _).trans <|
      (nextByte_bind (read := [b3, b2]) hobl hsrc _).trans <| nextByte_at_end (read := [b3, b2, b1]) hobl hsrc _

theorem srcRstr_of_no_length (hshort : s.env.src.length < 2) :
    srcRstr s = .error (.raised .endOfStream) s.ended := by
  rw [srcRstr, bind_of_ok (srcByteLevel_of_open hopen hcnt)]
  match hsrc : s.env.src, hshort with
  | [], _ => exact nextByte_at_end (read := []) hobl hsrc _
  | [hi], _ => exact (nextByte_bind (read := []) hobl hsrc _).trans (nextByte_at_end (read := [hi]) hobl hsrc _)

/-- The units that are there are taken in before the end is seen. -/
theorem srcRstr_of_missing_units {hi lo : Byte} {units : List Byte} (hsrc : s.env.src = hi :: lo :: units)
    (hmore : units.length < prefixLength hi lo) (hshort : prefixLength hi lo ≤ 255)
    (hunits : ∀ u ∈ units, u.toNat ≤ 128) :
    srcRstr s = .error (.raised .endOfStream) { s with ser := units, env := s.ended.env } := by
  obtain ⟨n, hlen⟩ := Nat.exists_eq_add_of_lt hmore
  rw [srcRstr_of_units hopen hcnt hobl (hsrc.trans (List.append_nil _).symm) hshort hunits (n := n + 1) hlen]
  exact nextByte_at_end (s := { s with ser := units }) hobl hsrc _

end

/-! ## The parts of the header -/

/-- `s` when CODEC.RHEADER has read the count. -/
def State.counted (s : State) (v : Word) : State :=
  { s with total := v, env := s.env.after (reads (bigEndianBytes v)) }

theorem positive_iff (v : Word) : positive v = true ↔ 0 < v.toInt := by
  have hzero : v = 0 ↔ v.toInt = 0 := BitVec.toInt_inj.symm
  have hsign : v.msb = false ↔ 0 ≤ v.toInt := by simp [BitVec.msb_eq_toInt]
  rw [positive, Bool.and_eq_true, Bool.not_eq_true', bne_iff_ne, Ne, hzero, hsign]
  omega

/-- What is left of the source behind the count. -/
theorem src_after_counted {tail : List Byte} (hsrc : s.env.src = bigEndianBytes v ++ tail) :
    (s.counted v).env.src = tail :=
  src_after_reads hsrc

/-- What CODEC.RHEADER does after the count, when this is not negative. -/
def readDescription : Op Unit := do
  srcRstr
  htDeser
  let s ← get
  if positive s.total && s.root = Config.nil then raise .malformedTree

section
variable (hopen : s.rclosed = false) (hcnt : s.rcnt = 0) (hobl : s.env.obliging)
  (hsrc : s.env.src = bigEndianBytes v ++ rest)
include hopen hcnt hobl hsrc

theorem srcRint_of_word : srcRint s = .ok v (s.withEnv (s.env.after (reads (bigEndianBytes v)))) :=
  (srcRint_of_bytes hopen hcnt hobl hsrc).trans <|
    congrArg (EStateM.Result.ok · (s.withEnv (s.env.after (reads (bigEndianBytes v))))) (bigEndianWord_extractLsb' v)

theorem codecRheader_of_negative (hv : v.msb = true) :
    codecRheader s = .error (.raised .badCount) (s.counted v) :=
  (bind_of_ok (srcRint_of_word hopen hcnt hobl hsrc)).trans <| (bind_of_ok (run_modify ..)).trans <| run_if_pos hv

theorem codecRheader_of_count (hv : v.msb = false) : codecRheader s = readDescription (s.counted v) :=
  (bind_of_ok (srcRint_of_word hopen hcnt hobl hsrc)).trans <| (bind_of_ok (run_modify ..)).trans <|
    run_if_neg (by simp [hv])

end

theorem readDescription_of_deser {t u : State} (hrstr : srcRstr s = .ok () t) (hdeser : htDeser t = .ok () u) :
    readDescription s = if positive u.total && u.root = Config.nil then .error (.raised .malformedTree) u
      else .ok () u :=
  (bind_of_ok hrstr).trans <| (bind_of_ok hdeser).trans <| (bind_of_ok (run_get u)).trans <| run_ite ..

/-! ## The header of a container -/

/-- A header with units to read: SRC.RSTR leaves them in SER. -/
theorem srcRstr_of_header {hi lo : Byte} {units : List Byte} (hopen : s.rclosed = false) (hcnt : s.rcnt = 0)
    (hobl : s.env.obliging) (hsrc : s.env.src = bigEndianBytes v ++ (hi :: lo :: units ++ rest))
    (hlen : units.length = prefixLength hi lo) (hshort : units.length ≤ 255) (hunits : ∀ u ∈ units, u.toNat ≤ 128) :
    srcRstr (s.counted v) = .ok () { s with
      total := v, ser := units, env := s.env.after (reads (bigEndianBytes v ++ hi :: lo :: units)) } := by
  rw [srcRstr_of_units (s := s.counted v) hopen hcnt (hobl.after _) (src_after_counted hsrc) (hlen ▸ hshort) hunits
    (n := 0) hlen.symm, after_reads_append]
  rfl

theorem prefixLength_ofNat {n : Nat} (h : n ≤ 255) : prefixLength 0x00 (BitVec.ofNat 8 n) = n := by
  rw [prefixLength, BitVec.toNat_ofNat, Nat.mod_eq_of_lt (Nat.lt_succ_of_le h)]
  exact Nat.zero_add n

section
variable (hopen : s.rclosed = false) (hcnt : s.rcnt = 0) (hobl : s.env.obliging)
include hopen hcnt hobl

/-- CODEC.RHEADER on the header of a tree, whose nodes it stores one per unit. -/
theorem codecRheader_of_tree {t : Tree} (hv : v.msb = false) (hlen : t.symbols.length ≤ 128)
    (hsrc : s.env.src =
      bigEndianBytes v ++ (0x00 :: BitVec.ofNat 8 t.postorder.length :: t.postorder ++ rest)) :
    ∃ nodes root, let u : State := { s with
        total := v, ser := t.postorder, nodes := nodes, root := root, stk := []
        env := s.env.after (reads (bigEndianBytes v ++ 0x00 :: BitVec.ofNat 8 t.postorder.length :: t.postorder)) }
      codecRheader s = .ok () u ∧ u.ownsTree t ∧ nodes.length ≤ 255 := by
  have hshort : t.postorder.length ≤ 255 := by
    have := t.postorder_length
    omega
  have hrstr := srcRstr_of_header hopen hcnt hobl hsrc (prefixLength_ofNat hshort).symm hshort t.postorder_units
  obtain ⟨nodes, root, hdeser, howns, hnodes⟩ := htDeser_of_postorder (s := { s with
    total := v, ser := t.postorder
    env := s.env.after (reads (bigEndianBytes v ++ 0x00 :: BitVec.ofNat 8 t.postorder.length :: t.postorder)) })
    rfl hlen
  have hguard : ¬(positive v && root = Config.nil) = true := by simp [show root ≠ Config.nil from howns.1.1]
  exact ⟨nodes, root, (codecRheader_of_count hopen hcnt hobl hsrc hv).trans <|
    (readDescription_of_deser hrstr hdeser).trans (if_neg hguard), howns,
    hnodes.trans_le hshort⟩

/-- CODEC.RHEADER on the empty description. -/
theorem codecRheader_of_no_tree (hv : v.msb = false) (hsrc : s.env.src = bigEndianBytes v ++ ([0x00, 0x00] ++ rest)) :
    let u : State := { s with
      total := v, ser := [], nodes := [], root := Config.nil, stk := []
      env := s.env.after (reads (bigEndianBytes v ++ [0x00, 0x00])) }
    codecRheader s = if positive v then .error (.raised .malformedTree) u else .ok () u := by
  have hrstr := srcRstr_of_header (units := []) hopen hcnt hobl hsrc rfl (Nat.zero_le _) (by simp)
  refine (codecRheader_of_count hopen hcnt hobl hsrc hv).trans <|
    (readDescription_of_deser hrstr (htDeser_of_empty rfl)).trans ?_
  simp [State.unread]

end

/-- Settles O47: the tree is the one that HT.DESER rebuilds, and the count 0 needs none. -/
theorem rheaderReads : Obligations.RheaderReads := by
  refine fun s rest hopen hcnt hobl => ⟨fun v t hv hlen hsrc => ?_, fun hsrc => ?_⟩
  · obtain ⟨nodes, root, hrun, howns, -⟩ :=
      codecRheader_of_tree hopen hcnt hobl hv hlen (hsrc.trans (List.append_assoc ..))
    exact ⟨_, complete_of_ok (noResult_ok hrun), rfl, howns⟩
  · exact complete_of_ok (noResult_ok (codecRheader_of_no_tree (v := 0) hopen hcnt hobl rfl hsrc))

/-- Settles O48: each part of the header is read only behind the good ones before it. -/
theorem rheaderRejects : Obligations.RheaderRejects := by
  intro s v rest hopen hcnt hobl
  have hsign : v.msb = false ↔ 0 ≤ v.toInt := by simp [BitVec.msb_eq_toInt]
  refine ⟨fun hshort => ?_, fun hsrc hv => ?_, fun hsrc hv => ?_, fun hsrc hv hshort => ?_,
    fun hi lo units tail hv hunits => ⟨fun hsrc hlong => ?_, fun hsrc hmore hshort => ?_,
      fun bad hsrc hbad hmore hshort => ?_, fun hsrc hlen hshort hne hnot => ?_⟩⟩
  · exact complete_of_raised (noResult_error (bind_of_error (srcRint_of_short hopen hcnt hobl hshort)))
  · have hmsb : v.msb = true := by simpa [BitVec.msb_eq_toInt] using hv
    exact complete_of_raised (noResult_error (codecRheader_of_negative hopen hcnt hobl hsrc hmsb))
  · have hrun := codecRheader_of_no_tree hopen hcnt hobl (hsign.mpr hv.le) (hsrc.trans (List.append_assoc ..))
    exact complete_of_raised (noResult_error (hrun.trans (if_pos ((positive_iff v).mpr hv))))
  · have hrstr := srcRstr_of_no_length (s := s.counted v) hopen hcnt (hobl.after _)
      ((congrArg List.length (src_after_counted hsrc)).trans_lt hshort)
    have hrun := (codecRheader_of_count hopen hcnt hobl hsrc (hsign.mpr hv)).trans (bind_of_error hrstr)
    rw [State.counted, State.ended_after_reads { s with total := v } hsrc] at hrun
    exact complete_of_raised (noResult_error hrun)
  · have hrstr := srcRstr_of_long (s := s.counted v) hopen hcnt (hobl.after _) (src_after_counted hsrc) hlong
    have hrun := (codecRheader_of_count hopen hcnt hobl hsrc (hsign.mpr hv)).trans (bind_of_error hrstr)
    refine (complete_of_raised (noResult_error hrun)).trans ?_
    beta_reduce
    rw [after_reads_append]
    rfl
  · have hrstr := srcRstr_of_missing_units (s := s.counted v) hopen hcnt (hobl.after _) (src_after_counted hsrc)
      hmore hshort hunits
    have hrun := (codecRheader_of_count hopen hcnt hobl hsrc (hsign.mpr hv)).trans (bind_of_error hrstr)
    rw [State.counted, State.ended_after_reads { s with total := v } hsrc] at hrun
    exact complete_of_raised (noResult_error hrun)
  · rw [List.append_assoc] at hsrc
    obtain ⟨n, hlen⟩ := Nat.exists_eq_add_of_lt hmore
    have hbehind := src_after_counted hsrc
    have hrstr := (srcRstr_of_units (s := s.counted v) hopen hcnt (hobl.after _) hbehind hshort hunits
        (n := n + 1) hlen).trans
      (readUnits_of_bad_unit (hobl.after _ |>.after _) (src_after_reads hbehind) hbad n)
    have hrun := (codecRheader_of_count hopen hcnt hobl hsrc (hsign.mpr hv)).trans (bind_of_error hrstr)
    refine (complete_of_raised (noResult_error hrun)).trans ?_
    beta_reduce
    rw [after_reads_append, after_reads_append]
    rfl
  · rw [List.append_assoc] at hsrc
    have hrstr := srcRstr_of_header hopen hcnt hobl hsrc hlen hshort hunits
    obtain ⟨nodes, stk, hdeser⟩ := htDeser_of_not_postorder (s := { s with
      total := v, ser := units, env := s.env.after (reads (bigEndianBytes v ++ hi :: lo :: units)) })
      hne hshort hunits hnot
    have hrun := (codecRheader_of_count hopen hcnt hobl hsrc (hsign.mpr hv)).trans <|
      (bind_of_ok hrstr).trans (bind_of_error hdeser)
    exact ⟨{ s with total := v, ser := units, nodes := nodes, root := 255, stk := stk },
      complete_of_raised (noResult_error hrun), rfl⟩

end Sys2Proof.Machine
end

section
/-! PROOFS. CODEC.WALK as a step (spec/44_codec.md R213): the bits that lead to a Symbol, the bytes that are pulled for
them, and one round per Symbol. -/

namespace Sys2Proof.Machine

variable {s u v : State} {t l r : Tree} {bits p rest : Bits} {sym : Symbol} {xs : List (Symbol × Bits)} {k : Nat}

/-! ## Bits taken from the source -/

theorem State.bitsAhead_length (s : State) : s.bitsAhead.length = s.bitsLeft := by
  have hbyte (b : Byte) : (bitsOfByte b).length = 8 := by simp [bitsOfByte]
  simp [State.bitsAhead, State.bufferedBits, State.bitsLeft, List.length_flatMap, hbyte, Nat.mul_comm]

/-- `u` is `s` when the bits `bits` have been taken, for which `k` bytes were pulled; the cursor may have moved. -/
structure Taken (k : Nat) (bits : Bits) (s u : State) : Prop where
  ahead : s.bitsAhead = bits ++ u.bitsAhead
  state : u = { s with
    cursor := u.cursor, rbuf := u.rbuf, rcnt := u.rcnt, env := s.env.after (reads (s.env.src.take k)) }
  room : k ≤ s.env.src.length
  inv : u.SourceInv

namespace Taken

theorem none (hinv : s.SourceInv) : Taken 0 [] s s := ⟨rfl, rfl, Nat.zero_le _, hinv⟩

theorem env (h : Taken k bits s u) : u.env = s.env.after (reads (s.env.src.take k)) := congrArg State.env h.state

theorem nodes (h : Taken k bits s u) : u.nodes = s.nodes := (congrArg State.nodes h.state).trans rfl

theorem root (h : Taken k bits s u) : u.root = s.root := (congrArg State.root h.state).trans rfl

theorem remain (h : Taken k bits s u) : u.remain = s.remain := (congrArg State.remain h.state).trans rfl

theorem obliging (h : Taken k bits s u) (hobl : s.env.obliging) : u.env.obliging := h.env ▸ hobl.after _

theorem opened (h : Taken k bits s u) (hopen : s.rclosed = false) : u.rclosed = false :=
  (congrArg State.rclosed h.state).trans hopen

theorem src (h : Taken k bits s u) : u.env.src = s.env.src.drop k :=
  (congrArg Env.src h.env).trans (src_after_reads (List.take_append_drop k _).symm)

theorem set_cursor (h : Taken k bits s u) (n : NodeRef) : Taken k bits s { u with cursor := n } :=
  ⟨h.ahead, congrArg (fun u : State => { u with cursor := n }) h.state, h.room, h.inv⟩

/-- Bits taken one after the other. -/
theorem trans {k' : Nat} {bits' : Bits} (h : Taken k bits s u) (h' : Taken k' bits' u v) :
    Taken (k + k') (bits ++ bits') s v := by
  have hcalls : u.env.after (reads (u.env.src.take k')) = s.env.after (reads (s.env.src.take (k + k'))) := by
    rw [h.src, h.env, List.take_add, after_reads_append]
  have hroom := h'.room
  rw [h.src, List.length_drop] at hroom
  refine ⟨?_, ?_, ?_, h'.inv⟩
  · rw [h.ahead, h'.ahead, List.append_assoc]
  · rw [← hcalls]
    refine h'.state.trans ?_
    exact congrArg (fun w : State => { w with
      cursor := v.cursor, rbuf := v.rbuf, rcnt := v.rcnt, env := u.env.after (reads (u.env.src.take k')) }) h.state
  · have := h.room
    omega

/-- No byte is pulled before a bit of it is taken (spec/41_bitsource.md R144): the bits taken and those left in the
buffer tell how many were. -/
theorem count (h : Taken k bits s u) :
    k = (bits.length - s.rcnt.toNat + 7) / 8 ∧ u.rcnt.toNat = s.rcnt.toNat + 8 * k - bits.length := by
  have hlen := congrArg List.length h.ahead
  rw [List.length_append, State.bitsAhead_length, State.bitsAhead_length, State.bitsLeft, State.bitsLeft, h.src,
    List.length_drop] at hlen
  have hroom := h.room
  have hinv : u.rcnt.toNat ≤ 7 := h.inv
  omega

end Taken

theorem srcRbit_taken {b : Bool} (hopen : s.rclosed = false) (hobl : s.env.obliging) (hinv : s.SourceInv)
    (hahead : s.bitsAhead = b :: rest) :
    ∃ k u, srcRbit s = .ok b u ∧ Taken k [b] s u ∧ u.cursor = s.cursor ∧ u.bitsAhead = rest := by
  obtain ⟨u, hrun, hu, hrest⟩ := srcRbit_ok hopen hobl hahead
  have hinv' : u.SourceInv := (sourceContract_keeps_srcRbit s hinv).1 b u hrun
  have hcursor : u.cursor = s.cursor := (congrArg State.cursor hu).trans rfl
  have hbits : s.bitsAhead = [b] ++ u.bitsAhead := hahead.trans (congrArg (b :: ·) hrest.symm)
  by_cases hcnt : s.rcnt = 0
  · rw [if_pos hcnt] at hu
    have hsrc : 1 ≤ s.env.src.length := by
      by_contra hshort
      have hlen := congrArg List.length hahead
      rw [State.bitsAhead_length, State.bitsLeft, hcnt, List.length_cons] at hlen
      simp at hlen
      omega
    exact ⟨1, u, hrun, ⟨hbits, by rw [hcursor]; exact hu, hsrc, hinv'⟩, hcursor, hrest⟩
  · rw [if_neg hcnt] at hu
    exact ⟨0, u, hrun, ⟨hbits, by rw [hcursor]; exact hu, Nat.zero_le _, hinv'⟩, hcursor, hrest⟩

/-! ## Paths -/

/-- The paths below a node go on from the path to it. -/
theorem Tree.paths_append (t : Tree) (p q : Bits) :
    t.paths (p ++ q) = (t.paths q).map fun e => (e.1, p ++ e.2) := by
  induction t generalizing q with
  | leaf sym => rfl
  | node l r ihl ihr => rw [Tree.paths, Tree.paths, List.map_append, List.append_assoc, List.append_assoc, ihl, ihr]

theorem Tree.mem_paths_cons {b : Bool} (h : (sym, p) ∈ t.paths [b]) : ∃ q, p = b :: q ∧ (sym, q) ∈ t.paths [] := by
  have hpaths := t.paths_append [b] []
  rw [List.append_nil] at hpaths
  rw [hpaths, List.mem_map] at h
  obtain ⟨⟨sym, q⟩, hmem, heq⟩ := h
  cases heq
  exact ⟨q, rfl, hmem⟩

/-- A path from an inner node goes left or right. -/
theorem Tree.mem_paths_node (h : (sym, p) ∈ (Tree.node l r).paths []) :
    ∃ b q, p = b :: q ∧ (sym, q) ∈ (bif b then r else l).paths [] := by
  obtain h | h := List.mem_append.mp h
  · obtain ⟨q, hp, hmem⟩ := Tree.mem_paths_cons h
    exact ⟨false, q, hp, hmem⟩
  · obtain ⟨q, hp, hmem⟩ := Tree.mem_paths_cons h
    exact ⟨true, q, hp, hmem⟩

theorem Tree.reaches.length_pos (h : t.reaches p sym) : 0 < p.length := by
  cases t with
  | leaf a => exact h.2 ▸ Nat.one_pos
  | node l r =>
    obtain ⟨b, q, rfl, -⟩ := Tree.mem_paths_node h
    exact Nat.succ_pos _

/-! ## The descent -/

theorem Symbol.byte_ne_sentinel (sym : Symbol) : sym.byte ≠ Config.sentinel := by
  intro h
  have hlt := sym.isLt
  have hbyte := congrArg BitVec.toNat h
  rw [Symbol.byte, BitVec.toNat_setWidth] at hbyte
  change sym.toNat % 2 ^ 8 = 128 at hbyte
  omega

theorem Node.isLeaf_leaf (sym : Symbol) : (Node.leaf sym).isLeaf = true := bne_iff_ne.mpr (Symbol.byte_ne_sentinel sym)

theorem Node.isLeaf_branch (a b : NodeRef) : ¬(Node.branch a b).isLeaf = true := by
  simp [Node.isLeaf, Node.nsym]

theorem descend_of_leaf {node : Node} (h : s.nodes[s.cursor.toNat]? = some node) (hleaf : node.isLeaf = true)
    (fuel : Nat) : descend (fuel + 1) s = .ok () s := by
  rw [descend]
  exact (bind_of_ok (run_get s)).trans <| (bind_of_ok (nodeAt_of_some h)).trans <| run_if_pos hleaf

/-- From an inner node the next bit leads to a child. -/
theorem descend_of_branch {a c : NodeRef} {b : Bool} (h : s.nodes[s.cursor.toNat]? = some (.branch a c))
    (hbit : srcRbit s = .ok b u) (hne : (bif b then c else a) ≠ Config.nil) (fuel : Nat) :
    descend (fuel + 1) s = descend fuel { u with cursor := bif b then c else a } := by
  rw [descend]
  refine (bind_of_ok (run_get s)).trans <| (bind_of_ok (nodeAt_of_some h)).trans <|
    (run_if_neg (Node.isLeaf_branch a c)).trans <| (bind_of_ok hbit).trans ?_
  cases b
  · exact (run_if_neg hne).trans (bind_of_ok (run_modify ..))
  · exact (run_if_neg hne).trans (bind_of_ok (run_modify ..))

/-- The bits of a path lead to its leaf. -/
theorem descend_of_path (hpath : (sym, p) ∈ t.paths []) (ht : t.storedAt s.nodes s.cursor)
    (hnodes : s.nodes.length ≤ 255) (hopen : s.rclosed = false) (hobl : s.env.obliging) (hinv : s.SourceInv)
    (hahead : s.bitsAhead = p ++ rest) {fuel : Nat} (hfuel : p.length < fuel) :
    ∃ k u, descend fuel s = .ok () u ∧ Taken k p s u ∧ u.nodes[u.cursor.toNat]? = some (.leaf sym) := by
  induction p generalizing s t fuel with
  | nil =>
    cases t with
    | node l r =>
      obtain ⟨b, q, hcons, -⟩ := Tree.mem_paths_node hpath
      exact nomatch hcons
    | leaf a =>
      cases List.mem_singleton.mp hpath
      obtain ⟨fuel, rfl⟩ := Nat.exists_eq_succ_of_ne_zero hfuel.ne'
      exact ⟨0, s, descend_of_leaf ht (Node.isLeaf_leaf _) fuel, .none hinv, ht⟩
  | cons b p ih =>
    cases t with
    | leaf a => exact nomatch List.mem_singleton.mp hpath
    | node l r =>
      obtain ⟨b', q, hcons, hq⟩ := Tree.mem_paths_node hpath
      cases hcons
      obtain ⟨a, c, hn, hl, hr⟩ := ht
      obtain ⟨fuel, rfl⟩ := Nat.exists_eq_succ_of_ne_zero (Nat.ne_zero_of_lt hfuel)
      obtain ⟨k, v, hbit, htaken, -, hrest⟩ := srcRbit_taken hopen hobl hinv hahead
      have hchild : (bif b then r else l).storedAt s.nodes (bif b then c else a) := by cases b <;> assumption
      have htaken := htaken.set_cursor (bif b then c else a)
      obtain ⟨k', u, hrun, htaken', hleaf⟩ := ih hq (htaken.nodes ▸ hchild) (htaken.nodes ▸ hnodes)
        (htaken.opened hopen) (htaken.obliging hobl) htaken.inv hrest (Nat.lt_of_succ_lt_succ hfuel)
      rw [Nat.succ_eq_add_one, descend_of_branch hn hbit (hchild.ne_nil hnodes)]
      exact ⟨k + k', u, hrun, htaken.trans htaken', hleaf⟩

/-! ## One round -/

/-- A round of CODEC.WALK takes the bits of a Symbol from `s` and leaves `u`: one bit at a lone leaf, and the bits of
the descent otherwise. -/
def ReachesLeaf (s : State) (rootNode : Node) (u : State) : Prop :=
  (rootNode.isLeaf = true ∧ ∃ b, srcRbit s = .ok b u) ∨
    (¬rootNode.isLeaf = true ∧ descend (s.bitsLeft + 1) s = .ok () u)

/-- What a round does then. -/
def emitSymbol (fuel : Nat) : Op Unit := do
  let t ← get
  let leaf ← nodeAt t.cursor
  orIOError (snkPut leaf.nsym)
  modify fun s => { s with remain := s.remain - 1, cursor := s.root }
  walkLoop fuel

theorem reachesLeaf_of_reaches (hreach : t.reaches p sym) (ht : t.storedAt s.nodes s.root) (hcursor : s.cursor = s.root)
    (hnodes : s.nodes.length ≤ 255) (hopen : s.rclosed = false) (hobl : s.env.obliging) (hinv : s.SourceInv)
    (hahead : s.bitsAhead = p ++ rest) :
    ∃ rootNode k u, s.nodes[s.root.toNat]? = some rootNode ∧ ReachesLeaf s rootNode u ∧ Taken k p s u ∧
      u.nodes[u.cursor.toNat]? = some (.leaf sym) := by
  cases t with
  | leaf a =>
    obtain ⟨rfl, hp⟩ := hreach
    obtain ⟨b, rfl⟩ := List.length_eq_one_iff.mp hp
    obtain ⟨k, u, hbit, htaken, hstays, -⟩ := srcRbit_taken hopen hobl hinv hahead
    refine ⟨_, k, u, ht, .inl ⟨Node.isLeaf_leaf a, b, hbit⟩, htaken, ?_⟩
    rw [htaken.nodes, hstays, hcursor]
    exact ht
  | node l r =>
    have ht' := hcursor ▸ ht
    have hfuel : p.length < s.bitsLeft + 1 := by
      rw [← State.bitsAhead_length, hahead, List.length_append]
      omega
    obtain ⟨k, u, hrun, htaken, hleaf⟩ := descend_of_path hreach ht' hnodes hopen hobl hinv hahead hfuel
    obtain ⟨a, b, hn, -, -⟩ := ht
    exact ⟨_, k, u, hn, .inr ⟨Node.isLeaf_branch a b, hrun⟩, htaken, hleaf⟩

/-- A round emits the Symbol of the leaf that the bits lead to. -/
theorem walkLoop_of_leaf {rootNode : Node} (hremain : s.remain ≠ 0) (hroot : s.nodes[s.root.toNat]? = some rootNode)
    (hreach : ReachesLeaf s rootNode u) (hleaf : u.nodes[u.cursor.toNat]? = some (.leaf sym))
    (hobl : u.env.obliging) (fuel : Nat) :
    walkLoop (fuel + 1) s = walkLoop fuel { u with
      remain := u.remain - 1, cursor := u.root, env := u.env.after [.snkPut sym.byte true] } := by
  have hemit : emitSymbol fuel u = _ :=
    (bind_of_ok (run_get u)).trans <| (bind_of_ok (nodeAt_of_some hleaf)).trans <|
      (bind_of_ok (orIOError_of_ok (snkPut_of_obliging hobl _))).trans <| bind_of_ok (run_modify ..)
  rw [walkLoop]
  refine (bind_of_ok (run_get s)).trans <| (run_if_neg hremain).trans <| (bind_of_ok (nodeAt_of_some hroot)).trans ?_
  obtain ⟨hroot, b, hbit⟩ | ⟨hroot, hdescend⟩ := hreach
  · exact (run_if_pos hroot).trans <| (bind_of_ok hbit).trans hemit
  · exact (run_if_neg hroot).trans <| (bind_of_ok hdescend).trans hemit

/-! ## The operation -/

theorem walkLoop_of_none (hremain : s.remain = 0) (fuel : Nat) : walkLoop (fuel + 1) s = .ok () s := by
  rw [walkLoop]
  exact (bind_of_ok (run_get s)).trans (run_if_pos hremain)

/-- The loop emits one Symbol after the other. -/
theorem walkLoop_of_paths (ht : t.storedAt s.nodes s.root) (hcursor : s.cursor = s.root) (hnodes : s.nodes.length ≤ 255)
    (hopen : s.rclosed = false) (hobl : s.env.obliging) (hinv : s.SourceInv) (hreach : ∀ x ∈ xs, t.reaches x.2 x.1)
    (hremain : s.remain.toNat = xs.length) (hahead : s.bitsAhead = xs.flatMap (·.2) ++ rest) {fuel : Nat}
    (hfuel : xs.length < fuel) :
    ∃ u, walkLoop fuel s = .ok () u ∧
      u = { s with
        remain := 0, rbuf := u.rbuf, rcnt := u.rcnt, env := s.env.after (walkCalls s.rcnt.toNat s.env.src xs) } ∧
      u.bitsAhead = rest ∧ u.SourceInv := by
  obtain ⟨fuel, rfl⟩ := Nat.exists_eq_succ_of_ne_zero (Nat.ne_zero_of_lt hfuel)
  induction xs generalizing s fuel with
  | nil =>
    have hnone : s.remain = 0 := BitVec.eq_of_toNat_eq hremain
    refine ⟨s, walkLoop_of_none hnone fuel, ?_, hahead, hinv⟩
    rw [← hnone]
    rfl
  | cons x xs ih =>
    obtain ⟨sym, p⟩ := x
    obtain ⟨hx, hreach⟩ := List.forall_mem_cons.mp hreach
    rw [List.length_cons] at hremain hfuel
    rw [List.flatMap_cons, List.append_assoc] at hahead
    obtain ⟨fuel, rfl⟩ := Nat.exists_eq_succ_of_ne_zero (show fuel ≠ 0 by omega)
    obtain ⟨rootNode, k, v, hroot, hleads, htaken, hleaf⟩ :=
      reachesLeaf_of_reaches hx ht hcursor hnodes hopen hobl hinv hahead
    have hsome : s.remain ≠ 0 := by
      intro h
      rw [h] at hremain
      exact nomatch hremain
    obtain ⟨hk, hcount⟩ := htaken.count
    have hround := walkLoop_of_leaf hsome hroot hleads hleaf (htaken.obliging hobl) (fuel + 1)
    have hbehind : v.bitsAhead = xs.flatMap (·.2) ++ rest :=
      (List.append_cancel_left (htaken.ahead.symm.trans hahead))
    have hone : (v.remain - 1).toNat = xs.length := by
      rw [htaken.remain]
      bv_omega
    obtain ⟨u, hrun, hu, hrest, hinv'⟩ := ih (fuel := fuel) (s := { v with
        remain := v.remain - 1, cursor := v.root, env := v.env.after [.snkPut sym.byte true] })
      (by rw [htaken.nodes, htaken.root]; exact ht) rfl (by rw [htaken.nodes]; exact hnodes) (htaken.opened hopen)
      ((htaken.obliging hobl).after _) htaken.inv hreach hone hbehind (by omega)
    have hsrc : (v.env.after [.snkPut sym.byte true]).src = s.env.src.drop k := htaken.src
    have hcalls : (v.env.after [.snkPut sym.byte true]).after
          (walkCalls v.rcnt.toNat (v.env.after [.snkPut sym.byte true]).src xs) =
        s.env.after (walkCalls s.rcnt.toNat s.env.src ((sym, p) :: xs)) := by
      rw [hsrc, hcount, ← Env.after_append, htaken.env, ← Env.after_append, walkCalls, ← hk]
      rfl
    have hv := congrArg (fun w : State => { w with
      remain := 0, cursor := w.root, rbuf := u.rbuf, rcnt := u.rcnt
      env := s.env.after (walkCalls s.rcnt.toNat s.env.src ((sym, p) :: xs)) }) htaken.state
    refine ⟨u, hround.trans hrun, ?_, hrest, hinv'⟩
    rw [hcursor]
    exact (hcalls ▸ hu).trans hv

/-- The Symbols are put in order. -/
theorem sinkBytes_walkCalls (n : Nat) (src : List Byte) (xs : List (Symbol × Bits)) :
    sinkBytes (walkCalls n src xs) = xs.map (fun x => x.1.byte) := by
  induction xs generalizing n src with
  | nil => rfl
  | cons x xs ih => rw [walkCalls, sinkBytes_append, sinkBytes_reads, List.nil_append, sinkBytes, ih, List.map_cons]

theorem sourceBytes_walkCalls_prefix (n : Nat) (src : List Byte) (xs : List (Symbol × Bits)) :
    sourceBytes (walkCalls n src xs) <+: src := by
  induction xs generalizing n src with
  | nil => exact List.nil_prefix
  | cons x xs ih =>
    have hput (calls : List PortEvent) : sourceBytes (.snkPut x.1.byte true :: calls) = sourceBytes calls := rfl
    rw [walkCalls, sourceBytes_append, sourceBytes_reads, hput]
    obtain ⟨left, hleft⟩ := ih (n + 8 * ((x.2.length - n + 7) / 8) - x.2.length)
      (src.drop ((x.2.length - n + 7) / 8))
    exact ⟨left, by rw [List.append_assoc, hleft, List.take_append_drop]⟩

theorem srcRewind_not_mem_walkCalls (n : Nat) (src : List Byte) (xs : List (Symbol × Bits)) :
    PortEvent.srcRewind true ∉ walkCalls n src xs := by
  induction xs generalizing n src with
  | nil => exact List.not_mem_nil
  | cons x xs ih =>
    rw [walkCalls, List.mem_append, List.mem_cons]
    rintro (h | h | h)
    · obtain ⟨b, -, hb⟩ := List.mem_map.mp h
      cases hb
    · cases h
    · exact ih _ _ h

/-- What was read and what is left are what was there. -/
theorem sourceBytes_append_src_after {e : Env} {calls : List PortEvent} (hpre : sourceBytes calls <+: e.src)
    (hrewind : PortEvent.srcRewind true ∉ calls) :
    sourceBytes (e.after calls).log ++ (e.after calls).src = sourceBytes e.log ++ e.src := by
  obtain ⟨left, hsrc⟩ := hpre
  rw [Env.after_log, sourceBytes_append, Env.after_src _ _ hrewind, ← hsrc, List.drop_left, List.append_assoc]

/-- The bits of Symbols are at least as many as the Symbols. -/
theorem length_le_bitsLeft (hreach : ∀ x ∈ xs, t.reaches x.2 x.1) (hahead : s.bitsAhead = xs.flatMap (·.2) ++ rest) :
    xs.length ≤ s.bitsLeft := by
  have hbits : xs.length ≤ (xs.flatMap (·.2)).length := by
    rw [List.length_flatMap]
    refine (Nat.mul_one _).symm.trans_le ?_
    rw [← List.length_map (as := xs) (fun x : Symbol × Bits => x.2.length)]
    refine List.card_nsmul_le_sum _ 1 fun n hn => ?_
    obtain ⟨x, hx, rfl⟩ := List.mem_map.mp hn
    exact (hreach x hx).length_pos
  rw [← State.bitsAhead_length, hahead, List.length_append]
  omega

theorem codecWalk_of_paths (hopen : s.rclosed = false) (hinv : s.SourceInv) (hobl : s.env.obliging)
    (ht : s.holdsTree t) (hnodes : s.nodes.length ≤ 255) (hreach : ∀ x ∈ xs, t.reaches x.2 x.1)
    (htotal : s.total.toNat = xs.length) (hsign : s.total.msb = false)
    (hahead : s.bitsAhead = xs.flatMap (·.2) ++ rest) :
    ∃ u, codecWalk s = .ok () u ∧
      u = { s with
        remain := 0, cursor := s.root, rbuf := u.rbuf, rcnt := u.rcnt
        env := s.env.after (walkCalls s.rcnt.toNat s.env.src xs) } ∧
      u.bitsAhead = rest ∧ u.SourceInv := by
  have hguard : ¬(s.total.msb || (positive s.total && s.root = Config.nil)) = true := by simp [hsign, ht.1]
  obtain ⟨u, hrun, hu, hrest, hinv'⟩ := walkLoop_of_paths (s := { s with remain := s.total, cursor := s.root }) ht.2 rfl
    hnodes hopen hobl hinv hreach htotal hahead (Nat.lt_succ_of_le (length_le_bitsLeft hreach hahead))
  exact ⟨u, (bind_of_ok (run_get s)).trans <| (run_if_neg hguard).trans <| (bind_of_ok (run_modify ..)).trans hrun, hu,
    hrest, hinv'⟩

theorem codecWalk_of_none (htotal : s.total = 0) : codecWalk s = .ok () { s with remain := 0, cursor := s.root } := by
  have hguard : ¬(s.total.msb || (positive s.total && s.root = Config.nil)) = true := by simp [htotal, positive]
  refine (bind_of_ok (run_get s)).trans <| (run_if_neg hguard).trans <| (bind_of_ok (run_modify ..)).trans ?_
  rw [htotal]
  exact walkLoop_of_none rfl _

/-- Settles O49: the loop emits the Symbols, and reads nothing when there is none. -/
theorem walkEmitsSymbols : Obligations.WalkEmitsSymbols := by
  refine fun s => ⟨fun t xs rest hopen hinv hobl ht hnodes hreach htotal hsign hahead => ?_,
    fun htotal => complete_of_ok (noResult_ok (codecWalk_of_none htotal))⟩
  obtain ⟨u, hrun, hu, hrest, hinv'⟩ := codecWalk_of_paths hopen hinv hobl ht hnodes hreach htotal hsign hahead
  have henv := congrArg State.env hu
  refine ⟨_, complete_of_ok (noResult_ok hrun), ?_, hrest, hinv', ?_, ?_, ?_⟩
  · exact congrArg (fun u : State => { u with result := .none }) hu
  · refine (congrArg (sinkBytes ·.log) henv).trans ?_
    rw [Env.after_log, sinkBytes_append, sinkBytes_walkCalls]
  · refine (congrArg (fun e : Env => sourceBytes e.log ++ e.src) henv).trans ?_
    exact sourceBytes_append_src_after (sourceBytes_walkCalls_prefix ..) (srcRewind_not_mem_walkCalls _ _ _)
  · exact (congrArg Env.replay henv).trans (Env.after_replay ..)

end Sys2Proof.Machine
end

section
/-! PROOFS. ENCODE from its acceptance to its end (spec/44_codec.md R215, R216): the container that it writes and the
calls that it makes. -/

namespace Sys2Proof.Machine

variable {s u : State} {x : List Byte} {code : Vector Bits 128} {ser : List Byte}

/-! ## The tables of an input -/

/-- `code` and `ser` are the code table and the description of the tree for the frequencies of `s`. -/
def State.Describes (s : State) (code : Vector Bits 128) (ser : List Byte) : Prop :=
  s.occurring = [] ∧ ser = [] ∧ code = Vector.replicate 128 [] ∨
    ∃ t : Tree, s.huffman = some t ∧ t.symbols.Perm s.occurring ∧ ser = t.postorder ∧ code = t.codeTable

theorem State.freqAt_congr (h : u.freq = s.freq) (sym : Symbol) : u.freqAt sym = s.freqAt sym := by
  simp only [State.freqAt, h]

theorem State.occurring_congr (h : u.freq = s.freq) : u.occurring = s.occurring := by
  simp only [State.occurring, State.freqAt_congr h]

theorem seedWeighted_congr (h : u.freq = s.freq) (seq : BitVec 8) (syms : List Symbol) :
    seedWeighted u seq syms = seedWeighted s seq syms := by
  induction syms generalizing seq with
  | nil => rfl
  | cons sym syms ih => rw [seedWeighted, seedWeighted, State.freqAt_congr h, ih]

/-- Only the frequencies count. -/
theorem State.Describes.congr (hdesc : s.Describes code ser) (h : u.freq = s.freq) : u.Describes code ser := by
  rwa [State.Describes, State.huffman, seedWeighted_congr h, State.occurring_congr h]

/-- What HT.BUILD leaves in the node store, HT.GENCODES and HT.SER turn into these. -/
theorem htBuild_describes (s : State) :
    ∃ nodes seq root code ser, htBuild s = .ok () { s with nodes := nodes, heap := [], seq := seq, root := root } ∧
      s.Describes code ser ∧ ∀ u : State, u.nodes = nodes → u.root = root →
        htGencodes u = .ok () { u with code := code } ∧ htSer u = .ok () { u with ser := ser } := by
  by_cases hocc : s.occurring = []
  · refine ⟨[], 0, Config.nil, Vector.replicate 128 [], [], htBuild_of_none hocc, .inl ⟨hocc, rfl, rfl⟩, ?_⟩
    exact fun u _ hroot => ⟨htGencodes_of_nil hroot, htSer_of_nil hroot⟩
  · obtain ⟨nodes, seq, root, t, hrun, hhuffman, howns, -, -⟩ := htBuild_of_some hocc
    have hperm := (htBuild_holdsTreeOf hrun).symbols_perm howns.1
    have hlen : t.symbols.length ≤ 128 := hperm.length_eq.trans_le (occurring_length_le s)
    refine ⟨nodes, seq, root, t.codeTable, t.postorder, hrun, .inr ⟨t, hhuffman, hperm, rfl, rfl⟩, ?_⟩
    rintro u rfl rfl
    exact ⟨htGencodes_of_tree howns.1 hlen, htSer_of_tree howns.1 hlen⟩

/-- The frequencies of `s` are the counts of `x`. -/
def State.Counts (s : State) (x : List Byte) : Prop := ∀ sym, s.freqAt sym = BitVec.ofNat 32 (x.count sym.byte)

section
variable (hcounts : s.Counts x) (hx : ∀ b ∈ x, b.toNat ≤ 127) (hlen : x.length ≤ 2147483647)
include hcounts hx hlen

theorem State.Counts.mem_occurring {b : Byte} (hb : b ∈ x) : symbolOf b ∈ s.occurring := by
  rw [Machine.mem_occurring, hcounts, symbolOf_byte (hx b hb)]
  have hpos := List.count_pos_iff.mpr hb
  have hle := List.count_le_length (a := b) (l := x)
  bv_omega

theorem State.Counts.eq_nil (hnone : s.occurring = []) : x = [] := by
  refine List.eq_nil_iff_forall_not_mem.mpr fun b hb => ?_
  exact List.not_mem_nil (hnone ▸ hcounts.mem_occurring hx hlen hb)

/-- All bytes of the input have codes. -/
theorem State.Counts.encodable (hdesc : s.Describes code ser) (hcode : u.code = code) : ∀ b ∈ x, u.Encodable b := by
  refine fun b hb => ⟨hx b hb, ?_⟩
  have hmem := hcounts.mem_occurring hx hlen hb
  obtain ⟨hnone, -, -⟩ | ⟨t, -, hperm, -, rfl⟩ := hdesc
  · exact absurd (hnone ▸ hmem) List.not_mem_nil
  · exact (u.codeAt_ne_nil_iff hcode).mpr (hperm.mem_iff.mpr hmem)

end

/-! ## The close -/

/-- The padded bytes of a bit sequence are its complete bytes and those of what is left over. -/
theorem paddedBytes_eq (bits : Bits) : paddedBytes bits = fullBytes bits ++ paddedBytes (leftoverBits bits) := by
  have hshort := leftoverBits_length_lt bits
  rw [paddedBytes, paddedBytes, fullBytes_of_short hshort, leftoverBits_of_short hshort, List.nil_append]

theorem snkClose_of_obliging (hopen : s.sclosed = false) (hinv : s.SinkInv) (hobl : s.env.obliging) :
    snkClose s = .ok () { s with
      wbuf := 0, wcnt := 0, sclosed := true
      env := s.env.after (puts (paddedBytes s.pendingBits) ++ [.snkClose true]) } := by
  by_cases hcnt : s.wcnt = 0
  · have hnone : puts (paddedBytes s.pendingBits) = [] := by rw [State.pendingBits_eq_nil_iff.mpr hcnt]; rfl
    rw [hnone, ← hinv.wbuf_of_empty hcnt, ← hcnt]
    exact snkClose_of_empty hopen hcnt hobl
  · have hle : s.wcnt.toNat ≤ 8 := hinv.1.trans (by decide)
    rw [paddedBytes_eq_singleton (mt State.pendingBits_eq_nil_iff.mp hcnt) (State.pendingBits_length s ▸ hle),
      byteOfBits_pendingBits hle]
    exact snkClose_of_pending hopen hcnt hobl

theorem closeEncode_of_obliging (hopen : s.sclosed = false) (hinv : s.SinkInv) (hobl : s.env.obliging) :
    closeEncode s = .ok () { s with
      wbuf := 0, wcnt := 0, sclosed := true
      env := s.env.after (puts (paddedBytes s.pendingBits) ++ [.snkClose true, .srcRelease true]) } := by
  rw [closeEncode, bind_of_ok (snkClose_of_obliging hopen hinv hobl)]
  refine (orIOError_of_ok (srcRelease_of_obliging (hobl.after _))).trans ?_
  rw [Env.after_append, Env.after_append]
  rfl

/-! ## The invocation -/

/-- The calls of ENCODE before the two closing ones: the first reading, the header, the second reading with the
complete bytes of the payload, and the last byte. -/
def State.encodeCalls (s : State) (header x : List Byte) : List PortEvent :=
  reads x ++ [.srcNext .eof] ++ puts header ++ (.srcRewind true :: s.payloadCalls [] x ++ [.srcNext .eof]) ++
    puts (paddedBytes (leftoverBits (s.payloadBits x)))

theorem sinkBytes_encodeCalls (s : State) (header x : List Byte) :
    sinkBytes (s.encodeCalls header x) = header ++ paddedBytes (s.payloadBits x) := by
  have hrewind (calls : List PortEvent) : sinkBytes (.srcRewind true :: calls) = sinkBytes calls := rfl
  have heof : sinkBytes [.srcNext .eof] = [] := rfl
  rw [State.encodeCalls, paddedBytes_eq (s.payloadBits x)]
  simp only [sinkBytes_append, sinkBytes_reads, sinkBytes_puts, List.cons_append, hrewind, heof,
    sinkBytes_payloadCalls s x (pending := []) (by decide), List.nil_append, List.append_nil]
  rw [List.append_assoc]

theorem sourceBytes_encodeCalls (s : State) (header x : List Byte) :
    sourceBytes (s.encodeCalls header x) = x ++ x := by
  have hrewind (calls : List PortEvent) : sourceBytes (.srcRewind true :: calls) = sourceBytes calls := rfl
  have heof : sourceBytes [.srcNext .eof] = [] := rfl
  rw [State.encodeCalls]
  simp only [sourceBytes_append, sourceBytes_reads, sourceBytes_puts, List.cons_append, hrewind, heof,
    sourceBytes_payloadCalls, List.append_nil]

/-- What ENCODE leaves of `s` when it has encoded `x`. -/
def State.encoded (s : State) (x : List Byte) (freq : Vector Word 128) (nodes : List Node) (seq root : BitVec 8)
    (code : Vector Bits 128) (ser : List Byte) : State :=
  { State.reset with
    phase := .done, total := BitVec.ofNat 32 x.length, sclosed := true, freq := freq, code := code
    seq := seq, nodes := nodes, root := root, ser := ser, stim := s.stim
    env := s.env.after (State.encodeCalls { s with code := code }
      (bigEndianBytes (BitVec.ofNat 32 x.length) ++ 0x00#8 :: BitVec.ofNat 8 ser.length :: ser) x ++
      [.snkClose true, .srcRelease true]) }

theorem State.codeAt_congr (h : u.code = s.code) (sym : Symbol) : u.codeAt sym = s.codeAt sym := by
  simp only [State.codeAt, h]

theorem State.payloadBits_congr (h : u.code = s.code) (x : List Byte) : u.payloadBits x = s.payloadBits x := by
  simp only [State.payloadBits, State.codeAt_congr h]

theorem State.payloadCalls_congr (h : u.code = s.code) (pending : Bits) (x : List Byte) :
    u.payloadCalls pending x = s.payloadCalls pending x := by
  induction x generalizing pending with
  | nil => rfl
  | cons b x ih => rw [State.payloadCalls, State.payloadCalls, State.codeAt_congr h, ih]

/-- The invocation from the phase E_PAYLOAD on, by the codes of `table`. -/
theorem writePayload_of_replay {table : State} (htable : s.code = table.code) (hopen : s.sclosed = false)
    (hcnt : s.wcnt = 0) (hbuf : s.wbuf = 0) (hobl : s.env.obliging) (hgood : ∀ b ∈ x, s.Encodable b)
    (hreplay : s.env.replay = x) (htotal : x.length = s.total.toNat) :
    (do codecWpayload; setPhase .eClose; closeEncode; setPhase .done : Op Unit) s = .ok () { s with
      wbuf := 0, wcnt := 0, sclosed := true, phase := .done
      env := (s.env.after (.srcRewind true :: table.payloadCalls [] x ++ [.srcNext .eof])).after
        (puts (paddedBytes (leftoverBits (table.payloadBits x))) ++ [.snkClose true, .srcRelease true]) } := by
  rw [← State.payloadCalls_congr htable, ← State.payloadBits_congr htable]
  have hinv : s.SinkInv := by
    rw [State.SinkInv, hcnt, hbuf]
    decide
  have hnone : s.pendingBits = [] := State.pendingBits_eq_nil_iff.mpr hcnt
  obtain ⟨buf, cnt, hrun, hpending⟩ := codecWpayload_encodes hobl hopen hinv hgood htotal.le hreplay htotal
  rw [hnone, List.nil_append] at hpending
  rw [hnone] at hrun
  obtain ⟨hbits, hinv'⟩ := hpending { s with phase := .eClose }
    (.srcRewind true :: s.payloadCalls [] x ++ [.srcNext .eof])
  have hclose := closeEncode_of_obliging (s := State.sinkAfter { s with phase := .eClose } buf cnt
    (.srcRewind true :: s.payloadCalls [] x ++ [.srcNext .eof])) hopen hinv' (hobl.after _)
  rw [hbits] at hclose
  exact (bind_of_ok hrun).trans <| (bind_of_ok (run_setPhase ..)).trans <| (bind_of_ok hclose).trans
    (run_setPhase ..)

theorem encodeInvocation_encodes (hsrc : s.env.src = x) (hreplay : s.env.replay = x) (hx : ∀ b ∈ x, b.toNat ≤ 127)
    (hlen : x.length ≤ 2147483647) (hobl : s.env.obliging) :
    ∃ freq nodes seq root code ser, encodeInvocation s = .ok () (s.encoded x freq nodes seq root code ser) ∧
      (s.encoded x freq nodes seq root code ser).Counts x ∧
      (s.encoded x freq nodes seq root code ser).Describes code ser := by
  obtain ⟨freq, hcount, hfreq⟩ := countLoop_ok (s := s.initialise .eCount) x (s.env.src.length + 1) hsrc hobl hx
    ((Nat.zero_add _).trans_le hlen) (by rw [hsrc]; exact Nat.lt_succ_self _)
  have htotal : (s.initialise .eCount).total + BitVec.ofNat 32 x.length = BitVec.ofNat 32 x.length := zero_add _
  rw [htotal] at hcount
  have hfcount : codecFcount (s.initialise .eCount) = _ := (bind_of_ok (run_get _)).trans hcount
  obtain ⟨nodes, seq, root, code, ser, hbuild, hdesc, htables⟩ := htBuild_describes { State.reset with
    phase := .eBuild, freq := freq, total := BitVec.ofNat 32 x.length
    env := s.env.after (reads x ++ [.srcNext .eof]), stim := s.stim }
  have hdesc : (s.encoded x freq nodes seq root code ser).Describes code ser := hdesc.congr rfl
  have hcounts : (s.encoded x freq nodes seq root code ser).Counts x := fun sym => by
    refine (hfreq sym).trans ?_
    rw [State.freqAt_initialise, zero_add]
  refine ⟨freq, nodes, seq, root, code, ser, ?_, hcounts, hdesc⟩
  have hheader := codecWheader_of_htSer (s := { s.encoded x freq nodes seq root code [] with
    phase := .eHeader, sclosed := false, env := s.env.after (reads x ++ [.srcNext .eof]) }) (ser := ser)
    rfl rfl (hobl.after _) fun e => (htables _ rfl rfl).2
  have hpayload := writePayload_of_replay (s := { s.encoded x freq nodes seq root code ser with
    phase := .ePayload, sclosed := false
    env := (s.env.after (reads x ++ [.srcNext .eof])).after (puts (bigEndianBytes (BitVec.ofNat 32 x.length) ++
      0x00#8 :: BitVec.ofNat 8 ser.length :: ser)) }) (x := x)
    (table := { s with code := code }) rfl rfl rfl rfl
    ((hobl.after _).after _)
    (hcounts.encodable hx hlen hdesc rfl) 
    ((Env.after_replay ..).trans ((Env.after_replay ..).trans hreplay)) (by simp [State.encoded]; omega)
  rw [encodeInvocation]
  refine (bind_of_ok (run_modify ..)).trans <| (bind_of_ok hfcount).trans <| (bind_of_ok (run_setPhase ..)).trans <|
    (bind_of_ok hbuild).trans <| (bind_of_ok (run_setPhase ..)).trans <| (bind_of_ok (htables _ rfl rfl).1).trans <|
    (bind_of_ok (run_setPhase ..)).trans <| (bind_of_ok hheader).trans <| (bind_of_ok (run_setPhase ..)).trans <|
    hpayload.trans ?_
  simp only [State.encoded, State.encodeCalls, Env.after_append]
  rfl

/-- ENCODE as one operation, by what the invocation does. -/
theorem exec_encode_of_ok {t : State} (hbusy : s.busy = false) (h : encodeInvocation s = .ok () t) :
    exec .encode s = .next { t with result := .none } :=
  (if_neg (by simp [hbusy])).trans (complete_of_ok (noResult_ok h))

theorem State.status_of_done (hphase : u.phase = .done) (herr : u.err = .none) : u.status = 0x020E := by
  rw [State.status, State.failed, State.done, State.busy, hphase, herr]
  decide

theorem src_after_encodeCalls (s u : State) (header x : List Byte) {last : List PortEvent}
    (hlast : ∀ e : Env, (e.after last).src = e.src) (hreplay : s.env.replay = x) :
    (s.env.after (u.encodeCalls header x ++ last)).src = [] := by
  rw [Env.after_append, hlast, State.encodeCalls, Env.after_append, src_after_puts, Env.after_append]
  have hall : s.env.replay = x ++ [] := hreplay.trans (List.append_nil x).symm
  rw [Env.after_append]
  refine src_after_payloadCalls (s := u) (good := x) (rest := []) [] ?_
  refine (?_ : Env.replay (s.env.after (reads x ++ [.srcNext .eof] ++ puts header)) = x ++ [])
  rw [Env.after_replay, hall]

/-- The container, as the sink has received it. -/
theorem sinkBytes_encoded (s : State) (x : List Byte) (freq : Vector Word 128) (nodes : List Node)
    (seq root : BitVec 8) (code : Vector Bits 128) (ser : List Byte) :
    sinkBytes (s.encoded x freq nodes seq root code ser).env.log =
      sinkBytes s.env.log ++ container x.length ser ((s.encoded x freq nodes seq root code ser).payloadBits x) := by
  have hclosing : sinkBytes [.snkClose true, .srcRelease true] = [] := rfl
  simp only [State.encoded, Env.after_log, sinkBytes_append, sinkBytes_encodeCalls, hclosing, List.append_nil]
  rfl

/-- Settles O51: the invocation counts, builds the tree, writes the header and the payload, and closes. -/
theorem encodeWritesContainer : Obligations.EncodeWritesContainer := by
  intro s x hbusy hsrc hreplay hx hlen hobl
  obtain ⟨freq, nodes, seq, root, code, ser, hrun, hcounts, hdesc⟩ :=
    encodeInvocation_encodes hsrc hreplay hx hlen hobl
  refine ⟨s.encoded x freq nodes seq root code ser, exec_encode_of_ok hbusy hrun, State.status_of_done rfl rfl, rfl,
    hcounts, ?_, sinkBytes_encoded .., ?_, ?_, (Env.after_replay ..).trans hreplay, ?_⟩
  · obtain ⟨hnone, hser, hcode⟩ | ⟨t, ht, -, hser, hcode⟩ := hdesc
    · exact .inl ⟨hcounts.eq_nil hx hlen hnone, hser, hcode⟩
    · exact .inr ⟨t, ht, hser, hcode⟩
  · have hclosing : sourceBytes [.snkClose true, .srcRelease true] = [] := rfl
    simp only [State.encoded, Env.after_log, sourceBytes_append, sourceBytes_encodeCalls, hclosing, List.append_nil,
      List.append_assoc]
  · exact src_after_encodeCalls s _ _ x (fun _ => rfl) hreplay
  · exact ⟨_, (Env.after_log ..).trans (List.append_assoc ..).symm⟩

end Sys2Proof.Machine
end

section
/-! PROOFS. DECODE from its acceptance to its end (spec/44_codec.md R219, R220), and that it undoes ENCODE (R221). -/

namespace Sys2Proof.Machine

variable {s u : State} {t : Tree} {xs : List (Symbol × Bits)} {rest : Bits} {payload : List Byte}

/-! ## The bytes consumed -/

/-- The bytes that CODEC.WALK reads are those that its bits need. -/
theorem sourceBytes_walkCalls (hcnt : s.rcnt = 0) (hinv : u.SourceInv)
    (henv : u.env = s.env.after (walkCalls 0 s.env.src xs)) (hahead : s.bitsAhead = xs.flatMap (·.2) ++ u.bitsAhead) :
    sourceBytes (walkCalls 0 s.env.src xs) = s.env.src.take (((xs.flatMap (·.2)).length + 7) / 8) := by
  have hpre := sourceBytes_walkCalls_prefix 0 s.env.src xs
  have hsrc : u.env.src = s.env.src.drop (sourceBytes (walkCalls 0 s.env.src xs)).length := by
    rw [henv, Env.after_src _ _ (srcRewind_not_mem_walkCalls _ _ _)]
  have hbits := congrArg List.length hahead
  rw [List.length_append, State.bitsAhead_length, State.bitsAhead_length, State.bitsLeft, State.bitsLeft, hcnt, hsrc,
    List.length_drop] at hbits
  have hzero : (0 : BitVec 4).toNat = 0 := rfl
  have hle := hpre.length_le
  have hbuffered : u.rcnt.toNat ≤ 7 := hinv
  have hcount : ((xs.flatMap (·.2)).length + 7) / 8 = (sourceBytes (walkCalls 0 s.env.src xs)).length := by omega
  rw [hcount]
  exact List.prefix_iff_eq_take.mp hpre

/-! ## The invocation -/

theorem closeDecode_of_obliging (hopen : s.rclosed = false) (hobl : s.env.obliging) :
    closeDecode s = .ok () { s with
      rclosed := true, env := s.env.after [.srcRelease true, .snkClose true] } := by
  rw [closeDecode, bind_of_ok (srcClose_of_obliging hopen hobl)]
  exact orIOError_of_ok (snkClosePort_of_obliging (hobl.after _))

/-- The invocation from the phase D_WALK on. -/
theorem walkAndClose_of_paths (hopen : s.rclosed = false) (hcnt : s.rcnt = 0) (hobl : s.env.obliging)
    (ht : s.holdsTree t) (hnodes : s.nodes.length ≤ 255) (hreach : ∀ x ∈ xs, t.reaches x.2 x.1)
    (htotal : s.total.toNat = xs.length) (hsign : s.total.msb = false)
    (hahead : s.env.src.flatMap bitsOfByte = xs.flatMap (·.2) ++ rest) :
    ∃ buf cnt, (do codecWalk; setPhase .dClose; closeDecode; setPhase .done : Op Unit) s = .ok () { s with
        remain := 0, cursor := s.root, rbuf := buf, rcnt := cnt, rclosed := true, phase := .done
        env := (s.env.after (walkCalls 0 s.env.src xs)).after [.srcRelease true, .snkClose true] } ∧
      sourceBytes (walkCalls 0 s.env.src xs) = s.env.src.take (((xs.flatMap (·.2)).length + 7) / 8) := by
  have hzero : s.rcnt.toNat = 0 := congrArg BitVec.toNat hcnt
  rw [← State.bitsAhead_of_empty hcnt] at hahead
  obtain ⟨u, hwalk, hu, hrest, hinv⟩ := codecWalk_of_paths hopen (hzero.trans_le (Nat.zero_le 7)) hobl ht hnodes hreach
    htotal hsign hahead
  rw [hzero] at hu
  have henv := (congrArg State.env hu).trans rfl
  have hclose := closeDecode_of_obliging (s := { u with phase := .dClose })
    ((congrArg State.rclosed hu).trans hopen) (henv ▸ hobl.after _)
  refine ⟨u.rbuf, u.rcnt, ?_, sourceBytes_walkCalls hcnt hinv henv (hahead.trans (by rw [hrest]))⟩
  refine (bind_of_ok hwalk).trans <| (bind_of_ok (run_setPhase ..)).trans <| (bind_of_ok hclose).trans <|
    (run_setPhase ..).trans ?_
  exact congrArg (fun w : State => EStateM.Result.ok () { w with
    rclosed := true, phase := .done, env := w.env.after [.srcRelease true, .snkClose true] }) hu

/-- The header of a container. -/
def headerBytes (n : Nat) (ser : List Byte) : List Byte :=
  bigEndianBytes (BitVec.ofNat 32 n) ++ 0x00 :: BitVec.ofNat 8 ser.length :: ser

/-- What DECODE leaves of `s` when it has decoded `xs`. -/
def State.decoded (s : State) (t : Tree) (xs : List (Symbol × Bits)) (payload : List Byte) (nodes : List Node)
    (root : NodeRef) (buf : BitVec 8) (cnt : BitVec 4) : State :=
  { State.reset with
    phase := .done, total := BitVec.ofNat 32 xs.length, cursor := root, root := root, nodes := nodes, ser := t.postorder
    rbuf := buf, rcnt := cnt, rclosed := true, stim := s.stim
    env := ((s.env.after (reads (headerBytes xs.length t.postorder))).after (walkCalls 0 payload xs)).after
      [.srcRelease true, .snkClose true] }

theorem decodeInvocation_decodes (hobl : s.env.obliging) (ht : t.symbols.length ≤ 128) (hlen : xs.length ≤ 2147483647)
    (hreach : ∀ x ∈ xs, t.reaches x.2 x.1) (hpayload : payload.flatMap bitsOfByte = xs.flatMap (·.2) ++ rest)
    (hsrc : s.env.src = headerBytes xs.length t.postorder ++ payload) :
    ∃ nodes root buf cnt, decodeInvocation s = .ok () (s.decoded t xs payload nodes root buf cnt) ∧
      (s.decoded t xs payload nodes root buf cnt).ownsTree t ∧
      sourceBytes (walkCalls 0 payload xs) = payload.take (((xs.flatMap (·.2)).length + 7) / 8) := by
  have hsign : (BitVec.ofNat 32 xs.length).msb = false := by
    rw [BitVec.msb_eq_decide, BitVec.toNat_ofNat]
    simp
    omega
  have hahead : (s.env.after (reads (headerBytes xs.length t.postorder))).src = payload := src_after_reads hsrc
  obtain ⟨nodes, root, hheader, howns, hnodes⟩ := codecRheader_of_tree (s := s.initialise .dHeader) rfl rfl hobl hsign
    ht (hsrc.trans (List.append_assoc ..))
  obtain ⟨buf, cnt, hwalk, hread⟩ := walkAndClose_of_paths (xs := xs) (t := t) (rest := rest) (s := { State.reset with
    phase := .dWalk, total := BitVec.ofNat 32 xs.length, ser := t.postorder, nodes := nodes, root := root
    env := s.env.after (reads (headerBytes xs.length t.postorder)), stim := s.stim })
    rfl rfl (hobl.after _) howns.1 hnodes hreach (by simp; omega) hsign (hahead.symm ▸ hpayload)
  rw [hahead] at hwalk hread
  refine ⟨nodes, root, buf, cnt, ?_, howns, hread⟩
  exact (bind_of_ok (run_modify ..)).trans <| (bind_of_ok hheader).trans <| (bind_of_ok (run_setPhase ..)).trans hwalk

/-- The invocation on the empty input's container. -/
theorem decodeInvocation_of_empty {extra : List Byte} (hobl : s.env.obliging)
    (hsrc : s.env.src = [0x00, 0x00, 0x00, 0x00, 0x00, 0x00] ++ extra) :
    decodeInvocation s = .ok () { State.reset with
      phase := .done, rclosed := true, stim := s.stim
      env := s.env.after (reads [0x00, 0x00, 0x00, 0x00, 0x00, 0x00] ++ [.srcRelease true, .snkClose true]) } := by
  have hheader := codecRheader_of_no_tree (v := 0) (s := s.initialise .dHeader) rfl rfl hobl rfl hsrc
  rw [Env.after_append]
  exact (bind_of_ok (run_modify ..)).trans <| (bind_of_ok hheader).trans <| (bind_of_ok (run_setPhase ..)).trans <|
    (bind_of_ok (codecWalk_of_none rfl)).trans <| (bind_of_ok (run_setPhase ..)).trans <|
    (bind_of_ok (closeDecode_of_obliging rfl (hobl.after _))).trans <| run_setPhase ..

/-- DECODE as one operation, by what the invocation does. -/
theorem exec_decode_of_ok {u : State} (hbusy : s.busy = false) (h : decodeInvocation s = .ok () u) :
    exec .decode s = .next { u with result := .none } :=
  (if_neg (by simp [hbusy])).trans (complete_of_ok (noResult_ok h))

theorem sinkBytes_decoded (nodes : List Node) (root : NodeRef) (buf : BitVec 8) (cnt : BitVec 4) :
    sinkBytes (s.decoded t xs payload nodes root buf cnt).env.log =
      sinkBytes s.env.log ++ xs.map (fun x => x.1.byte) := by
  have hclosing : sinkBytes [.srcRelease true, .snkClose true] = [] := rfl
  simp only [State.decoded, Env.after_log, sinkBytes_append, sinkBytes_reads, sinkBytes_walkCalls, hclosing,
    List.append_nil]

/-- Settles O53: the header gives the tree, the walk the Symbols, and the close both closing calls. -/
theorem decodeReadsContainer : Obligations.DecodeReadsContainer := by
  refine fun s hbusy hobl => ⟨fun t xs payload rest ht hlen hreach hpayload hsrc => ?_, fun extra hsrc =>
    exec_decode_of_ok hbusy (decodeInvocation_of_empty hobl hsrc)⟩
  obtain ⟨nodes, root, buf, cnt, hrun, howns, hread⟩ := decodeInvocation_decodes hobl ht hlen hreach hpayload hsrc
  refine ⟨s.decoded t xs payload nodes root buf cnt, exec_decode_of_ok hbusy hrun, State.status_of_done rfl rfl, rfl,
    howns, sinkBytes_decoded nodes root buf cnt, ?_, ?_, ⟨_, Env.after_log ..⟩⟩
  · have hclosing : sourceBytes [.srcRelease true, .snkClose true] = [] := rfl
    simp only [State.decoded, Env.after_log, sourceBytes_append, sourceBytes_reads, hread, hclosing, List.append_nil]
    rfl
  · have hleft := List.drop_left (l₁ := payload.take (((xs.flatMap (·.2)).length + 7) / 8))
      (l₂ := payload.drop (((xs.flatMap (·.2)).length + 7) / 8))
    rw [List.take_append_drop] at hleft
    have hahead : (s.env.after (reads (headerBytes xs.length t.postorder))).src = payload := src_after_reads hsrc
    refine (Env.after_src _ _ (srcRewind_not_mem_walkCalls _ _ _)).trans ?_
    rw [hread, hahead, hleft]

/-! ## The bits of the payload -/

theorem bitsOfByte_byteOfBits {bits : Bits} (h : bits.length ≤ 8) :
    bitsOfByte (byteOfBits bits) = bits ++ List.replicate (8 - bits.length) false := by
  have hbit (i : Nat) (hi : i < 8) : (byteOfBits bits).getMsbD i = bits.getD i false := by
    have hbyte : byteOfBits bits = BitVec.ofFnBE fun i : Fin 8 => bits.getD i false :=
      byteOfBits_eq_of_getMsbD fun i hi => by rw [BitVec.getMsbD_ofFnBE, dif_pos hi]
    rw [hbyte, BitVec.getMsbD_ofFnBE, dif_pos hi]
  refine List.ext_getElem (by simp [bitsOfByte]; omega) fun i hi _ => ?_
  have hi : i < 8 := by simpa [bitsOfByte] using hi
  simp only [bitsOfByte, List.getElem_map, List.getElem_range, hbit i hi, List.getElem_append, List.getElem_replicate]
  split
  · next hlt => exact List.getD_eq_getElem _ _ hlt
  · next hge => exact List.getD_eq_default _ _ (Nat.not_lt.mp hge)

/-- The padded bytes have the bits and zeros behind them. -/
theorem bits_of_paddedBytes (bits : Bits) : ∃ pad, (paddedBytes bits).flatMap bitsOfByte = bits ++ pad := by
  induction bits using bits_induction with
  | short bits h =>
    by_cases hnil : bits = []
    · exact ⟨[], by rw [hnil]; rfl⟩
    · rw [paddedBytes_eq_singleton hnil h.le]
      exact ⟨_, (List.append_nil _).trans (bitsOfByte_byteOfBits h.le)⟩
  | group bits rest h ih =>
    obtain ⟨pad, hpad⟩ := ih
    refine ⟨pad, ?_⟩
    rw [paddedBytes, fullBytes_append_of_length_eq h, leftoverBits_append_of_length_eq h, List.cons_append,
      List.flatMap_cons, ← paddedBytes, hpad, bitsOfByte_byteOfBits h.le, h, List.append_assoc]
    simp

/-! ## The round trip -/

theorem Tree.reaches_of_mem_codes {sym : Symbol} {p : Bits} (h : (sym, p) ∈ t.codes) : t.reaches p sym := by
  cases t with
  | leaf a =>
    cases List.mem_singleton.mp h
    exact ⟨rfl, rfl⟩
  | node l r => exact h

/-- The Symbols of an input with their codes in the table of `s`. -/
def State.coded (s : State) (x : List Byte) : List (Symbol × Bits) :=
  x.map fun b => (symbolOf b, s.codeAt (symbolOf b))

theorem State.flatMap_coded (s : State) (x : List Byte) : (s.coded x).flatMap (·.2) = s.payloadBits x :=
  List.flatMap_map ..

theorem State.map_byte_coded {x : List Byte} (s : State) (hx : ∀ b ∈ x, b.toNat ≤ 127) :
    (s.coded x).map (fun e => e.1.byte) = x := by
  rw [State.coded, List.map_map]
  exact (List.map_congr_left fun b hb => symbolOf_byte (hx b hb)).trans (List.map_id x)

theorem State.reaches_coded {x : List Byte} (hcode : s.code = t.codeTable) (hgood : ∀ b ∈ x, s.Encodable b) :
    ∀ e ∈ s.coded x, t.reaches e.2 e.1 := by
  intro e he
  obtain ⟨b, hb, rfl⟩ := List.mem_map.mp he
  obtain ⟨-, hne⟩ := hgood b hb
  exact Tree.reaches_of_mem_codes (s.codeAt_mem_codes hcode ((s.codeAt_ne_nil_iff hcode).mp hne))

/-- DECODE of a container whose payload is the codes of `x` by a tree. -/
theorem decode_container {x : List Byte} {table : State} (hbusy : s.busy = false) (hobl : s.env.obliging)
    (ht : t.symbols.length ≤ 128) (hcode : table.code = t.codeTable) (hgood : ∀ b ∈ x, table.Encodable b)
    (hlen : x.length ≤ 2147483647) (hsrc : s.env.src = container x.length t.postorder (table.payloadBits x)) :
    ∃ u, exec .decode s = .next u ∧ u.phase = .done ∧ sinkBytes u.env.log = sinkBytes s.env.log ++ x := by
  have hcount : (table.coded x).length = x.length := List.length_map ..
  obtain ⟨pad, hpad⟩ := bits_of_paddedBytes (table.payloadBits x)
  rw [← table.flatMap_coded] at hpad
  rw [← hcount] at hsrc hlen
  obtain ⟨nodes, root, buf, cnt, hrun, -, -⟩ := decodeInvocation_decodes hobl ht hlen
    (State.reaches_coded hcode hgood) hpad (hsrc.trans (by rw [table.flatMap_coded]; rfl))
  refine ⟨_, exec_decode_of_ok hbusy hrun, rfl, ?_⟩
  exact (sinkBytes_decoded nodes root buf cnt).trans (by rw [table.map_byte_coded fun b hb => (hgood b hb).1])

/-- Settles O54: with a tree the codes of the bytes lead back to them, and without one the input is empty. -/
theorem roundTrip : Obligations.RoundTrip := by
  intro x s hbusy hx hlen hobl hsrc hreplay
  obtain ⟨freq, nodes, seq, root, code, ser, hrun, hcounts, hdesc⟩ :=
    encodeInvocation_encodes hsrc hreplay hx hlen hobl
  refine ⟨_, _, exec_encode_of_ok hbusy hrun, rfl, sinkBytes_encoded .., fun s' hbusy' hobl' hsrc' => ?_⟩
  have hgood := hcounts.encodable hx hlen hdesc (u := s.encoded x freq nodes seq root code ser) rfl
  obtain ⟨hnone, rfl, -⟩ | ⟨t, -, hperm, rfl, hcode⟩ := hdesc
  · obtain rfl := hcounts.eq_nil hx hlen hnone
    have hzeros : container 0 [] [] = [0x00, 0x00, 0x00, 0x00, 0x00, 0x00] ++ [] := by decide
    have hempty : s'.env.src = container 0 [] [] := hsrc'
    refine ⟨_, exec_decode_of_ok hbusy' (decodeInvocation_of_empty hobl' (hempty.trans hzeros)), rfl, ?_⟩
    exact (congrArg sinkBytes (Env.after_log ..)).trans (sinkBytes_append ..)
  · exact decode_container hbusy' hobl' (hperm.length_eq.trans_le (occurring_length_le _)) hcode hgood hlen hsrc'

end Sys2Proof.Machine
end

section
/-! PROOFS. The source behind what DECODE reads (spec/44_codec.md R220): an operation that ends has not seen how the
source goes on. -/

namespace Sys2Proof.Machine

variable {ε α β : Type} {extra : List Byte} {s t u : State}

/-! ## More bytes at the end of the source -/

/-- `s` with more bytes at the end of its source. -/
def State.extend (s : State) (extra : List Byte) : State :=
  s.withEnv { s.env with src := s.env.src ++ extra }

/-- Where `op` ends, `op'` ends the same way when there are more bytes, and leaves these unread. -/
def Extends (extra : List Byte) (op op' : EStateM ε State α) : Prop :=
  ∀ s a t, op s = .ok a t → op' (s.extend extra) = .ok a (t.extend extra)

theorem extends_pure {a : α} : Extends extra (pure a : EStateM ε State α) (pure a) := by
  intro s b t h
  cases h
  rfl

theorem extends_modify {f : State → State} (hf : ∀ s, f (s.extend extra) = (f s).extend extra) :
    Extends extra (modify f : EStateM ε State PUnit) (modify f) := by
  intro s a t h
  cases h
  exact congrArg (EStateM.Result.ok ()) (hf s)

theorem extends_raise {k : ErrKind} {op : Op α} : Extends extra (raise k) op :=
  fun _ _ _ h => nomatch h

theorem extends_stop {f : Fault} {op : Op α} : Extends extra (stop f) op :=
  fun _ _ _ h => nomatch h

theorem extends_bind {x x' : EStateM ε State α} {f f' : α → EStateM ε State β} (hx : Extends extra x x')
    (hf : ∀ a, Extends extra (f a) (f' a)) : Extends extra (x >>= f) (x' >>= f') := by
  intro s b u h
  rw [run_bind] at h
  cases hrun : x s with
  | error e t => rw [hrun] at h; cases h
  | ok a t =>
    rw [hrun] at h
    exact (bind_of_ok (hx s a t hrun)).trans (hf a t b u h)

theorem extends_get {f f' : State → EStateM ε State α} (h : ∀ s, Extends extra (f s) (f' (s.extend extra))) :
    Extends extra (get >>= f) (get >>= f') := fun s => h s s

theorem extends_ite {c : Prop} [Decidable c] {x x' y y' : EStateM ε State α} (hx : Extends extra x x')
    (hy : Extends extra y y') : Extends extra (if c then x else y) (if c then x' else y') := by
  split
  · exact hx
  · exact hy

/-- A guard that an operation has passed. -/
theorem extends_guard {c : Prop} [Decidable c] {k : ErrKind} {g g' : β → Op α} {rest rest' : Op α}
    (h : Extends extra rest rest') :
    Extends extra (if c then raise k >>= g else rest) (if c then raise k >>= g' else rest') := by
  refine extends_ite (fun s a t hrun => ?_) h
  rw [run_bind, run_raise] at hrun
  cases hrun

theorem extends_lift {p p' : Port α} (h : Extends extra p p') : Extends extra (lift p) (lift p') := by
  intro s a t hrun
  cases hp : p s with
  | error c u => simp [lift, hp] at hrun
  | ok b u =>
    rw [lift_of_ok hp] at hrun
    cases hrun
    exact lift_of_ok (h s _ _ hp)

/-! ## Port calls -/

theorem extends_answered : Extends extra answered answered := by
  intro s ok t h
  have hans : (s.extend extra).env.answers = s.env.answers := rfl
  unfold answered at h ⊢
  rw [hans]
  match hs : s.env.answers with
  | [] | .ok :: rest | .fail :: rest =>
    simp only [hs] at h
    cases h
    rfl
  | .never :: rest | .reset :: rest =>
    simp only [hs] at h
    cases h

theorem extends_srcRelease : Extends extra srcRelease srcRelease :=
  extends_bind extends_answered fun _ => extends_bind (extends_modify fun _ => rfl) fun _ => extends_pure

theorem extends_snkPut (b : Byte) : Extends extra (snkPut b) (snkPut b) :=
  extends_bind extends_answered fun _ => extends_bind (extends_modify fun _ => rfl) fun _ => extends_pure

theorem extends_snkClosePort : Extends extra snkClosePort snkClosePort :=
  extends_bind extends_answered fun _ => extends_bind (extends_modify fun _ => rfl) fun _ => extends_pure

theorem extends_orIOError {p : Port Bool} (h : Extends extra p p) : Extends extra (orIOError p) (orIOError p) :=
  extends_bind (extends_lift h) fun _ => extends_ite extends_pure extends_raise

/-- A byte that is there is read with more behind it. -/
theorem srcNext_extend {b : Byte} (h : srcNext s = .ok (.byte b) t) :
    srcNext (s.extend extra) = .ok (.byte b) (t.extend extra) := by
  rw [srcNext, run_bind] at h
  cases hans : answered s with
  | error c u => rw [hans] at h; cases h
  | ok ok u =>
    rw [hans] at h
    refine (bind_of_ok (extends_answered s ok u hans)).trans ?_
    cases ok with
    | false => cases h
    | true =>
      cases hsrc : u.env.src with
      | nil => simp [hsrc] at h
      | cons b' rest =>
        have hext : (u.extend extra).env.src = b' :: (rest ++ extra) := congrArg (· ++ extra) hsrc
        simp only [reduceIte, run_bind, run_get, hsrc, run_modify, run_pure] at h
        cases h
        simp only [reduceIte, run_bind, run_get, hext, run_modify, run_pure]
        rfl

theorem extends_nextByte : Extends extra nextByte nextByte := by
  intro s b t h
  rw [nextByte, run_bind] at h
  cases hnext : srcNext s with
  | error c u => simp [lift, hnext] at h
  | ok r u =>
    rw [lift_of_ok hnext] at h
    cases r with
    | fail => cases h
    | eof => cases h
    | byte b' =>
      cases h
      exact bind_of_ok (lift_of_ok (srcNext_extend hnext))

theorem extends_nodeAt (n : NodeRef) : Extends extra (nodeAt n) (nodeAt n) := by
  refine extends_get fun s => ?_
  have hnodes : (s.extend extra).nodes = s.nodes := rfl
  rw [hnodes]
  cases s.nodes[n.toNat]? with
  | some node => exact extends_pure
  | none => exact extends_stop

/-! ## The units -/

/-- What SRC.RBIT does when a bit is buffered. -/
def takeBit : Op Bool := do
  let s ← get
  let bit := s.rbuf.msb
  modify fun s => { s with rbuf := s.rbuf <<< 1, rcnt := s.rcnt - 1 }
  pure bit

theorem extends_srcRbit : Extends extra srcRbit srcRbit := by
  have htake : Extends extra takeBit takeBit :=
    extends_get fun _ => extends_bind (extends_modify fun _ => rfl) fun _ => extends_pure
  refine extends_get fun s => extends_guard (extends_ite ?_ htake)
  exact extends_bind extends_nextByte fun _ => extends_bind (extends_modify fun _ => rfl) fun _ => htake

theorem extends_srcByteLevel : Extends extra srcByteLevel srcByteLevel :=
  extends_get fun _ => extends_ite extends_raise extends_pure

theorem extends_srcRint : Extends extra srcRint srcRint :=
  extends_bind extends_srcByteLevel fun _ => extends_bind extends_nextByte fun _ =>
    extends_bind extends_nextByte fun _ => extends_bind extends_nextByte fun _ =>
    extends_bind extends_nextByte fun _ => extends_pure

theorem extends_readUnits (n : Nat) : Extends extra (readUnits n) (readUnits n) := by
  induction n with
  | zero => exact extends_pure
  | succ n ih =>
    exact extends_bind extends_nextByte fun _ => extends_guard (extends_bind (extends_modify fun _ => rfl) fun _ => ih)

theorem extends_srcRstr : Extends extra srcRstr srcRstr :=
  extends_bind extends_srcByteLevel fun _ => extends_bind extends_nextByte fun _ =>
    extends_bind extends_nextByte fun _ => extends_guard <|
    extends_bind (extends_modify fun _ => rfl) fun _ => extends_readUnits _

theorem extends_srcClose : Extends extra srcClose srcClose :=
  extends_get fun _ => extends_guard <| extends_bind (extends_orIOError extends_srcRelease) fun _ =>
    extends_modify fun _ => rfl

/-- A node is stored and its reference pushed. -/
theorem extends_allocPush (node : Node) {rest : Op Unit} (h : Extends extra rest rest) :
    Extends extra (do let n ← alloc node; pushNode n; rest) (do let n ← alloc node; pushNode n; rest) :=
  extends_bind (extends_get fun _ => extends_bind (extends_modify fun _ => rfl) fun _ => extends_pure) fun _ =>
    extends_bind (extends_modify fun _ => rfl) fun _ => h

theorem extends_deserScan (units : List Byte) : Extends extra (deserScan units) (deserScan units) := by
  induction units with
  | nil => exact extends_pure
  | cons v rest ih =>
    refine extends_get fun s => extends_ite (extends_guard (extends_allocPush _ ih)) ?_
    have hstk : (s.extend extra).stk = s.stk := rfl
    rw [hstk]
    match s.stk with
    | b :: a :: below => exact extends_bind (extends_modify fun _ => rfl) fun _ => extends_allocPush _ ih
    | [] => exact extends_bind extends_raise fun _ => ih
    | [_] => exact extends_bind extends_raise fun _ => ih

theorem extends_htDeser : Extends extra htDeser htDeser := by
  refine extends_bind (extends_modify fun _ => rfl) fun _ => extends_get fun s =>
    extends_bind (extends_deserScan _) fun _ => extends_ite extends_pure (extends_get fun t => ?_)
  have hstk : (t.extend extra).stk = t.stk := rfl
  rw [hstk]
  match t.stk with
  | [n] => exact extends_modify fun _ => rfl
  | [] => exact extends_raise
  | _ :: _ :: _ => exact extends_raise

/-! ## The steps of DECODE -/

theorem extends_codecRheader : Extends extra codecRheader codecRheader :=
  extends_bind extends_srcRint fun _ => extends_bind (extends_modify fun _ => rfl) fun _ => extends_guard <|
    extends_bind extends_srcRstr fun _ => extends_bind extends_htDeser fun _ => extends_get fun _ =>
    extends_ite extends_raise extends_pure

theorem State.bitsLeft_le_extend (s : State) (extra : List Byte) : s.bitsLeft ≤ (s.extend extra).bitsLeft := by
  have hsrc : (s.extend extra).env.src = s.env.src ++ extra := rfl
  have hcnt : (s.extend extra).rcnt = s.rcnt := rfl
  rw [State.bitsLeft, State.bitsLeft, hsrc, hcnt, List.length_append]
  omega

/-- A bound that was enough is enough when it is greater. -/
theorem extends_descend {fuel fuel' : Nat} (h : fuel ≤ fuel') : Extends extra (descend fuel) (descend fuel') := by
  induction fuel generalizing fuel' with
  | zero => exact extends_stop
  | succ fuel ih =>
    obtain ⟨fuel', rfl⟩ := Nat.exists_eq_succ_of_ne_zero (Nat.ne_zero_of_lt h)
    refine extends_get fun s => extends_bind (extends_nodeAt _) fun node => extends_ite extends_pure ?_
    exact extends_bind extends_srcRbit fun _ => extends_guard <|
      extends_bind (extends_modify fun _ => rfl) fun _ => ih (Nat.le_of_succ_le_succ h)

theorem extends_walkLoop {fuel fuel' : Nat} (h : fuel ≤ fuel') : Extends extra (walkLoop fuel) (walkLoop fuel') := by
  induction fuel generalizing fuel' with
  | zero => exact extends_stop
  | succ fuel ih =>
    obtain ⟨fuel', rfl⟩ := Nat.exists_eq_succ_of_ne_zero (Nat.ne_zero_of_lt h)
    have hemit : Extends extra (emitSymbol fuel) (emitSymbol fuel') :=
      extends_get fun _ => extends_bind (extends_nodeAt _) fun _ =>
        extends_bind (extends_orIOError (extends_snkPut _)) fun _ =>
        extends_bind (extends_modify fun _ => rfl) fun _ => ih (Nat.le_of_succ_le_succ h)
    exact extends_get fun s => extends_ite extends_pure <| extends_bind (extends_nodeAt _) fun _ =>
      extends_ite (extends_bind extends_srcRbit fun _ => hemit) <|
      extends_bind (extends_descend (Nat.succ_le_succ (s.bitsLeft_le_extend extra))) fun _ => hemit

theorem extends_codecWalk : Extends extra codecWalk codecWalk :=
  extends_get fun s => extends_guard <| extends_bind (extends_modify fun _ => rfl) fun _ =>
    extends_walkLoop (Nat.succ_le_succ (s.bitsLeft_le_extend extra))

theorem extends_closeDecode : Extends extra closeDecode closeDecode :=
  extends_bind extends_srcClose fun _ => extends_orIOError extends_snkClosePort

theorem extends_decodeInvocation : Extends extra decodeInvocation decodeInvocation :=
  extends_bind (extends_modify fun _ => rfl) fun _ => extends_bind extends_codecRheader fun _ =>
  extends_bind (extends_modify fun _ => rfl) fun _ => extends_bind extends_codecWalk fun _ =>
  extends_bind (extends_modify fun _ => rfl) fun _ => extends_bind extends_closeDecode fun _ =>
  extends_modify fun _ => rfl

/-- DECODE is done only when the invocation has come to its end. -/
theorem decodeInvocation_of_done (hbusy : s.busy = false) (h : exec .decode s = .next u) (hdone : u.phase = .done) :
    ∃ t, decodeInvocation s = .ok () t ∧ u = { t with result := .none } := by
  have hcomplete : complete (noResult decodeInvocation) s = .next u := (if_neg (by simp [hbusy])).symm.trans h
  obtain ⟨r, t, ht, rfl, -⟩ | ⟨k, t, calls, -, hfrom, -⟩ | hreset :=
    traced_decodeInvocation.noResult.complete_next hcomplete
  · cases hrun : decodeInvocation s with
    | error e v => rw [noResult_error hrun] at ht; cases ht
    | ok a v =>
      rw [noResult_ok hrun] at ht
      cases ht
      exact ⟨_, rfl, rfl⟩
  · exact absurd (hfrom.phase.symm.trans hdone) nofun
  · obtain ⟨v, rfl⟩ := hreset.reset
    exact absurd hdone nofun

/-- Settles O55: the invocation ended, so it does not see the bytes behind. -/
theorem trailingBytesIgnored : Obligations.TrailingBytesIgnored := by
  intro s u extra hbusy h hdone
  obtain ⟨t, hrun, rfl⟩ := decodeInvocation_of_done hbusy h hdone
  exact exec_decode_of_ok (s := s.extend extra) hbusy (extends_decodeInvocation s () t hrun)

end Sys2Proof.Machine
end

section
/-! PROOFS. A port call to a host that answers it, `Ok` or `Fail` (spec/20_memory.md R60), and what failure entry makes
of the answers (spec/60_exceptions.md R252). -/

namespace Sys2Proof.Machine

variable {s : State} {e : Env} {event : Bool → State → PortEvent} {p : Port Bool}

/-! ## One answered call -/

/-- The next call is answered, `Ok` or `Fail`. -/
def Env.answersNext (e : Env) : Prop := e.answers.getD 0 .ok = .ok ∨ e.answers.getD 0 .ok = .fail

theorem Env.answering.answersNext (h : e.answering) : e.answersNext := by
  rw [Env.answersNext]
  cases hans : e.answers with
  | nil => exact .inl rfl
  | cons a rest => exact h a (hans ▸ List.mem_cons_self ..)

theorem Env.answering.after (h : e.answering) (calls : List PortEvent) : (e.after calls).answering := by
  intro a ha
  rw [Env.after_answers] at ha
  exact h a (List.mem_of_mem_drop ha)

/-- A call that the host answers is not cut off. -/
theorem CallSpec.ok_of_answersNext {α : Type} {p : Port α} {event : α → State → PortEvent} (hp : CallSpec p event)
    (h : s.env.answersNext) : ∃ a t, p s = .ok a t := by
  cases hps : p s with
  | ok a t => exact ⟨a, t, rfl⟩
  | error c t =>
    rw [Env.answersNext] at h
    obtain ⟨-, rest, hans⟩ | ⟨-, rest, hans, -⟩ := hp.2 s t c hps
    · rw [hans] at h
      exact nomatch h
    · rw [hans] at h
      exact nomatch h

/-- The answer is what the call returns, and the call is recorded with it. -/
theorem CallSpec.answer (hp : CallSpec p event) (hf : ∀ ok s, (event ok s).failed = !ok) (h : s.env.answersNext) :
    p s = .ok (s.env.answers.getD 0 .ok == .ok)
      (s.withEnv (s.env.after [event (s.env.answers.getD 0 .ok == .ok) s])) := by
  obtain ⟨ok, t, hps⟩ := hp.ok_of_answersNext h
  obtain ⟨rfl, hgives⟩ := hp.1 s t ok hps
  have hok : (s.env.answers.getD 0 .ok == .ok) = ok := by
    rw [(Env.gives_singleton ..).mp hgives, hf]
    cases ok with
    | true => rfl
    | false => rfl
  rw [hps, hok]
  rfl

theorem snkClosePort_answer (h : s.env.answering) :
    snkClosePort s = .ok (s.env.answers.getD 0 .ok == .ok)
      (s.withEnv (s.env.after [.snkClose (s.env.answers.getD 0 .ok == .ok)])) :=
  snkClosePort_spec.answer (fun _ _ => rfl) h.answersNext

theorem srcRelease_answer (h : s.env.answering) :
    srcRelease s = .ok (s.env.answers.getD 0 .ok == .ok)
      (s.withEnv (s.env.after [.srcRelease (s.env.answers.getD 0 .ok == .ok)])) :=
  srcRelease_spec.answer (fun _ _ => rfl) h.answersNext

/-! ## Failure entry -/

theorem enterFailure_of_ok {k : ErrKind} {t : State} (h : failureEntry k s = .ok () t) :
    enterFailure k s = .next { t with result := .none } := by
  simp only [enterFailure, h]

theorem enterFailure_of_not_busy (k : ErrKind) (h : s.busy = false) :
    enterFailure k s = .next { s with err := k, phase := .failed, result := .none } :=
  enterFailure_of_ok (failureEntry_of_not_busy k h)

/-- The two closing calls, one after the other, with the host's next two answers. -/
theorem Env.after_two_answers (e : Env) (first second : Bool → PortEvent) (hfirst : ∀ ok, e.srcAfter (first ok) = e.src)
    (hsecond : ∀ (e : Env) ok, e.srcAfter (second ok) = e.src) (ok : Bool) :
    (e.after [first ok]).after [second ((e.after [first ok]).answers.getD 0 .ok == .ok)] = { e with
      answers := e.answers.drop 2, log := e.log ++ [first ok, second (e.answers.getD 1 .ok == .ok)] } := by
  have hnext : (e.after [first ok]).answers.getD 0 .ok = e.answers.getD 1 .ok := by
    rw [Env.after_answers, List.getD_eq_getElem?_getD, List.getElem?_drop, List.getD_eq_getElem?_getD]
    rfl
  rw [hnext]
  simp [Env.after, Env.afterCall, hfirst, hsecond, ← List.drop_one]

/-- Settles O14: each closing call returns the host's next answer, which failure entry does not look at. -/
theorem failureEntryReleasesStreams : Obligations.FailureEntryReleasesStreams := by
  intro k s hans
  refine ⟨fun hp hopen => ?_, fun hp hclosed => ?_, fun hp hopen => ?_, fun hp hclosed => ?_,
    enterFailure_of_not_busy k⟩
  · have hd : ¬s.phase.decoding = true := by simp [encoding_not_decoding hp]
    have hclose := snkClosePort_answer (s := { s with err := k }) hans
    have hrelease := srcRelease_answer (s := { s with
      err := k, sclosed := true, env := s.env.after [.snkClose (s.env.answers.getD 0 .ok == .ok)] }) (hans.after _)
    refine (enterFailure_of_ok <| (bind_of_ok (run_modify ..)).trans <| (bind_of_ok (run_get { s with err := k })).trans <|
      (run_if_pos hp).trans <| (run_if_pos hopen).trans <| (bind_of_ok hclose).trans <|
      (bind_of_ok (run_modify ..)).trans <| (bind_of_ok hrelease).trans <| (run_if_neg hd).trans (run_modify ..)).trans ?_
    rw [State.withEnv, Env.after_two_answers s.env .snkClose .srcRelease (fun _ => rfl) (fun _ _ => rfl)]
  · have hd : ¬s.phase.decoding = true := by simp [encoding_not_decoding hp]
    have hrelease := srcRelease_answer (s := { s with err := k }) hans
    refine (enterFailure_of_ok <| (bind_of_ok (run_modify ..)).trans <| (bind_of_ok (run_get { s with err := k })).trans <|
      (run_if_pos hp).trans <| (run_if_neg (by simp [hclosed])).trans <|
      (bind_of_ok hrelease).trans <| (run_if_neg hd).trans (run_modify ..)).trans ?_
    simp [State.withEnv, Env.after, Env.afterCall, Env.srcAfter]
  · have he : ¬s.phase.encoding = true := by simp [decoding_not_encoding hp]
    have hrelease := srcRelease_answer (s := { s with err := k }) hans
    have hclose := snkClosePort_answer (s := { s with
      err := k, rclosed := true, env := s.env.after [.srcRelease (s.env.answers.getD 0 .ok == .ok)] }) (hans.after _)
    refine (enterFailure_of_ok <| (bind_of_ok (run_modify ..)).trans <| (bind_of_ok (run_get { s with err := k })).trans <|
      (run_if_neg he).trans <| (run_if_pos hp).trans <| (run_if_pos hopen).trans <| (bind_of_ok hrelease).trans <|
      (bind_of_ok (run_modify ..)).trans <| (bind_of_ok hclose).trans (run_modify ..)).trans ?_
    rw [State.withEnv, Env.after_two_answers s.env .srcRelease .snkClose (fun _ => rfl) (fun _ _ => rfl)]
  · have he : ¬s.phase.encoding = true := by simp [decoding_not_encoding hp]
    have hclose := snkClosePort_answer (s := { s with err := k }) hans
    refine (enterFailure_of_ok <| (bind_of_ok (run_modify ..)).trans <| (bind_of_ok (run_get { s with err := k })).trans <|
      (run_if_neg he).trans <| (run_if_pos hp).trans <| (run_if_neg (by simp [hclosed])).trans <|
      (bind_of_ok hclose).trans (run_modify ..)).trans ?_
    simp [State.withEnv, Env.after, Env.afterCall, Env.srcAfter]

end Sys2Proof.Machine
end

section
/-! PROOFS. The raises whose state is given at once, and the ways out of `FAILED` (spec/60_exceptions.md R243, R247,
R249, R254). -/

namespace Sys2Proof.Machine

variable {s u : State}

/-! ## IllegalCommand -/

theorem step_of_command {op : BitVec 8} {rest : List Stimulus} (hstim : s.stim = .command op :: rest) :
    step s = command op { s with stim := rest } := by
  simp only [step, hstim]

theorem command_of_illegal {op : BitVec 8} (hbusy : s.busy = false) (hencode : op ≠ 0x01) (hdecode : op ≠ 0x02) :
    command op s = .next { s with err := .illegalCommand, phase := .failed } := by
  simp only [command, hbusy, Bool.false_eq_true, if_false, if_neg hencode, if_neg hdecode,
    failureEntry_of_not_busy _ hbusy]

/-- Settles O5: no invocation runs, so failure entry writes `ERR` and `PHASE` only. -/
theorem illegalCommandTaken : Obligations.IllegalCommandTaken := fun s _ rest hstim hencode hdecode hbusy =>
  (step_of_command hstim).trans (command_of_illegal (s := { s with stim := rest }) hbusy hencode hdecode)

/-! ## Precondition -/

theorem pqInsert_of_no_room (h : s.heap.length = 128 ∨ s.seq = 255) (key : Word) (payload : NodeRef) :
    pqInsert key payload s = .error (.raised .precondition) s := by
  have hguard : (s.pqFull || s.seq = Config.seqMax) = true := by simpa [State.pqFull] using h
  exact (bind_of_ok (run_get s)).trans (run_if_pos hguard)

theorem pqDelmin_of_nil (h : s.heap = []) : pqDelmin s = .error (.raised .precondition) s := by
  simp [pqDelmin, h]

theorem snkWbits_of_closed (h : s.sclosed = true) (bits : Bits) :
    snkWbits bits s = .error (.raised .precondition) s :=
  (bind_of_ok (run_get s)).trans (run_if_pos h)

theorem snkClose_of_closed (h : s.sclosed = true) : snkClose s = .error (.raised .precondition) s :=
  (bind_of_ok (run_get s)).trans (run_if_pos h)

theorem snkByteLevel_of_refused (h : s.sclosed = true ∨ s.wcnt ≠ 0) :
    snkByteLevel s = .error (.raised .precondition) s := by
  have hguard : (s.sclosed || s.wcnt != 0) = true := by simpa using h
  exact (bind_of_ok (run_get s)).trans (run_if_pos hguard)

theorem srcRbit_of_closed (h : s.rclosed = true) : srcRbit s = .error (.raised .precondition) s :=
  (bind_of_ok (run_get s)).trans (run_if_pos h)

theorem srcClose_of_closed (h : s.rclosed = true) : srcClose s = .error (.raised .precondition) s :=
  (bind_of_ok (run_get s)).trans (run_if_pos h)

theorem srcByteLevel_of_refused (h : s.rclosed = true ∨ s.rcnt ≠ 0) :
    srcByteLevel s = .error (.raised .precondition) s := by
  have hguard : (s.rclosed || s.rcnt != 0) = true := by simpa using h
  exact (bind_of_ok (run_get s)).trans (run_if_pos hguard)

theorem codecWalk_of_refused (h : s.total.toInt < 0 ∨ 0 < s.total.toInt ∧ s.root = 255) :
    codecWalk s = .error (.raised .precondition) s := by
  have hguard : (s.total.msb || (positive s.total && s.root = Config.nil)) = true := by
    simpa [positive_iff, BitVec.msb_eq_toInt] using h
  exact (bind_of_ok (run_get s)).trans (run_if_pos hguard)

/-- Settles O18: the guards stand before anything else the operations do. -/
theorem preconditionsRaise : Obligations.PreconditionsRaise := by
  intro s bits v key payload
  have hwrite (h : s.sclosed = true ∨ s.wcnt ≠ 0) := snkByteLevel_of_refused h
  have hread (h : s.rclosed = true ∨ s.rcnt ≠ 0) := srcByteLevel_of_refused h
  have hwint (h : s.sclosed = true ∨ s.wcnt ≠ 0) : exec (.snkWint v) s = enterFailure .precondition s :=
    complete_of_raised (noResult_error (bind_of_error (hwrite h)))
  have hwstr (h : s.sclosed = true ∨ s.wcnt ≠ 0) : exec .snkWstr s = enterFailure .precondition s :=
    complete_of_raised (noResult_error (bind_of_error (hwrite h)))
  have hrint (h : s.rclosed = true ∨ s.rcnt ≠ 0) : exec .srcRint s = enterFailure .precondition s :=
    complete_of_raised (withResult_error (bind_of_error (hread h)) .word)
  have hrstr (h : s.rclosed = true ∨ s.rcnt ≠ 0) : exec .srcRstr s = enterFailure .precondition s :=
    complete_of_raised (noResult_error (bind_of_error (hread h)))
  refine ⟨fun h => ?_, fun h => ⟨?_, ?_⟩, fun h => ⟨?_, hwint (.inl h), hwstr (.inl h), ?_⟩,
    fun h => ⟨hwint (.inr h), hwstr (.inr h)⟩, fun h => ⟨?_, hrint (.inl h), hrstr (.inl h), ?_⟩,
    fun h => ⟨hrint (.inr h), hrstr (.inr h)⟩, fun h => ?_⟩
  · exact complete_of_raised (noResult_error (pqInsert_of_no_room h key payload))
  · exact complete_of_raised (withResult_error (pqDelmin_of_nil h) .node)
  · exact complete_of_raised (withResult_error (pqPeek_of_nil h) .key)
  · exact complete_of_raised (noResult_error (snkWbits_of_closed h bits))
  · exact complete_of_raised (noResult_error (snkClose_of_closed h))
  · exact complete_of_raised (withResult_error (srcRbit_of_closed h) .bit)
  · exact complete_of_raised (noResult_error (srcClose_of_closed h))
  · exact complete_of_raised (noResult_error (codecWalk_of_refused h))

/-! ## EndOfStream -/

theorem srcRbit_of_ended (hopen : s.rclosed = false) (hcnt : s.rcnt = 0) (hobl : s.env.obliging)
    (hsrc : s.env.src = []) : srcRbit s = .error (.raised .endOfStream) s.ended := by
  have hguard : ¬s.rclosed = true := by simp [hopen]
  exact (bind_of_ok (run_get s)).trans <| (run_if_neg hguard).trans <| (run_if_pos hcnt).trans <|
    nextByte_at_end (read := []) hobl hsrc _

/-- Settles O30: each of the reads takes in what is there and meets the end. -/
theorem endOfStreamRaised : Obligations.EndOfStreamRaised := by
  intro s hopen hcnt hobl
  refine ⟨fun hsrc => ?_, fun hshort => ?_, fun hshort => ?_, fun hi lo units hsrc hmore hshort hunits => ?_⟩
  · rw [hsrc]
    exact complete_of_raised (withResult_error (hsrc ▸ srcRbit_of_ended hopen hcnt hobl hsrc) .bit)
  · exact complete_of_raised (withResult_error (srcRint_of_short hopen hcnt hobl hshort) .word)
  · exact complete_of_raised (noResult_error (srcRstr_of_no_length hopen hcnt hobl hshort))
  · exact complete_of_raised (noResult_error (srcRstr_of_missing_units hopen hcnt hobl hsrc hmore hshort hunits))

/-! ## The ways out of `FAILED` -/

theorem traced_pqInsert (key : Word) (payload : NodeRef) : Traced (pqInsert key payload) :=
  traced_get fun _ => traced_guard nofun (traced_modify (fun _ => rfl) fun _ => rfl)

theorem traced_pqDelmin : Traced pqDelmin := by
  refine traced_get fun s => ?_
  cases s.heap with
  | nil => exact traced_raise nofun
  | cons top rest => exact traced_bind (traced_modify (fun _ => rfl) fun _ => rfl) fun _ => traced_pure

theorem traced_pqPeek : Traced pqPeek := by
  refine traced_get fun s => ?_
  cases s.heap with
  | nil => exact traced_raise nofun
  | cons top rest => exact traced_pure

theorem traced_operation (i : Instr) : Traced (operation i) := by
  cases i with
  | encode => exact traced_encodeInvocation.noResult
  | decode => exact traced_decodeInvocation.noResult
  | codecFcount => exact traced_codecFcount.noResult
  | codecWheader => exact traced_codecWheader.noResult
  | codecWpayload => exact traced_codecWpayload.noResult
  | codecRheader => exact traced_codecRheader.noResult
  | codecWalk => exact traced_codecWalk.noResult
  | snkWbits bits => exact (traced_snkWbits bits).noResult
  | snkWint v => exact (traced_snkWint v).noResult
  | snkWstr => exact traced_snkWstr.noResult
  | snkClose => exact traced_snkClose.noResult
  | srcRbit => exact traced_bind traced_srcRbit fun _ => traced_pure
  | srcRint => exact traced_bind traced_srcRint fun _ => traced_pure
  | srcRstr => exact traced_srcRstr.noResult
  | srcClose => exact traced_srcClose.noResult
  | pqInsert key payload => exact (traced_pqInsert key payload).noResult
  | pqDelmin => exact traced_bind traced_pqDelmin fun _ => traced_pure
  | pqPeek => exact traced_bind traced_pqPeek fun _ => traced_pure
  | pqIsempty => exact traced_bind (traced_get fun _ => traced_pure) fun _ => traced_pure
  | pqIsfull => exact traced_bind (traced_get fun _ => traced_pure) fun _ => traced_pure
  | pqSize => exact traced_bind (traced_get fun _ => traced_pure) fun _ => traced_pure
  | htBuild => exact traced_htBuild.noResult
  | htGencodes => exact traced_htGencodes.noResult
  | htSer => exact traced_htSer.noResult
  | htDeser => exact traced_htDeser.noResult

theorem State.busy_of_failed (h : s.phase = .failed) : s.busy = false := by
  simp [State.busy, h, Phase.encoding, Phase.decoding]

theorem startsInvocation_iff {i : Instr} : startsInvocation i = true ↔ i = .encode ∨ i = .decode := by
  cases i <;> simp [startsInvocation]

/-- An operation of a unit that is issued in `FAILED` leaves it only when a reset overtakes one of its calls. -/
theorem exec_of_failed {i : Instr} (hi : startsInvocation i = false) (hs : s.phase = .failed)
    (h : exec i s = .next u) (hu : u.phase ≠ .failed) : ResetFrom s u := by
  rw [exec_eq, hi, Bool.false_and, if_neg Bool.false_ne_true] at h
  obtain ⟨r, t, ht, rfl, -⟩ | ⟨k, t, calls, -, hfrom, -⟩ | hreset := (traced_operation i).complete_next h
  · exact absurd (((operation_unitOp hi).phase_ok ht).trans hs) hu
  · exact absurd hfrom.phase hu
  · exact hreset

/-- A command leaves `FAILED` for the start values of its invocation. -/
theorem command_of_failed {op : BitVec 8} (hs : s.phase = .failed) (h : command op s = .next u)
    (hu : u.phase ≠ .failed) :
    (op = 0x01 ∨ op = 0x02) ∧ u = s.initialise (if op = 0x01 then .eCount else .dHeader) := by
  have hbusy := State.busy_of_failed hs
  by_cases hencode : op = 0x01
  · subst hencode
    rw [command, hbusy] at h
    cases h
    exact ⟨.inl rfl, rfl⟩
  · by_cases hdecode : op = 0x02
    · subst hdecode
      rw [command, hbusy] at h
      cases h
      exact ⟨.inr rfl, rfl⟩
    · rw [command_of_illegal hbusy hencode hdecode] at h
      cases h
      exact absurd rfl hu

/-- Settles O15: what each stimulus can do in `FAILED`. -/
theorem failedLeftOnlyByCommandOrReset : Obligations.FailedLeftOnlyByCommandOrReset := by
  intro s u hs h hu
  have hwaits (rest : List Stimulus) (h : tick { s with stim := rest } = .next u) : False := by
    rw [tick_of_no_work (by rw [hs]; rfl)] at h
    cases h
    exact hu hs
  unfold step at h
  match hstim : s.stim with
  | [] =>
    simp only [hstim] at h
    exact (hwaits [] (hstim ▸ h)).elim
  | .quiet :: rest =>
    simp only [hstim] at h
    exact (hwaits rest h).elim
  | .command op :: rest =>
    simp only [hstim] at h
    obtain ⟨hop, hstart⟩ := command_of_failed (s := { s with stim := rest }) hs h hu
    exact .inl ⟨op, rest, rfl, hop, hstart⟩
  | .reset :: rest =>
    simp only [hstim] at h
    cases h
    exact .inr (.inl ⟨rest, rfl, rfl⟩)
  | .attach src replay answers :: rest =>
    simp only [hstim] at h
    rw [attachStreams, if_neg (by simp [State.busy_of_failed (s := { s with stim := rest }) hs])] at h
    cases h
    exact absurd hs hu
  | .issue t :: rest =>
    simp only [hstim] at h
    cases hdecode : decode t with
    | error e => simp [issue, hdecode] at h
    | ok i =>
      rw [issue_of_decode_ok hdecode] at h
      cases hi : startsInvocation i with
      | true =>
        refine .inr (.inr (.inl ⟨t, rest, rfl, ?_⟩))
        rwa [hdecode, Except.ok.injEq, Except.ok.injEq, ← startsInvocation_iff]
      | false =>
        have hreset := exec_of_failed (s := { s with stim := rest }) hi hs h hu
        obtain ⟨v, rfl⟩ := hreset.reset
        have hrest : v.stim = rest := hreset.stim
        refine .inr (.inr (.inr ⟨hreset.answered, ?_⟩))
        rw [List.tail_cons, ← hrest]
        rfl

end Sys2Proof.Machine
end

section
/-! PROOFS. Calls that are granted, and the first that is not: an operation does before that call what it does for a host
that fails none (spec/60_exceptions.md R241, R253). -/

namespace Sys2Proof.Machine

variable {ε α β : Type} {s t u : State} {e : Env} {calls : List PortEvent} {read rest : List Byte} {b : Byte} {k n : Nat}

/-! ## Granted calls -/

/-- The next `n` calls succeed. -/
def Env.grants (e : Env) (n : Nat) : Prop := ∀ a ∈ e.answers.take n, a = .ok

theorem Env.obliging.grants (h : e.obliging) (n : Nat) : e.grants n := fun a ha => h a (List.mem_of_mem_take ha)

theorem Env.grants_add (e : Env) (calls : List PortEvent) (n : Nat) :
    e.grants (calls.length + n) ↔ e.grants calls.length ∧ (e.after calls).grants n := by
  rw [Env.grants, List.take_add, List.forall_mem_append, Env.grants, Env.grants, Env.after_answers]

theorem Env.grants.mono (h : e.grants n) (hk : k ≤ n) : e.grants k := by
  obtain ⟨m, rfl⟩ := Nat.exists_eq_add_of_le hk
  rw [Env.grants, List.take_add, List.forall_mem_append] at h
  exact h.1

theorem Env.grants.next (h : e.grants 1) : e.answers.getD 0 .ok = .ok := by
  rw [Env.grants] at h
  cases hans : e.answers with
  | nil => rfl
  | cons a rest => exact h a (by simp [hans])

/-- The first `k` calls succeed and the next fails. -/
def Env.failsAt (e : Env) (k : Nat) : Prop := ∃ rest, e.answers = List.replicate k .ok ++ .fail :: rest

theorem Env.failsAt.grants (h : e.failsAt k) : e.grants k := by
  obtain ⟨rest, hans⟩ := h
  intro a ha
  rw [hans, List.take_left' (List.length_replicate ..)] at ha
  exact List.eq_of_mem_replicate ha

theorem Env.failsAt.after (h : e.failsAt (calls.length + k)) : (e.after calls).failsAt k := by
  obtain ⟨rest, hans⟩ := h
  refine ⟨rest, ?_⟩
  rw [Env.after_answers, hans, List.replicate_add, List.append_assoc,
    List.drop_left' (List.length_replicate ..)]

theorem Env.failsAt.now (h : e.failsAt calls.length) : (e.after calls).failsAt 0 := Env.failsAt.after (k := 0) h

theorem Env.failsAt.next (h : e.failsAt 0) : e.answers.getD 0 .ok = .fail := by
  obtain ⟨rest, hans⟩ := h
  rw [hans]
  rfl

/-! ## One call -/

theorem orIOError_of_granted {p : Port Bool} {event : Bool → State → PortEvent} (hp : CallSpec p event)
    (hf : ∀ ok s, (event ok s).failed = !ok) (h : s.env.grants 1) :
    orIOError p s = .ok () (s.withEnv (s.env.after [event true s])) := by
  have hcall := hp.answer hf (.inl h.next)
  rw [h.next] at hcall
  exact orIOError_of_ok hcall

theorem orIOError_of_failed {p : Port Bool} {event : Bool → State → PortEvent} (hp : CallSpec p event)
    (hf : ∀ ok s, (event ok s).failed = !ok) (h : s.env.failsAt 0) :
    orIOError p s = .error (.raised .ioError) (s.withEnv (s.env.after [event false s])) := by
  have hcall := hp.answer hf (.inr h.next)
  rw [h.next] at hcall
  exact bind_of_ok (lift_of_ok hcall)

theorem put_of_granted (h : s.env.grants 1) (b : Byte) :
    orIOError (snkPut b) s = .ok () (s.withEnv (s.env.after [.snkPut b true])) :=
  orIOError_of_granted (snkPut_spec b) (fun _ _ => rfl) h

theorem put_of_failed (h : s.env.failsAt 0) (b : Byte) :
    orIOError (snkPut b) s = .error (.raised .ioError) (s.withEnv (s.env.after [.snkPut b false])) :=
  orIOError_of_failed (snkPut_spec b) (fun _ _ => rfl) h

theorem answered_of_granted (h : s.env.grants 1) : answered s = .ok true (s.withEnv s.env.used) := by
  have hnext := h.next
  refine answered_of_ok ?_ ?_ ?_ <;> intro hhead <;> simp [List.getD_eq_getElem?_getD, ← List.head?_eq_getElem?, hhead] at hnext

theorem srcNext_of_granted_byte (h : s.env.grants 1) (hsrc : s.env.src = b :: rest) :
    srcNext s = .ok (.byte b) (s.withEnv (s.env.after [.srcNext (.byte b)])) := by
  simp [srcNext, answered_of_granted h, State.withEnv, State.record, Env.used, Env.after, Env.afterCall, Env.srcAfter,
    hsrc]

theorem srcNext_of_failed (h : s.env.failsAt 0) :
    srcNext s = .ok .fail (s.withEnv (s.env.after [.srcNext .fail])) := by
  obtain ⟨r, t, hrun⟩ := srcNext_spec.ok_of_answersNext (.inr h.next)
  obtain ⟨rfl, hgives⟩ := srcNext_spec.1 s t r hrun
  have hanswer := h.next.symm.trans ((Env.gives_singleton ..).mp hgives)
  cases r with
  | fail => exact hrun
  | byte b => exact nomatch hanswer
  | eof => exact nomatch hanswer

/-- When the bytes `read` have been read, the byte behind them is, before the rest of the pseudocode. -/
theorem nextByte_bind_of_granted (h : s.env.grants (read.length + 1)) (hsrc : s.env.src = read ++ b :: rest)
    (f : Byte → Op α) :
    (nextByte >>= f) (s.withEnv (s.env.after (reads read))) =
      f b (s.withEnv (s.env.after (reads (read ++ [b])))) := by
  have hlen : (reads read).length = read.length := List.length_map ..
  have hnext := ((s.env.grants_add (reads read) 1).mp (hlen ▸ h)).2
  rw [after_reads_append]
  exact bind_of_ok (bind_of_ok (lift_of_ok (srcNext_of_granted_byte hnext (src_after_reads hsrc))))

/-- When the bytes `read` have been read and the next call fails, IOError is raised. -/
theorem nextByte_bind_of_failed (h : s.env.failsAt read.length) (f : Byte → Op α) :
    (nextByte >>= f) (s.withEnv (s.env.after (reads read))) =
      .error (.raised .ioError) (s.withEnv (s.env.after (reads read ++ [.srcNext .fail]))) := by
  have hlen : (reads read).length = read.length := List.length_map ..
  rw [← hlen] at h
  rw [Env.after_append]
  exact bind_of_error (bind_of_ok (lift_of_ok (srcNext_of_failed h.now)))

/-! ## Operations -/

/-- `s` with a host that fails no call. -/
def State.obliged (s : State) : State := s.withEnv { s.env with answers := [] }

theorem State.obliged_obliging (s : State) : s.obliged.env.obliging := fun _ ha => (List.not_mem_nil ha).elim

theorem Env.after_withAnswers (e : Env) (answers : List PortAnswer) (calls : List PortEvent) :
    Env.after { e with answers := answers } calls = { e.after calls with answers := answers.drop calls.length } := by
  induction calls generalizing e answers with
  | nil => rfl
  | cons event calls ih => exact (ih (e.afterCall event) answers.tail).trans (by simp [Env.after_cons])

theorem State.env_obliged_after (s : State) (calls : List PortEvent) :
    s.obliged.env.after calls = { s.env.after calls with answers := [] } :=
  (Env.after_withAnswers s.env [] calls).trans (by simp)

/-- Where `op` ends for a host that fails no call, it ends the same way when the calls that it makes are granted. -/
def Repeats (op : EStateM ε State α) : Prop :=
  ∀ s a t, op s.obliged = .ok a t → ∃ calls, t.env = s.obliged.env.after calls ∧
    (s.env.grants calls.length → op s = .ok a (t.withEnv (s.env.after calls)))

theorem Repeats.of_granted {op : EStateM ε State α} {a : α} (hop : Repeats op) (h : op s.obliged = .ok a t)
    (ht : t.env = s.obliged.env.after calls) (hg : s.env.grants calls.length) :
    op s = .ok a (t.withEnv (s.env.after calls)) := by
  obtain ⟨calls', hcalls, hrun⟩ := hop s a t h
  have hlog := congrArg Env.log (ht.symm.trans hcalls)
  rw [Env.after_log, Env.after_log, List.append_cancel_left_eq] at hlog
  subst hlog
  exact hrun hg

theorem repeats_pure {a : α} : Repeats (pure a : EStateM ε State α) := by
  intro s a t h
  cases h
  exact ⟨[], rfl, fun _ => rfl⟩

theorem repeats_stop {f : Fault} : Repeats (stop f : Op α) := fun _ _ _ h => nomatch h

theorem repeats_modify {f : State → State} (hf : ∀ s e, f (s.withEnv e) = (f s).withEnv e) :
    Repeats (modify f : EStateM ε State PUnit) := by
  intro s a t h
  cases h
  refine ⟨[], ?_, fun _ => congrArg (EStateM.Result.ok ()) ?_⟩
  · rw [State.obliged, hf]
    rfl
  · rw [State.obliged, hf]
    exact hf s s.env

theorem repeats_bind {x : EStateM ε State α} {f : α → EStateM ε State β} (hx : Repeats x) (hf : ∀ a, Repeats (f a)) :
    Repeats (x >>= f) := by
  intro s b u h
  rw [run_bind] at h
  cases hrun : x s.obliged with
  | error e t => rw [hrun] at h; cases h
  | ok a t =>
    rw [hrun] at h
    obtain ⟨calls, ht, hfirst⟩ := hx s a t hrun
    have hsame : (t.withEnv (s.env.after calls)).obliged = t := by
      change t.withEnv { s.env.after calls with answers := [] } = t
      rw [← State.env_obliged_after, ← ht]
      rfl
    obtain ⟨more, hu, hsecond⟩ := hf a (t.withEnv (s.env.after calls)) b u (by rw [hsame]; exact h)
    refine ⟨calls ++ more, ?_, fun hg => ?_⟩
    · rw [hu, hsame, ht, Env.after_append]
    · rw [List.length_append, Env.grants_add] at hg
      rw [bind_of_ok (hfirst hg.1), hsecond hg.2, Env.after_append]
      rfl

theorem repeats_get {f : State → EStateM ε State α} (hf : ∀ s : State, f s.obliged = f s) (h : ∀ s, Repeats (f s)) :
    Repeats (get >>= f) := by
  intro s a t hrun
  refine h s s a t ?_
  rw [← hf s]
  exact hrun

theorem repeats_ite {c : Prop} [Decidable c] {x y : EStateM ε State α} (hx : Repeats x) (hy : Repeats y) :
    Repeats (if c then x else y) := by
  split
  · exact hx
  · exact hy

theorem repeats_guard {c : Prop} [Decidable c] {k : ErrKind} {g : β → Op α} {rest : Op α} (h : Repeats rest) :
    Repeats (if c then raise k >>= g else rest) :=
  repeats_ite (fun _ _ _ h => nomatch h) h

theorem repeats_put (b : Byte) : Repeats (orIOError (snkPut b)) := by
  intro s a t h
  rw [put_of_granted (s.obliged_obliging.grants 1)] at h
  cases h
  exact ⟨[.snkPut b true], rfl, fun hg => put_of_granted hg b⟩

theorem repeats_nextByte : Repeats nextByte := by
  intro s a t h
  have hobl := s.obliged_obliging
  cases hsrc : s.env.src with
  | nil =>
    rw [nextByte_of_obliging_nil hobl hsrc] at h
    cases h
  | cons b rest =>
    rw [nextByte_of_obliging hobl hsrc] at h
    cases h
    exact ⟨[.srcNext (.byte _)], rfl, fun hg => bind_of_ok (lift_of_ok (srcNext_of_granted_byte hg hsrc))⟩

theorem repeats_nodeAt (n : NodeRef) : Repeats (nodeAt n) := by
  refine repeats_get (fun _ => rfl) fun s => ?_
  cases s.nodes[n.toNat]? with
  | some node => exact repeats_pure
  | none => exact repeats_stop

theorem repeats_writeBits (bits : Bits) : Repeats (writeBits bits) := by
  induction bits with
  | nil => exact repeats_pure
  | cons b rest ih =>
    refine repeats_bind (repeats_modify fun _ _ => rfl) fun _ => repeats_get (fun _ => rfl) fun s => repeats_ite ?_ ih
    exact repeats_bind (repeats_put _) fun _ => repeats_bind (repeats_modify fun _ _ => rfl) fun _ => ih

theorem repeats_srcRbit : Repeats srcRbit := by
  have hlast : Repeats takeBit := repeats_get (fun _ => rfl) fun s =>
    repeats_bind (repeats_modify fun _ _ => rfl) fun _ => repeats_pure
  exact repeats_get (fun _ => rfl) fun s => repeats_guard <| repeats_ite
    (repeats_bind repeats_nextByte fun _ => repeats_bind (repeats_modify fun _ _ => rfl) fun _ => hlast) hlast

theorem repeats_readUnits (n : Nat) : Repeats (readUnits n) := by
  induction n with
  | zero => exact repeats_pure
  | succ n ih =>
    exact repeats_bind repeats_nextByte fun _ => repeats_guard <|
      repeats_bind (repeats_modify fun _ _ => rfl) fun _ => ih

theorem repeats_descend (fuel : Nat) : Repeats (descend fuel) := by
  induction fuel with
  | zero => exact repeats_stop
  | succ fuel ih =>
    refine repeats_get (fun _ => rfl) fun s => repeats_bind (repeats_nodeAt _) fun node =>
      repeats_ite repeats_pure <| repeats_bind repeats_srcRbit fun bit => repeats_guard <|
      repeats_bind (repeats_modify fun _ _ => rfl) fun _ => ih

end Sys2Proof.Machine
end

section
/-! PROOFS. CODEC.WALK round by round, as far as its calls are granted, and on a truncated payload
(spec/44_codec.md R213, spec/60_exceptions.md R243, R251). -/

namespace Sys2Proof.Machine

variable {s u v : State} {t l r : Tree} {p rest : Bits} {sym : Symbol} {xs : List (Symbol × Bits)} {k : Nat}

/-! ## Where bits lead -/

theorem Tree.nil_mem_paths (h : (sym, []) ∈ t.paths []) : t = .leaf sym := by
  cases t with
  | leaf a =>
    cases List.mem_singleton.mp h
    rfl
  | node l r =>
    obtain ⟨b, q, hcons, -⟩ := Tree.mem_paths_node h
    exact nomatch hcons

/-- A path in a child is one from the inner node, with the bit that leads to the child in front. -/
theorem Tree.cons_mem_paths_node {b : Bool} (h : (sym, p) ∈ (bif b then r else l).paths []) :
    (sym, b :: p) ∈ (Tree.node l r).paths [] := by
  have hbelow (t : Tree) (b : Bool) (h : (sym, p) ∈ t.paths []) : (sym, b :: p) ∈ t.paths [b] := by
    have hpaths := t.paths_append [b] []
    rw [List.append_nil] at hpaths
    rw [hpaths]
    exact List.mem_map_of_mem h
  cases b with
  | false => exact List.mem_append_left _ (hbelow l false h)
  | true => exact List.mem_append_right _ (hbelow r true h)

theorem follow_cons {n left right : NodeRef} (h : s.nodes[n.toNat]? = some (.branch left right)) (b : Bool) (p : Bits) :
    follow s.nodes n (b :: p) = follow s.nodes (bif b then right else left) p := by
  rw [follow, h]
  cases b <;> rfl

theorem follow_of_leaf {n : NodeRef} (h : s.nodes[n.toNat]? = some (.leaf sym)) (p : Bits) :
    follow s.nodes n p = n := by
  cases p with
  | nil => rfl
  | cons b p => rw [follow, h]

/-- The descent follows bits that lead to no leaf before their end, and goes on where they lead. -/
theorem descend_of_bits (ht : t.storedAt s.nodes s.cursor) (hnodes : s.nodes.length ≤ 255) (hopen : s.rclosed = false)
    (hobl : s.env.obliging) (hinv : s.SourceInv) (hahead : s.bitsAhead = p ++ rest)
    (hinner : ∀ q sym, q <+: p → q ≠ p → (sym, q) ∉ t.paths []) (fuel : Nat) :
    ∃ k u t', descend (p.length + fuel) s = descend fuel u ∧ Taken k p s u ∧ u.cursor = follow s.nodes s.cursor p ∧
      Tree.storedAt t' u.nodes u.cursor ∧ ∀ sym, (sym, p) ∈ t.paths [] ↔ t' = .leaf sym := by
  induction p generalizing s t with
  | nil =>
    refine ⟨0, s, t, by rw [List.length_nil, Nat.zero_add], .none hinv, rfl, ht, fun sym => ⟨Tree.nil_mem_paths, ?_⟩⟩
    rintro rfl
    exact List.mem_singleton_self _
  | cons b p ih =>
    cases t with
    | leaf a => exact absurd (List.mem_singleton_self _) (hinner [] a List.nil_prefix (List.cons_ne_nil _ _).symm)
    | node l r =>
      obtain ⟨a, c, hn, hl, hr⟩ := ht
      obtain ⟨k, v, hbit, htaken, -, hrest⟩ := srcRbit_taken hopen hobl hinv hahead
      have hchild : (bif b then r else l).storedAt s.nodes (bif b then c else a) := by cases b <;> assumption
      have htaken := htaken.set_cursor (bif b then c else a)
      obtain ⟨k', u, t', hrun, htaken', hcursor, ht', hleaf⟩ := ih (htaken.nodes ▸ hchild) (htaken.nodes ▸ hnodes)
        (htaken.opened hopen) (htaken.obliging hobl) htaken.inv hrest fun q sym hq hne hmem =>
          hinner (b :: q) sym (List.cons_prefix_cons.mpr ⟨rfl, hq⟩) (mt List.tail_eq_of_cons_eq hne)
            (Tree.cons_mem_paths_node hmem)
      refine ⟨k + k', u, t', ?_, htaken.trans htaken', ?_, ht', fun sym => ?_⟩
      · rw [List.length_cons, Nat.add_right_comm, descend_of_branch hn hbit (hchild.ne_nil hnodes)]
        exact hrun
      · rw [hcursor, htaken.nodes, follow_cons hn]
      · rw [← hleaf sym]
        refine ⟨fun hmem => ?_, Tree.cons_mem_paths_node⟩
        obtain ⟨b', q, hcons, hq⟩ := Tree.mem_paths_node hmem
        cases hcons
        exact hq

/-! ## One round -/

/-- Where a round of CODEC.WALK over the tree `t` begins. -/
structure State.AtRoot (s : State) (t : Tree) : Prop where
  stored : t.storedAt s.nodes s.root
  cursor : s.cursor = s.root
  nodes : s.nodes.length ≤ 255
  opened : s.rclosed = false
  inv : s.SourceInv

theorem Taken.granted (h : Taken k p s.obliged u) : Taken k p s (u.withEnv (s.env.after (reads (s.env.src.take k)))) where
  ahead := by
    have hsrc : (s.env.after (reads (s.env.src.take k))).src = u.env.src :=
      (src_after_reads (List.take_append_drop k _).symm).trans h.src.symm
    refine h.ahead.trans (congrArg (p ++ ·) ?_)
    rw [State.bitsAhead, State.bitsAhead, State.withEnv_env, hsrc]
    rfl
  state := congrArg (fun w : State => w.withEnv (s.env.after (reads (s.env.src.take k)))) h.state
  room := h.room
  inv := h.inv

/-- With the bits of a Symbol ahead and their reads granted, a round comes to the Symbol's leaf. -/
theorem State.AtRoot.reachesLeaf (h : s.AtRoot t) (hreach : t.reaches p sym) (hahead : s.bitsAhead = p ++ rest)
    (hg : s.env.grants ((p.length - s.rcnt.toNat + 7) / 8)) :
    ∃ rootNode u, s.nodes[s.root.toNat]? = some rootNode ∧ ReachesLeaf s rootNode u ∧
      Taken ((p.length - s.rcnt.toNat + 7) / 8) p s u ∧ u.nodes[u.cursor.toNat]? = some (.leaf sym) ∧
      u.cursor = follow s.nodes s.root p := by
  have hobl := s.obliged_obliging
  have hrepeat {α : Type} {op : Op α} {a : α} {k : Nat} {u : State} (hop : Repeats op) (hrun : op s.obliged = .ok a u)
      (htaken : Taken k p s.obliged u) :
      op s = .ok a (u.withEnv (s.env.after (reads (s.env.src.take k)))) := by
    have hlen : (reads (s.env.src.take k)).length = k :=
      (List.length_map ..).trans (List.length_take_of_le htaken.room)
    refine hop.of_granted hrun htaken.env ?_
    rw [hlen, htaken.count.1]
    exact hg
  cases t with
  | leaf a =>
    obtain ⟨rfl, hp⟩ := hreach
    obtain ⟨b, rfl⟩ := List.length_eq_one_iff.mp hp
    obtain ⟨k, u, hbit, htaken, hstays, -⟩ := srcRbit_taken (s := s.obliged) h.opened hobl h.inv hahead
    have hgranted := htaken.granted
    have hroot : u.cursor = s.root := hstays.trans h.cursor
    have hk := hgranted.count.1
    refine ⟨_, u.withEnv (s.env.after (reads (s.env.src.take k))), h.stored,
      .inl ⟨Node.isLeaf_leaf a, b, hrepeat repeats_srcRbit hbit htaken⟩, hk ▸ hgranted, ?_, ?_⟩
    · rw [hgranted.nodes, State.withEnv_cursor, hroot]
      exact h.stored
    · rw [follow_of_leaf h.stored]
      exact hroot
  | node l r =>
    have hinner (q : Bits) (sym' : Symbol) (hq : q <+: p) (hne : q ≠ p) : (sym', q) ∉ (Tree.node l r).paths [] :=
      fun hmem => hne (congrArg Prod.snd (Tree.paths_prefix_free hmem hreach hq))
    have hcursor : Tree.storedAt (.node l r) s.obliged.nodes s.obliged.cursor := by
      have hstored := h.stored
      rw [← h.cursor] at hstored
      exact hstored
    have hfuel : s.bitsLeft + 1 = p.length + (rest.length + 1) := by
      rw [← State.bitsAhead_length, hahead, List.length_append, Nat.add_assoc]
    obtain ⟨k, u, t', hrun, htaken, hleads, ht', hleaf⟩ := descend_of_bits hcursor h.nodes h.opened hobl h.inv hahead
      hinner (rest.length + 1)
    obtain rfl := (hleaf sym).mp hreach
    rw [descend_of_leaf ht' (Node.isLeaf_leaf sym), ← hfuel] at hrun
    obtain ⟨a, b, hn, -, -⟩ := h.stored
    have hgranted := htaken.granted
    have hk := hgranted.count.1
    refine ⟨_, u.withEnv (s.env.after (reads (s.env.src.take k))), hn,
      .inr ⟨Node.isLeaf_branch a b, hrepeat (repeats_descend _) hrun htaken⟩, hk ▸ hgranted, ht', ?_⟩
    rw [← h.cursor]
    exact hleads

/-- A round looks for a leaf, with one bit below a lone leaf and by the descent otherwise, and emits its Symbol. -/
theorem walkLoop_of_root {rootNode : Node} (hremain : s.remain ≠ 0) (hroot : s.nodes[s.root.toNat]? = some rootNode)
    (fuel : Nat) :
    walkLoop (fuel + 1) s = (if rootNode.isLeaf then srcRbit >>= fun _ => emitSymbol fuel
      else descend (s.bitsLeft + 1) >>= fun _ => emitSymbol fuel : Op Unit) s := by
  rw [walkLoop]
  exact (bind_of_ok (run_get s)).trans <| (run_if_neg hremain).trans <| bind_of_ok (nodeAt_of_some hroot)

/-- A round that comes to a leaf goes on to emit its Symbol. -/
theorem walkLoop_of_reached {rootNode : Node} (hremain : s.remain ≠ 0) (hroot : s.nodes[s.root.toNat]? = some rootNode)
    (hreach : ReachesLeaf s rootNode u) (fuel : Nat) : walkLoop (fuel + 1) s = emitSymbol fuel u := by
  rw [walkLoop_of_root hremain hroot]
  obtain ⟨hroot, b, hbit⟩ | ⟨hroot, hdescend⟩ := hreach
  · exact (run_if_pos hroot).trans (bind_of_ok hbit)
  · exact (run_if_neg hroot).trans (bind_of_ok hdescend)

/-- `s` when the Symbol under the cursor has been put. -/
def State.emitted (s : State) (sym : Symbol) : State :=
  { s with remain := s.remain - 1, cursor := s.root, env := s.env.after [.snkPut sym.byte true] }

theorem emitSymbol_of_granted (hleaf : s.nodes[s.cursor.toNat]? = some (.leaf sym)) (hg : s.env.grants 1) (fuel : Nat) :
    emitSymbol fuel s = walkLoop fuel (s.emitted sym) :=
  (bind_of_ok (run_get s)).trans <| (bind_of_ok (nodeAt_of_some hleaf)).trans <|
    (bind_of_ok (put_of_granted hg _)).trans <| bind_of_ok (run_modify ..)

/-! ## Round after round -/

/-- `u` is `s` when the Symbols `xs` have been emitted. -/
structure Walked (xs : List (Symbol × Bits)) (s u : State) : Prop where
  state : u = { s with
    remain := s.remain - BitVec.ofNat 32 xs.length, rbuf := u.rbuf, rcnt := u.rcnt
    env := s.env.after (walkCalls s.rcnt.toNat s.env.src xs) }
  inv : u.SourceInv
  calls : ∀ ys, walkCalls s.rcnt.toNat s.env.src (xs ++ ys) =
    walkCalls s.rcnt.toNat s.env.src xs ++ walkCalls u.rcnt.toNat u.env.src ys

theorem Walked.env (h : Walked xs s u) : u.env = s.env.after (walkCalls s.rcnt.toNat s.env.src xs) :=
  congrArg State.env h.state

theorem Walked.nodes (h : Walked xs s u) : u.nodes = s.nodes := (congrArg State.nodes h.state).trans rfl

theorem Walked.root (h : Walked xs s u) : u.root = s.root := (congrArg State.root h.state).trans rfl

theorem Walked.atRoot (h : Walked xs s u) (hs : s.AtRoot t) : u.AtRoot t where
  stored := by rw [h.nodes, h.root]; exact hs.stored
  cursor := by rw [h.root]; exact (congrArg State.cursor h.state).trans hs.cursor
  nodes := by rw [h.nodes]; exact hs.nodes
  opened := (congrArg State.rclosed h.state).trans hs.opened
  inv := h.inv

theorem Walked.remain_ne_zero (h : Walked xs s u) (hmore : xs.length < s.remain.toNat) : u.remain ≠ 0 := by
  have hremain : u.remain = s.remain - BitVec.ofNat 32 xs.length := congrArg State.remain h.state
  rw [hremain]
  bv_omega

/-- The calls for a Symbol that has been emitted, and those behind it. -/
theorem walkCalls_cons_of_taken (htaken : Taken k p s v) (ys : List (Symbol × Bits)) :
    walkCalls s.rcnt.toNat s.env.src ((sym, p) :: ys) = reads (s.env.src.take k) ++ .snkPut sym.byte true ::
      walkCalls (v.emitted sym).rcnt.toNat (v.emitted sym).env.src ys := by
  obtain ⟨hk, hcount⟩ := htaken.count
  have hsrc : (v.emitted sym).env.src = s.env.src.drop k := htaken.src
  rw [walkCalls, ← hk, hsrc, ← hcount]
  rfl

theorem Walked.cons (hcursor : s.cursor = s.root) (htaken : Taken k p s v) (h : Walked xs (v.emitted sym) u) :
    Walked ((sym, p) :: xs) s u where
  state := by
    have henv : (v.emitted sym).env.after (walkCalls (v.emitted sym).rcnt.toNat (v.emitted sym).env.src xs) =
        s.env.after (walkCalls s.rcnt.toNat s.env.src ((sym, p) :: xs)) := by
      rw [walkCalls_cons_of_taken htaken, Env.after_append, ← htaken.env]
      rfl
    have hremain : (v.emitted sym).remain - BitVec.ofNat 32 xs.length =
        s.remain - BitVec.ofNat 32 ((sym, p) :: xs).length := by
      change v.remain - 1 - _ = _
      rw [htaken.remain, List.length_cons]
      bv_omega
    have hstate := h.state
    rw [henv, hremain] at hstate
    have hv := congrArg (fun w : State => { w with
      remain := s.remain - BitVec.ofNat 32 ((sym, p) :: xs).length, cursor := w.root, rbuf := u.rbuf, rcnt := u.rcnt
      env := s.env.after (walkCalls s.rcnt.toNat s.env.src ((sym, p) :: xs)) }) htaken.state
    rw [hcursor]
    exact hstate.trans hv
  inv := h.inv
  calls ys := by
    rw [List.cons_append, walkCalls_cons_of_taken htaken, h.calls, walkCalls_cons_of_taken htaken, List.append_assoc,
      List.cons_append]

theorem State.AtRoot.emitted (h : s.AtRoot t) (htaken : Taken k p s v) (sym : Symbol) : (v.emitted sym).AtRoot t where
  stored := by
    change t.storedAt v.nodes v.root
    rw [htaken.nodes, htaken.root]
    exact h.stored
  cursor := rfl
  nodes := by
    change v.nodes.length ≤ 255
    rw [htaken.nodes]
    exact h.nodes
  opened := htaken.opened h.opened
  inv := htaken.inv

/-- The bytes that the bits ahead need are there. -/
theorem pulled_le (hahead : s.bitsAhead = p ++ rest) : (p.length - s.rcnt.toNat + 7) / 8 ≤ s.env.src.length := by
  have hlen := congrArg List.length hahead
  rw [State.bitsAhead_length, State.bitsLeft, List.length_append] at hlen
  omega

/-- The calls of the first Symbol: those before its put, the put and the others. -/
theorem length_walkCalls_cons (hahead : s.bitsAhead = p ++ rest) (sym : Symbol) (xs : List (Symbol × Bits)) :
    (p.length - s.rcnt.toNat + 7) / 8 < (walkCalls s.rcnt.toNat s.env.src ((sym, p) :: xs)).length := by
  rw [walkCalls, List.length_append, reads, List.length_map, List.length_take_of_le (pulled_le hahead),
    List.length_cons]
  omega

/-- The loop emits one Symbol after the other, as far as the calls are granted. -/
theorem walkLoop_of_rounds (h : s.AtRoot t) (hreach : ∀ x ∈ xs, t.reaches x.2 x.1) (hremain : xs.length ≤ s.remain.toNat)
    (hahead : s.bitsAhead = xs.flatMap (·.2) ++ rest) (hg : s.env.grants (walkCalls s.rcnt.toNat s.env.src xs).length)
    (fuel : Nat) :
    ∃ u, walkLoop (xs.length + fuel) s = walkLoop fuel u ∧ Walked xs s u ∧ u.bitsAhead = rest := by
  induction xs generalizing s with
  | nil =>
    refine ⟨s, by rw [List.length_nil, Nat.zero_add], ⟨?_, h.inv, fun ys => rfl⟩, hahead⟩
    simp [walkCalls]
  | cons x xs ih =>
    obtain ⟨sym, p⟩ := x
    obtain ⟨hx, hreach⟩ := List.forall_mem_cons.mp hreach
    rw [List.flatMap_cons, List.append_assoc] at hahead
    rw [List.length_cons] at hremain
    obtain ⟨rootNode, v, hroot, hleads, htaken, hleaf, -⟩ := h.reachesLeaf hx hahead
      (hg.mono (length_walkCalls_cons hahead sym xs).le)
    have hsome : s.remain ≠ 0 := by
      intro hzero
      rw [hzero] at hremain
      exact absurd hremain (Nat.not_succ_le_zero _)
    rw [walkCalls_cons_of_taken htaken, List.append_cons, List.length_append, Env.grants_add, List.length_append,
      Env.grants_add, Env.after_append, ← htaken.env] at hg
    obtain ⟨⟨-, hput⟩, hg⟩ := hg
    have hone : (v.emitted sym).remain.toNat = s.remain.toNat - 1 := by
      change (v.remain - 1).toNat = _
      rw [htaken.remain]
      bv_omega
    obtain ⟨u, hrun, hwalked, hrest⟩ := ih (h.emitted htaken sym) hreach (by omega)
      (List.append_cancel_left (htaken.ahead.symm.trans hahead)) hg
    refine ⟨u, ?_, hwalked.cons h.cursor htaken, hrest⟩
    rw [List.length_cons, Nat.add_right_comm, walkLoop_of_reached hsome hroot hleads, emitSymbol_of_granted hleaf hput]
    exact hrun

/-! ## A truncated payload -/

theorem descend_of_no_bit {a c : NodeRef} {e : Halt} (h : s.nodes[s.cursor.toNat]? = some (.branch a c))
    (hbit : srcRbit s = .error e u) (fuel : Nat) : descend (fuel + 1) s = .error e u := by
  rw [descend]
  exact (bind_of_ok (run_get s)).trans <| (bind_of_ok (nodeAt_of_some h)).trans <|
    (run_if_neg (Node.isLeaf_branch a c)).trans (bind_of_error hbit)

theorem State.empty_of_no_bits (h : s.bitsAhead = []) : s.rcnt = 0 ∧ s.env.src = [] := by
  have hleft : s.rcnt.toNat + 8 * s.env.src.length = 0 := by
    rw [← State.bitsLeft, ← State.bitsAhead_length, h, List.length_nil]
  exact ⟨BitVec.eq_of_toNat_eq (Nat.eq_zero_of_add_eq_zero_right hleft), List.length_eq_zero_iff.mp (by omega)⟩

theorem State.bitsAhead_ended (h : s.bitsAhead = []) : s.ended.bitsAhead = [] := by
  obtain ⟨hcnt, hsrc⟩ := State.empty_of_no_bits h
  have hended : s.ended.env.src = [] := by
    rw [State.ended, hsrc]
    exact hsrc
  rw [State.bitsAhead_of_empty (s := s.ended) hcnt, hended]
  rfl

/-- A round whose bits end before they lead to a leaf takes them all in and meets the end of the source. -/
theorem State.AtRoot.meets_end (h : s.AtRoot t) (hobl : s.env.obliging) (hremain : s.remain ≠ 0)
    (hahead : s.bitsAhead = p) (hshort : ∀ q sym, q <+: p → ¬t.reaches q sym) (fuel : Nat) :
    ∃ k u, walkLoop (fuel + 1) s = .error (.raised .endOfStream) u.ended ∧ Taken k p s u ∧ u.bitsAhead = [] ∧
      u.cursor = follow s.nodes s.root p := by
  have hend {k : Nat} {u : State} (htaken : Taken k p s u) :
      u.bitsAhead = [] ∧ srcRbit u = .error (.raised .endOfStream) u.ended := by
    have hnone : u.bitsAhead = [] := by simpa [hahead] using htaken.ahead
    obtain ⟨hcnt, hsrc⟩ := State.empty_of_no_bits hnone
    exact ⟨hnone, srcRbit_of_ended (htaken.opened h.opened) hcnt (htaken.obliging hobl) hsrc⟩
  cases t with
  | leaf a =>
    obtain rfl : p = [] := by
      cases p with
      | nil => rfl
      | cons b p => exact absurd ⟨rfl, rfl⟩ (hshort [b] a ⟨p, rfl⟩)
    obtain ⟨hnone, hrun⟩ := hend (.none h.inv)
    refine ⟨0, s, ?_, .none h.inv, hnone, h.cursor⟩
    rw [walkLoop_of_root hremain h.stored]
    exact (run_if_pos (Node.isLeaf_leaf a)).trans (bind_of_error hrun)
  | node l r =>
    have hcursor : Tree.storedAt (.node l r) s.nodes s.cursor := by
      rw [h.cursor]
      exact h.stored
    obtain ⟨k, u, t', hrun, htaken, hleads, ht', hleaf⟩ := descend_of_bits (rest := []) hcursor h.nodes h.opened hobl
      h.inv (hahead.trans (List.append_nil p).symm) (fun q sym hq _ => hshort q sym hq) 1
    obtain ⟨hnone, hbit⟩ := hend htaken
    obtain ⟨a, b, hn, -, -⟩ := h.stored
    refine ⟨k, u, ?_, htaken, hnone, h.cursor ▸ hleads⟩
    rw [walkLoop_of_root hremain hn, ← State.bitsAhead_length, hahead]
    refine (run_if_neg (Node.isLeaf_branch a b)).trans (bind_of_error (hrun.trans ?_))
    cases t' with
    | leaf sym => exact absurd ((hleaf sym).mpr rfl) (hshort p sym List.prefix_rfl)
    | node l' r' =>
      obtain ⟨a', b', hn', -, -⟩ := ht'
      exact descend_of_no_bit hn' hbit 0

/-- Bits taken on the way to the end of the source. -/
theorem Taken.ended (h : Taken k p s u) : u.ended = { u with env := s.ended.env } := by
  have hu := State.ended_after_reads u (List.take_append_drop k s.env.src).symm
  rw [← h.env] at hu
  exact hu

/-- `s` when CODEC.WALK has found a tree for the Symbols. -/
def State.startWalk (s : State) : State := { s with remain := s.total, cursor := s.root }

theorem State.startWalk_atRoot (hopen : s.rclosed = false) (hinv : s.SourceInv) (ht : s.holdsTree t)
    (hnodes : s.nodes.length ≤ 255) : s.startWalk.AtRoot t := ⟨ht.2, rfl, hnodes, hopen, hinv⟩

theorem codecWalk_of_tree (ht : s.holdsTree t) (hsign : s.total.msb = false) :
    codecWalk s = walkLoop (s.bitsLeft + 1) s.startWalk := by
  have hguard : ¬(s.total.msb || (positive s.total && s.root = Config.nil)) = true := by simp [hsign, ht.1]
  exact (bind_of_ok (run_get s)).trans <| (run_if_neg hguard).trans <| bind_of_ok (run_modify ..)

/-- CODEC.WALK behind the first Symbols, as far as the calls are granted. -/
theorem codecWalk_of_rounds (hopen : s.rclosed = false) (hinv : s.SourceInv) (ht : s.holdsTree t)
    (hnodes : s.nodes.length ≤ 255) (hreach : ∀ x ∈ xs, t.reaches x.2 x.1) (hmore : xs.length < s.total.toNat)
    (hsign : s.total.msb = false) (hahead : s.bitsAhead = xs.flatMap (·.2) ++ rest)
    (hg : s.env.grants (walkCalls s.rcnt.toNat s.env.src xs).length) :
    ∃ fuel u, codecWalk s = walkLoop (fuel + 1) u ∧ Walked xs s.startWalk u ∧ u.bitsAhead = rest ∧ u.AtRoot t ∧
      u.remain ≠ 0 := by
  have hroot := State.startWalk_atRoot hopen hinv ht hnodes
  obtain ⟨fuel, hfuel⟩ := Nat.exists_eq_add_of_le (length_le_bitsLeft hreach hahead)
  obtain ⟨u, hrun, hwalked, hrest⟩ := walkLoop_of_rounds hroot hreach hmore.le hahead hg (fuel + 1)
  refine ⟨fuel, u, ?_, hwalked, hrest, hwalked.atRoot hroot, hwalked.remain_ne_zero hmore⟩
  rw [codecWalk_of_tree ht hsign, hfuel]
  exact hrun

/-- Settles O50: the rounds of the complete Symbols, and one that meets the end. -/
theorem walkTruncatedPayload : Obligations.WalkTruncatedPayload := by
  intro s t xs p hopen hinv hobl ht hnodes hreach hmore hsign hahead hshort calls
  obtain ⟨fuel, u, hrun, hwalked, hrest, hroot, hremain⟩ :=
    codecWalk_of_rounds hopen hinv ht hnodes hreach hmore hsign hahead (hobl.grants _)
  have hu : u.env = s.env.after calls := hwalked.env
  obtain ⟨k, v, hlast, htaken, hnone, hcursor⟩ := hroot.meets_end (hu ▸ hobl.after _) hremain hrest hshort fuel
  have hsrc : u.env.src = s.env.src.drop (sourceBytes calls).length := by
    rw [hu, Env.after_src _ _ (srcRewind_not_mem_walkCalls _ _ _)]
  have hcalls : u.ended.env =
      s.env.after (calls ++ reads (s.env.src.drop (sourceBytes calls).length) ++ [.srcNext .eof]) := by
    rw [State.ended, State.withEnv_env, hsrc, hu, ← Env.after_append, List.append_assoc]
  have henv : v.ended.env = u.ended.env := (congrArg State.env htaken.ended).trans rfl
  have hleads : v.cursor = follow s.nodes s.root p := by
    rw [hcursor, hwalked.nodes, hwalked.root]
    rfl
  refine ⟨v.ended, complete_of_raised (noResult_error (hrun.trans hlast)), ?_, ?_, ?_⟩
  · rw [← hcalls, ← hleads]
    refine htaken.ended.trans ?_
    refine (congrArg (fun w : State => { w with env := u.ended.env }) htaken.state).trans ?_
    exact congrArg (fun w : State => { w with
      cursor := v.cursor, rbuf := v.rbuf, rcnt := v.rcnt, env := u.ended.env }) hwalked.state
  · exact State.bitsAhead_ended hnone
  · rw [henv, hcalls, Env.after_log, sinkBytes_append, sinkBytes_append, sinkBytes_append, sinkBytes_reads,
      sinkBytes_walkCalls]
    simp [sinkBytes]

end Sys2Proof.Machine
end

section
/-! PROOFS. How an operation ends when the host answers its calls (spec/60_exceptions.md R241). -/

namespace Sys2Proof.Machine

variable {s t u : State} {i : Instr} {k : ErrKind}

/-! ## The phase at a raise -/

/-- A raise in one of several phases finds `PHASE` at that phase: at the first, or at the successor of one that is not
the last. -/
theorem raises_in_phases (ok : Phase → Prop) {phases : List (Op Unit × Phase)}
    (hwork : ∀ e ∈ phases, ∃ p : Phase, p.work = some e) (hok : ∀ e ∈ phases.dropLast, ok e.2) :
    Triple (fun s => ok s.phase) (runPhases phases) (fun _ _ => True) (fun _ s => ok s.phase) := by
  induction phases with
  | nil => exact triple_pure fun _ _ => trivial
  | cons e rest ih =>
    obtain ⟨p, hp⟩ := hwork e (List.mem_cons_self ..)
    have hunit := Phase.work_unitOp hp (phaseContract ok) (phaseContract_keptByUnits ok)
    cases rest with
    | nil =>
      exact triple_bind (triple_bind hunit fun _ => triple_modify (Q := fun _ _ => True) fun _ _ => trivial) fun _ =>
        triple_pure fun _ _ => trivial
    | cons e' rest =>
      have hnext : ok e.2 := hok e (List.mem_cons_self ..)
      exact triple_bind (triple_bind hunit fun _ => triple_modify (Q := fun _ s => ok s.phase) fun _ _ => hnext) fun _ =>
        ih (fun e he => hwork e (List.mem_cons_of_mem _ he)) fun e he => hok e (List.mem_cons_of_mem _ he)

theorem encodeInvocation_raises_encoding :
    Triple (fun _ => True) encodeInvocation (fun _ _ => True) (fun _ s => s.phase.encoding = true) :=
  encodeInvocation_eq ▸ triple_bind (Q := fun _ s => s.phase.encoding = true) (triple_modify fun _ _ => rfl) fun _ =>
    raises_in_phases (·.encoding = true) encodePhases_work (by simp [encodePhases, Phase.encoding])

theorem decodeInvocation_raises_decoding :
    Triple (fun _ => True) decodeInvocation (fun _ _ => True) (fun _ s => s.phase.decoding = true) :=
  decodeInvocation_eq ▸ triple_bind (Q := fun _ s => s.phase.decoding = true) (triple_modify fun _ _ => rfl) fun _ =>
    raises_in_phases (·.decoding = true) decodePhases_work (by simp [decodePhases, Phase.decoding])

theorem Triple.noResult {P : State → Prop} {E : ErrKind → State → Prop} {op : Op Unit}
    (h : Triple P op (fun _ _ => True) E) : Triple P (noResult op) (fun _ _ => True) E :=
  triple_bind h fun _ => triple_pure fun _ _ => trivial

/-- A raise finds `PHASE` as it was, or inside the invocation that the operation has started. -/
theorem operation_raised_phase (h : operation i s = .error (.raised k) t) :
    t.phase = s.phase ∨ i = .encode ∧ t.phase.encoding = true ∨ i = .decode ∧ t.phase.decoding = true := by
  cases hi : startsInvocation i with
  | false =>
    exact .inl ((operation_unitOp hi _ (phaseContract_keptByUnits (· = s.phase)) s rfl).2 k t h)
  | true =>
    obtain rfl | rfl := startsInvocation_iff.mp hi
    · exact .inr (.inl ⟨rfl, (encodeInvocation_raises_encoding.noResult s trivial).2 k t h⟩)
    · exact .inr (.inr ⟨rfl, (decodeInvocation_raises_decoding.noResult s trivial).2 k t h⟩)

/-! ## Every operation -/

/-- What a raise finds: IOError at a call that failed, the last, and every other kind behind calls that succeeded. -/
def RaisedAt (s : State) (k : ErrKind) (t : State) : Prop :=
  ∃ calls, t.env = s.env.after calls ∧ s.env.gives calls ∧
    ((k = .ioError ∧ ∃ before last, calls = before ++ [last] ∧ last.failed = true ∧ ∀ e ∈ before, e.failed = false) ∨
      (k ≠ .ioError ∧ ∀ e ∈ calls, e.failed = false))

theorem Halts.raisedAt (h : Halts s (.raised k) t) : RaisedAt s k t := by
  obtain ⟨u, ⟨before, hbefore, hok⟩, ⟨hk, last, hfailed, hlast⟩ | ⟨hk, hnone⟩⟩ := h
  · have hcalls := hbefore.trans hlast
    exact ⟨before ++ [last], hcalls.env, hcalls.gives, .inl ⟨hk, before, last, rfl, hfailed, hok⟩⟩
  · exact ⟨before, hnone.env.trans hbefore.env, hbefore.gives, .inr ⟨hk, hok⟩⟩

/-- A host that answers cuts no operation off: only a fault of the model's own is left. -/
theorem Halts.cut_of_answering {c : Cut} (h : Halts s (.cut c) t) (hans : s.env.answering) :
    ∃ f, f ≠ .unanswered ∧ c = .stop f := by
  obtain ⟨u, ⟨calls, hcalls, -⟩, hend⟩ := h
  have hout {a : PortAnswer} {rest : List PortAnswer} (ha : u.env.answers = a :: rest) : a = .ok ∨ a = .fail :=
    hans a (hcalls.answers (ha ▸ List.mem_cons_self ..))
  cases c with
  | stop f =>
    refine ⟨f, fun hf => ?_, rfl⟩
    obtain ⟨rest, hrest⟩ := hend hf
    exact nomatch hout hrest
  | resetApplied =>
    obtain ⟨rest, hrest, -⟩ := hend
    exact nomatch hout hrest

/-- The first clause of O16. -/
theorem exec_of_answering (i : Instr) (hans : s.env.answering) :
    (∃ u calls, exec i s = .next u ∧ u.env = s.env.after calls ∧ s.env.gives calls ∧ ∀ e ∈ calls, e.failed = false) ∨
    (∃ k t, exec i s = enterFailure k t ∧ RaisedAt s k t ∧
      (t.phase = s.phase ∨ i = .encode ∧ t.phase.encoding = true ∨ i = .decode ∧ t.phase.decoding = true)) ∨
    (∃ f, f ≠ .unanswered ∧ exec i s = .fault f) := by
  rw [exec_eq]
  split
  · exact .inl ⟨s, [], rfl, rfl, s.env.gives_nil, fun _ he => (List.not_mem_nil he).elim⟩
  · obtain ⟨hok, herr⟩ := traced_operation i s
    cases hrun : operation i s with
    | ok r t =>
      obtain ⟨calls, hcalls, hgood⟩ := hok r t hrun
      exact .inl ⟨_, calls, complete_of_ok hrun, hcalls.env, hcalls.gives, hgood⟩
    | error e t =>
      cases e with
      | raised k => exact .inr (.inl ⟨k, t, complete_of_raised hrun, (herr _ t hrun).raisedAt, operation_raised_phase hrun⟩)
      | cut c =>
        obtain ⟨f, hf, rfl⟩ := (herr _ t hrun).cut_of_answering hans
        exact .inr (.inr ⟨f, hf, complete_of_cut hrun⟩)

end Sys2Proof.Machine
end

section
/-! PROOFS. The state at a port call that fails: everything before the call has been done, and nothing after it
(spec/60_exceptions.md R241, R253). -/

namespace Sys2Proof.Machine

variable {s : State} {k : Nat}

/-! ## The sink -/

theorem putBytes_of_failed {bytes : List Byte} {b : Byte} (hb : bytes[k]? = some b) (h : s.env.failsAt k) :
    putBytes bytes s =
      .error (.raised .ioError) (s.withEnv (s.env.after (puts (bytes.take k) ++ [.snkPut b false]))) := by
  induction bytes generalizing s k with
  | nil => exact nomatch hb
  | cons c bytes ih =>
    cases k with
    | zero =>
      obtain rfl : c = b := Option.some.inj hb
      exact bind_of_error (put_of_failed h c)
    | succ k =>
      have hput := put_of_granted (h.grants.mono (Nat.le_add_left 1 k)) c
      rw [Nat.add_comm] at h
      exact (bind_of_ok hput).trans (ih (s := s.withEnv (s.env.after [.snkPut c true])) hb
        (Env.failsAt.after (calls := [.snkPut c true]) h))

theorem snkByteLevel_of_open (hopen : s.sclosed = false) (hcnt : s.wcnt = 0) : snkByteLevel s = .ok () s := by
  simp [snkByteLevel, hopen, hcnt]

theorem snkWint_of_failed (hopen : s.sclosed = false) (hcnt : s.wcnt = 0) {v : Word} {b : Byte}
    (hb : (bigEndianBytes v)[k]? = some b) (h : s.env.failsAt k) :
    snkWint v s =
      .error (.raised .ioError) (s.withEnv (s.env.after (puts ((bigEndianBytes v).take k) ++ [.snkPut b false]))) :=
  (bind_of_ok (snkByteLevel_of_open hopen hcnt)).trans (putBytes_of_failed hb h)

theorem snkWstr_of_failed (hopen : s.sclosed = false) (hcnt : s.wcnt = 0) {b : Byte}
    (hb : (0x00#8 :: s.serlen :: s.ser)[k]? = some b) (h : s.env.failsAt k) :
    snkWstr s = .error (.raised .ioError)
      (s.withEnv (s.env.after (puts ((0x00#8 :: s.serlen :: s.ser).take k) ++ [.snkPut b false]))) :=
  (bind_of_ok (snkByteLevel_of_open hopen hcnt)).trans <| (bind_of_ok (run_get s)).trans (putBytes_of_failed hb h)

/-- The bit that completes a byte stays in the buffer with the others when the put fails. -/
theorem writeBits_cons_of_failed (hcnt : s.wcnt = 7) (h : s.env.failsAt 0) (b : Bool) (bits : Bits) :
    writeBits (b :: bits) s = .error (.raised .ioError) { s with
      wbuf := shiftInBit s.wbuf b, wcnt := 8, env := s.env.after [.snkPut (shiftInBit s.wbuf b) false] } := by
  have hfull : s.wcnt + 1 = 8 := by rw [hcnt]; rfl
  have hput := put_of_failed (s := { s with wbuf := shiftInBit s.wbuf b, wcnt := 8 }) h (shiftInBit s.wbuf b)
  rw [writeBits]
  refine (bind_of_ok (run_modify ..)).trans <| (bind_of_ok (run_get _)).trans ?_
  rw [hfull]
  exact (run_if_pos rfl).trans (bind_of_error hput)

theorem fullBytes_length (bits : Bits) : (fullBytes bits).length = bits.length / 8 := by
  induction bits using bits_induction with
  | short bits h => rw [fullBytes_of_short h, Nat.div_eq_of_lt h, List.length_nil]
  | group group bits h ih =>
    rw [fullBytes_append_of_length_eq h, List.length_cons, ih, List.length_append]
    omega

/-- Byte `k` of a bit sequence is completed by one of its bits. -/
theorem exists_completing_bit {pending bits : Bits} (hpending : pending.length ≤ 7)
    (hk : k < (fullBytes (pending ++ bits)).length) :
    ∃ xs c ys, bits = xs ++ c :: ys ∧ (pending ++ xs).length = 8 * k + 7 := by
  rw [fullBytes_length, List.length_append] at hk
  have hlen : 8 * k + 7 - pending.length < bits.length := by omega
  refine ⟨bits.take (8 * k + 7 - pending.length), bits[8 * k + 7 - pending.length],
    bits.drop (8 * k + 7 - pending.length + 1), ?_, ?_⟩
  · rw [← List.drop_eq_getElem_cons hlen, List.take_append_drop]
  · rw [List.length_append, List.length_take_of_le hlen.le]
    omega

theorem fullBytes_append_completing {bits : Bits} (hlen : bits.length = 8 * k + 7) (c : Bool) (ys : Bits) :
    fullBytes (bits ++ c :: ys) = fullBytes bits ++ byteOfBits (leftoverBits bits ++ [c]) :: fullBytes ys := by
  have height : (leftoverBits bits ++ [c]).length = 8 := by
    rw [List.length_append, leftoverBits_length, hlen, Nat.mul_add_mod]
    rfl
  rw [fullBytes_append, List.append_cons, fullBytes_append_of_length_eq height]

/-- The loop of SNK.WBITS as far as its puts are granted. -/
theorem writeBits_of_granted (bits : Bits) (hcnt : s.wcnt.toNat ≤ 7)
    (hg : s.env.grants (fullBytes (s.pendingBits ++ bits)).length) :
    ∃ buf cnt, writeBits bits s = .ok () { s with
        wbuf := buf, wcnt := cnt, env := s.env.after (puts (fullBytes (s.pendingBits ++ bits))) } ∧
      State.pendingBits { s with wbuf := buf, wcnt := cnt } = leftoverBits (s.pendingBits ++ bits) := by
  obtain ⟨buf, cnt, hrun, hleft⟩ := writeBits_packs (s := s.obliged) bits hcnt s.obliged_obliging
  have hputs : (puts (fullBytes (s.pendingBits ++ bits))).length = _ := List.length_map ..
  exact ⟨buf, cnt, (repeats_writeBits bits).of_granted hrun rfl (hputs ▸ hg), hleft⟩

/-- The bits of the byte that is not put stay in the buffer (spec/60_exceptions.md R253). -/
theorem snkWbits_of_failed (hopen : s.sclosed = false) (hinv : s.SinkInv) {bits : Bits} {b : Byte}
    (hb : (fullBytes (s.pendingBits ++ bits))[k]? = some b) (h : s.env.failsAt k) :
    snkWbits bits s = .error (.raised .ioError) { s with
      wbuf := b, wcnt := 8
      env := s.env.after (puts ((fullBytes (s.pendingBits ++ bits)).take k) ++ [.snkPut b false]) } := by
  obtain ⟨xs, c, ys, rfl, hxs⟩ := exists_completing_bit (State.pendingBits_length s ▸ hinv.1)
    (List.getElem?_eq_some_iff.mp hb).1
  have hcount : (fullBytes (s.pendingBits ++ xs)).length = k := by
    rw [fullBytes_length, hxs]
    omega
  have hputs : (puts (fullBytes (s.pendingBits ++ xs))).length = k := (List.length_map ..).trans hcount
  obtain ⟨buf, cnt, hrun, hleft⟩ := writeBits_of_granted xs hinv.1 (hcount ▸ h.grants)
  have hcnt : cnt = 7 := by
    have hlen : cnt.toNat = (s.pendingBits ++ xs).length % 8 :=
      (State.pendingBits_length _).symm.trans ((congrArg List.length hleft).trans (leftoverBits_length _))
    exact BitVec.eq_of_toNat_eq (hlen.trans (by rw [hxs, Nat.mul_add_mod]; rfl))
  have hbyte : byteOfBits (leftoverBits (s.pendingBits ++ xs) ++ [c]) = shiftInBit buf c := by
    rw [← hleft]
    exact byteOfBits_pendingBits_append (s := { s with wbuf := buf, wcnt := cnt }) hcnt c
  rw [← List.append_assoc, fullBytes_append_completing hxs, hbyte] at hb ⊢
  rw [List.getElem?_append_right hcount.le, hcount, Nat.sub_self] at hb
  obtain rfl : shiftInBit buf c = b := Option.some.inj hb
  rw [snkWbits_of_open hopen, writeBits_append, bind_of_ok hrun, List.take_left' hcount, Env.after_append]
  exact writeBits_cons_of_failed (s := { s with
    wbuf := buf, wcnt := cnt, env := s.env.after (puts (fullBytes (s.pendingBits ++ xs))) }) hcnt
    (Env.failsAt.now (hputs ▸ h)) c ys

/-- The only byte that SNK.CLOSE puts. -/
theorem State.paddedBytes_pendingBits (hsink : s.SinkInv ∨ s.wcnt = 8) (hcnt : s.wcnt ≠ 0) :
    paddedBytes s.pendingBits = [paddedByte s.wbuf s.wcnt] := by
  have hle : s.wcnt.toNat ≤ 8 := by
    rcases hsink with hinv | hfull
    · exact hinv.1.trans (by decide)
    · exact (congrArg BitVec.toNat hfull).le
  rw [paddedBytes_eq_singleton (mt State.pendingBits_eq_nil_iff.mp hcnt) (State.pendingBits_length s ▸ hle),
    byteOfBits_pendingBits hle]

theorem snkClose_of_failed_put (hopen : s.sclosed = false) (hcnt : s.wcnt ≠ 0) (h : s.env.failsAt 0) :
    snkClose s = .error (.raised .ioError)
      (s.withEnv (s.env.after [.snkPut (paddedByte s.wbuf s.wcnt) false])) := by
  have hguard : ¬s.sclosed = true := by simp [hopen]
  exact (bind_of_ok (run_get s)).trans <| (run_if_neg hguard).trans <| (run_if_pos (bne_iff_ne.mpr hcnt)).trans <|
    bind_of_error (put_of_failed h _)

theorem closeSink_of_failed (h : s.env.failsAt 0) :
    orIOError snkClosePort s = .error (.raised .ioError) (s.withEnv (s.env.after [.snkClose false])) :=
  orIOError_of_failed snkClosePort_spec (fun _ _ => rfl) h

theorem snkClose_of_failed_close (hopen : s.sclosed = false) (hcnt : s.wcnt = 0) (h : s.env.failsAt 0) :
    snkClose s = .error (.raised .ioError) (s.withEnv (s.env.after [.snkClose false])) := by
  have hguard : ¬s.sclosed = true := by simp [hopen]
  exact (bind_of_ok (run_get s)).trans <| (run_if_neg hguard).trans <| (run_if_neg (by simp [hcnt])).trans <|
    bind_of_error (closeSink_of_failed h)

/-- The pending bits have been put, and the buffer is empty, when the close fails. -/
theorem snkClose_of_failed_close_behind_put (hopen : s.sclosed = false) (hcnt : s.wcnt ≠ 0) (h : s.env.failsAt 1) :
    snkClose s = .error (.raised .ioError) { s with
      wbuf := 0, wcnt := 0
      env := s.env.after [.snkPut (paddedByte s.wbuf s.wcnt) true, .snkClose false] } := by
  have hguard : ¬s.sclosed = true := by simp [hopen]
  have hclose := closeSink_of_failed (s := { s with
    wbuf := 0, wcnt := 0, env := s.env.after [.snkPut (paddedByte s.wbuf s.wcnt) true] })
    (Env.failsAt.now (calls := [.snkPut (paddedByte s.wbuf s.wcnt) true]) h)
  exact (bind_of_ok (run_get s)).trans <| (run_if_neg hguard).trans <| (run_if_pos (bne_iff_ne.mpr hcnt)).trans <|
    (bind_of_ok (put_of_granted h.grants _)).trans <| (bind_of_ok (run_modify ..)).trans (bind_of_error hclose)

/-! ## The source -/

theorem releaseSource_of_failed (h : s.env.failsAt 0) :
    orIOError srcRelease s = .error (.raised .ioError) (s.withEnv (s.env.after [.srcRelease false])) :=
  orIOError_of_failed srcRelease_spec (fun _ _ => rfl) h

theorem srcClose_of_failed (hopen : s.rclosed = false) (h : s.env.failsAt 0) :
    srcClose s = .error (.raised .ioError) (s.withEnv (s.env.after [.srcRelease false])) := by
  have hguard : ¬s.rclosed = true := by simp [hopen]
  exact (bind_of_ok (run_get s)).trans <| (run_if_neg hguard).trans (bind_of_error (releaseSource_of_failed h))

theorem readUnits_add (m n : Nat) (s : State) :
    readUnits (m + n) s = (readUnits m >>= fun _ => readUnits n) s := by
  induction m generalizing s with
  | zero => rw [Nat.zero_add]; rfl
  | succ m ih =>
    rw [Nat.add_right_comm, readUnits, readUnits, run_bind, run_bind, run_bind]
    cases nextByte s with
    | error e t => rfl
    | ok u t =>
      simp only [run_ite, run_bind, run_modify, ih]
      split
      · simp
      · rfl

/-- The units before the first read that is not granted are taken in. -/
theorem readUnits_of_granted (units : List Byte) {tail : List Byte} (hsrc : s.env.src = units ++ tail)
    (hunits : ∀ u ∈ units, u.toNat ≤ 128) (hg : s.env.grants units.length) :
    readUnits units.length s = .ok () { s with ser := s.ser ++ units, env := s.env.after (reads units) } := by
  have hreads : (reads units).length = units.length := List.length_map ..
  exact (repeats_readUnits units.length).of_granted
    (readUnits_of_units units s.obliged_obliging hsrc hunits 0) rfl (hreads ▸ hg)

section
variable (hsrc : k ≤ s.env.src.length) (h : s.env.failsAt k)
include hsrc h

/-- A byte before the call that fails. -/
theorem nextByte_bind_of_before {α : Type} {n : Nat} (hn : n < k) (f : Byte → Op α) :
    (nextByte >>= f) (s.withEnv (s.env.after (reads (s.env.src.take n)))) =
      f (s.env.src[n]'(hn.trans_le hsrc)) (s.withEnv (s.env.after (reads (s.env.src.take (n + 1))))) := by
  have hlt : n < s.env.src.length := hn.trans_le hsrc
  have hbehind : s.env.src = s.env.src.take n ++ s.env.src[n] :: s.env.src.drop (n + 1) := by
    rw [← List.drop_eq_getElem_cons hlt, List.take_append_drop]
  have hgranted : s.env.grants ((s.env.src.take n).length + 1) := by
    rw [List.length_take_of_le hlt.le]
    exact h.grants.mono hn
  rw [List.take_succ_eq_append_getElem hlt]
  exact nextByte_bind_of_granted hgranted hbehind f

/-- The call that fails. -/
theorem nextByte_bind_at_failed {α : Type} (f : Byte → Op α) :
    (nextByte >>= f) (s.withEnv (s.env.after (reads (s.env.src.take k)))) =
      .error (.raised .ioError) (s.withEnv (s.env.after (reads (s.env.src.take k) ++ [.srcNext .fail]))) :=
  nextByte_bind_of_failed (by rw [List.length_take_of_le hsrc]; exact h) f

end

section
variable (hopen : s.rclosed = false) (hcnt : s.rcnt = 0)
include hopen hcnt

theorem srcRbit_of_failed (h : s.env.failsAt 0) :
    srcRbit s = .error (.raised .ioError) (s.withEnv (s.env.after [.srcNext .fail])) := by
  have hguard : ¬s.rclosed = true := by simp [hopen]
  exact (bind_of_ok (run_get s)).trans <| (run_if_neg hguard).trans <| (run_if_pos hcnt).trans <|
    nextByte_bind_of_failed (read := []) h _

theorem srcRint_of_failed (hk : k < 4) (hsrc : k ≤ s.env.src.length) (h : s.env.failsAt k) :
    srcRint s = .error (.raised .ioError)
      (s.withEnv (s.env.after (reads (s.env.src.take k) ++ [.srcNext .fail]))) := by
  rw [srcRint, bind_of_ok (srcByteLevel_of_open hopen hcnt)]
  match k with
  | 0 => exact nextByte_bind_at_failed hsrc h _
  | 1 => exact (nextByte_bind_of_before hsrc h Nat.zero_lt_one _).trans (nextByte_bind_at_failed hsrc h _)
  | 2 =>
    exact (nextByte_bind_of_before hsrc h (n := 0) (by decide) _).trans <|
      (nextByte_bind_of_before hsrc h (n := 1) (by decide) _).trans (nextByte_bind_at_failed hsrc h _)
  | 3 =>
    exact (nextByte_bind_of_before hsrc h (n := 0) (by decide) _).trans <|
      (nextByte_bind_of_before hsrc h (n := 1) (by decide) _).trans <|
      (nextByte_bind_of_before hsrc h (n := 2) (by decide) _).trans (nextByte_bind_at_failed hsrc h _)

theorem srcRstr_of_failed_length (hk : k < 2) (hsrc : k ≤ s.env.src.length) (h : s.env.failsAt k) :
    srcRstr s = .error (.raised .ioError)
      (s.withEnv (s.env.after (reads (s.env.src.take k) ++ [.srcNext .fail]))) := by
  rw [srcRstr, bind_of_ok (srcByteLevel_of_open hopen hcnt)]
  match k with
  | 0 => exact nextByte_bind_at_failed hsrc h _
  | 1 => exact (nextByte_bind_of_before hsrc h Nat.zero_lt_one _).trans (nextByte_bind_at_failed hsrc h _)

/-- The units before the call that fails have been taken in. -/
theorem srcRstr_of_failed_unit {hi lo : Byte} {units tail : List Byte} (hsrc : s.env.src = hi :: lo :: units ++ tail)
    (hmore : units.length < prefixLength hi lo) (hshort : prefixLength hi lo ≤ 255)
    (hunits : ∀ u ∈ units, u.toNat ≤ 128) (h : s.env.failsAt (2 + units.length)) :
    srcRstr s = .error (.raised .ioError) { s with
      ser := units, env := s.env.after (reads (hi :: lo :: units) ++ [.srcNext .fail]) } := by
  obtain ⟨n, hlen⟩ := Nat.exists_eq_add_of_lt hmore
  have hread : (reads [hi, lo]).length = 2 := rfl
  have hloop := readUnits_of_granted units (s := { s with ser := [], env := s.env.after (reads [hi, lo]) })
    (src_after_reads (bytes := [hi, lo]) hsrc) hunits (Env.failsAt.after (hread ▸ h)).grants
  have hlast (f : Byte → Op Unit) := nextByte_bind_of_failed (s := { s with ser := units }) (read := hi :: lo :: units)
    (by rw [List.length_cons, List.length_cons, Nat.add_assoc, Nat.add_comm]; exact h) f
  rw [srcRstr]
  refine (bind_of_ok (srcByteLevel_of_open hopen hcnt)).trans <|
    (nextByte_bind_of_granted (read := []) (h.grants.mono (Nat.le_add_right_of_le (Nat.le_succ 1))) hsrc _).trans <|
    (nextByte_bind_of_granted (read := [hi]) (h.grants.mono (Nat.le_add_right 2 _)) hsrc _).trans <|
    (run_if_neg hshort.not_gt).trans <| (bind_of_ok (run_modify ..)).trans ?_
  rw [hlen, Nat.add_assoc, readUnits_add]
  exact (bind_of_ok hloop).trans (hlast _)

end

end Sys2Proof.Machine
end

section
/-! PROOFS. A failed port call in the operations of the Codec, in the closing phases, and in every operation
(spec/60_exceptions.md R241, spec/44_codec.md R210 to R219). -/

namespace Sys2Proof.Machine

variable {s t : State} {rest : List PortAnswer} {k : Nat}

/-! ## CODEC.FCOUNT -/

theorem countLoop_of_granted {b : Byte} {tail : List Byte} (hsrc : s.env.src = b :: tail) (hg : s.env.grants 1)
    (hb : b.toNat ≤ 127) (hroom : s.total ≠ Config.countMax) (fuel : Nat) :
    countLoop (fuel + 1) s = countLoop fuel (s.countByte b) := by
  rw [countLoop]
  exact (bind_of_ok (lift_of_ok (srcNext_of_granted_byte hg hsrc))).trans <|
    (run_if_neg (not_lt_of_le_127 hb)).trans <| (bind_of_ok (run_get _)).trans <| (run_if_neg hroom).trans <|
    (bind_of_ok (run_modify ..)).trans <| bind_of_ok (run_modify ..)

theorem countLoop_of_failed (h : s.env.failsAt 0) (fuel : Nat) :
    countLoop (fuel + 1) s = .error (.raised .ioError) (s.withEnv (s.env.after [.srcNext .fail])) := by
  rw [countLoop]
  exact bind_of_ok (lift_of_ok (srcNext_of_failed h))

/-- The bytes before the call that fails have been counted. -/
theorem countLoop_of_failed_behind {good tail : List Byte} (hsrc : s.env.src = good ++ tail)
    (hgood : ∀ x ∈ good, x.toNat ≤ 127) (hroom : s.total.toNat + good.length ≤ 2147483647)
    (h : s.env.failsAt good.length) (fuel : Nat) :
    ∃ freq, countLoop (good.length + (fuel + 1)) s = .error (.raised .ioError) { s with
        freq := freq, total := s.total + BitVec.ofNat 32 good.length
        env := s.env.after (reads good ++ [.srcNext .fail]) } ∧
      ∀ sym, State.freqAt { s with freq := freq } sym = s.freqAt sym + BitVec.ofNat 32 (good.count sym.byte) := by
  induction good generalizing s with
  | nil =>
    refine ⟨s.freq, ?_, fun sym => by simp⟩
    rw [List.length_nil, Nat.zero_add, countLoop_of_failed h]
    simp [reads, State.withEnv]
  | cons b good ih =>
    obtain ⟨hb, hgood⟩ := List.forall_mem_cons.mp hgood
    rw [List.length_cons] at hroom h
    have hmax : s.total ≠ Config.countMax := by
      intro h
      have hval : s.total.toNat = 2147483647 := congrArg BitVec.toNat h
      omega
    have htotal : (s.total + 1).toNat = s.total.toNat + 1 := by bv_omega
    have hsum : s.total + BitVec.ofNat 32 (b :: good).length = s.total + 1 + BitVec.ofNat 32 good.length := by
      rw [List.length_cons]
      bv_omega
    have hg := h.grants.mono (Nat.le_add_left 1 good.length)
    rw [Nat.add_comm] at h
    obtain ⟨freq, hrun, hfreq⟩ := ih (s := s.countByte b) (src_after_srcNext hsrc) hgood
      (show (s.total + 1).toNat + _ ≤ _ by omega) (Env.failsAt.after (calls := [.srcNext (.byte b)]) h)
    refine ⟨freq, ?_, fun sym => (hfreq sym).trans (freqAt_countByte_add hb sym good)⟩
    rw [hsum, List.length_cons, Nat.add_right_comm, countLoop_of_granted hsrc hg hb hmax]
    exact hrun

theorem codecFcount_of_failed (h : s.env.failsAt 0) :
    codecFcount s = .error (.raised .ioError) (s.withEnv (s.env.after [.srcNext .fail])) :=
  (bind_of_ok (run_get s)).trans (countLoop_of_failed h _)

theorem codecFcount_of_failed_behind {good tail : List Byte} (hsrc : s.env.src = good ++ tail)
    (hgood : ∀ x ∈ good, x.toNat ≤ 127) (hroom : s.total.toNat + good.length ≤ 2147483647)
    (h : s.env.failsAt good.length) :
    ∃ freq, codecFcount s = .error (.raised .ioError) { s with
        freq := freq, total := s.total + BitVec.ofNat 32 good.length
        env := s.env.after (reads good ++ [.srcNext .fail]) } ∧
      ∀ sym, State.freqAt { s with freq := freq } sym = s.freqAt sym + BitVec.ofNat 32 (good.count sym.byte) := by
  obtain ⟨freq, hrun, hfreq⟩ := countLoop_of_failed_behind hsrc hgood hroom h tail.length
  have hlen : s.env.src.length + 1 = good.length + (tail.length + 1) := by rw [hsrc, List.length_append, Nat.add_assoc]
  refine ⟨freq, (bind_of_ok (run_get s)).trans ?_, hfreq⟩
  rw [hlen, hrun]

/-! ## CODEC.WPAYLOAD -/

theorem codecWpayload_of_failed (h : s.env.failsAt 0) :
    codecWpayload s = .error (.raised .ioError) (s.withEnv (s.env.after [.srcRewind false])) :=
  bind_of_error (orIOError_of_failed srcRewind_spec (fun _ _ => rfl) h)

/-! ## CODEC.WALK -/

theorem emitSymbol_of_failed {sym : Symbol} (hleaf : s.nodes[s.cursor.toNat]? = some (.leaf sym))
    (h : s.env.failsAt 0) (fuel : Nat) :
    emitSymbol fuel s = .error (.raised .ioError) (s.withEnv (s.env.after [.snkPut sym.byte false])) :=
  (bind_of_ok (run_get s)).trans <| (bind_of_ok (nodeAt_of_some hleaf)).trans (bind_of_error (put_of_failed h _))

theorem walkCalls_append (n : Nat) (src : List Byte) (xs ys : List (Symbol × Bits)) :
    ∃ n' src', walkCalls n src (xs ++ ys) = walkCalls n src xs ++ walkCalls n' src' ys := by
  induction xs generalizing n src with
  | nil => exact ⟨n, src, rfl⟩
  | cons x xs ih =>
    obtain ⟨n', src', hcalls⟩ := ih (n + 8 * ((x.2.length - n + 7) / 8) - x.2.length)
      (src.drop ((x.2.length - n + 7) / 8))
    refine ⟨n', src', ?_⟩
    rw [List.cons_append, walkCalls, walkCalls, hcalls, List.append_assoc, List.cons_append]

/-- The put of a Symbol fails behind the reads that lead to its leaf. -/
theorem State.AtRoot.put_fails {t : Tree} {sym : Symbol} {p tail : Bits} (hroot : s.AtRoot t) (hremain : s.remain ≠ 0)
    (hreach : t.reaches p sym) (hahead : s.bitsAhead = p ++ tail)
    (h : s.env.failsAt ((p.length - s.rcnt.toNat + 7) / 8)) (fuel : Nat) :
    ∃ u, walkLoop (fuel + 1) s = .error (.raised .ioError) (u.withEnv (u.env.after [.snkPut sym.byte false])) ∧
      Taken ((p.length - s.rcnt.toNat + 7) / 8) p s u ∧ u.cursor = follow s.nodes s.root p := by
  obtain ⟨rootNode, u, hn, hleads, htaken, hleaf, hcursor⟩ := hroot.reachesLeaf hreach hahead h.grants
  have hreads : (reads (s.env.src.take ((p.length - s.rcnt.toNat + 7) / 8))).length = _ :=
    (List.length_map ..).trans (List.length_take_of_le htaken.room)
  have hnow : u.env.failsAt 0 := by
    rw [htaken.env]
    exact Env.failsAt.now (hreads.symm ▸ h)
  exact ⟨u, (walkLoop_of_reached hremain hn hleads fuel).trans (emitSymbol_of_failed hleaf hnow fuel), htaken, hcursor⟩

/-- The Symbols before the put that fails have been emitted, and the cursor stands at the leaf of the next. -/
theorem codecWalk_of_failed {t : Tree} {xs : List (Symbol × Bits)} {sym : Symbol} {p tail : Bits}
    (hopen : s.rclosed = false) (hinv : s.SourceInv) (ht : s.holdsTree t) (hnodes : s.nodes.length ≤ 255)
    (hreach : ∀ y ∈ xs ++ [(sym, p)], t.reaches y.2 y.1) (hmore : xs.length < s.total.toNat)
    (hsign : s.total.msb = false) (hahead : s.bitsAhead = (xs ++ [(sym, p)]).flatMap (·.2) ++ tail)
    (hk : k + 1 = (walkCalls s.rcnt.toNat s.env.src (xs ++ [(sym, p)])).length) (h : s.env.failsAt k) :
    ∃ u : State, codecWalk s = .error (.raised .ioError) (u.withEnv (s.env.after
        ((walkCalls s.rcnt.toNat s.env.src (xs ++ [(sym, p)])).take k ++ [.snkPut sym.byte false]))) ∧
      u = { s with
        remain := s.total - BitVec.ofNat 32 xs.length, cursor := follow s.nodes s.root p
        rbuf := u.rbuf, rcnt := u.rcnt } := by
  obtain ⟨hreach, hlast⟩ := List.forall_mem_append.mp hreach
  rw [List.flatMap_append, List.append_assoc, List.flatMap_singleton] at hahead
  have hfew : (walkCalls s.rcnt.toNat s.env.src xs).length ≤ k := by
    obtain ⟨n, src, hcalls⟩ := walkCalls_append s.rcnt.toNat s.env.src xs [(sym, p)]
    rw [hcalls, List.length_append, walkCalls, List.length_append, List.length_cons] at hk
    omega
  obtain ⟨fuel, u, hrun, hwalked, hrest, hroot, hremain⟩ :=
    codecWalk_of_rounds hopen hinv ht hnodes hreach hmore hsign hahead (h.grants.mono hfew)
  have hu : u.env = s.env.after (walkCalls s.rcnt.toNat s.env.src xs) := hwalked.env
  have hcalls : walkCalls s.rcnt.toNat s.env.src (xs ++ [(sym, p)]) = walkCalls s.rcnt.toNat s.env.src xs ++
      reads (u.env.src.take ((p.length - u.rcnt.toNat + 7) / 8)) ++ [.snkPut sym.byte true] :=
    (hwalked.calls [(sym, p)]).trans (List.append_assoc ..).symm
  have hreads : (reads (u.env.src.take ((p.length - u.rcnt.toNat + 7) / 8))).length = _ :=
    (List.length_map ..).trans (List.length_take_of_le (pulled_le hrest))
  have hlen := hk
  rw [hcalls, List.length_append, List.length_singleton, Nat.add_right_cancel_iff] at hlen
  have hfails : u.env.failsAt ((p.length - u.rcnt.toNat + 7) / 8) := by
    rw [hlen, List.length_append, hreads] at h
    rw [hu]
    exact h.after
  obtain ⟨v, hput, htaken, hcursor⟩ :=
    hroot.put_fails hremain (hlast _ (List.mem_singleton_self _)) hrest hfails fuel
  refine ⟨v.withEnv s.env, ?_, ?_⟩
  · rw [hrun, hput, hcalls, List.take_left' hlen.symm, htaken.env, hu, ← Env.after_append, ← Env.after_append,
      List.append_assoc]
    rfl
  · have hleads : v.cursor = follow s.nodes s.root p := by
      rw [hcursor, hwalked.nodes, hwalked.root]
      rfl
    rw [← hleads]
    exact (congrArg (fun w : State => w.withEnv s.env) htaken.state).trans <| congrArg (fun w : State => { w with
      cursor := v.cursor, rbuf := v.rbuf, rcnt := v.rcnt, env := s.env }) hwalked.state

/-! ## The result port -/

def State.withResult (s : State) (r : Result) : State := { s with result := r }

/-- How a stretch of pseudocode ended, with another state. -/
def mapEnd {ε α : Type} (f : State → State) : EStateM.Result ε State α → EStateM.Result ε State α
  | .ok a t => .ok a (f t)
  | .error e t => .error e (f t)

/-- Port calls that neither look at the result port nor write it. -/
def ResultFree {α : Type} (p : Port α) : Prop := ∀ s r, p (s.withResult r) = mapEnd (·.withResult r) (p s)

section
variable {α β : Type}

theorem resultFree_modify {f : State → State} (hf : ∀ s r, f (s.withResult r) = (f s).withResult r) :
    ResultFree (modify f) :=
  fun s r => congrArg (EStateM.Result.ok ()) (hf s r)

theorem resultFree_bind {x : Port α} {f : α → Port β} (hx : ResultFree x) (hf : ∀ a, ResultFree (f a)) :
    ResultFree (x >>= f) := by
  intro s r
  rw [run_bind, run_bind, hx s r]
  cases x s with
  | ok a t => exact hf a t r
  | error c t => rfl

theorem resultFree_get {f : State → Port α} (hf : ∀ s r, f (State.withResult s r) = f s) (h : ∀ s, ResultFree (f s)) :
    ResultFree (get >>= f) := fun s r => (congrFun (hf s r) _).trans (h s s r)

theorem resultFree_ite {c : Prop} [Decidable c] {x y : Port α} (hx : ResultFree x) (hy : ResultFree y) :
    ResultFree (if c then x else y) := by
  split
  · exact hx
  · exact hy

end

theorem resultFree_answered : ResultFree answered := by
  intro s r
  have hans : (s.withResult r).env.answers = s.env.answers := rfl
  unfold answered
  rw [hans]
  match s.env.answers with
  | [] | .ok :: _ | .fail :: _ | .never :: _ | .reset :: _ => rfl

theorem resultFree_recordedCall (event : Bool → PortEvent) :
    ResultFree (do let ok ← answered; modify fun s => s.record (event ok); pure ok) :=
  resultFree_bind resultFree_answered fun _ => resultFree_bind (resultFree_modify fun _ _ => rfl) fun _ _ _ => rfl

theorem resultFree_failureEntry (k : ErrKind) : ResultFree (failureEntry k) := by
  have hclose : ResultFree snkClosePort := resultFree_recordedCall .snkClose
  have hrelease : ResultFree srcRelease := resultFree_recordedCall .srcRelease
  have hlast : ResultFree (modify fun s => { s with phase := .failed }) := resultFree_modify fun _ _ => rfl
  have hdecoding (s : State) : ResultFree (if s.phase.decoding then do
      if s.rclosed = false then
        let _ ← srcRelease
        modify fun s => { s with rclosed := true }
      let _ ← snkClosePort
      modify fun s => { s with phase := .failed }
    else modify fun s => { s with phase := .failed }) := by
    refine resultFree_ite (resultFree_ite ?_ ?_) hlast
    · exact resultFree_bind hrelease fun _ => resultFree_bind (resultFree_modify fun _ _ => rfl) fun _ =>
        resultFree_bind hclose fun _ => hlast
    · exact resultFree_bind hclose fun _ => hlast
  refine resultFree_bind (resultFree_modify fun _ _ => rfl) fun _ => resultFree_get (fun _ _ => rfl) fun s =>
    resultFree_ite (resultFree_ite ?_ ?_) (hdecoding s)
  · exact resultFree_bind hclose fun _ => resultFree_bind (resultFree_modify fun _ _ => rfl) fun _ =>
      resultFree_bind hrelease fun _ => hdecoding s
  · exact resultFree_bind hrelease fun _ => hdecoding s

/-- A raise leads to the same state whatever the result port carries. -/
theorem enterFailure_withResult (k : ErrKind) (s : State) (r : Result) :
    enterFailure k (s.withResult r) = enterFailure k s := by
  rw [enterFailure, enterFailure, resultFree_failureEntry k s r]
  cases failureEntry k s with
  | ok a t => rfl
  | error c t => cases c <;> rfl

/-! ## The closing phases -/

/-- A closing phase: when its first close has succeeded and the call for the other stream fails, IOError is raised
there. -/
theorem step_of_failed_closing_phase {close w : Op Unit} {call : Port Bool} {event : PortEvent}
    (hcall : ∀ v : State, v.env.failsAt 0 →
      orIOError call v = .error (.raised .ioError) (v.withEnv (v.env.after [event])))
    (hw : w = do close; orIOError call) (hstim : s.stim = []) {p n : Phase} (hp : s.phase = p)
    (hwork : p.work = some (w, n)) (h : complete (noResult close) s = .next t) (ht : t.phase = p)
    (hfails : t.env.failsAt 0) : step s = enterFailure .ioError (t.withEnv (t.env.after [event])) := by
  obtain ⟨hidle, hfailed, -⟩ := Phase.work_busy hwork
  cases hc : close s with
  | ok a v =>
    rw [complete_of_ok (noResult_ok hc)] at h
    cases h
    have hrun : phaseStep w n s = .error (.raised .ioError) (v.withEnv (v.env.after [event])) := by
      rw [hw]
      exact bind_of_error ((bind_of_ok hc).trans (hcall v hfails))
    have htick : step s = tick s := by simp only [step, hstim]
    rw [htick, tick_of_work (hp ▸ hwork), complete_of_raised (noResult_error hrun)]
    exact (enterFailure_withResult ..).symm
  | error e v =>
    cases e with
    | raised k =>
      rw [complete_of_raised (noResult_error hc)] at h
      exact absurd ht (enterFailure_leaves h hidle hfailed)
    | cut c =>
      rw [complete_of_cut (noResult_error hc)] at h
      rw [cutOff_next h] at ht
      exact absurd ht.symm hidle

/-! ## The obligation -/

theorem Env.failsAt_zero {e : Env} (h : e.answers = .fail :: rest) : e.failsAt 0 := ⟨rest, h⟩

/-- A failed call uses up its answer and is recorded. -/
theorem Env.after_failed {e : Env} (h : e.answers = .fail :: rest) {event : PortEvent} (hf : event.failed = true) :
    e.after [event] = { e with answers := rest, log := e.log ++ [event] } := by
  have hsrc : e.srcAfter event = e.src := by
    match event, hf with
    | .srcNext .fail, _ | .srcRewind false, _ | .srcRelease false, _ | .snkPut _ false, _ | .snkClose false, _ => rfl
  rw [Env.after_cons, Env.after_nil, Env.afterCall, hsrc, h, List.tail_cons]

/-- An operation that ends in IOError at its first call. -/
theorem complete_of_failed_first_call {op : Op Result} {event : PortEvent} (h : s.env.answers = .fail :: rest)
    (hf : event.failed = true) (hop : op s = .error (.raised .ioError) (s.withEnv (s.env.after [event]))) :
    complete op s =
      enterFailure .ioError (s.withEnv { s.env with answers := rest, log := s.env.log ++ [event] }) := by
  rw [complete_of_raised hop, Env.after_failed h hf]

/-- Settles O16: every operation is a walk through its port calls that ends at the first failed one, and the rule of
each operation gives the state there. -/
theorem failedCallIsIOError : Obligations.FailedCallIsIOError := by
  refine ⟨fun i s hans => ?_, fun s rest v hans => ?_, fun s k rest hans => ?_, fun s t rest hstim hans => ?_⟩
  · rcases exec_of_answering i hans with hok | ⟨k, t, hexec, ⟨calls, henv, hgives, hlast⟩, hphase⟩ | hfault
    · exact .inl hok
    · exact .inr (.inl ⟨k, t, calls, hexec, henv, hgives, hphase, hlast⟩)
    · exact .inr (.inr hfault)
  · have h := Env.failsAt_zero hans
    have hfirst {op : Op Unit} {event : PortEvent} (hf : event.failed = true)
        (hop : op s = .error (.raised .ioError) (s.withEnv (s.env.after [event]))) :=
      complete_of_failed_first_call hans hf (noResult_error hop)
    refine ⟨?_, ?_, fun hopen => ?_, fun hopen hcnt => ⟨?_, ?_, ?_, ?_⟩, fun hopen hcnt => ⟨?_, ?_, ?_, ?_⟩,
      fun hopen hcnt _ => ?_⟩
    · exact hfirst rfl (codecFcount_of_failed h)
    · exact hfirst rfl (codecWpayload_of_failed h)
    · exact hfirst rfl (srcClose_of_failed hopen h)
    · exact complete_of_failed_first_call hans rfl (withResult_error (srcRbit_of_failed hopen hcnt h) .bit)
    · exact complete_of_failed_first_call hans rfl
        (withResult_error (srcRint_of_failed hopen hcnt (by decide) (Nat.zero_le _) h) .word)
    · exact hfirst rfl (srcRstr_of_failed_length hopen hcnt (by decide) (Nat.zero_le _) h)
    · exact hfirst rfl (bind_of_error (srcRint_of_failed hopen hcnt (by decide) (Nat.zero_le _) h))
    · exact hfirst rfl (snkWint_of_failed hopen hcnt rfl h)
    · exact hfirst rfl (snkWstr_of_failed hopen hcnt rfl h)
    · exact hfirst rfl ((bind_of_ok (run_get s)).trans (bind_of_error (snkWint_of_failed hopen hcnt rfl h)))
    · exact hfirst rfl (snkClose_of_failed_close hopen hcnt h)
    · exact hfirst rfl (snkClose_of_failed_put hopen hcnt h)
  · have h : s.env.failsAt k := ⟨rest, hans⟩
    refine ⟨fun hopen hinv bits b hb => ?_, fun hopen hcnt v b hb => ?_, fun hopen hcnt b hb => ?_,
      fun hopen hsink hcnt hk => ?_, fun hopen hcnt hk hsrc => ?_, fun hopen hcnt hk hsrc => ?_,
      fun hi lo units tail hopen hcnt hsrc hk hmore hshort hunits => ?_, fun good tail hsrc hk hgood hroom => ?_,
      fun t xs x tail hopen hinv ht hnodes hreach hmore hsign hahead hk => ?_⟩
    · exact complete_of_raised (noResult_error (snkWbits_of_failed hopen hinv hb h))
    · exact complete_of_raised (noResult_error (snkWint_of_failed hopen hcnt hb h))
    · exact complete_of_raised (noResult_error (snkWstr_of_failed hopen hcnt hb h))
    · rw [State.paddedBytes_pendingBits hsink hcnt]
      exact complete_of_raised (noResult_error (snkClose_of_failed_close_behind_put hopen hcnt (hk ▸ h)))
    · exact complete_of_raised (withResult_error (srcRint_of_failed hopen hcnt hk hsrc h) .word)
    · exact complete_of_raised (noResult_error (srcRstr_of_failed_length hopen hcnt hk hsrc h))
    · exact complete_of_raised (noResult_error
        (srcRstr_of_failed_unit hopen hcnt hsrc hmore hshort hunits (hk ▸ h)))
    · obtain ⟨freq, hrun, hfreq⟩ := codecFcount_of_failed_behind hsrc hgood hroom (hk ▸ h)
      exact ⟨{ s with freq := freq, total := s.total + BitVec.ofNat 32 good.length },
        complete_of_raised (noResult_error hrun), rfl, hfreq⟩
    · obtain ⟨sym, p⟩ := x
      obtain ⟨u, hrun, hu⟩ := codecWalk_of_failed hopen hinv ht hnodes hreach hmore hsign hahead hk h
      exact ⟨u, complete_of_raised (noResult_error hrun), hu⟩
  · have h : t.env.failsAt 0 := Env.failsAt_zero hans
    exact ⟨fun hp hclose ht => step_of_failed_closing_phase (close := snkClose) (w := closeEncode)
        (fun _ => releaseSource_of_failed) rfl hstim hp rfl hclose ht h,
      fun hp hclose ht => step_of_failed_closing_phase (close := srcClose) (w := closeDecode)
        (fun _ => closeSink_of_failed) rfl hstim hp rfl hclose ht h⟩

end Sys2Proof.Machine
end

section
/-! PROOFS. What each stimulus comes to, the start of an invocation, and reset (spec/70_reset_and_hazards.md R270 to R273,
R288). -/

namespace Sys2Proof.Machine

variable {s : State} {rest : List Stimulus}

/-! ## The stimuli -/

theorem step_of_nothing (hstim : s.stim = []) : step s = tick s := by
  simp only [step, hstim]

theorem step_of_quiet (hstim : s.stim = .quiet :: rest) : step s = tick { s with stim := rest } := by
  simp only [step, hstim]

theorem step_of_reset (hstim : s.stim = .reset :: rest) : step s = .next (State.powerReset { s with stim := rest }) := by
  simp only [step, hstim]

theorem step_of_attach {src replay : List Byte} {answers : List PortAnswer}
    (hstim : s.stim = .attach src replay answers :: rest) :
    step s = attachStreams src replay answers { s with stim := rest } := by
  simp only [step, hstim]

theorem attachStreams_of_not_busy (hbusy : s.busy = false) (src replay : List Byte) (answers : List PortAnswer) :
    attachStreams src replay answers s =
      .next { s with env := { src := src, replay := replay, answers := answers, log := [] } } :=
  if_neg (by simp [hbusy])

theorem command_of_busy (hbusy : s.busy = true) (op : BitVec 8) : command op s = .next s := if_pos hbusy

/-- The two codes that start an invocation. -/
theorem command_of_start {op : BitVec 8} (hop : op = 0x01 ∨ op = 0x02) (hbusy : s.busy = false) :
    command op s = .next (s.initialise (if op = 0x01 then .eCount else .dHeader)) := by
  obtain rfl | rfl := hop
  · rw [command, hbusy]
    rfl
  · rw [command, hbusy]
    rfl

theorem Phase.work_of_not_busy (hbusy : s.busy = false) : s.phase.work = none := by
  rw [State.busy] at hbusy
  cases hp : s.phase with
  | idle | done | failed => rfl
  | _ => rw [hp] at hbusy; cases hbusy

/-! ## The obligations -/

/-- Settles O6: the command port is not looked at while the block is busy. -/
theorem commandIgnoredWhileBusy : Obligations.CommandIgnoredWhileBusy := fun s op rest hstim hbusy =>
  (step_of_command hstim).trans (command_of_busy (s := { s with stim := rest }) hbusy op)

/-- Settles O7: the start values are those of reset, but for `PHASE`. -/
theorem commandStartsInvocation : Obligations.CommandStartsInvocation := by
  intro s op rest hstim hop hbusy
  have hstep : step s = .next (State.initialise _ { s with stim := rest }) :=
    (step_of_command hstim).trans (command_of_start (s := { s with stim := rest }) hop hbusy)
  refine ⟨_, hstep, ?_⟩
  simp [State.nnodes, State.hsize, State.sp, State.serlen, State.clen]

/-- Settles O8: the step leaves nothing of the block's state, and without a phase to perform the block waits. -/
theorem resetAppliesAtOnce : Obligations.ResetAppliesAtOnce := by
  refine ⟨fun s rest hstim => ?_, fun s hstim hbusy => ?_⟩
  · obtain ⟨hphase, herr, htotal, hremain, hcursor, hroot, hnnodes, hhsize, hseq, hsp, hserlen, hwbuf, hwcnt, hrbuf,
      hrcnt, hsclosed, hrclosed, hfreq, hclen, hheap, hnodes, hstk, hser, -⟩ := resetStateValues
    exact ⟨_, step_of_reset hstim, hphase, herr, htotal, hremain, hcursor, hroot, hnnodes, hhsize, hseq, hsp, hserlen, hwbuf,
      hwcnt, hrbuf, hrcnt, hsclosed, hrclosed, hfreq, hclen, rfl, hheap, hnodes, hstk, hser, State.status_powerReset _,
      rfl, rfl⟩
  · exact (step_of_nothing hstim).trans (tick_of_no_work (Phase.work_of_not_busy hbusy))

end Sys2Proof.Machine
end

section
/-! PROOFS. Which operations stop at no fault of the model's own (spec/10_state.md R38, spec/43_huffman_tree.md R187): array
elements that are read hold a value, trees are no deeper than the walks allow, and loops end within their bounds. -/

namespace Sys2Proof.Machine

variable {α β : Type} {s : State} {Q : α → State → Prop} {R : β → State → Prop}

/-! ## Running to an end -/

/-- From `s` the operation does not stop, but at a call that is never answered, and where it ends `Q` holds. -/
structure Runs (s : State) (op : Op α) (Q : α → State → Prop) : Prop where
  ends : ∀ a t, op s = .ok a t → Q a t
  stops : ∀ f t, op s = .error (.cut (.stop f)) t → f = .unanswered

/-- The operation stops in no state, but at a call that is never answered. -/
abbrev Plain (op : Op α) : Prop := ∀ s, Runs s op fun _ _ => True

theorem runs_of_ok {op : Op α} {a : α} {t : State} (h : op s = .ok a t) (hQ : Q a t) : Runs s op Q := by
  refine ⟨fun b u hb => ?_, fun f u hf => ?_⟩
  · rw [h] at hb
    cases hb
    exact hQ
  · rw [h] at hf
    cases hf

theorem runs_pure {a : α} (h : Q a s) : Runs s (pure a : Op α) Q := runs_of_ok (run_pure a s) h

theorem runs_modify {f : State → State} {Q : Unit → State → Prop} (h : Q () (f s)) : Runs s (modify f) Q :=
  runs_of_ok (run_modify f s) h

theorem runs_raise {k : ErrKind} : Runs s (raise k : Op α) Q := ⟨fun _ _ h => (nomatch h), fun _ _ h => nomatch h⟩

theorem runs_bind {x : Op α} {f : α → Op β} (hx : Runs s x Q) (hf : ∀ a t, Q a t → Runs t (f a) R) :
    Runs s (x >>= f) R := by
  obtain ⟨hends, hstops⟩ := hx
  cases hrun : x s with
  | ok a t =>
    obtain ⟨hends', hstops'⟩ := hf a t (hends a t hrun)
    exact ⟨fun b u h => hends' b u ((bind_of_ok hrun).symm.trans h),
      fun g u h => hstops' g u ((bind_of_ok hrun).symm.trans h)⟩
  | error e t =>
    refine ⟨fun b u h => ?_, fun g u h => ?_⟩
    · rw [bind_of_error hrun] at h
      cases h
    · rw [bind_of_error hrun] at h
      cases h
      exact hstops g t hrun

theorem runs_bind_of_ok {x : Op α} {f : α → Op β} {a : α} {t : State} (hx : x s = .ok a t) (hf : Runs t (f a) R) :
    Runs s (x >>= f) R :=
  runs_bind (Q := fun b u => b = a ∧ u = t) (runs_of_ok hx ⟨rfl, rfl⟩) fun _ _ h => by
    obtain ⟨rfl, rfl⟩ := h
    exact hf

theorem runs_get {f : State → Op β} (h : Runs s (f s) R) : Runs s (get >>= f) R := runs_bind_of_ok (run_get s) h

theorem runs_ite {c : Prop} [Decidable c] {x y : Op α} (hx : c → Runs s x Q) (hy : ¬c → Runs s y Q) :
    Runs s (if c then x else y) Q := by
  split
  · exact hx ‹_›
  · exact hy ‹_›

/-- `if c: raise k`, before the rest of the pseudocode. -/
theorem runs_guard {c : Prop} [Decidable c] {k : ErrKind} {g : β → Op α} {rest : Op α} (h : ¬c → Runs s rest Q) :
    Runs s (if c then raise k >>= g else rest) Q :=
  runs_ite (fun _ => runs_bind (Q := fun _ _ => False) runs_raise fun _ _ h => h.elim) h

/-- What the operation is known to keep holds where it ends. -/
theorem Runs.and {op : Op α} {P : State → Prop} {Q' : α → State → Prop} {E : ErrKind → State → Prop} (h : Runs s op Q)
    (hkeeps : Triple P op Q' E) (hs : P s) : Runs s op fun a t => Q a t ∧ Q' a t :=
  ⟨fun a t ht => ⟨h.ends a t ht, (hkeeps s hs).1 a t ht⟩, h.stops⟩

theorem Runs.imp {op : Op α} {Q' : α → State → Prop} (h : Runs s op Q) (hQ : ∀ a t, Q a t → Q' a t) : Runs s op Q' :=
  ⟨fun a t ht => hQ a t (h.ends a t ht), h.stops⟩

theorem Runs.noResult {op : Op Unit} {Q : Unit → State → Prop} (h : Runs s op Q) :
    Runs s (noResult op) fun _ _ => True :=
  runs_bind h fun _ _ _ => runs_pure trivial

theorem Runs.withResult {op : Op α} (h : Runs s op Q) (f : α → Result) :
    Runs s (do let a ← op; pure (f a)) fun _ _ => True :=
  runs_bind h fun _ _ _ => runs_pure trivial

/-! ## Port calls -/

theorem lift_of_error {p : Port α} {c : Cut} {t : State} (h : p s = .error c t) : lift p s = .error (.cut c) t := by
  simp [lift, h]

theorem runs_lift {p : Port α} {event : α → State → PortEvent} (hp : CallSpec p event) :
    Runs s (lift p) fun a t => t = s.withEnv (s.env.afterCall (event a s)) := by
  cases hrun : p s with
  | ok a t => exact runs_of_ok (lift_of_ok hrun) (hp.1 s t a hrun).1
  | error c t =>
    refine ⟨fun a u h => ?_, fun f u h => ?_⟩
    · rw [lift_of_error hrun] at h
      cases h
    · rw [lift_of_error hrun] at h
      cases h
      obtain ⟨hstop, -⟩ | ⟨hreset, -⟩ := hp.2 s t _ hrun
      · cases hstop
        rfl
      · cases hreset

theorem runs_orIOError {p : Port Bool} {event : Bool → State → PortEvent} (hp : CallSpec p event) :
    Runs s (orIOError p) fun _ t => t = s.withEnv (s.env.afterCall (event true s)) := by
  refine runs_bind (runs_lift hp) fun ok t ht => ?_
  cases ok with
  | true => exact runs_pure ht
  | false => exact runs_raise

/-- A byte that `SrcNext` has delivered stood first in the source (spec/20_memory.md R60). -/
theorem srcNext_byte_src {t : State} {b : Byte} (h : srcNext s = .ok (.byte b) t) : s.env.src = b :: t.env.src := by
  rw [srcNext, run_bind] at h
  cases hans : answered s with
  | error c u => rw [hans] at h; cases h
  | ok ok u =>
    have hsame : u.env.src = s.env.src := by rw [(answered_ok hans).1]; rfl
    rw [hans] at h
    cases ok with
    | false => cases h
    | true =>
      cases hsrc : u.env.src with
      | nil => simp [hsrc] at h
      | cons b' rest =>
        simp only [reduceIte, run_bind, run_get, hsrc, run_modify, run_pure] at h
        cases h
        exact hsame.symm.trans hsrc

/-- `SrcNext` as the operations use it: IOError when it fails, and otherwise a byte less in the source. -/
theorem runs_srcNext {f : SrcReply → Op α} (hfail : f .fail = raise .ioError) (heof : ∀ t, Runs t (f .eof) Q)
    (hbyte : ∀ b t, t.env.src.length < s.env.src.length → Runs t (f (.byte b)) Q) : Runs s (lift srcNext >>= f) Q := by
  have hcall : Runs s (lift srcNext) fun r t => ∀ b, r = .byte b → t.env.src.length < s.env.src.length := by
    refine ⟨fun r t h b hr => ?_, (runs_lift srcNext_spec).stops⟩
    subst hr
    cases hrun : srcNext s with
    | error c u => rw [lift_of_error hrun] at h; cases h
    | ok r u =>
      rw [lift_of_ok hrun] at h
      cases h
      rw [srcNext_byte_src hrun]
      exact Nat.lt_succ_self _
  refine runs_bind hcall fun r t ht => ?_
  cases r with
  | byte b => exact hbyte b t (ht b rfl)
  | eof => exact heof t
  | fail => exact hfail ▸ runs_raise

theorem runs_nextByte : Runs s nextByte fun _ t => t.env.src.length < s.env.src.length :=
  runs_srcNext rfl (fun _ => runs_raise) fun _ _ h => runs_pure h

theorem plain_putBytes (bytes : List Byte) : Plain (putBytes bytes) := by
  induction bytes with
  | nil => exact fun _ => runs_pure trivial
  | cons b rest ih => exact fun _ => runs_bind (runs_orIOError (snkPut_spec b)) fun _ t _ => ih t

/-! ## The streams -/

/-- SNK.WBITS puts bytes and takes none from the source. -/
theorem runs_writeBits (bits : Bits) : Runs s (writeBits bits) fun _ t => t.env.src = s.env.src := by
  induction bits generalizing s with
  | nil => exact runs_pure rfl
  | cons b rest ih =>
    refine runs_bind_of_ok (run_modify ..) (runs_get (runs_ite (fun _ => ?_) fun _ => ih))
    refine runs_bind (runs_orIOError (snkPut_spec _)) fun _ u hu => runs_bind_of_ok (run_modify ..) (ih.imp fun _ v hv => ?_)
    subst hu
    exact hv

theorem runs_snkWbits (bits : Bits) : Runs s (snkWbits bits) fun _ t => t.env.src = s.env.src :=
  runs_get (runs_guard fun _ => runs_writeBits bits)

theorem plain_snkByteLevel : Plain snkByteLevel :=
  fun _ => runs_get (runs_ite (fun _ => runs_raise) fun _ => runs_pure trivial)

theorem plain_snkWint (v : Word) : Plain (snkWint v) :=
  fun s => runs_bind (plain_snkByteLevel s) fun _ t _ => plain_putBytes _ t

theorem plain_snkWstr : Plain snkWstr :=
  fun s => runs_bind (plain_snkByteLevel s) fun _ t _ => runs_get (plain_putBytes _ t)

theorem plain_snkClose : Plain snkClose := by
  have hlast : Plain (do orIOError snkClosePort; modify fun s => { s with sclosed := true }) :=
    fun _ => runs_bind (runs_orIOError snkClosePort_spec) fun _ _ _ => runs_modify trivial
  refine fun s => runs_get (runs_guard fun _ => runs_ite (fun _ => ?_) fun _ => hlast s)
  exact runs_bind (runs_orIOError (snkPut_spec _)) fun _ _ _ =>
    runs_bind_of_ok (run_modify ..) (hlast _)

theorem runs_takeBit : Runs s takeBit fun _ t => t = s.dropBit :=
  runs_get (runs_bind_of_ok (run_modify ..) (runs_pure rfl))

/-- SRC.RBIT takes a bit from those that are left. -/
theorem runs_srcRbit : Runs s srcRbit fun _ t => t.bitsLeft < s.bitsLeft := by
  refine runs_get (runs_guard fun _ => runs_ite (fun hcnt => ?_) fun hcnt => ?_)
  · refine runs_bind runs_nextByte fun b t ht => runs_bind_of_ok (run_modify ..) (runs_takeBit.imp fun _ u hu => ?_)
    have hleft : u.bitsLeft = 7 + 8 * t.env.src.length := by simp [hu, State.bitsLeft, State.dropBit]
    rw [hleft, State.bitsLeft]
    omega
  · refine runs_takeBit.imp fun _ t ht => ?_
    have hdrop := State.rcnt_dropBit hcnt
    subst ht
    change s.dropBit.rcnt.toNat + 8 * s.env.src.length < s.rcnt.toNat + 8 * s.env.src.length
    omega

theorem plain_srcByteLevel : Plain srcByteLevel :=
  fun _ => runs_get (runs_ite (fun _ => runs_raise) fun _ => runs_pure trivial)

theorem plain_srcRint : Plain srcRint :=
  fun s => runs_bind (plain_srcByteLevel s) fun _ _ _ => runs_bind runs_nextByte fun _ _ _ =>
    runs_bind runs_nextByte fun _ _ _ => runs_bind runs_nextByte fun _ _ _ => runs_bind runs_nextByte fun _ _ _ =>
    runs_pure trivial

theorem plain_readUnits (n : Nat) : Plain (readUnits n) := by
  induction n with
  | zero => exact fun _ => runs_pure trivial
  | succ n ih =>
    exact fun _ => runs_bind runs_nextByte fun _ _ _ => runs_guard fun _ =>
      runs_bind_of_ok (run_modify ..) (ih _)

theorem plain_srcRstr : Plain srcRstr :=
  fun s => runs_bind (plain_srcByteLevel s) fun _ _ _ => runs_bind runs_nextByte fun _ _ _ =>
    runs_bind runs_nextByte fun _ _ _ => runs_guard fun _ =>
    runs_bind_of_ok (run_modify ..) (plain_readUnits _ _)

theorem plain_srcClose : Plain srcClose :=
  fun _ => runs_get (runs_guard fun _ => runs_bind (runs_orIOError srcRelease_spec) fun _ _ _ => runs_modify trivial)

/-! ## The queue and the tree -/

theorem plain_pqInsert (key : Word) (n : NodeRef) : Plain (pqInsert key n) :=
  fun _ => runs_get (runs_guard fun _ => runs_modify trivial)

theorem plain_pqDelmin : Plain pqDelmin := by
  refine fun s => runs_get ?_
  cases s.heap with
  | nil => exact runs_raise
  | cons top rest => exact runs_bind_of_ok (run_modify ..) (runs_pure trivial)

theorem plain_pqPeek : Plain pqPeek := by
  refine fun s => runs_get ?_
  cases s.heap with
  | nil => exact runs_raise
  | cons top rest => exact runs_pure trivial

theorem plain_htBuild : Plain htBuild := fun s => by
  obtain ⟨nodes, seq, root, hrun, -⟩ := htBuild_ok s
  exact runs_of_ok hrun trivial

/-- A node is allocated and pushed, before the rest of the scan. -/
theorem plain_allocPush (node : Node) {rest : Op Unit} (h : Plain rest) :
    Plain (alloc node >>= fun n => pushNode n >>= fun _ => rest) :=
  fun s => runs_bind_of_ok (a := s.nnodes) (t := { s with nodes := s.nodes ++ [node] }) rfl <|
    runs_bind_of_ok (run_modify ..) (h _)

theorem plain_deserScan (units : List Byte) : Plain (deserScan units) := by
  induction units with
  | nil => exact fun _ => runs_pure trivial
  | cons v rest ih =>
    refine fun s => runs_get (runs_ite (fun _ => runs_guard fun _ => plain_allocPush _ ih s) fun _ => ?_)
    have hraise (f : Unit → Op Unit) : Runs s (raise .malformedTree >>= f) fun _ _ => True :=
      runs_bind (Q := fun _ _ => False) runs_raise fun _ _ h => h.elim
    match s.stk with
    | b :: a :: below =>
      exact runs_bind_of_ok (run_modify ..) (plain_allocPush _ ih _)
    | [] => exact hraise _
    | [_] => exact hraise _

theorem plain_htDeser : Plain htDeser := by
  refine fun s => runs_bind_of_ok (run_modify ..) <| runs_get <|
    runs_bind (plain_deserScan _ _) fun _ u _ => runs_ite (fun _ => runs_pure trivial) fun _ => runs_get ?_
  match u.stk with
  | [n] => exact runs_modify trivial
  | [] => exact runs_raise
  | _ :: _ :: _ => exact runs_raise

/-- HT.GENCODES ends on the tree that the block holds, and without one. -/
theorem runs_htGencodes (hs : s.TreeInv) : Runs s htGencodes fun _ _ => True := by
  obtain hroot | ⟨t, ⟨ht, -⟩, hleaves⟩ := hs.shape
  · exact runs_of_ok (htGencodes_of_nil hroot) trivial
  · exact runs_of_ok (htGencodes_of_tree ht hleaves) trivial

/-- HT.SER ends on the tree that the block holds, and without one. -/
theorem runs_htSer (hs : s.TreeInv) : Runs s htSer fun _ _ => True := by
  obtain hroot | ⟨t, ⟨ht, -⟩, hleaves⟩ := hs.shape
  · exact runs_of_ok (htSer_of_nil hroot) trivial
  · exact runs_of_ok (htSer_of_tree ht hleaves) trivial

end Sys2Proof.Machine
end

section
/-! PROOFS. The operations of the Codec stop at no fault of the model's own: their loops take a byte or a bit in every round
(spec/44_codec.md R210, R213, R214), and CODEC.WALK moves over a stored tree. -/

namespace Sys2Proof.Machine

variable {s u : State}

/-! ## ENCODE -/

theorem runs_countLoop {fuel : Nat} (h : s.env.src.length < fuel) : Runs s (countLoop fuel) fun _ _ => True := by
  induction fuel generalizing s with
  | zero => exact absurd h (Nat.not_lt_zero _)
  | succ fuel ih =>
    refine runs_srcNext rfl (fun _ => runs_pure trivial) fun b t ht => runs_guard fun _ => runs_get <| runs_guard fun _ =>
      runs_bind_of_ok (run_modify ..) <| runs_bind_of_ok (run_modify ..) (ih ?_)
    exact ht.trans_le (Nat.le_of_lt_succ h)

theorem plain_codecFcount : Plain codecFcount := fun _ => runs_get (runs_countLoop (Nat.lt_succ_self _))

theorem runs_codecWheader (hs : s.TreeInv) : Runs s codecWheader fun _ _ => True := by
  have hwint := (plain_snkWint s.total s).and (treeContract.keeps_snkWint s.total) hs
  exact runs_get <| runs_bind hwint fun _ t ht => runs_bind (runs_htSer ht.2) fun _ u _ => plain_snkWstr u

theorem runs_payloadLoop {fuel : Nat} (h : s.env.src.length < fuel) (k : Word) :
    Runs s (payloadLoop fuel k) fun _ _ => True := by
  induction fuel generalizing s k with
  | zero => exact absurd h (Nat.not_lt_zero _)
  | succ fuel ih =>
    refine runs_srcNext rfl (fun _ => runs_pure trivial) fun b t ht => runs_get <| runs_guard fun _ => runs_guard fun _ =>
      runs_guard fun _ => runs_bind (runs_snkWbits _) fun _ u hu => ih ?_ _
    rw [hu]
    omega

theorem plain_codecWpayload : Plain codecWpayload :=
  fun _ => runs_bind (runs_orIOError srcRewind_spec) fun _ _ _ => runs_get <|
    runs_bind (runs_payloadLoop (Nat.lt_succ_self _) _) fun _ _ _ => runs_get <|
    runs_ite (fun _ => runs_raise) fun _ => runs_pure trivial

theorem plain_closeEncode : Plain closeEncode :=
  fun s => runs_bind (plain_snkClose s) fun _ _ _ => (runs_orIOError srcRelease_spec).imp fun _ _ _ => trivial

/-! ## DECODE -/

theorem plain_codecRheader : Plain codecRheader :=
  fun s => runs_bind (plain_srcRint s) fun _ _ _ => runs_bind_of_ok (run_modify ..) <| runs_guard fun _ =>
    runs_bind (plain_srcRstr _) fun _ t _ => runs_bind (plain_htDeser t) fun _ _ _ => runs_get <|
    runs_ite (fun _ => runs_raise) fun _ => runs_pure trivial

/-- Nodes, root and cursor as they are in `s`. -/
def walkContract (s : State) : Contract where
  inv t := t.nodes = s.nodes ∧ t.root = s.root ∧ t.cursor = s.cursor
  raised _ _ := True
  inv_call _ h := h
  raised_of_inv _ _ := trivial

/-- SRC.RBIT takes a bit and leaves the tree and the cursor alone. -/
theorem runs_walkBit :
    Runs s srcRbit fun _ t => t.bitsLeft < s.bitsLeft ∧ t.nodes = s.nodes ∧ t.root = s.root ∧ t.cursor = s.cursor :=
  runs_srcRbit.and (Contract.keeps_srcRbit (C := walkContract s) fun _ _ _ h => h) ⟨rfl, rfl, rfl⟩

/-- Bits that every descent from the root takes at least: none at a leaf, one at an inner node. -/
def Tree.leastBits : Tree → Nat
  | .leaf _ => 0
  | .node _ _ => 1

/-- From `s` to `u` the cursor has come to a node that is there, and at least `bits` bits have been taken. -/
structure Descended (bits : Nat) (s u : State) : Prop where
  nodes : u.nodes = s.nodes
  root : u.root = s.root
  arrived : ∃ node, u.nodes[u.cursor.toNat]? = some node
  left : u.bitsLeft + bits ≤ s.bitsLeft

/-- From a node of a stored tree the descent comes to a leaf within the bits that are left. -/
theorem runs_descend {t : Tree} {fuel : Nat} (ht : t.storedAt s.nodes s.cursor) (hfuel : s.bitsLeft < fuel) :
    Runs s (descend fuel) fun _ u => Descended t.leastBits s u := by
  induction t generalizing s fuel with
  | leaf sym =>
    obtain ⟨fuel, rfl⟩ := Nat.exists_eq_succ_of_ne_zero (Nat.ne_zero_of_lt hfuel)
    exact runs_of_ok (descend_of_leaf ht (Node.isLeaf_leaf sym) fuel) ⟨rfl, rfl, ⟨_, ht⟩, Nat.le_refl _⟩
  | node l r ihl ihr =>
    obtain ⟨fuel, rfl⟩ := Nat.exists_eq_succ_of_ne_zero (Nat.ne_zero_of_lt hfuel)
    obtain ⟨a, b, hn, hl, hr⟩ := ht
    refine runs_get <| runs_bind_of_ok (nodeAt_of_some hn) <| runs_ite
      (fun hleaf => absurd hleaf (Node.isLeaf_branch a b)) fun _ => runs_bind runs_walkBit fun bit v hv =>
      runs_guard fun _ => ?_
    obtain ⟨hleft, hnodes, hroot, -⟩ := hv
    have hchild {t : Tree} {n : NodeRef} (ht : t.storedAt s.nodes n)
        (ih : ∀ {s : State} {fuel : Nat}, t.storedAt s.nodes s.cursor → s.bitsLeft < fuel →
          Runs s (descend fuel) fun _ u => Descended t.leastBits s u) :
        Runs v (do modify fun s => { s with cursor := n }; descend fuel) fun _ u => Descended 1 s u := by
      have hmoved : State.bitsLeft { v with cursor := n } = v.bitsLeft := rfl
      refine runs_bind_of_ok (run_modify ..) ((ih (s := { v with cursor := n }) (hnodes ▸ ht) (by omega)).imp
        fun _ u hu => ⟨hu.nodes.trans hnodes, hu.root.trans hroot, hu.arrived, ?_⟩)
      have hu := hu.left
      omega
    cases bit with
    | true => exact hchild hr ihr
    | false => exact hchild hl ihl

/-- On a stored tree CODEC.WALK's rounds end within the bits that are left, since each takes one at least. -/
theorem runs_walkLoop {t : Tree} {fuel : Nat} (ht : t.storedAt s.nodes s.root) (hcursor : s.cursor = s.root)
    (hfuel : s.bitsLeft < fuel) : Runs s (walkLoop fuel) fun _ _ => True := by
  induction fuel generalizing s with
  | zero => exact absurd hfuel (Nat.not_lt_zero _)
  | succ fuel ih =>
    have hemit (u : State) (hu : Descended 1 s u) : Runs u (emitSymbol fuel) fun _ _ => True := by
      obtain ⟨hnodes, hroot, ⟨leaf, hleaf⟩, hleft⟩ := hu
      refine runs_get <| runs_bind_of_ok (nodeAt_of_some hleaf) <| runs_bind (runs_orIOError (snkPut_spec _)) fun _ v hv =>
        runs_bind_of_ok (run_modify ..) (ih ?_ rfl ?_)
      · subst hv
        exact hroot ▸ hnodes ▸ ht
      · subst hv
        exact hleft.trans (Nat.le_of_lt_succ hfuel)
    refine runs_get (runs_ite (fun _ => runs_pure trivial) fun _ => ?_)
    cases t with
    | leaf sym =>
      refine runs_bind_of_ok (nodeAt_of_some ht) <| runs_ite (fun _ => ?_) fun hleaf =>
        absurd (Node.isLeaf_leaf sym) hleaf
      refine runs_bind runs_walkBit fun _ u hu => hemit u ?_
      obtain ⟨hleft, hnodes, hroot, hstays⟩ := hu
      refine ⟨hnodes, hroot, ⟨.leaf sym, ?_⟩, hleft⟩
      rw [hnodes, hstays, hcursor]
      exact ht
    | node l r =>
      have hdescend := runs_descend (t := .node l r) (hcursor ▸ ht) (Nat.lt_succ_self s.bitsLeft)
      obtain ⟨a, b, hn, -, -⟩ := ht
      exact runs_bind_of_ok (nodeAt_of_some hn) <| runs_ite (fun hleaf => absurd hleaf (Node.isLeaf_branch a b))
        fun _ => runs_bind hdescend fun _ u hu => hemit u hu

/-- CODEC.WALK needs a tree only for a positive count. -/
theorem runs_codecWalk (hs : s.TreeInv) : Runs s codecWalk fun _ _ => True := by
  refine runs_get <| runs_guard fun hguard => runs_bind_of_ok (run_modify ..) ?_
  obtain hroot | ⟨t, ⟨⟨-, ht⟩, -⟩, -⟩ := hs.shape
  · have hzero : s.total = 0 := by
      have htotal : s.total.msb = false ∧ (s.total.msb = false → s.total = 0) := by simpa [positive, hroot] using hguard
      exact htotal.2 htotal.1
    exact runs_get (runs_ite (fun _ => runs_pure trivial) fun hremain => absurd hzero hremain)
  · exact runs_walkLoop (s := { s with remain := s.total, cursor := s.root }) ht rfl (Nat.lt_succ_self _)

theorem plain_closeDecode : Plain closeDecode :=
  fun s => runs_bind (plain_srcClose s) fun _ _ _ => (runs_orIOError snkClosePort_spec).imp fun _ _ _ => trivial

end Sys2Proof.Machine
end

section
/-! PROOFS. With a host that answers its port calls every step answers a next state (spec/60_exceptions.md R252,
spec/70_reset_and_hazards.md R290). -/

namespace Sys2Proof.Machine

variable {s : State}

/-! ## Phases and operations -/

/-- The step of a phase stops at no fault, and leaves the tree's invariant where it ends. -/
theorem Phase.work_runs {p n : Phase} {w : Op Unit} (h : p.work = some (w, n)) (hs : s.TreeInv) :
    Runs s w fun _ t => t.TreeInv := by
  have hruns : Runs s w fun _ _ => True := by
    cases p with
    | eCount => cases h; exact plain_codecFcount s
    | eBuild => cases h; exact plain_htBuild s
    | eCodes => cases h; exact runs_htGencodes hs
    | eHeader => cases h; exact runs_codecWheader hs
    | ePayload => cases h; exact plain_codecWpayload s
    | eClose => cases h; exact plain_closeEncode s
    | dHeader => cases h; exact plain_codecRheader s
    | dWalk => cases h; exact runs_codecWalk hs
    | dClose => cases h; exact plain_closeDecode s
    | idle => cases h
    | done => cases h
    | failed => cases h
  exact (hruns.and (Phase.work_unitOp h treeContract treeContract_keptByUnits) hs).imp fun _ _ ht => ht.2

theorem runs_phaseStep {p n : Phase} {w : Op Unit} (h : p.work = some (w, n)) (hs : s.TreeInv) :
    Runs s (phaseStep w n) fun _ t => t.TreeInv :=
  runs_bind (Phase.work_runs h hs) fun _ _ ht => runs_modify (ht.of_eq rfl rfl rfl rfl rfl)

theorem runs_runPhases {phases : List (Op Unit × Phase)} (h : ∀ e ∈ phases, ∃ p : Phase, p.work = some e)
    (hs : s.TreeInv) : Runs s (runPhases phases) fun _ _ => True := by
  induction phases generalizing s with
  | nil => exact runs_pure trivial
  | cons e rest ih =>
    obtain ⟨p, hp⟩ := h e (List.mem_cons_self ..)
    exact runs_bind (runs_phaseStep hp hs) fun _ _ ht => ih (fun e he => h e (List.mem_cons_of_mem _ he)) ht

theorem plain_encodeInvocation : Plain encodeInvocation := fun s =>
  encodeInvocation_eq ▸ runs_bind_of_ok (run_modify ..)
    (runs_runPhases encodePhases_work (treeContract_keptBySequencer.initialise (p := .eCount) nofun s))

theorem plain_decodeInvocation : Plain decodeInvocation := fun s =>
  decodeInvocation_eq ▸ runs_bind_of_ok (run_modify ..)
    (runs_runPhases decodePhases_work (treeContract_keptBySequencer.initialise (p := .dHeader) nofun s))

theorem runs_operation (i : Instr) (hs : s.TreeInv) : Runs s (operation i) fun _ _ => True := by
  cases i with
  | encode => exact (plain_encodeInvocation s).noResult
  | decode => exact (plain_decodeInvocation s).noResult
  | codecFcount => exact (plain_codecFcount s).noResult
  | codecWheader => exact (runs_codecWheader hs).noResult
  | codecWpayload => exact (plain_codecWpayload s).noResult
  | codecRheader => exact (plain_codecRheader s).noResult
  | codecWalk => exact (runs_codecWalk hs).noResult
  | snkWbits bits => exact (runs_snkWbits bits).noResult
  | snkWint v => exact (plain_snkWint v s).noResult
  | snkWstr => exact (plain_snkWstr s).noResult
  | snkClose => exact (plain_snkClose s).noResult
  | srcRbit => exact runs_srcRbit.withResult .bit
  | srcRint => exact (plain_srcRint s).withResult .word
  | srcRstr => exact (plain_srcRstr s).noResult
  | srcClose => exact (plain_srcClose s).noResult
  | pqInsert key payload => exact (plain_pqInsert key payload s).noResult
  | pqDelmin => exact (plain_pqDelmin s).withResult .node
  | pqPeek => exact (plain_pqPeek s).withResult .key
  | pqIsempty => exact runs_get (runs_pure trivial)
  | pqIsfull => exact runs_get (runs_pure trivial)
  | pqSize => exact runs_get (runs_pure trivial)
  | htBuild => exact (plain_htBuild s).noResult
  | htGencodes => exact (runs_htGencodes hs).noResult
  | htSer => exact (runs_htSer hs).noResult
  | htDeser => exact (plain_htDeser s).noResult

/-! ## The answers -/

/-- Failure entry comes to its end in every phase, when its closing calls are answered. -/
theorem enterFailure_of_answering (k : ErrKind) (hans : s.env.answering) : ∃ u, enterFailure k s = .next u := by
  obtain ⟨hencOpen, hencClosed, hdecOpen, hdecClosed, hfree⟩ := failureEntryReleasesStreams k s hans
  cases he : s.phase.encoding with
  | true =>
    cases hclosed : s.sclosed with
    | false => exact ⟨_, hencOpen he hclosed⟩
    | true => exact ⟨_, hencClosed he hclosed⟩
  | false =>
    cases hd : s.phase.decoding with
    | true =>
      cases hclosed : s.rclosed with
      | false => exact ⟨_, hdecOpen hd hclosed⟩
      | true => exact ⟨_, hdecClosed hd hclosed⟩
    | false => exact ⟨_, hfree (by rw [State.busy, he, hd]; rfl)⟩

/-- An operation that stops at no fault of the model's own becomes a step that answers. -/
theorem complete_of_answering {op : Op Result} (htraced : Traced op) (hruns : Runs s op fun _ _ => True)
    (hans : s.env.answering) : ∃ u, complete op s = .next u := by
  cases hrun : op s with
  | ok r t => exact ⟨_, complete_of_ok hrun⟩
  | error e t =>
    have hhalts := (htraced s).2 e t hrun
    cases e with
    | raised k =>
      obtain ⟨calls, henv, -⟩ := hhalts.raisedAt
      rw [complete_of_raised hrun]
      exact enterFailure_of_answering k (henv ▸ hans.after calls)
    | cut c =>
      obtain ⟨f, hf, rfl⟩ := hhalts.cut_of_answering hans
      exact absurd (hruns.stops f t hrun) hf

theorem exec_answers (i : Instr) (hs : s.TreeInv) (hans : s.env.answering) : ∃ u, exec i s = .next u := by
  rw [exec_eq]
  split
  · exact ⟨s, rfl⟩
  · exact complete_of_answering (traced_operation i) (runs_operation i hs) hans

theorem tick_answers (hs : s.TreeInv) (hans : s.env.answering) : ∃ u, tick s = .next u := by
  cases hwork : s.phase.work with
  | none => exact ⟨s, tick_of_no_work hwork⟩
  | some e =>
    obtain ⟨w, n⟩ := e
    rw [tick_of_work hwork]
    exact complete_of_answering (traced_phaseStep (Phase.work_traced hwork) n).noResult
      (runs_phaseStep hwork hs).noResult hans

theorem command_answers (op : BitVec 8) (s : State) : ∃ u, command op s = .next u := by
  cases hbusy : s.busy with
  | true => exact ⟨s, if_pos hbusy⟩
  | false =>
    by_cases hencode : op = 0x01
    · exact ⟨_, by rw [command, if_neg (by simp [hbusy]), if_pos hencode]⟩
    · by_cases hdecode : op = 0x02
      · exact ⟨_, by rw [command, if_neg (by simp [hbusy]), if_neg hencode, if_pos hdecode]⟩
      · exact ⟨_, command_of_illegal hbusy hencode hdecode⟩

/-- Settles O60: each stimulus leads to an operation that stops at no fault, or to none. -/
theorem answeredStepsComplete : Obligations.AnsweredStepsComplete := by
  intro s hs hans hproper
  have hrest (rest : List Stimulus) : State.TreeInv { s with stim := rest } := hs.of_eq rfl rfl rfl rfl rfl
  match hstim : s.stim with
  | [] => exact step_of_nothing hstim ▸ tick_answers hs hans
  | .quiet :: rest => exact step_of_quiet hstim ▸ tick_answers (hrest rest) hans
  | .command op :: rest => exact step_of_command hstim ▸ command_answers op _
  | .reset :: rest => exact ⟨_, step_of_reset hstim⟩
  | .issue t :: rest =>
    obtain ⟨i, hdecode⟩ : ∃ i, decode t = .ok i := by simpa only [State.properStimulus, hstim] using hproper
    rw [step_of_issue hstim, issue_of_decode_ok hdecode]
    exact exec_answers i (hrest rest) hans
  | .attach src replay answers :: rest =>
    have hbusy : s.busy = false := by simpa only [State.properStimulus, hstim] using hproper
    exact ⟨_, (step_of_attach hstim).trans (attachStreams_of_not_busy (s := { s with stim := rest }) hbusy ..)⟩

end Sys2Proof.Machine
end

section
/-! PROOFS. An invocation begins with the start values, whatever the block held (spec/70_reset_and_hazards.md R272). -/

namespace Sys2Proof.Machine

variable {s s' : State}

/-- The start values have nothing of the state but the host's side and the stimuli. -/
theorem State.initialise_congr (henv : s.env = s'.env) (hstim : s.stim = s'.stim) (p : Phase) :
    s.initialise p = s'.initialise p := by
  rw [State.initialise, State.initialise, henv, hstim]

/-- An operation that begins with the start values ends alike from states that give the same. -/
theorem complete_initialised {op rest : Op Unit} {p : Phase}
    (hop : op = modify (State.initialise p) >>= fun _ => rest) (hstart : s.initialise p = s'.initialise p) :
    complete (noResult op) s = complete (noResult op) s' := by
  subst hop
  have hrun (s : State) : (modify (State.initialise p) >>= fun _ => rest) s = rest (s.initialise p) :=
    bind_of_ok (run_modify ..)
  exact complete_congr ((hrun s).trans ((congrArg rest hstart).trans (hrun s').symm))

/-- Settles O13: both invocations overwrite the state by its start values before anything else. -/
theorem nothingCarriesOver : Obligations.NothingCarriesOver := by
  intro s s' hbusy hbusy' henv hstim
  have hstart := State.initialise_congr henv hstim
  have hrun {s : State} (i : Instr) (hbusy : s.busy = false) : exec i s = complete (operation i) s := by
    rw [exec_eq, hbusy, Bool.and_false, if_neg Bool.false_ne_true]
  rw [hrun _ hbusy, hrun _ hbusy, hrun _ hbusy', hrun _ hbusy']
  exact ⟨complete_initialised encodeInvocation_eq (hstart _), complete_initialised decodeInvocation_eq (hstart _)⟩

end Sys2Proof.Machine
end

section
/-! PROOFS. A call that is never answered, and a reset that overtakes a call (spec/70_reset_and_hazards.md R271, R274): in
every operation, and at the first call of an operation and of failure entry. -/

namespace Sys2Proof.Machine

variable {s t u : State} {calls : List PortEvent} {c : Cut} {k : ErrKind} {stopped : Host.Outcome State Fault Refusal}

/-! ## Every call -/

/-- Every call has been answered, or one behind the calls `calls` is never answered or overtaken by a reset; or a fault
of the model's own has stopped the machine. -/
def AnsweredOrCut (s : State) (o : Host.Outcome State Fault Refusal) : Prop :=
  (∃ u calls, o = .next u ∧ u.env = s.env.after calls ∧ s.env.gives calls) ∨
  (∃ calls rest, s.env.gives calls ∧ s.env.answers.drop calls.length = .never :: rest ∧ o = .fault .unanswered) ∨
  (∃ calls rest, s.env.gives calls ∧ s.env.answers.drop calls.length = .reset :: rest ∧
    o = .next { State.reset with env := { s.env.after calls with answers := rest }, stim := s.stim }) ∨
  (∃ f, f ≠ .unanswered ∧ o = .fault f)

theorem Called.answeredOrCut_next (h : Called s calls t) (r : Result) : AnsweredOrCut s (.next { t with result := r }) :=
  .inl ⟨_, calls, rfl, h.env, h.gives⟩

theorem Called.answeredOrCut_cutOff (h : Called s calls u) (hend : EndsAt u (.cut c) t) :
    AnsweredOrCut s (cutOff c t) := by
  have hdrop : s.env.answers.drop calls.length = u.env.answers := by rw [h.env, Env.after_answers]
  cases c with
  | stop f =>
    by_cases hf : f = .unanswered
    · obtain ⟨rest, hrest⟩ := hend hf
      exact .inr (.inl ⟨calls, rest, h.gives, hdrop.trans hrest, hf ▸ rfl⟩)
    · exact .inr (.inr (.inr ⟨f, hf, rfl⟩))
  | resetApplied =>
    obtain ⟨rest, hrest, henv, hstim⟩ := hend
    refine .inr (.inr (.inl ⟨calls, rest, h.gives, hdrop.trans hrest, ?_⟩))
    rw [cutOff, State.powerReset, henv, hstim, h.env, h.stim]

theorem Called.answeredOrCut_enterFailure (h : Called s calls t) (k : ErrKind) :
    AnsweredOrCut s (enterFailure k t) := by
  obtain ⟨hok, herr⟩ := portTraced_failureEntry k t
  cases hrun : failureEntry k t with
  | ok a v =>
    obtain ⟨more, hmore⟩ := hok a v hrun
    rw [enterFailure_of_ok hrun]
    exact (h.trans hmore).answeredOrCut_next .none
  | error c v =>
    obtain ⟨more, w, hmore, hend⟩ := herr c v hrun
    rw [enterFailure, hrun]
    exact (h.trans hmore).answeredOrCut_cutOff hend

theorem Traced.answeredOrCut {op : Op Result} (hop : Traced op) (s : State) : AnsweredOrCut s (complete op s) := by
  obtain ⟨hok, herr⟩ := hop s
  cases hrun : op s with
  | ok r t =>
    obtain ⟨calls, hcalls, -⟩ := hok r t hrun
    rw [complete_of_ok hrun]
    exact hcalls.answeredOrCut_next r
  | error e t =>
    obtain ⟨u, ⟨calls, hcalls, -⟩, hend⟩ := herr e t hrun
    cases e with
    | raised k =>
      rw [complete_of_raised hrun]
      obtain ⟨-, event, -, hcall⟩ | ⟨-, hcall⟩ := hend
      · exact (hcalls.trans hcall).answeredOrCut_enterFailure k
      · exact (hcalls.trans hcall).answeredOrCut_enterFailure k
    | cut c =>
      rw [complete_of_cut hrun]
      exact hcalls.answeredOrCut_cutOff hend

theorem exec_answeredOrCut (i : Instr) (s : State) : AnsweredOrCut s (exec i s) := by
  rw [exec_eq]
  split
  · exact (Called.refl s).answeredOrCut_next s.result
  · exact (traced_operation i).answeredOrCut s

/-! ## The first call of an operation -/

/-- The next call is not answered, and the step then ends as `stopped`. -/
def CutNext (s : State) (stopped : Host.Outcome State Fault Refusal) : Prop :=
  ∃ c t, answered s = .error c t ∧ cutOff c t = stopped

theorem cutNext_of_answers {rest : List PortAnswer}
    (h : s.env.answers = .never :: rest ∧ stopped = .fault .unanswered ∨
      s.env.answers = .reset :: rest ∧
        stopped = .next { State.reset with env := { s.env with answers := rest }, stim := s.stim }) :
    CutNext s stopped := by
  obtain ⟨hans, rfl⟩ | ⟨hans, rfl⟩ := h
  · exact ⟨.stop .unanswered, s, by simp only [answered, hans], rfl⟩
  · exact ⟨.resetApplied, s.withEnv { s.env with answers := rest }, by simp only [answered, hans]; rfl, rfl⟩

theorem portBind_of_cut {α β : Type} {x : Port α} {f : α → Port β} (h : x s = .error c t) :
    (x >>= f) s = .error c t := by
  rw [run_bind, h]

theorem orIOError_of_cut {p : Port Bool} (h : p s = .error c t) : orIOError p s = .error (.cut c) t :=
  bind_of_error (lift_of_error h)

section
variable (h : answered s = .error c t)
include h

theorem nextByte_of_cut : nextByte s = .error (.cut c) t := bind_of_error (lift_of_error (portBind_of_cut h))

theorem put_of_cut (b : Byte) : orIOError (snkPut b) s = .error (.cut c) t := orIOError_of_cut (portBind_of_cut h)

theorem codecFcount_of_cut : codecFcount s = .error (.cut c) t :=
  (bind_of_ok (run_get s)).trans (bind_of_error (lift_of_error (portBind_of_cut h)))

theorem codecWpayload_of_cut : codecWpayload s = .error (.cut c) t :=
  bind_of_error (orIOError_of_cut (portBind_of_cut h))

theorem srcClose_of_cut (hopen : s.rclosed = false) : srcClose s = .error (.cut c) t :=
  (bind_of_ok (run_get s)).trans <| (run_if_neg (by simp [hopen])).trans <|
    bind_of_error (orIOError_of_cut (portBind_of_cut h))

theorem srcRbit_of_cut (hopen : s.rclosed = false) (hcnt : s.rcnt = 0) : srcRbit s = .error (.cut c) t :=
  (bind_of_ok (run_get s)).trans <| (run_if_neg (by simp [hopen])).trans <| (run_if_pos hcnt).trans <|
    bind_of_error (nextByte_of_cut h)

theorem srcRint_of_cut (hopen : s.rclosed = false) (hcnt : s.rcnt = 0) : srcRint s = .error (.cut c) t :=
  (bind_of_ok (srcByteLevel_of_open hopen hcnt)).trans (bind_of_error (nextByte_of_cut h))

theorem srcRstr_of_cut (hopen : s.rclosed = false) (hcnt : s.rcnt = 0) : srcRstr s = .error (.cut c) t :=
  (bind_of_ok (srcByteLevel_of_open hopen hcnt)).trans (bind_of_error (nextByte_of_cut h))

theorem snkClose_of_cut (hopen : s.sclosed = false) : snkClose s = .error (.cut c) t := by
  refine (bind_of_ok (run_get s)).trans <| (run_if_neg (by simp [hopen])).trans ?_
  by_cases hcnt : (s.wcnt != 0) = true
  · exact (run_if_pos hcnt).trans (bind_of_error (put_of_cut h _))
  · exact (run_if_neg hcnt).trans (bind_of_error (orIOError_of_cut (portBind_of_cut h)))

theorem snkWint_of_cut (hopen : s.sclosed = false) (hcnt : s.wcnt = 0) (v : Word) :
    snkWint v s = .error (.cut c) t :=
  (bind_of_ok (snkByteLevel_of_open hopen hcnt)).trans (bind_of_error (put_of_cut h _))

theorem snkWstr_of_cut (hopen : s.sclosed = false) (hcnt : s.wcnt = 0) : snkWstr s = .error (.cut c) t :=
  (bind_of_ok (snkByteLevel_of_open hopen hcnt)).trans <| (bind_of_ok (run_get s)).trans <|
    bind_of_error (put_of_cut h _)

end

/-! ## Failure entry -/

/-- Failure entry begins with a closing call during an invocation. -/
theorem failureEntry_of_cut (hbusy : s.busy = true) (h : answered { s with err := k } = .error c t) :
    failureEntry k s = .error c t := by
  refine (bind_of_ok (run_modify ..)).trans <| (bind_of_ok (run_get { s with err := k })).trans ?_
  by_cases he : s.phase.encoding = true
  · refine (run_if_pos he).trans ?_
    by_cases hopen : s.sclosed = false
    · exact (run_if_pos hopen).trans (portBind_of_cut (portBind_of_cut h))
    · exact (run_if_neg hopen).trans (portBind_of_cut (portBind_of_cut h))
  · have hd : s.phase.decoding = true := by simpa [State.busy, he] using hbusy
    refine (run_if_neg he).trans <| (run_if_pos hd).trans ?_
    by_cases hopen : s.rclosed = false
    · exact (run_if_pos hopen).trans (portBind_of_cut (portBind_of_cut h))
    · exact (run_if_neg hopen).trans (portBind_of_cut (portBind_of_cut h))

/-- During ENCODE the second closing call is `SrcRelease`. -/
theorem failureEntry_of_cut_release (hp : s.phase.encoding = true) (hopen : s.sclosed = false)
    (hfirst : s.env.answersNext)
    (h : answered { s with
      err := k, sclosed := true, env := s.env.after [.snkClose (s.env.answers.getD 0 .ok == .ok)] } = .error c t) :
    failureEntry k s = .error c t := by
  have hclose := snkClosePort_spec.answer (s := { s with err := k }) (fun _ _ => rfl) hfirst
  exact (bind_of_ok (run_modify ..)).trans <| (bind_of_ok (run_get { s with err := k })).trans <|
    (run_if_pos hp).trans <| (run_if_pos hopen).trans <| (bind_of_ok hclose).trans <|
    (bind_of_ok (run_modify ..)).trans (portBind_of_cut (portBind_of_cut h))

/-- During DECODE the second closing call is `SnkClose`. -/
theorem failureEntry_of_cut_close (hp : s.phase.decoding = true) (hopen : s.rclosed = false)
    (hfirst : s.env.answersNext)
    (h : answered { s with
      err := k, rclosed := true, env := s.env.after [.srcRelease (s.env.answers.getD 0 .ok == .ok)] } = .error c t) :
    failureEntry k s = .error c t := by
  have he : ¬s.phase.encoding = true := by simp [decoding_not_encoding hp]
  have hrelease := srcRelease_spec.answer (s := { s with err := k }) (fun _ _ => rfl) hfirst
  exact (bind_of_ok (run_modify ..)).trans <| (bind_of_ok (run_get { s with err := k })).trans <|
    (run_if_neg he).trans <| (run_if_pos hp).trans <| (run_if_pos hopen).trans <| (bind_of_ok hrelease).trans <|
    (bind_of_ok (run_modify ..)).trans (portBind_of_cut (portBind_of_cut h))

theorem enterFailure_of_cut (h : failureEntry k s = .error c t) : enterFailure k s = cutOff c t := by
  rw [enterFailure, h]

/-- Failure entry ends as its second closing call does, when the first is answered and the second is not. -/
theorem enterFailure_of_second_cut {first : PortAnswer} {answers : List PortAnswer} (hfirst : first = .ok ∨ first = .fail)
    (hans : s.env.answers = first :: answers)
    (hphase : s.phase.encoding = true ∧ s.sclosed = false ∨ s.phase.decoding = true ∧ s.rclosed = false)
    (h : ∀ u : State, u.stim = s.stim → u.env = s.env.after [if s.phase.encoding then .snkClose (first == .ok)
      else .srcRelease (first == .ok)] → CutNext u stopped) : enterFailure k s = stopped := by
  have hget : s.env.answers.getD 0 .ok = first := by rw [hans]; rfl
  have hnext : s.env.answersNext := by rwa [Env.answersNext, hget]
  obtain ⟨hp, hopen⟩ | ⟨hp, hopen⟩ := hphase
  · obtain ⟨c, t, hcut, rfl⟩ := h { s with
      err := k, sclosed := true, env := s.env.after [.snkClose (s.env.answers.getD 0 .ok == .ok)] } rfl
      (by rw [if_pos hp, hget])
    exact enterFailure_of_cut (failureEntry_of_cut_release hp hopen hnext hcut)
  · obtain ⟨c, t, hcut, rfl⟩ := h { s with
      err := k, rclosed := true, env := s.env.after [.srcRelease (s.env.answers.getD 0 .ok == .ok)] } rfl
      (by rw [if_neg (by simp [decoding_not_encoding hp]), hget])
    exact enterFailure_of_cut (failureEntry_of_cut_close hp hopen hnext hcut)

/-- Settles O17: the trace of an operation says where it can be cut off, and its first line where it is. -/
theorem silentHostStopsAndResetCuts : Obligations.SilentHostStopsAndResetCuts := by
  refine ⟨exec_answeredOrCut, fun s rest v k stopped hcut => ?_, fun s first rest k hfirst hphase => ⟨fun hans => ?_,
    fun hans => ?_⟩⟩
  · obtain ⟨c, t, h, hstopped⟩ := cutNext_of_answers hcut
    have hends {op : Op Result} (hop : op s = .error (.cut c) t) : complete op s = stopped :=
      (complete_of_cut hop).trans hstopped
    refine ⟨hends (noResult_error (codecFcount_of_cut h)), hends (noResult_error (codecWpayload_of_cut h)),
      fun hopen => hends (noResult_error (srcClose_of_cut h hopen)), fun hopen hcnt => ⟨?_, ?_, ?_, ?_⟩,
      fun hopen => hends (noResult_error (snkClose_of_cut h hopen)), fun hopen hcnt => ⟨?_, ?_, ?_⟩, fun hbusy => ?_⟩
    · exact hends (withResult_error (srcRbit_of_cut h hopen hcnt) .bit)
    · exact hends (withResult_error (srcRint_of_cut h hopen hcnt) .word)
    · exact hends (noResult_error (srcRstr_of_cut h hopen hcnt))
    · exact hends (noResult_error (bind_of_error (srcRint_of_cut h hopen hcnt)))
    · exact hends (noResult_error (snkWint_of_cut h hopen hcnt v))
    · exact hends (noResult_error (snkWstr_of_cut h hopen hcnt))
    · exact hends (noResult_error ((bind_of_ok (run_get s)).trans (bind_of_error (snkWint_of_cut h hopen hcnt _))))
    · obtain ⟨c', t', h', rfl⟩ := cutNext_of_answers (s := { s with err := k }) hcut
      exact enterFailure_of_cut (failureEntry_of_cut hbusy h')
  · refine enterFailure_of_second_cut hfirst hans hphase fun u hstim henv =>
      cutNext_of_answers (rest := rest) (.inl ⟨?_, rfl⟩)
    rw [henv, Env.after_answers, hans]
    rfl
  · refine enterFailure_of_second_cut hfirst hans hphase fun u hstim henv =>
      cutNext_of_answers (rest := rest) (.inr ⟨?_, ?_⟩)
    · rw [henv, Env.after_answers, hans]
      rfl
    · rw [henv, hstim]

end Sys2Proof.Machine
end
